-- ==== Sys2Proof/Word.lean ====
section
/-! DEFINITION. The word types of the machine (spec 00_scope.md R5 to R7, 10_state.md R10, R30; 30_encoding.md R98). Bits are
numbered from the left in the manual; `BitVec` numbers them from the right, and the conversion is made once, in
`Sys2Proof.Machine.bits` (Machine/Bits.lean). -/

namespace Sys2Proof

/-- A byte: the addressable unit of main memory (R50). -/
abbrev Byte := BitVec 8

/-- A word: the content of a general-purpose or access register (R10, R32). -/
abbrev Word := BitVec 32

/-- A doubleword: the content of a floating-point register and of the clock (R30, R34). -/
abbrev Dword := BitVec 64

/-- A 4-bit register field R, B or X of an instruction (R98). -/
abbrev Reg := BitVec 4

/-- A 4-bit mask field M1 or M3; bit 0 of the manual is the leftmost bit (R98). -/
abbrev Mask := BitVec 4

/-- A 4-bit length field L1-1 or L2-1, or the direct operand I3 of SRP (R97, R98). -/
abbrev Nibble := BitVec 4

/-- A 12-bit displacement field, an unsigned number 0 to 4095 (R98). -/
abbrev Disp := BitVec 12

/-- A condition code, 0 to 3 (R23). -/
abbrev CondCode := BitVec 2

end Sys2Proof
end

