-- ==== Sys2Proof/Machine/Bits.lean ====
section
/-! DEFINITION. Bit fields in the manual's numbering, halfbytes, byte order and register-number classes
(00_scope.md R5, 20_memory.md R52, 30_encoding.md R105). -/

namespace Sys2Proof.Machine

/-- The `n` bits of `v` that begin at the manual's bit `a`: `v<a:a+n-1>`, bits numbered from the left (R5). -/
def bits {w : Nat} (v : BitVec w) (a n : Nat) : BitVec n :=
  v.extractLsb' (w - a - n) n

/-- The left halfbyte of a byte, `b<0:3>`. -/
def hiNib (b : Byte) : BitVec 4 :=
  b.extractLsb' 4 4

/-- The right halfbyte of a byte, `b<4:7>`. -/
def loNib (b : Byte) : BitVec 4 :=
  b.extractLsb' 0 4

/-- The byte of two halfbytes, `h || l`. -/
def ofNibs (h l : BitVec 4) : Byte :=
  h ++ l

/-- The unsigned number that bytes stand for, the first being the highest-order one (R52). -/
def beNat (bs : List Byte) : Nat :=
  bs.foldl (fun acc b => acc * 256 + b.toNat) 0

/-- The `n` low-order bytes of a number, highest-order byte first (R52). -/
def beBytes : Nat → Nat → List Byte
  | 0, _ => []
  | n + 1, v => beBytes n (v / 256) ++ [BitVec.ofNat 8 v]

/-- The word that four bytes of memory hold (R52). -/
def wordOf (bs : List Byte) : Word :=
  BitVec.ofNat 32 (beNat bs)

/-- The doubleword that eight bytes of memory hold (R52). -/
def dwordOf (bs : List Byte) : Dword :=
  BitVec.ofNat 64 (beNat bs)

/-- The halfword that two bytes of memory hold, sign-extended to a word (R7 `sext_16`). -/
def halfOf (bs : List Byte) : Word :=
  (BitVec.ofNat 16 (beNat bs)).signExtend 32

/-- A register field that names the even register of a pair (R11, R105). -/
def isEven (r : Reg) : Bool :=
  r.toNat % 2 == 0

/-- `FPRValid`: a field that names a floating-point register (R31, R452). -/
def isFpr (r : Reg) : Bool :=
  r == 0 || r == 2 || r == 4 || r == 6

/-- `FPRPairValid`: a field that names a floating-point register pair (R31, R452). -/
def isFprPair (r : Reg) : Bool :=
  r == 0 || r == 4

/-- The byte numbers 0 to 3 that a mask selects, from left to right (R160, R208, R338). -/
def maskBytes (m : Mask) : List Nat :=
  (List.range 4).filter fun k => m.getMsbD k

/-- The number of ones in a mask (R160, R208, R338). -/
def maskCount (m : Mask) : Nat :=
  (maskBytes m).length

end Sys2Proof.Machine
end

