-- ==== Sys2Proof/Syntax.lean ====
section
/-! DEFINITION. The instructions: one constructor per row of spec/opcode_table.json (30_encoding.md R100), in the table's
order (ascending operation code). The operands are the instruction's fields as R91 to R98 lay them out; the length fields
`l`, `l1`, `l2` hold the operand length minus 1, as encoded (R97). Ignored bits (R102) are no operands. -/

namespace Sys2Proof

/-- The 164 Assembler instructions. -/
inductive Instr where
  /-- SPM R1: Set Program Mask (RR, X'04'; R330). -/
  | spm (r1 : Reg)
  /-- BALR R1,R2: Branch and Link (RR, X'05'; R137). -/
  | balr (r1 : Reg) (r2 : Reg)
  /-- BCTR R1,R2: Branch on Count (RR, X'06'; R145). -/
  | bctr (r1 : Reg) (r2 : Reg)
  /-- BCR M1,R2: Branch on Condition (RR, X'07'; R143). -/
  | bcr (m1 : Mask) (r2 : Reg)
  /-- SVC I: Supervisor Call (RR, X'0A'; R340). -/
  | svc (imm : Byte)
  /-- BSM R1,R2: Branch and Set Mode (RR, X'0B'; R142). -/
  | bsm (r1 : Reg) (r2 : Reg)
  /-- BASSM R1,R2: Branch and Save and Set Mode (RR, X'0C'; R141). -/
  | bassm (r1 : Reg) (r2 : Reg)
  /-- BASR R1,R2: Branch and Save (RR, X'0D'; R139). -/
  | basr (r1 : Reg) (r2 : Reg)
  /-- MVCL R1,R2: Move Long (RR, X'0E'; R268). -/
  | mvcl (r1 : Reg) (r2 : Reg)
  /-- CLCL R1,R2: Compare Logical Long (RR, X'0F'; R158). -/
  | clcl (r1 : Reg) (r2 : Reg)
  /-- LPR R1,R2: Load Positive (RR, X'10'; R217). -/
  | lpr (r1 : Reg) (r2 : Reg)
  /-- LNR R1,R2: Load Negative (RR, X'11'; R216). -/
  | lnr (r1 : Reg) (r2 : Reg)
  /-- LTR R1,R2: Load and Test (RR, X'12'; R218). -/
  | ltr (r1 : Reg) (r2 : Reg)
  /-- LCR R1,R2: Load Complement (RR, X'13'; R213). -/
  | lcr (r1 : Reg) (r2 : Reg)
  /-- NR R1,R2: AND (RR, X'14'; R271). -/
  | nr (r1 : Reg) (r2 : Reg)
  /-- CLR R1,R2: Compare Logical (RR, X'15'; R155). -/
  | clr (r1 : Reg) (r2 : Reg)
  /-- OR R1,R2: OR (RR, X'16'; R275). -/
  | or (r1 : Reg) (r2 : Reg)
  /-- XR R1,R2: EXCLUSIVE OR (RR, X'17'; R346). -/
  | xr (r1 : Reg) (r2 : Reg)
  /-- LR R1,R2: Load (RR, X'18'; R210). -/
  | lr (r1 : Reg) (r2 : Reg)
  /-- CR R1,R2: Compare (RR, X'19'; R152). -/
  | cr (r1 : Reg) (r2 : Reg)
  /-- AR R1,R2: Add (RR, X'1A'; R131). -/
  | ar (r1 : Reg) (r2 : Reg)
  /-- SR R1,R2: Subtract (RR, X'1B'; R320). -/
  | sr (r1 : Reg) (r2 : Reg)
  /-- MR R1,R2: Multiply (RR, X'1C'; R260). -/
  | mr (r1 : Reg) (r2 : Reg)
  /-- DR R1,R2: Divide (RR, X'1D'; R202). -/
  | dr (r1 : Reg) (r2 : Reg)
  /-- ALR R1,R2: Add Logical (RR, X'1E'; R134). -/
  | alr (r1 : Reg) (r2 : Reg)
  /-- SLR R1,R2: Subtract Logical (RR, X'1F'; R323). -/
  | slr (r1 : Reg) (r2 : Reg)
  /-- LPDR R1,R2: Load Positive, long (RR, X'20'; R509). -/
  | lpdr (r1 : Reg) (r2 : Reg)
  /-- LNDR R1,R2: Load Negative, long (RR, X'21'; R507). -/
  | lndr (r1 : Reg) (r2 : Reg)
  /-- LTDR R1,R2: Load and Test, long (RR, X'22'; R511). -/
  | ltdr (r1 : Reg) (r2 : Reg)
  /-- LCDR R1,R2: Load Complement, long (RR, X'23'; R505). -/
  | lcdr (r1 : Reg) (r2 : Reg)
  /-- HDR R1,R2: Halve, long (RR, X'24'; R485). -/
  | hdr (r1 : Reg) (r2 : Reg)
  /-- LRDR R1,R2: Load Rounded, extended to long (RR, X'25'; R513). -/
  | lrdr (r1 : Reg) (r2 : Reg)
  /-- MXR R1,R2: Multiply, extended operands, extended product (RR, X'26'; R477). -/
  | mxr (r1 : Reg) (r2 : Reg)
  /-- MXDR R1,R2: Multiply, long operands, extended product (RR, X'27'; R475). -/
  | mxdr (r1 : Reg) (r2 : Reg)
  /-- LDR R1,R2: Load, long (RR, X'28'; R502). -/
  | ldr (r1 : Reg) (r2 : Reg)
  /-- CDR R1,R2: Compare, long (RR, X'29'; R468). -/
  | cdr (r1 : Reg) (r2 : Reg)
  /-- ADR R1,R2: Add Normalized, long (RR, X'2A'; R458). -/
  | adr (r1 : Reg) (r2 : Reg)
  /-- SDR R1,R2: Subtract Normalized, long (RR, X'2B'; R488). -/
  | sdr (r1 : Reg) (r2 : Reg)
  /-- MDR R1,R2: Multiply, long operands, long product (RR, X'2C'; R473). -/
  | mdr (r1 : Reg) (r2 : Reg)
  /-- DDR R1,R2: Divide, long (RR, X'2D'; R481). -/
  | ddr (r1 : Reg) (r2 : Reg)
  /-- AWR R1,R2: Add Unnormalized, long (RR, X'2E'; R463). -/
  | awr (r1 : Reg) (r2 : Reg)
  /-- SWR R1,R2: Subtract Unnormalized, long (RR, X'2F'; R493). -/
  | swr (r1 : Reg) (r2 : Reg)
  /-- LPER R1,R2: Load Positive, short (RR, X'30'; R508). -/
  | lper (r1 : Reg) (r2 : Reg)
  /-- LNER R1,R2: Load Negative, short (RR, X'31'; R506). -/
  | lner (r1 : Reg) (r2 : Reg)
  /-- LTER R1,R2: Load and Test, short (RR, X'32'; R510). -/
  | lter (r1 : Reg) (r2 : Reg)
  /-- LCER R1,R2: Load Complement, short (RR, X'33'; R504). -/
  | lcer (r1 : Reg) (r2 : Reg)
  /-- HER R1,R2: Halve, short (RR, X'34'; R484). -/
  | her (r1 : Reg) (r2 : Reg)
  /-- LRER R1,R2: Load Rounded, long to short (RR, X'35'; R512). -/
  | lrer (r1 : Reg) (r2 : Reg)
  /-- AXR R1,R2: Add Normalized, extended (RR, X'36'; R460). -/
  | axr (r1 : Reg) (r2 : Reg)
  /-- SXR R1,R2: Subtract Normalized, extended (RR, X'37'; R490). -/
  | sxr (r1 : Reg) (r2 : Reg)
  /-- LER R1,R2: Load, short (RR, X'38'; R500). -/
  | ler (r1 : Reg) (r2 : Reg)
  /-- CER R1,R2: Compare, short (RR, X'39'; R466). -/
  | cer (r1 : Reg) (r2 : Reg)
  /-- AER R1,R2: Add Normalized, short (RR, X'3A'; R456). -/
  | aer (r1 : Reg) (r2 : Reg)
  /-- SER R1,R2: Subtract Normalized, short (RR, X'3B'; R486). -/
  | ser (r1 : Reg) (r2 : Reg)
  /-- MER R1,R2: Multiply, short operands, long product (RR, X'3C'; R471). -/
  | mer (r1 : Reg) (r2 : Reg)
  /-- DER R1,R2: Divide, short (RR, X'3D'; R479). -/
  | der (r1 : Reg) (r2 : Reg)
  /-- AUR R1,R2: Add Unnormalized, short (RR, X'3E'; R461). -/
  | aur (r1 : Reg) (r2 : Reg)
  /-- SUR R1,R2: Subtract Unnormalized, short (RR, X'3F'; R491). -/
  | sur (r1 : Reg) (r2 : Reg)
  /-- STH R1,D2(X2,B2): Store Halfword (RX, X'40'; R336). -/
  | sth (r1 : Reg) (x2 : Reg) (b2 : Reg) (d2 : Disp)
  /-- LA R1,D2(X2,B2): Load Address (RX, X'41'; R212). -/
  | la (r1 : Reg) (x2 : Reg) (b2 : Reg) (d2 : Disp)
  /-- STC R1,D2(X2,B2): Store Character (RX, X'42'; R337). -/
  | stc (r1 : Reg) (x2 : Reg) (b2 : Reg) (d2 : Disp)
  /-- IC R1,D2(X2,B2): Insert Character (RX, X'43'; R207). -/
  | ic (r1 : Reg) (x2 : Reg) (b2 : Reg) (d2 : Disp)
  /-- EX R1,D2(X2,B2): Execute (RX, X'44'; R206). -/
  | ex (r1 : Reg) (x2 : Reg) (b2 : Reg) (d2 : Disp)
  /-- BAL R1,D2(X2,B2): Branch and Link (RX, X'45'; R138). -/
  | bal (r1 : Reg) (x2 : Reg) (b2 : Reg) (d2 : Disp)
  /-- BCT R1,D2(X2,B2): Branch on Count (RX, X'46'; R146). -/
  | bct (r1 : Reg) (x2 : Reg) (b2 : Reg) (d2 : Disp)
  /-- BC M1,D2(X2,B2): Branch on Condition (RX, X'47'; R144). -/
  | bc (m1 : Mask) (x2 : Reg) (b2 : Reg) (d2 : Disp)
  /-- LH R1,D2(X2,B2): Load Halfword (RX, X'48'; R214). -/
  | lh (r1 : Reg) (x2 : Reg) (b2 : Reg) (d2 : Disp)
  /-- CH R1,D2(X2,B2): Compare Halfword (RX, X'49'; R154). -/
  | ch (r1 : Reg) (x2 : Reg) (b2 : Reg) (d2 : Disp)
  /-- AH R1,D2(X2,B2): Add Halfword (RX, X'4A'; R133). -/
  | ah (r1 : Reg) (x2 : Reg) (b2 : Reg) (d2 : Disp)
  /-- SH R1,D2(X2,B2): Subtract Halfword (RX, X'4B'; R322). -/
  | sh (r1 : Reg) (x2 : Reg) (b2 : Reg) (d2 : Disp)
  /-- MH R1,D2(X2,B2): Multiply Halfword (RX, X'4C'; R262). -/
  | mh (r1 : Reg) (x2 : Reg) (b2 : Reg) (d2 : Disp)
  /-- BAS R1,D2(X2,B2): Branch and Save (RX, X'4D'; R140). -/
  | bas (r1 : Reg) (x2 : Reg) (b2 : Reg) (d2 : Disp)
  /-- CVD R1,D2(X2,B2): Convert to Decimal (RX, X'4E'; R201). -/
  | cvd (r1 : Reg) (x2 : Reg) (b2 : Reg) (d2 : Disp)
  /-- CVB R1,D2(X2,B2): Convert to Binary (RX, X'4F'; R200). -/
  | cvb (r1 : Reg) (x2 : Reg) (b2 : Reg) (d2 : Disp)
  /-- ST R1,D2(X2,B2): Store (RX, X'50'; R335). -/
  | st (r1 : Reg) (x2 : Reg) (b2 : Reg) (d2 : Disp)
  /-- LAE R1,D2(X2,B2): Load Address Extended (RX, X'51'; R556). -/
  | lae (r1 : Reg) (x2 : Reg) (b2 : Reg) (d2 : Disp)
  /-- N R1,D2(X2,B2): AND (RX, X'54'; R272). -/
  | n (r1 : Reg) (x2 : Reg) (b2 : Reg) (d2 : Disp)
  /-- CL R1,D2(X2,B2): Compare Logical (RX, X'55'; R156). -/
  | cl (r1 : Reg) (x2 : Reg) (b2 : Reg) (d2 : Disp)
  /-- O R1,D2(X2,B2): OR (RX, X'56'; R276). -/
  | o (r1 : Reg) (x2 : Reg) (b2 : Reg) (d2 : Disp)
  /-- X R1,D2(X2,B2): EXCLUSIVE OR (RX, X'57'; R347). -/
  | x (r1 : Reg) (x2 : Reg) (b2 : Reg) (d2 : Disp)
  /-- L R1,D2(X2,B2): Load (RX, X'58'; R211). -/
  | l (r1 : Reg) (x2 : Reg) (b2 : Reg) (d2 : Disp)
  /-- C R1,D2(X2,B2): Compare (RX, X'59'; R153). -/
  | c (r1 : Reg) (x2 : Reg) (b2 : Reg) (d2 : Disp)
  /-- A R1,D2(X2,B2): Add (RX, X'5A'; R132). -/
  | a (r1 : Reg) (x2 : Reg) (b2 : Reg) (d2 : Disp)
  /-- S R1,D2(X2,B2): Subtract (RX, X'5B'; R321). -/
  | s (r1 : Reg) (x2 : Reg) (b2 : Reg) (d2 : Disp)
  /-- M R1,D2(X2,B2): Multiply (RX, X'5C'; R261). -/
  | m (r1 : Reg) (x2 : Reg) (b2 : Reg) (d2 : Disp)
  /-- D R1,D2(X2,B2): Divide (RX, X'5D'; R203). -/
  | d (r1 : Reg) (x2 : Reg) (b2 : Reg) (d2 : Disp)
  /-- AL R1,D2(X2,B2): Add Logical (RX, X'5E'; R135). -/
  | al (r1 : Reg) (x2 : Reg) (b2 : Reg) (d2 : Disp)
  /-- SL R1,D2(X2,B2): Subtract Logical (RX, X'5F'; R324). -/
  | sl (r1 : Reg) (x2 : Reg) (b2 : Reg) (d2 : Disp)
  /-- STD R1,D2(X2,B2): Store, long (RX, X'60'; R515). -/
  | std (r1 : Reg) (x2 : Reg) (b2 : Reg) (d2 : Disp)
  /-- MXD R1,D2(X2,B2): Multiply, long operands, extended product (RX, X'67'; R476). -/
  | mxd (r1 : Reg) (x2 : Reg) (b2 : Reg) (d2 : Disp)
  /-- LD R1,D2(X2,B2): Load, long (RX, X'68'; R503). -/
  | ld (r1 : Reg) (x2 : Reg) (b2 : Reg) (d2 : Disp)
  /-- CD R1,D2(X2,B2): Compare, long (RX, X'69'; R469). -/
  | cd (r1 : Reg) (x2 : Reg) (b2 : Reg) (d2 : Disp)
  /-- AD R1,D2(X2,B2): Add Normalized, long (RX, X'6A'; R459). -/
  | ad (r1 : Reg) (x2 : Reg) (b2 : Reg) (d2 : Disp)
  /-- SD R1,D2(X2,B2): Subtract Normalized, long (RX, X'6B'; R489). -/
  | sd (r1 : Reg) (x2 : Reg) (b2 : Reg) (d2 : Disp)
  /-- MD R1,D2(X2,B2): Multiply, long operands, long product (RX, X'6C'; R474). -/
  | md (r1 : Reg) (x2 : Reg) (b2 : Reg) (d2 : Disp)
  /-- DD R1,D2(X2,B2): Divide, long (RX, X'6D'; R482). -/
  | dd (r1 : Reg) (x2 : Reg) (b2 : Reg) (d2 : Disp)
  /-- AW R1,D2(X2,B2): Add Unnormalized, long (RX, X'6E'; R464). -/
  | aw (r1 : Reg) (x2 : Reg) (b2 : Reg) (d2 : Disp)
  /-- SW R1,D2(X2,B2): Subtract Unnormalized, long (RX, X'6F'; R494). -/
  | sw (r1 : Reg) (x2 : Reg) (b2 : Reg) (d2 : Disp)
  /-- STE R1,D2(X2,B2): Store, short (RX, X'70'; R514). -/
  | ste (r1 : Reg) (x2 : Reg) (b2 : Reg) (d2 : Disp)
  /-- LE R1,D2(X2,B2): Load, short (RX, X'78'; R501). -/
  | le (r1 : Reg) (x2 : Reg) (b2 : Reg) (d2 : Disp)
  /-- CE R1,D2(X2,B2): Compare, short (RX, X'79'; R467). -/
  | ce (r1 : Reg) (x2 : Reg) (b2 : Reg) (d2 : Disp)
  /-- AE R1,D2(X2,B2): Add Normalized, short (RX, X'7A'; R457). -/
  | ae (r1 : Reg) (x2 : Reg) (b2 : Reg) (d2 : Disp)
  /-- SE R1,D2(X2,B2): Subtract Normalized, short (RX, X'7B'; R487). -/
  | se (r1 : Reg) (x2 : Reg) (b2 : Reg) (d2 : Disp)
  /-- ME R1,D2(X2,B2): Multiply, short operands, long product (RX, X'7C'; R472). -/
  | me (r1 : Reg) (x2 : Reg) (b2 : Reg) (d2 : Disp)
  /-- DE R1,D2(X2,B2): Divide, short (RX, X'7D'; R480). -/
  | de (r1 : Reg) (x2 : Reg) (b2 : Reg) (d2 : Disp)
  /-- AU R1,D2(X2,B2): Add Unnormalized, short (RX, X'7E'; R462). -/
  | au (r1 : Reg) (x2 : Reg) (b2 : Reg) (d2 : Disp)
  /-- SU R1,D2(X2,B2): Subtract Unnormalized, short (RX, X'7F'; R492). -/
  | su (r1 : Reg) (x2 : Reg) (b2 : Reg) (d2 : Disp)
  /-- BXH R1,R3,D2(B2): Branch on Index High (RS, X'86'; R150). -/
  | bxh (r1 : Reg) (r3 : Reg) (b2 : Reg) (d2 : Disp)
  /-- BXLE R1,R3,D2(B2): Branch on Index Low or Equal (RS, X'87'; R151). -/
  | bxle (r1 : Reg) (r3 : Reg) (b2 : Reg) (d2 : Disp)
  /-- SRL R1,D2(B2): Shift Right Single Logical (RS, X'88'; R334). -/
  | srl (r1 : Reg) (b2 : Reg) (d2 : Disp)
  /-- SLL R1,D2(B2): Shift Left Single Logical (RS, X'89'; R329). -/
  | sll (r1 : Reg) (b2 : Reg) (d2 : Disp)
  /-- SRA R1,D2(B2): Shift Right Single (RS, X'8A'; R331). -/
  | sra (r1 : Reg) (b2 : Reg) (d2 : Disp)
  /-- SLA R1,D2(B2): Shift Left Single (RS, X'8B'; R326). -/
  | sla (r1 : Reg) (b2 : Reg) (d2 : Disp)
  /-- SRDL R1,D2(B2): Shift Right Double Logical (RS, X'8C'; R333). -/
  | srdl (r1 : Reg) (b2 : Reg) (d2 : Disp)
  /-- SLDL R1,D2(B2): Shift Left Double Logical (RS, X'8D'; R328). -/
  | sldl (r1 : Reg) (b2 : Reg) (d2 : Disp)
  /-- SRDA R1,D2(B2): Shift Right Double (RS, X'8E'; R332). -/
  | srda (r1 : Reg) (b2 : Reg) (d2 : Disp)
  /-- SLDA R1,D2(B2): Shift Left Double (RS, X'8F'; R327). -/
  | slda (r1 : Reg) (b2 : Reg) (d2 : Disp)
  /-- STM R1,R3,D2(B2): Store Multiple (RS, X'90'; R339). -/
  | stm (r1 : Reg) (r3 : Reg) (b2 : Reg) (d2 : Disp)
  /-- TM D1(B1),I2: Test under Mask (SI, X'91'; R341). -/
  | tm (b1 : Reg) (d1 : Disp) (i2 : Byte)
  /-- MVI D1(B1),I2: Move Immediate (SI, X'92'; R265). -/
  | mvi (b1 : Reg) (d1 : Disp) (i2 : Byte)
  /-- TS D2(B2): Test and Set (S, X'93'; R344). -/
  | ts (b2 : Reg) (d2 : Disp)
  /-- NI D1(B1),I2: AND (SI, X'94'; R273). -/
  | ni (b1 : Reg) (d1 : Disp) (i2 : Byte)
  /-- CLI D1(B1),I2: Compare Logical Immediate (SI, X'95'; R159). -/
  | cli (b1 : Reg) (d1 : Disp) (i2 : Byte)
  /-- OI D1(B1),I2: OR (SI, X'96'; R277). -/
  | oi (b1 : Reg) (d1 : Disp) (i2 : Byte)
  /-- XI D1(B1),I2: EXCLUSIVE OR (SI, X'97'; R348). -/
  | xi (b1 : Reg) (d1 : Disp) (i2 : Byte)
  /-- LM R1,R3,D2(B2): Load Multiple (RS, X'98'; R215). -/
  | lm (r1 : Reg) (r3 : Reg) (b2 : Reg) (d2 : Disp)
  /-- LAM R1,R3,D2(B2): Load Access Multiple (RS, X'9A'; R558). -/
  | lam (r1 : Reg) (r3 : Reg) (b2 : Reg) (d2 : Disp)
  /-- STAM R1,R3,D2(B2): Store Access Multiple (RS, X'9B'; R559). -/
  | stam (r1 : Reg) (r3 : Reg) (b2 : Reg) (d2 : Disp)
  /-- MC D1(B1),I2: Monitor Call (SI, X'AF'; R263). -/
  | mc (b1 : Reg) (d1 : Disp) (i2 : Byte)
  /-- STCK D2(B2): Store Clock (S, X'B205'; R366). -/
  | stck (b2 : Reg) (d2 : Disp)
  /-- SAC D2(B2): Set Address Space Control (S, X'B219'; R557). -/
  | sac (b2 : Reg) (d2 : Disp)
  /-- IPM R1: Insert Program Mask (RRE, X'B222'; R209). -/
  | ipm (r1 : Reg)
  /-- IAC R1: Insert Address Space Control (RRE, X'B224'; R555). -/
  | iac (r1 : Reg)
  /-- DXR R1,R2: Divide, extended (RRE, X'B22D'; R483). -/
  | dxr (r1 : Reg) (r2 : Reg)
  /-- TAR R1,R2: Test Access Register (RRE, X'B24C'; R560). -/
  | tar (r1 : Reg) (r2 : Reg)
  /-- CPYA R1,R2: Copy Access Register (RRE, X'B24D'; R552). -/
  | cpya (r1 : Reg) (r2 : Reg)
  /-- SAR R1,R2: Set Access Register (RRE, X'B24E'; R554). -/
  | sar (r1 : Reg) (r2 : Reg)
  /-- EAR R1,R2: Extract Access Register (RRE, X'B24F'; R553). -/
  | ear (r1 : Reg) (r2 : Reg)
  /-- CS R1,R3,D2(B2): Compare and Swap (RS, X'BA'; R161). -/
  | cs (r1 : Reg) (r3 : Reg) (b2 : Reg) (d2 : Disp)
  /-- CDS R1,R3,D2(B2): Compare Double and Swap (RS, X'BB'; R162). -/
  | cds (r1 : Reg) (r3 : Reg) (b2 : Reg) (d2 : Disp)
  /-- CLM R1,M3,D2(B2): Compare Logical under Mask (RS, X'BD'; R160). -/
  | clm (r1 : Reg) (m3 : Mask) (b2 : Reg) (d2 : Disp)
  /-- STCM R1,M3,D2(B2): Store Characters under Mask (RS, X'BE'; R338). -/
  | stcm (r1 : Reg) (m3 : Mask) (b2 : Reg) (d2 : Disp)
  /-- ICM R1,M3,D2(B2): Insert Characters under Mask (RS, X'BF'; R208). -/
  | icm (r1 : Reg) (m3 : Mask) (b2 : Reg) (d2 : Disp)
  /-- MVN D1(L,B1),D2(B2): Move Numerics (SS, X'D1'; R266). -/
  | mvn (l : Byte) (b1 : Reg) (d1 : Disp) (b2 : Reg) (d2 : Disp)
  /-- MVC D1(L,B1),D2(B2): Move Characters (SS, X'D2'; R264). -/
  | mvc (l : Byte) (b1 : Reg) (d1 : Disp) (b2 : Reg) (d2 : Disp)
  /-- MVZ D1(L,B1),D2(B2): Move Zones (SS, X'D3'; R267). -/
  | mvz (l : Byte) (b1 : Reg) (d1 : Disp) (b2 : Reg) (d2 : Disp)
  /-- NC D1(L,B1),D2(B2): AND (SS, X'D4'; R274). -/
  | nc (l : Byte) (b1 : Reg) (d1 : Disp) (b2 : Reg) (d2 : Disp)
  /-- CLC D1(L,B1),D2(B2): Compare Logical Characters (SS, X'D5'; R157). -/
  | clc (l : Byte) (b1 : Reg) (d1 : Disp) (b2 : Reg) (d2 : Disp)
  /-- OC D1(L,B1),D2(B2): OR (SS, X'D6'; R278). -/
  | oc (l : Byte) (b1 : Reg) (d1 : Disp) (b2 : Reg) (d2 : Disp)
  /-- XC D1(L,B1),D2(B2): EXCLUSIVE OR (SS, X'D7'; R349). -/
  | xc (l : Byte) (b1 : Reg) (d1 : Disp) (b2 : Reg) (d2 : Disp)
  /-- TR D1(L,B1),D2(B2): Translate (SS, X'DC'; R342). -/
  | tr (l : Byte) (b1 : Reg) (d1 : Disp) (b2 : Reg) (d2 : Disp)
  /-- TRT D1(L,B1),D2(B2): Translate and Test (SS, X'DD'; R343). -/
  | trt (l : Byte) (b1 : Reg) (d1 : Disp) (b2 : Reg) (d2 : Disp)
  /-- ED D1(L,B1),D2(B2): Edit (SS, X'DE'; R410). -/
  | ed (l : Byte) (b1 : Reg) (d1 : Disp) (b2 : Reg) (d2 : Disp)
  /-- EDMK D1(L,B1),D2(B2): Edit and Mark (SS, X'DF'; R411). -/
  | edmk (l : Byte) (b1 : Reg) (d1 : Disp) (b2 : Reg) (d2 : Disp)
  /-- SRP D1(L1,B1),D2(B2),I3: Shift and Round Decimal (SS, X'F0'; R412). -/
  | srp (l1 : Nibble) (i3 : Nibble) (b1 : Reg) (d1 : Disp) (b2 : Reg) (d2 : Disp)
  /-- MVO D1(L1,B1),D2(L2,B2): Move with Offset (SS, X'F1'; R269). -/
  | mvo (l1 : Nibble) (l2 : Nibble) (b1 : Reg) (d1 : Disp) (b2 : Reg) (d2 : Disp)
  /-- PACK D1(L1,B1),D2(L2,B2): Pack (SS, X'F2'; R279). -/
  | pack (l1 : Nibble) (l2 : Nibble) (b1 : Reg) (d1 : Disp) (b2 : Reg) (d2 : Disp)
  /-- UNPK D1(L1,B1),D2(L2,B2): Unpack (SS, X'F3'; R345). -/
  | unpk (l1 : Nibble) (l2 : Nibble) (b1 : Reg) (d1 : Disp) (b2 : Reg) (d2 : Disp)
  /-- ZAP D1(L1,B1),D2(L2,B2): Zero and Add (SS, X'F8'; R406). -/
  | zap (l1 : Nibble) (l2 : Nibble) (b1 : Reg) (d1 : Disp) (b2 : Reg) (d2 : Disp)
  /-- CP D1(L1,B1),D2(L2,B2): Compare Decimal (SS, X'F9'; R407). -/
  | cp (l1 : Nibble) (l2 : Nibble) (b1 : Reg) (d1 : Disp) (b2 : Reg) (d2 : Disp)
  /-- AP D1(L1,B1),D2(L2,B2): Add Decimal (SS, X'FA'; R404). -/
  | ap (l1 : Nibble) (l2 : Nibble) (b1 : Reg) (d1 : Disp) (b2 : Reg) (d2 : Disp)
  /-- SP D1(L1,B1),D2(L2,B2): Subtract Decimal (SS, X'FB'; R405). -/
  | sp (l1 : Nibble) (l2 : Nibble) (b1 : Reg) (d1 : Disp) (b2 : Reg) (d2 : Disp)
  /-- MP D1(L1,B1),D2(L2,B2): Multiply Decimal (SS, X'FC'; R408). -/
  | mp (l1 : Nibble) (l2 : Nibble) (b1 : Reg) (d1 : Disp) (b2 : Reg) (d2 : Disp)
  /-- DP D1(L1,B1),D2(L2,B2): Divide Decimal (SS, X'FD'; R409). -/
  | dp (l1 : Nibble) (l2 : Nibble) (b1 : Reg) (d1 : Disp) (b2 : Reg) (d2 : Disp)
deriving DecidableEq, Repr

end Sys2Proof
end

