-- ==== Sys2Proof/Decode.lean ====
section
/-! DEFINITION. Decoding and encoding (30_encoding.md R90 to R103). Decoding is total on any bytes and rejects by name; ignored bits
(R102) are dropped, and bytes after the instruction are not looked at. Register-number and field constraints are no matter of
decoding (R105, R106). -/

namespace Sys2Proof

open Machine

/-- Why bytes are no instruction. -/
inductive DecodeError where
  /-- The bytes end before the instruction does (R90). -/
  | truncated
  /-- The operation code, one byte or two after X'B2', is not in the instruction set (R101, R103). -/
  | unknownOperationCode (code : List Byte)
deriving DecidableEq, Repr

/-! ### Fields -/

/-- The displacement in the right halfbyte of one byte and the next byte (R93). -/
def dispOf (hi lo : Byte) : Disp :=
  loNib hi ++ lo

/-- The byte with a base register and the first digit of a displacement (R93). -/
def baseByte (b : Reg) (d : Disp) : Byte :=
  ofNibs b (d.extractLsb' 8 4)

/-- The byte with the other two digits of a displacement (R93). -/
def dispByte (d : Disp) : Byte :=
  d.extractLsb' 0 8

/-! ### Decoding -/

/-- Type RR (R91): the operation code and the second byte. -/
def decode2 (op : Nat) (b1 : Byte) : Option Instr :=
  match op with
  | 0x04 => some (.spm (hiNib b1))
  | 0x05 => some (.balr (hiNib b1) (loNib b1))
  | 0x06 => some (.bctr (hiNib b1) (loNib b1))
  | 0x07 => some (.bcr (hiNib b1) (loNib b1))
  | 0x0A => some (.svc b1)
  | 0x0B => some (.bsm (hiNib b1) (loNib b1))
  | 0x0C => some (.bassm (hiNib b1) (loNib b1))
  | 0x0D => some (.basr (hiNib b1) (loNib b1))
  | 0x0E => some (.mvcl (hiNib b1) (loNib b1))
  | 0x0F => some (.clcl (hiNib b1) (loNib b1))
  | 0x10 => some (.lpr (hiNib b1) (loNib b1))
  | 0x11 => some (.lnr (hiNib b1) (loNib b1))
  | 0x12 => some (.ltr (hiNib b1) (loNib b1))
  | 0x13 => some (.lcr (hiNib b1) (loNib b1))
  | 0x14 => some (.nr (hiNib b1) (loNib b1))
  | 0x15 => some (.clr (hiNib b1) (loNib b1))
  | 0x16 => some (.or (hiNib b1) (loNib b1))
  | 0x17 => some (.xr (hiNib b1) (loNib b1))
  | 0x18 => some (.lr (hiNib b1) (loNib b1))
  | 0x19 => some (.cr (hiNib b1) (loNib b1))
  | 0x1A => some (.ar (hiNib b1) (loNib b1))
  | 0x1B => some (.sr (hiNib b1) (loNib b1))
  | 0x1C => some (.mr (hiNib b1) (loNib b1))
  | 0x1D => some (.dr (hiNib b1) (loNib b1))
  | 0x1E => some (.alr (hiNib b1) (loNib b1))
  | 0x1F => some (.slr (hiNib b1) (loNib b1))
  | 0x20 => some (.lpdr (hiNib b1) (loNib b1))
  | 0x21 => some (.lndr (hiNib b1) (loNib b1))
  | 0x22 => some (.ltdr (hiNib b1) (loNib b1))
  | 0x23 => some (.lcdr (hiNib b1) (loNib b1))
  | 0x24 => some (.hdr (hiNib b1) (loNib b1))
  | 0x25 => some (.lrdr (hiNib b1) (loNib b1))
  | 0x26 => some (.mxr (hiNib b1) (loNib b1))
  | 0x27 => some (.mxdr (hiNib b1) (loNib b1))
  | 0x28 => some (.ldr (hiNib b1) (loNib b1))
  | 0x29 => some (.cdr (hiNib b1) (loNib b1))
  | 0x2A => some (.adr (hiNib b1) (loNib b1))
  | 0x2B => some (.sdr (hiNib b1) (loNib b1))
  | 0x2C => some (.mdr (hiNib b1) (loNib b1))
  | 0x2D => some (.ddr (hiNib b1) (loNib b1))
  | 0x2E => some (.awr (hiNib b1) (loNib b1))
  | 0x2F => some (.swr (hiNib b1) (loNib b1))
  | 0x30 => some (.lper (hiNib b1) (loNib b1))
  | 0x31 => some (.lner (hiNib b1) (loNib b1))
  | 0x32 => some (.lter (hiNib b1) (loNib b1))
  | 0x33 => some (.lcer (hiNib b1) (loNib b1))
  | 0x34 => some (.her (hiNib b1) (loNib b1))
  | 0x35 => some (.lrer (hiNib b1) (loNib b1))
  | 0x36 => some (.axr (hiNib b1) (loNib b1))
  | 0x37 => some (.sxr (hiNib b1) (loNib b1))
  | 0x38 => some (.ler (hiNib b1) (loNib b1))
  | 0x39 => some (.cer (hiNib b1) (loNib b1))
  | 0x3A => some (.aer (hiNib b1) (loNib b1))
  | 0x3B => some (.ser (hiNib b1) (loNib b1))
  | 0x3C => some (.mer (hiNib b1) (loNib b1))
  | 0x3D => some (.der (hiNib b1) (loNib b1))
  | 0x3E => some (.aur (hiNib b1) (loNib b1))
  | 0x3F => some (.sur (hiNib b1) (loNib b1))
  | _ => none

/-- The second byte of an operation code that begins with X'B2': types RRE and S (R92, R96, R101). -/
def decodeB2 (op : Nat) (b2 b3 : Byte) : Option Instr :=
  match op with
  | 0x05 => some (.stck (hiNib b2) (dispOf b2 b3))
  | 0x19 => some (.sac (hiNib b2) (dispOf b2 b3))
  | 0x22 => some (.ipm (hiNib b3))
  | 0x24 => some (.iac (hiNib b3))
  | 0x2D => some (.dxr (hiNib b3) (loNib b3))
  | 0x4C => some (.tar (hiNib b3) (loNib b3))
  | 0x4D => some (.cpya (hiNib b3) (loNib b3))
  | 0x4E => some (.sar (hiNib b3) (loNib b3))
  | 0x4F => some (.ear (hiNib b3) (loNib b3))
  | _ => none

/-- Types RX, RS and SI, and TS (R93 to R96). -/
def decode4 (op : Nat) (b1 b2 b3 : Byte) : Option Instr :=
  match op with
  | 0x40 => some (.sth (hiNib b1) (loNib b1) (hiNib b2) (dispOf b2 b3))
  | 0x41 => some (.la (hiNib b1) (loNib b1) (hiNib b2) (dispOf b2 b3))
  | 0x42 => some (.stc (hiNib b1) (loNib b1) (hiNib b2) (dispOf b2 b3))
  | 0x43 => some (.ic (hiNib b1) (loNib b1) (hiNib b2) (dispOf b2 b3))
  | 0x44 => some (.ex (hiNib b1) (loNib b1) (hiNib b2) (dispOf b2 b3))
  | 0x45 => some (.bal (hiNib b1) (loNib b1) (hiNib b2) (dispOf b2 b3))
  | 0x46 => some (.bct (hiNib b1) (loNib b1) (hiNib b2) (dispOf b2 b3))
  | 0x47 => some (.bc (hiNib b1) (loNib b1) (hiNib b2) (dispOf b2 b3))
  | 0x48 => some (.lh (hiNib b1) (loNib b1) (hiNib b2) (dispOf b2 b3))
  | 0x49 => some (.ch (hiNib b1) (loNib b1) (hiNib b2) (dispOf b2 b3))
  | 0x4A => some (.ah (hiNib b1) (loNib b1) (hiNib b2) (dispOf b2 b3))
  | 0x4B => some (.sh (hiNib b1) (loNib b1) (hiNib b2) (dispOf b2 b3))
  | 0x4C => some (.mh (hiNib b1) (loNib b1) (hiNib b2) (dispOf b2 b3))
  | 0x4D => some (.bas (hiNib b1) (loNib b1) (hiNib b2) (dispOf b2 b3))
  | 0x4E => some (.cvd (hiNib b1) (loNib b1) (hiNib b2) (dispOf b2 b3))
  | 0x4F => some (.cvb (hiNib b1) (loNib b1) (hiNib b2) (dispOf b2 b3))
  | 0x50 => some (.st (hiNib b1) (loNib b1) (hiNib b2) (dispOf b2 b3))
  | 0x51 => some (.lae (hiNib b1) (loNib b1) (hiNib b2) (dispOf b2 b3))
  | 0x54 => some (.n (hiNib b1) (loNib b1) (hiNib b2) (dispOf b2 b3))
  | 0x55 => some (.cl (hiNib b1) (loNib b1) (hiNib b2) (dispOf b2 b3))
  | 0x56 => some (.o (hiNib b1) (loNib b1) (hiNib b2) (dispOf b2 b3))
  | 0x57 => some (.x (hiNib b1) (loNib b1) (hiNib b2) (dispOf b2 b3))
  | 0x58 => some (.l (hiNib b1) (loNib b1) (hiNib b2) (dispOf b2 b3))
  | 0x59 => some (.c (hiNib b1) (loNib b1) (hiNib b2) (dispOf b2 b3))
  | 0x5A => some (.a (hiNib b1) (loNib b1) (hiNib b2) (dispOf b2 b3))
  | 0x5B => some (.s (hiNib b1) (loNib b1) (hiNib b2) (dispOf b2 b3))
  | 0x5C => some (.m (hiNib b1) (loNib b1) (hiNib b2) (dispOf b2 b3))
  | 0x5D => some (.d (hiNib b1) (loNib b1) (hiNib b2) (dispOf b2 b3))
  | 0x5E => some (.al (hiNib b1) (loNib b1) (hiNib b2) (dispOf b2 b3))
  | 0x5F => some (.sl (hiNib b1) (loNib b1) (hiNib b2) (dispOf b2 b3))
  | 0x60 => some (.std (hiNib b1) (loNib b1) (hiNib b2) (dispOf b2 b3))
  | 0x67 => some (.mxd (hiNib b1) (loNib b1) (hiNib b2) (dispOf b2 b3))
  | 0x68 => some (.ld (hiNib b1) (loNib b1) (hiNib b2) (dispOf b2 b3))
  | 0x69 => some (.cd (hiNib b1) (loNib b1) (hiNib b2) (dispOf b2 b3))
  | 0x6A => some (.ad (hiNib b1) (loNib b1) (hiNib b2) (dispOf b2 b3))
  | 0x6B => some (.sd (hiNib b1) (loNib b1) (hiNib b2) (dispOf b2 b3))
  | 0x6C => some (.md (hiNib b1) (loNib b1) (hiNib b2) (dispOf b2 b3))
  | 0x6D => some (.dd (hiNib b1) (loNib b1) (hiNib b2) (dispOf b2 b3))
  | 0x6E => some (.aw (hiNib b1) (loNib b1) (hiNib b2) (dispOf b2 b3))
  | 0x6F => some (.sw (hiNib b1) (loNib b1) (hiNib b2) (dispOf b2 b3))
  | 0x70 => some (.ste (hiNib b1) (loNib b1) (hiNib b2) (dispOf b2 b3))
  | 0x78 => some (.le (hiNib b1) (loNib b1) (hiNib b2) (dispOf b2 b3))
  | 0x79 => some (.ce (hiNib b1) (loNib b1) (hiNib b2) (dispOf b2 b3))
  | 0x7A => some (.ae (hiNib b1) (loNib b1) (hiNib b2) (dispOf b2 b3))
  | 0x7B => some (.se (hiNib b1) (loNib b1) (hiNib b2) (dispOf b2 b3))
  | 0x7C => some (.me (hiNib b1) (loNib b1) (hiNib b2) (dispOf b2 b3))
  | 0x7D => some (.de (hiNib b1) (loNib b1) (hiNib b2) (dispOf b2 b3))
  | 0x7E => some (.au (hiNib b1) (loNib b1) (hiNib b2) (dispOf b2 b3))
  | 0x7F => some (.su (hiNib b1) (loNib b1) (hiNib b2) (dispOf b2 b3))
  | 0x86 => some (.bxh (hiNib b1) (loNib b1) (hiNib b2) (dispOf b2 b3))
  | 0x87 => some (.bxle (hiNib b1) (loNib b1) (hiNib b2) (dispOf b2 b3))
  | 0x88 => some (.srl (hiNib b1) (hiNib b2) (dispOf b2 b3))
  | 0x89 => some (.sll (hiNib b1) (hiNib b2) (dispOf b2 b3))
  | 0x8A => some (.sra (hiNib b1) (hiNib b2) (dispOf b2 b3))
  | 0x8B => some (.sla (hiNib b1) (hiNib b2) (dispOf b2 b3))
  | 0x8C => some (.srdl (hiNib b1) (hiNib b2) (dispOf b2 b3))
  | 0x8D => some (.sldl (hiNib b1) (hiNib b2) (dispOf b2 b3))
  | 0x8E => some (.srda (hiNib b1) (hiNib b2) (dispOf b2 b3))
  | 0x8F => some (.slda (hiNib b1) (hiNib b2) (dispOf b2 b3))
  | 0x90 => some (.stm (hiNib b1) (loNib b1) (hiNib b2) (dispOf b2 b3))
  | 0x91 => some (.tm (hiNib b2) (dispOf b2 b3) b1)
  | 0x92 => some (.mvi (hiNib b2) (dispOf b2 b3) b1)
  | 0x93 => some (.ts (hiNib b2) (dispOf b2 b3))
  | 0x94 => some (.ni (hiNib b2) (dispOf b2 b3) b1)
  | 0x95 => some (.cli (hiNib b2) (dispOf b2 b3) b1)
  | 0x96 => some (.oi (hiNib b2) (dispOf b2 b3) b1)
  | 0x97 => some (.xi (hiNib b2) (dispOf b2 b3) b1)
  | 0x98 => some (.lm (hiNib b1) (loNib b1) (hiNib b2) (dispOf b2 b3))
  | 0x9A => some (.lam (hiNib b1) (loNib b1) (hiNib b2) (dispOf b2 b3))
  | 0x9B => some (.stam (hiNib b1) (loNib b1) (hiNib b2) (dispOf b2 b3))
  | 0xAF => some (.mc (hiNib b2) (dispOf b2 b3) b1)
  | 0xBA => some (.cs (hiNib b1) (loNib b1) (hiNib b2) (dispOf b2 b3))
  | 0xBB => some (.cds (hiNib b1) (loNib b1) (hiNib b2) (dispOf b2 b3))
  | 0xBD => some (.clm (hiNib b1) (loNib b1) (hiNib b2) (dispOf b2 b3))
  | 0xBE => some (.stcm (hiNib b1) (loNib b1) (hiNib b2) (dispOf b2 b3))
  | 0xBF => some (.icm (hiNib b1) (loNib b1) (hiNib b2) (dispOf b2 b3))
  | _ => none

/-- Type SS (R97). -/
def decode6 (op : Nat) (b1 b2 b3 b4 b5 : Byte) : Option Instr :=
  match op with
  | 0xD1 => some (.mvn b1 (hiNib b2) (dispOf b2 b3) (hiNib b4) (dispOf b4 b5))
  | 0xD2 => some (.mvc b1 (hiNib b2) (dispOf b2 b3) (hiNib b4) (dispOf b4 b5))
  | 0xD3 => some (.mvz b1 (hiNib b2) (dispOf b2 b3) (hiNib b4) (dispOf b4 b5))
  | 0xD4 => some (.nc b1 (hiNib b2) (dispOf b2 b3) (hiNib b4) (dispOf b4 b5))
  | 0xD5 => some (.clc b1 (hiNib b2) (dispOf b2 b3) (hiNib b4) (dispOf b4 b5))
  | 0xD6 => some (.oc b1 (hiNib b2) (dispOf b2 b3) (hiNib b4) (dispOf b4 b5))
  | 0xD7 => some (.xc b1 (hiNib b2) (dispOf b2 b3) (hiNib b4) (dispOf b4 b5))
  | 0xDC => some (.tr b1 (hiNib b2) (dispOf b2 b3) (hiNib b4) (dispOf b4 b5))
  | 0xDD => some (.trt b1 (hiNib b2) (dispOf b2 b3) (hiNib b4) (dispOf b4 b5))
  | 0xDE => some (.ed b1 (hiNib b2) (dispOf b2 b3) (hiNib b4) (dispOf b4 b5))
  | 0xDF => some (.edmk b1 (hiNib b2) (dispOf b2 b3) (hiNib b4) (dispOf b4 b5))
  | 0xF0 => some (.srp (hiNib b1) (loNib b1) (hiNib b2) (dispOf b2 b3) (hiNib b4) (dispOf b4 b5))
  | 0xF1 => some (.mvo (hiNib b1) (loNib b1) (hiNib b2) (dispOf b2 b3) (hiNib b4) (dispOf b4 b5))
  | 0xF2 => some (.pack (hiNib b1) (loNib b1) (hiNib b2) (dispOf b2 b3) (hiNib b4) (dispOf b4 b5))
  | 0xF3 => some (.unpk (hiNib b1) (loNib b1) (hiNib b2) (dispOf b2 b3) (hiNib b4) (dispOf b4 b5))
  | 0xF8 => some (.zap (hiNib b1) (loNib b1) (hiNib b2) (dispOf b2 b3) (hiNib b4) (dispOf b4 b5))
  | 0xF9 => some (.cp (hiNib b1) (loNib b1) (hiNib b2) (dispOf b2 b3) (hiNib b4) (dispOf b4 b5))
  | 0xFA => some (.ap (hiNib b1) (loNib b1) (hiNib b2) (dispOf b2 b3) (hiNib b4) (dispOf b4 b5))
  | 0xFB => some (.sp (hiNib b1) (loNib b1) (hiNib b2) (dispOf b2 b3) (hiNib b4) (dispOf b4 b5))
  | 0xFC => some (.mp (hiNib b1) (loNib b1) (hiNib b2) (dispOf b2 b3) (hiNib b4) (dispOf b4 b5))
  | 0xFD => some (.dp (hiNib b1) (loNib b1) (hiNib b2) (dispOf b2 b3) (hiNib b4) (dispOf b4 b5))
  | _ => none

/-- An instruction, or the operation code that is not in the set. -/
def orUnknown (code : List Byte) (i : Option Instr) : Except DecodeError Instr :=
  match i with
  | some i => .ok i
  | none => .error (.unknownOperationCode code)

/-- The instruction that bytes begin with; its length is told by bits 0 and 1 of the first one (R90). -/
def decode (bs : List Byte) : Except DecodeError Instr :=
  match bs with
  | op :: b1 :: rest =>
    match (bits op 0 2).toNat with
    | 0 => orUnknown [op] (decode2 op.toNat b1)
    | 3 =>
      match rest with
      | b2 :: b3 :: b4 :: b5 :: _ => orUnknown [op] (decode6 op.toNat b1 b2 b3 b4 b5)
      | _ => .error .truncated
    | _ =>
      match rest with
      | b2 :: b3 :: _ =>
        if op = 0xB2 then orUnknown [op, b1] (decodeB2 b1.toNat b2 b3) else orUnknown [op] (decode4 op.toNat b1 b2 b3)
      | _ => .error .truncated
  | _ => .error .truncated

/-! ### Encoding -/

/-- Type RR (R91). -/
def enc2 (op : Byte) (a b : BitVec 4) : List Byte :=
  [op, ofNibs a b]

/-- Type RRE (R92); ignored bits are zero. -/
def encRre (op2 : Byte) (a b : BitVec 4) : List Byte :=
  [0xB2, op2, 0, ofNibs a b]

/-- Type S (R96). -/
def encS (op2 : Byte) (b : Reg) (d : Disp) : List Byte :=
  [0xB2, op2, baseByte b d, dispByte d]

/-- Types RX, RS and SI (R93 to R95): the operation code, the second byte, and one address. -/
def enc4 (op b1 : Byte) (b : Reg) (d : Disp) : List Byte :=
  [op, b1, baseByte b d, dispByte d]

/-- Type SS (R97): the operation code, the second byte, and two addresses. -/
def enc6 (op b1 : Byte) (b : Reg) (d : Disp) (b' : Reg) (d' : Disp) : List Byte :=
  [op, b1, baseByte b d, dispByte d, baseByte b' d', dispByte d']

/-- The bytes of an instruction; ignored bits are zero, as the assembler generates them (R102). -/
def encode : Instr → List Byte
  | .spm r1 => enc2 0x04 r1 0
  | .balr r1 r2 => enc2 0x05 r1 r2
  | .bctr r1 r2 => enc2 0x06 r1 r2
  | .bcr m1 r2 => enc2 0x07 m1 r2
  | .svc imm => [0x0A, imm]
  | .bsm r1 r2 => enc2 0x0B r1 r2
  | .bassm r1 r2 => enc2 0x0C r1 r2
  | .basr r1 r2 => enc2 0x0D r1 r2
  | .mvcl r1 r2 => enc2 0x0E r1 r2
  | .clcl r1 r2 => enc2 0x0F r1 r2
  | .lpr r1 r2 => enc2 0x10 r1 r2
  | .lnr r1 r2 => enc2 0x11 r1 r2
  | .ltr r1 r2 => enc2 0x12 r1 r2
  | .lcr r1 r2 => enc2 0x13 r1 r2
  | .nr r1 r2 => enc2 0x14 r1 r2
  | .clr r1 r2 => enc2 0x15 r1 r2
  | .or r1 r2 => enc2 0x16 r1 r2
  | .xr r1 r2 => enc2 0x17 r1 r2
  | .lr r1 r2 => enc2 0x18 r1 r2
  | .cr r1 r2 => enc2 0x19 r1 r2
  | .ar r1 r2 => enc2 0x1A r1 r2
  | .sr r1 r2 => enc2 0x1B r1 r2
  | .mr r1 r2 => enc2 0x1C r1 r2
  | .dr r1 r2 => enc2 0x1D r1 r2
  | .alr r1 r2 => enc2 0x1E r1 r2
  | .slr r1 r2 => enc2 0x1F r1 r2
  | .lpdr r1 r2 => enc2 0x20 r1 r2
  | .lndr r1 r2 => enc2 0x21 r1 r2
  | .ltdr r1 r2 => enc2 0x22 r1 r2
  | .lcdr r1 r2 => enc2 0x23 r1 r2
  | .hdr r1 r2 => enc2 0x24 r1 r2
  | .lrdr r1 r2 => enc2 0x25 r1 r2
  | .mxr r1 r2 => enc2 0x26 r1 r2
  | .mxdr r1 r2 => enc2 0x27 r1 r2
  | .ldr r1 r2 => enc2 0x28 r1 r2
  | .cdr r1 r2 => enc2 0x29 r1 r2
  | .adr r1 r2 => enc2 0x2A r1 r2
  | .sdr r1 r2 => enc2 0x2B r1 r2
  | .mdr r1 r2 => enc2 0x2C r1 r2
  | .ddr r1 r2 => enc2 0x2D r1 r2
  | .awr r1 r2 => enc2 0x2E r1 r2
  | .swr r1 r2 => enc2 0x2F r1 r2
  | .lper r1 r2 => enc2 0x30 r1 r2
  | .lner r1 r2 => enc2 0x31 r1 r2
  | .lter r1 r2 => enc2 0x32 r1 r2
  | .lcer r1 r2 => enc2 0x33 r1 r2
  | .her r1 r2 => enc2 0x34 r1 r2
  | .lrer r1 r2 => enc2 0x35 r1 r2
  | .axr r1 r2 => enc2 0x36 r1 r2
  | .sxr r1 r2 => enc2 0x37 r1 r2
  | .ler r1 r2 => enc2 0x38 r1 r2
  | .cer r1 r2 => enc2 0x39 r1 r2
  | .aer r1 r2 => enc2 0x3A r1 r2
  | .ser r1 r2 => enc2 0x3B r1 r2
  | .mer r1 r2 => enc2 0x3C r1 r2
  | .der r1 r2 => enc2 0x3D r1 r2
  | .aur r1 r2 => enc2 0x3E r1 r2
  | .sur r1 r2 => enc2 0x3F r1 r2
  | .sth r1 x2 b2 d2 => enc4 0x40 (ofNibs r1 x2) b2 d2
  | .la r1 x2 b2 d2 => enc4 0x41 (ofNibs r1 x2) b2 d2
  | .stc r1 x2 b2 d2 => enc4 0x42 (ofNibs r1 x2) b2 d2
  | .ic r1 x2 b2 d2 => enc4 0x43 (ofNibs r1 x2) b2 d2
  | .ex r1 x2 b2 d2 => enc4 0x44 (ofNibs r1 x2) b2 d2
  | .bal r1 x2 b2 d2 => enc4 0x45 (ofNibs r1 x2) b2 d2
  | .bct r1 x2 b2 d2 => enc4 0x46 (ofNibs r1 x2) b2 d2
  | .bc m1 x2 b2 d2 => enc4 0x47 (ofNibs m1 x2) b2 d2
  | .lh r1 x2 b2 d2 => enc4 0x48 (ofNibs r1 x2) b2 d2
  | .ch r1 x2 b2 d2 => enc4 0x49 (ofNibs r1 x2) b2 d2
  | .ah r1 x2 b2 d2 => enc4 0x4A (ofNibs r1 x2) b2 d2
  | .sh r1 x2 b2 d2 => enc4 0x4B (ofNibs r1 x2) b2 d2
  | .mh r1 x2 b2 d2 => enc4 0x4C (ofNibs r1 x2) b2 d2
  | .bas r1 x2 b2 d2 => enc4 0x4D (ofNibs r1 x2) b2 d2
  | .cvd r1 x2 b2 d2 => enc4 0x4E (ofNibs r1 x2) b2 d2
  | .cvb r1 x2 b2 d2 => enc4 0x4F (ofNibs r1 x2) b2 d2
  | .st r1 x2 b2 d2 => enc4 0x50 (ofNibs r1 x2) b2 d2
  | .lae r1 x2 b2 d2 => enc4 0x51 (ofNibs r1 x2) b2 d2
  | .n r1 x2 b2 d2 => enc4 0x54 (ofNibs r1 x2) b2 d2
  | .cl r1 x2 b2 d2 => enc4 0x55 (ofNibs r1 x2) b2 d2
  | .o r1 x2 b2 d2 => enc4 0x56 (ofNibs r1 x2) b2 d2
  | .x r1 x2 b2 d2 => enc4 0x57 (ofNibs r1 x2) b2 d2
  | .l r1 x2 b2 d2 => enc4 0x58 (ofNibs r1 x2) b2 d2
  | .c r1 x2 b2 d2 => enc4 0x59 (ofNibs r1 x2) b2 d2
  | .a r1 x2 b2 d2 => enc4 0x5A (ofNibs r1 x2) b2 d2
  | .s r1 x2 b2 d2 => enc4 0x5B (ofNibs r1 x2) b2 d2
  | .m r1 x2 b2 d2 => enc4 0x5C (ofNibs r1 x2) b2 d2
  | .d r1 x2 b2 d2 => enc4 0x5D (ofNibs r1 x2) b2 d2
  | .al r1 x2 b2 d2 => enc4 0x5E (ofNibs r1 x2) b2 d2
  | .sl r1 x2 b2 d2 => enc4 0x5F (ofNibs r1 x2) b2 d2
  | .std r1 x2 b2 d2 => enc4 0x60 (ofNibs r1 x2) b2 d2
  | .mxd r1 x2 b2 d2 => enc4 0x67 (ofNibs r1 x2) b2 d2
  | .ld r1 x2 b2 d2 => enc4 0x68 (ofNibs r1 x2) b2 d2
  | .cd r1 x2 b2 d2 => enc4 0x69 (ofNibs r1 x2) b2 d2
  | .ad r1 x2 b2 d2 => enc4 0x6A (ofNibs r1 x2) b2 d2
  | .sd r1 x2 b2 d2 => enc4 0x6B (ofNibs r1 x2) b2 d2
  | .md r1 x2 b2 d2 => enc4 0x6C (ofNibs r1 x2) b2 d2
  | .dd r1 x2 b2 d2 => enc4 0x6D (ofNibs r1 x2) b2 d2
  | .aw r1 x2 b2 d2 => enc4 0x6E (ofNibs r1 x2) b2 d2
  | .sw r1 x2 b2 d2 => enc4 0x6F (ofNibs r1 x2) b2 d2
  | .ste r1 x2 b2 d2 => enc4 0x70 (ofNibs r1 x2) b2 d2
  | .le r1 x2 b2 d2 => enc4 0x78 (ofNibs r1 x2) b2 d2
  | .ce r1 x2 b2 d2 => enc4 0x79 (ofNibs r1 x2) b2 d2
  | .ae r1 x2 b2 d2 => enc4 0x7A (ofNibs r1 x2) b2 d2
  | .se r1 x2 b2 d2 => enc4 0x7B (ofNibs r1 x2) b2 d2
  | .me r1 x2 b2 d2 => enc4 0x7C (ofNibs r1 x2) b2 d2
  | .de r1 x2 b2 d2 => enc4 0x7D (ofNibs r1 x2) b2 d2
  | .au r1 x2 b2 d2 => enc4 0x7E (ofNibs r1 x2) b2 d2
  | .su r1 x2 b2 d2 => enc4 0x7F (ofNibs r1 x2) b2 d2
  | .bxh r1 r3 b2 d2 => enc4 0x86 (ofNibs r1 r3) b2 d2
  | .bxle r1 r3 b2 d2 => enc4 0x87 (ofNibs r1 r3) b2 d2
  | .srl r1 b2 d2 => enc4 0x88 (ofNibs r1 0) b2 d2
  | .sll r1 b2 d2 => enc4 0x89 (ofNibs r1 0) b2 d2
  | .sra r1 b2 d2 => enc4 0x8A (ofNibs r1 0) b2 d2
  | .sla r1 b2 d2 => enc4 0x8B (ofNibs r1 0) b2 d2
  | .srdl r1 b2 d2 => enc4 0x8C (ofNibs r1 0) b2 d2
  | .sldl r1 b2 d2 => enc4 0x8D (ofNibs r1 0) b2 d2
  | .srda r1 b2 d2 => enc4 0x8E (ofNibs r1 0) b2 d2
  | .slda r1 b2 d2 => enc4 0x8F (ofNibs r1 0) b2 d2
  | .stm r1 r3 b2 d2 => enc4 0x90 (ofNibs r1 r3) b2 d2
  | .tm b1 d1 i2 => enc4 0x91 i2 b1 d1
  | .mvi b1 d1 i2 => enc4 0x92 i2 b1 d1
  | .ts b2 d2 => enc4 0x93 0 b2 d2
  | .ni b1 d1 i2 => enc4 0x94 i2 b1 d1
  | .cli b1 d1 i2 => enc4 0x95 i2 b1 d1
  | .oi b1 d1 i2 => enc4 0x96 i2 b1 d1
  | .xi b1 d1 i2 => enc4 0x97 i2 b1 d1
  | .lm r1 r3 b2 d2 => enc4 0x98 (ofNibs r1 r3) b2 d2
  | .lam r1 r3 b2 d2 => enc4 0x9A (ofNibs r1 r3) b2 d2
  | .stam r1 r3 b2 d2 => enc4 0x9B (ofNibs r1 r3) b2 d2
  | .mc b1 d1 i2 => enc4 0xAF i2 b1 d1
  | .stck b2 d2 => encS 0x05 b2 d2
  | .sac b2 d2 => encS 0x19 b2 d2
  | .ipm r1 => encRre 0x22 r1 0
  | .iac r1 => encRre 0x24 r1 0
  | .dxr r1 r2 => encRre 0x2D r1 r2
  | .tar r1 r2 => encRre 0x4C r1 r2
  | .cpya r1 r2 => encRre 0x4D r1 r2
  | .sar r1 r2 => encRre 0x4E r1 r2
  | .ear r1 r2 => encRre 0x4F r1 r2
  | .cs r1 r3 b2 d2 => enc4 0xBA (ofNibs r1 r3) b2 d2
  | .cds r1 r3 b2 d2 => enc4 0xBB (ofNibs r1 r3) b2 d2
  | .clm r1 m3 b2 d2 => enc4 0xBD (ofNibs r1 m3) b2 d2
  | .stcm r1 m3 b2 d2 => enc4 0xBE (ofNibs r1 m3) b2 d2
  | .icm r1 m3 b2 d2 => enc4 0xBF (ofNibs r1 m3) b2 d2
  | .mvn l b1 d1 b2 d2 => enc6 0xD1 l b1 d1 b2 d2
  | .mvc l b1 d1 b2 d2 => enc6 0xD2 l b1 d1 b2 d2
  | .mvz l b1 d1 b2 d2 => enc6 0xD3 l b1 d1 b2 d2
  | .nc l b1 d1 b2 d2 => enc6 0xD4 l b1 d1 b2 d2
  | .clc l b1 d1 b2 d2 => enc6 0xD5 l b1 d1 b2 d2
  | .oc l b1 d1 b2 d2 => enc6 0xD6 l b1 d1 b2 d2
  | .xc l b1 d1 b2 d2 => enc6 0xD7 l b1 d1 b2 d2
  | .tr l b1 d1 b2 d2 => enc6 0xDC l b1 d1 b2 d2
  | .trt l b1 d1 b2 d2 => enc6 0xDD l b1 d1 b2 d2
  | .ed l b1 d1 b2 d2 => enc6 0xDE l b1 d1 b2 d2
  | .edmk l b1 d1 b2 d2 => enc6 0xDF l b1 d1 b2 d2
  | .srp l1 i3 b1 d1 b2 d2 => enc6 0xF0 (ofNibs l1 i3) b1 d1 b2 d2
  | .mvo l1 l2 b1 d1 b2 d2 => enc6 0xF1 (ofNibs l1 l2) b1 d1 b2 d2
  | .pack l1 l2 b1 d1 b2 d2 => enc6 0xF2 (ofNibs l1 l2) b1 d1 b2 d2
  | .unpk l1 l2 b1 d1 b2 d2 => enc6 0xF3 (ofNibs l1 l2) b1 d1 b2 d2
  | .zap l1 l2 b1 d1 b2 d2 => enc6 0xF8 (ofNibs l1 l2) b1 d1 b2 d2
  | .cp l1 l2 b1 d1 b2 d2 => enc6 0xF9 (ofNibs l1 l2) b1 d1 b2 d2
  | .ap l1 l2 b1 d1 b2 d2 => enc6 0xFA (ofNibs l1 l2) b1 d1 b2 d2
  | .sp l1 l2 b1 d1 b2 d2 => enc6 0xFB (ofNibs l1 l2) b1 d1 b2 d2
  | .mp l1 l2 b1 d1 b2 d2 => enc6 0xFC (ofNibs l1 l2) b1 d1 b2 d2
  | .dp l1 l2 b1 d1 b2 d2 => enc6 0xFD (ofNibs l1 l2) b1 d1 b2 d2

/-- The instruction that the decoder reads from an instruction whose bits are the number `w`, numbered as spec/opcode_table.json
numbers them: the first byte is the leftmost one of the `nbits` bits. Bytes beyond `nbits` are zero. -/
def decodeTableWord (nbits w : Nat) : Option Instr :=
  match decode (beBytes (nbits / 8) w ++ List.replicate (6 - nbits / 8) 0) with
  | .ok i => some i
  | .error _ => none

end Sys2Proof
end

