-- ==== Sys2Proof/Config.lean ====
section
/-! DEFINITION. What an implementation or the operating system fixes (00_scope.md R4), and the free values: constants with no
body, of which nothing can be proved (92_eei_decisions.md, 93_implementation_defined.md 'any value'). -/

namespace Sys2Proof.Config

/-- The parameters in which the central processing units of the family differ (R4). `State` carries one of these and no step
changes it, so a statement about every state is a statement about every member of the family. -/
structure Cpu where
  /-- `HAS_31BIT`: the unit has the 31-bit addressing mode (R4, R26). -/
  has31Bit : Bool
  /-- `HAS_ESA`: the unit has access registers and the AR mode (R4, R551). -/
  hasEsa : Bool
  /-- `ALIGN_CHECK`: operand alignment is enforced (R4, R57). -/
  alignCheck : Bool
  /-- `PRIVILEGED_OPCODES`: the operation codes, of one or two bytes, that are privileged instructions (R4, R104). -/
  privilegedOpcodes : List (List Byte)
deriving DecidableEq, Repr

/-- The defaults of R4: 31-bit addressing and ESA present, alignment enforced, no privileged operation code known. -/
def defaultCpu : Cpu :=
  { has31Bit := true, hasEsa := true, alignCheck := true, privilegedOpcodes := [] }

/-- `ENTRY`: the address of the first instruction. The spec leaves it to the host (R4, R40).
DESIGN CHOICE (assumption 2): address 0. -/
def entry : BitVec 31 := 0

/-- Free values: what the spec calls undefined, unusable, unpredictable or 'any value' (92_eei_decisions.md D18 to D20, D22,
D28). The argument is the draw counter of `State`, so each use reads a value of its own (assumption 4). -/
opaque freeValue : Nat → BitVec 64

/-- What the time-of-day clock would read at the n-th observation, before the demand that it never goes back
(R34, R622; 92_eei_decisions.md D9; assumption 5). -/
opaque clockReading : Nat → Dword

end Sys2Proof.Config
end

