-- ==== Sys2Proof/Machine/State.lean ====
section
/-! DEFINITION. The state of one central processing unit as an Assembler program sees it (10_state.md R10 to R40), the
operating-system tables its addresses are resolved with (20_memory.md R54 to R63), the program interrupts (60_exceptions.md
R600, R601), and the machine at program start (R40, R650). Plain data throughout. -/

namespace Sys2Proof.Machine

/-- The eleven program interrupts (60_exceptions.md R601), named as 00_scope.md R7 names them. -/
inductive Interrupt where
  /-- X'48': an operand or instruction address is not allocated, or its ALET does not translate (R602). -/
  | addressTranslation
  /-- X'54': a privileged operation code, or TAR without ESA (R603). -/
  | privilegedOperation
  /-- X'58': an operation code outside the instruction set (R604). -/
  | operationCode
  /-- X'5C': a constraint on the instruction, such as alignment or an even register number, is not met (R605). -/
  | addressing
  /-- X'60': a decimal operand is no correct packed number, or operands overlap incorrectly (R606). -/
  | data
  /-- X'64': the result characteristic is above 127; not maskable (R607). -/
  | exponentOverflow
  /-- X'68': division by zero or quotient too large (R608). -/
  | division
  /-- X'6C': the result mantissa is 0; masked by PM bit 3 (R609). -/
  | significance
  /-- X'70': the result characteristic is below 0; masked by PM bit 2 (R611). -/
  | exponentUnderflow
  /-- X'74': a decimal result is too large; masked by PM bit 1 (R612). -/
  | decimalOverflow
  /-- X'78': a fixed-point result is too large; masked by PM bit 0 (R613). -/
  | fixedPointOverflow
deriving DecidableEq, Repr

/-- The interrupt weight (R600, R601). -/
def Interrupt.weight : Interrupt → Byte
  | .addressTranslation => 0x48
  | .privilegedOperation => 0x54
  | .operationCode => 0x58
  | .addressing => 0x5C
  | .data => 0x60
  | .exponentOverflow => 0x64
  | .division => 0x68
  | .significance => 0x6C
  | .exponentUnderflow => 0x70
  | .decimalOverflow => 0x74
  | .fixedPointOverflow => 0x78

/-- Why `step` stops. -/
inductive Fault where
  /-- Raised by `step` in a state whose program has ended: terminated by BS2000 after a program interrupt, or ended by a
  supervisor call (R615, R617, R621). Safe: the spec says that the run ends there. No instruction raises it. -/
  | programEnded
deriving DecidableEq, Repr

/-- Why an instruction has no meaning here. -/
inductive Refusal where
  /-- Raised by `exec` for an instruction that is not modelled yet; no arm does. Safe: the model goes no further. -/
  | notModelled (mnemonic : String)
deriving DecidableEq, Repr

/-- The addressing mode (R26). -/
inductive AMode where
  /-- 24-bit addressing mode, stored in registers as the bit 0. -/
  | a24
  /-- 31-bit addressing mode, stored in registers as the bit 1. -/
  | a31
deriving DecidableEq, Repr

/-- `AW`, the number of address bits kept (R7, R58). -/
def AMode.width : AMode → Nat
  | .a24 => 24
  | .a31 => 31

/-- The mode as the bit that BAS, BASR, BASSM and BSM store (R26). -/
def AMode.bit : AMode → BitVec 1
  | .a24 => 0
  | .a31 => 1

/-- The address-space-control mode: PSW bits 16 and 17 (R27). -/
inductive Asc where
  /-- B'00': primary space mode. -/
  | primary
  /-- B'01': access-register mode. -/
  | ar
deriving DecidableEq, Repr

/-- An address space (R33, R51). -/
inductive Space where
  /-- The program space: instructions and data. -/
  | program
  /-- A data space of an ESA system. -/
  | data (n : Nat)
deriving DecidableEq, Repr

/-- The kind of an access for the allocation test (R56; 92_eei_decisions.md D15). -/
inductive Access where
  /-- Reading an operand. -/
  | read
  /-- Writing an operand. -/
  | write
  /-- Fetching an instruction. -/
  | fetch
deriving DecidableEq, Repr

/-- One page of 4096 bytes that the operating system has allocated to the program (R54, R56). -/
structure PageEntry where
  space : Space
  page : Nat
  read : Bool
  write : Bool
  fetch : Bool
deriving DecidableEq, Repr

/-- One valid entry of the access list: what access-register translation makes of an ALET (R59, R63), and which of the two
condition codes for a valid ALET TAR gives (R560). -/
structure AccessEntry where
  alet : Word
  space : Space
  tarCc2 : Bool
deriving DecidableEq, Repr

/-- Who executes next. The spec hands a program interrupt and a supervisor call to the operating system (R615, R621). -/
inductive Control where
  /-- The program: the next step executes the instruction at `ia`. -/
  | program
  /-- A program interrupt has been recognised; the state is the one handed to `InterruptHandler` (R616). -/
  | interrupt (w : Interrupt)
  /-- A supervisor call was executed; the argument is the I field moved to the privileged register (R29, R621). -/
  | supervisor (code : Byte)
  /-- The run has ended: with the weight of a program interrupt (R615), or by a supervisor call (R621). -/
  | terminated (cause : Option Interrupt)
deriving DecidableEq, Repr

/-- The state. -/
structure State where
  /-- General-purpose registers 0 to 15 (R10). -/
  gr : Vector Word 16
  /-- Access registers 0 to 15 (R32). -/
  ar : Vector Word 16
  /-- Floating-point registers 0, 2, 4 and 6, in this order (R30). -/
  fr : Vector Dword 4
  /-- The instruction address (R20). -/
  ia : BitVec 31
  /-- The condition code (R23). -/
  cc : CondCode
  /-- The program mask; its leftmost bit is bit 0 (R25). -/
  pm : BitVec 4
  /-- The addressing mode (R26). -/
  amode : AMode
  /-- The address-space-control mode (R27). -/
  asc : Asc
  /-- Main memory of every address space, as cells in one canonical form (R50, R51; `Memory.wf` in Machine/Memory.lean). -/
  mem : List Host.Cell
  /-- The operating system's page allocation (R54, R56). -/
  alloc : List PageEntry
  /-- The program's access list, which `ART` looks an ALET up in (R59). -/
  accessList : List AccessEntry
  /-- Whether the program has defined an STXIT task (R615). -/
  stxit : Bool
  /-- Who executes next (R615, R621). -/
  control : Control
  /-- The model's own: the instruction in execution is the target of EX (R21, R28, R206). -/
  underEx : Bool
  /-- The value the time-of-day clock last showed (R34, R622). -/
  tod : Dword
  /-- The model's own: how many free values have been drawn. -/
  draws : Nat
  /-- The parameters of the central processing unit (R4). -/
  cpu : Config.Cpu
deriving DecidableEq, Repr

/-- The machine at program start (R40, R650). Stated by the spec: the program mask B'1111', the access registers X'00000000',
primary space mode. DESIGN CHOICE for the rest (assumptions 1 to 5): general-purpose and floating-point registers 0,
condition code 0, 24-bit addressing mode, entry address 0, clock 0; nothing is allocated and no program is loaded. -/
def State.reset : State :=
  { gr := Vector.replicate 16 0
    ar := Vector.replicate 16 0
    fr := Vector.replicate 4 0
    ia := Config.entry
    cc := 0
    pm := 0xF
    amode := .a24
    asc := .primary
    mem := []
    alloc := []
    accessList := []
    stxit := false
    control := .program
    underEx := false
    tod := 0
    draws := 0
    cpu := Config.defaultCpu }

end Sys2Proof.Machine
end

