-- ==== Sys2Proof/Machine/Memory.lean ====
section
/-! DEFINITION. Main memory as a list of cells in one canonical form (20_memory.md R50, R51, R53). A cell's key is the number
of the address space times 2^31 plus the address, so each space has bytes of its own. -/

namespace Sys2Proof.Machine

/-- The number of an address space: the program space is 0. -/
def Space.index : Space → Nat
  | .program => 0
  | .data n => n + 1

/-- The key of the byte at address `a`, `a < 2^31`, of a space (R51). -/
def Space.key (sp : Space) (a : Nat) : Nat :=
  sp.index * 2 ^ 31 + a

/-- What a byte that nothing has written reads as. DESIGN CHOICE (assumption 3): X'00'. -/
def Memory.unwritten : Byte := 0

/-- The byte a key holds. -/
def Memory.read : List Host.Cell → Nat → Byte
  | [], _ => Memory.unwritten
  | (k, v) :: m, a => if k = a then v else Memory.read m a

/-- Remove what a key holds. -/
def Memory.erase (m : List Host.Cell) (a : Nat) : List Host.Cell :=
  m.filter fun c => c.1 != a

/-- Enter a byte at its place in the rising order of keys. -/
def Memory.insert : List Host.Cell → Nat → Byte → List Host.Cell
  | [], a, v => [(a, v)]
  | (k, w) :: m, a, v =>
    if a < k then (a, v) :: (k, w) :: m
    else if a = k then (a, v) :: m
    else (k, w) :: Memory.insert m a v

/-- Write a byte, keeping the canonical form: a byte that reads as unwritten memory does is not listed. -/
def Memory.write (m : List Host.Cell) (a : Nat) (v : Byte) : List Host.Cell :=
  if v = Memory.unwritten then Memory.erase m a else Memory.insert m a v

/-- Write bytes one after the other at the keys `key a`, `key (a+1)`, and so on (R53 `MemWrite`). -/
def Memory.writeBytes (key : Nat → Nat) (m : List Host.Cell) : Nat → List Byte → List Host.Cell
  | _, [] => m
  | a, b :: bs => Memory.writeBytes key (Memory.write m (key a) b) (a + 1) bs

/-- The canonical form: keys strictly rising, and no cell that reads as unwritten memory does. -/
abbrev Memory.wf (m : List Host.Cell) : Prop :=
  m.Pairwise (fun x y => x.1 < y.1) ∧ ∀ c ∈ m, c.2 ≠ Memory.unwritten

end Sys2Proof.Machine
end

