-- ==== Sys2Proof/Machine/Ops.lean ====
section
/-! DEFINITION. The named operations over registers, addresses, memory and free values; taking a program interrupt and going on
after one (10_state.md, 20_memory.md R53 to R67, 60_exceptions.md R600 to R621). -/

namespace Sys2Proof.Machine

/-- The outcome of one step or one instruction. -/
abbrev Outcome := Host.Outcome State Fault Refusal

/-! ### Registers -/

/-- `GR[r]` (R10). -/
def State.getGr (s : State) (r : Reg) : Word :=
  s.gr[r.toNat]'(by have := r.isLt; omega)

/-- `GR[r] <- v` (R10). -/
def State.setGr (s : State) (r : Reg) (v : Word) : State :=
  { s with gr := s.gr.set r.toNat v (by have := r.isLt; omega) }

/-- `AR[r]` (R32). -/
def State.getAr (s : State) (r : Reg) : Word :=
  s.ar[r.toNat]'(by have := r.isLt; omega)

/-- `AR[r] <- v` (R32). -/
def State.setAr (s : State) (r : Reg) (v : Word) : State :=
  { s with ar := s.ar.set r.toNat v (by have := r.isLt; omega) }

/-- The place of a floating-point register: registers 0, 2, 4, 6 stand in this order (R30). -/
def fprIndex (r : Reg) : Fin 4 :=
  ⟨r.toNat / 2 % 4, by omega⟩

/-- `FR[r]`, for r in 0, 2, 4, 6 (R30). -/
def State.getFr (s : State) (r : Reg) : Dword :=
  s.fr[fprIndex r]

/-- `FR[r] <- v`, for r in 0, 2, 4, 6 (R30). -/
def State.setFr (s : State) (r : Reg) (v : Dword) : State :=
  { s with fr := s.fr.set (fprIndex r) v }

/-- `FRs[r]`, the leftmost 32 bits (R7, R30). -/
def State.getFrs (s : State) (r : Reg) : Word :=
  bits (s.getFr r) 0 32

/-- `FRs[r] <- v`, which leaves bits 32 to 63 unchanged (R7, R30). -/
def State.setFrs (s : State) (r : Reg) (v : Word) : State :=
  s.setFr r (v ++ bits (s.getFr r) 32 32)

/-- The 64-bit content of a register pair (R11). -/
def State.getPair (s : State) (r : Reg) : Dword :=
  s.getGr r ++ s.getGr (r + 1)

/-- Write a register pair: high-order half, then low-order half (R11). -/
def State.setPair (s : State) (r : Reg) (v : Dword) : State :=
  (s.setGr r (bits v 0 32)).setGr (r + 1) (bits v 32 32)

/-- `CC <- k` (R23). -/
def State.setCc (s : State) (k : CondCode) : State :=
  { s with cc := k }

/-- Bit `k` of the program mask, bit 0 leftmost (R25). -/
def State.pmBit (s : State) (k : Nat) : Bool :=
  s.pm.getMsbD k

/-! ### Addresses -/

/-- `trunc(a)`: the 24 or 31 low-order bits (R7, R58). -/
def State.trunc (s : State) (a : Nat) : Nat :=
  a % 2 ^ s.amode.width

/-- What a base or index field contributes to an address: register 0 contributes nothing (R12, R60). -/
def State.addend (s : State) (r : Reg) : Nat :=
  if r = 0 then 0 else (s.getGr r).toNat

/-- The effective address `EA(d, x, b)` (R60). -/
def State.ea (s : State) (d : Disp) (x b : Reg) : Nat :=
  s.trunc (s.addend b + s.addend x + d.toNat)

/-- `IA <- a`. -/
def State.setIa (s : State) (a : Nat) : State :=
  { s with ia := BitVec.ofNat 31 a }

/-- `ILEN`: the length of the current instruction, which counts as 4 bytes long under EX (R21, R206). -/
def State.ilen (s : State) (len : Nat) : Nat :=
  if s.underEx then 4 else len

/-- The instruction continuation address, `trunc(IA + ILEN)` (R21, R22). -/
def State.nextIa (s : State) (len : Nat) : Nat :=
  s.trunc (s.ia.toNat + s.ilen len)

/-- Go on at the continuation address of an instruction of `len` bytes (R21). -/
def State.advance (s : State) (len : Nat) : State :=
  s.setIa (s.nextIa len)

/-! ### Program interrupts -/

/-- Taking a program interrupt, in the state that R616 describes: the event is handed to the operating system, and nothing
else changes. An interrupt of the result is taken after the instruction's effects and the advance of `IA`; every other one
in the state before the instruction, with the exceptions R616 lists. -/
def State.takeInterrupt (s : State) (w : Interrupt) : State :=
  { s with control := .interrupt w }

/-- Take an interrupt if one is due. -/
def State.takeIf (s : State) (w : Option Interrupt) : State :=
  match w with
  | none => s
  | some w => s.takeInterrupt w

/-- An instruction that was tested for interrupts: its effect, or the interrupt with the instruction suppressed (R616). -/
def State.attempt (s : State) (r : Except Interrupt State) : Outcome :=
  match r with
  | .ok t => .next t
  | .error w => .next (s.takeInterrupt w)

/-- What every state between two steps satisfies: memory has its canonical form, the instruction address fits the addressing
mode, no EX is in progress, and the modes exist on this processor (R20, R4, R551). -/
abbrev State.wf (s : State) : Prop :=
  Memory.wf s.mem ∧ s.ia.toNat < 2 ^ s.amode.width ∧ s.underEx = false ∧
    (s.cpu.has31Bit = false → s.amode = .a24) ∧ (s.cpu.hasEsa = false → s.asc = .primary)

/-- What the operating system may answer: a well-formed state of the same processor, whose clock has not gone back (R622;
92_eei_decisions.md D9) and which takes back no free value drawn (assumption 6). -/
abbrev HostReply (s : State) := { t : State // t.wf ∧ t.cpu = s.cpu ∧ s.tod ≤ t.tod ∧ s.draws ≤ t.draws }

end Sys2Proof.Machine

namespace Sys2Proof.Config

open Sys2Proof.Machine

/-- `InterruptHandler(weight, state)` where an STXIT task is defined: the state it goes on from, or the end of the run
(R4, R615, R617; 92_eei_decisions.md D2; assumption 6). -/
opaque interruptHandler (w : Interrupt) (s : State) : Option (HostReply s)

/-- `SvcHandler(I, state)` (R4, R621; 92_eei_decisions.md D7; assumption 6). -/
opaque svcHandler (code : Byte) (s : State) : Option (HostReply s)

end Sys2Proof.Config

namespace Sys2Proof.Machine

/-- The operating system's answer to a program interrupt: without an STXIT task it terminates the program; with one it
activates the task, whose general-purpose register 3 has the weight in its rightmost byte (R13, R615). -/
def State.deliver (s : State) (w : Interrupt) : State :=
  if s.stxit then
    match Config.interruptHandler w s with
    | some t =>
      { t.val.setGr 3 (bits (t.val.getGr 3) 0 24 ++ w.weight) with control := .program }
    | none => { s with control := .terminated (some w) }
  else { s with control := .terminated (some w) }

/-- The operating system's answer to a supervisor call (R621). -/
def State.service (s : State) (code : Byte) : State :=
  match Config.svcHandler code s with
  | some t => { t.val with control := .program }
  | none => { s with control := .terminated none }

/-! ### Memory -/

/-- Does the page entry allow this kind of access? (R56) -/
def PageEntry.permits (e : PageEntry) : Access → Bool
  | .read => e.read
  | .write => e.write
  | .fetch => e.fetch

/-- `Allocated(sp, a, k)`, for an address that is truncated already (R54, R56). -/
def State.allocated (s : State) (sp : Space) (a : Nat) (k : Access) : Bool :=
  s.alloc.any fun e => e.space == sp && e.page == a / 4096 && e.permits k

/-- `Allocated` for each of the `n` bytes at `a`, every byte address truncated by itself (R53, R67). -/
def State.allocatedAll (s : State) (sp : Space) (a n : Nat) (k : Access) : Bool :=
  (List.range n).all fun i => s.allocated sp (s.trunc (a + i)) k

/-- The cell of the byte at `trunc(a)` (R53, R67). -/
def State.key (s : State) (sp : Space) (a : Nat) : Nat :=
  sp.key (s.trunc a)

/-- The byte at `trunc(a)`. -/
def State.getByte (s : State) (sp : Space) (a : Nat) : Byte :=
  Memory.read s.mem (s.key sp a)

/-- The `n` bytes at `a`, each at its truncated address (R53). -/
def State.getBytes (s : State) (sp : Space) (a n : Nat) : List Byte :=
  (List.range n).map fun i => s.getByte sp (a + i)

/-- Store bytes at `a`, each at its truncated address (R53). -/
def State.putBytes (s : State) (sp : Space) (a : Nat) (bs : List Byte) : State :=
  { s with mem := Memory.writeBytes (s.key sp) s.mem a bs }

/-! ### Address spaces -/

/-- `ART(alet)`: the access-list entry of a valid ALET (R59). -/
def State.art (s : State) (alet : Word) : Option AccessEntry :=
  s.accessList.find? fun e => e.alet == alet

/-- `Space(b)`: the address space of an operand with base field `b` (R63, R64). -/
def State.space (s : State) (b : Reg) : Except Interrupt Space :=
  if s.cpu.hasEsa = false ∨ s.asc = .primary ∨ b = 0 ∨ s.getAr b = 0 then .ok .program
  else
    match s.art (s.getAr b) with
    | some e => .ok e.space
    | none => .error .addressTranslation

/-! ### Instruction fetch -/

/-- `ILEN` from the first byte (R90). -/
def ilenOf (b : Byte) : Nat :=
  if bits b 0 2 = 0 then 2 else if bits b 0 2 = 3 then 6 else 4

/-- Fetch the instruction at `a` from the program space: an odd address is an addressing error before any byte is fetched;
then two bytes, and by the first of them none, two or four more (R22, R56, R206, R605). -/
def State.fetch (s : State) (a : Nat) : Except Interrupt (List Byte) :=
  if a % 2 = 1 then .error .addressing
  else if s.allocatedAll .program a 2 .fetch then
    let n := ilenOf (s.getByte .program a)
    if s.allocatedAll .program (a + 2) (n - 2) .fetch then .ok (s.getBytes .program a n)
    else .error .addressTranslation
  else .error .addressTranslation

/-! ### Free values and the clock -/

/-- The `k`-th of the free values drawn next, as a word. -/
def State.freeWord (s : State) (k : Nat) : Word :=
  (Config.freeValue (s.draws + k)).setWidth 32

/-- The `k`-th of the free values drawn next, as a byte. -/
def State.freeByte (s : State) (k : Nat) : Byte :=
  (Config.freeValue (s.draws + k)).setWidth 8

/-- The `k`-th of the free values drawn next, as a condition code. -/
def State.freeCc (s : State) (k : Nat) : CondCode :=
  (Config.freeValue (s.draws + k)).setWidth 2

/-- `n` free bytes, from the `k`-th free value drawn next on. -/
def State.freeBytes (s : State) (k n : Nat) : List Byte :=
  (List.range n).map fun i => s.freeByte (k + i)

/-- Count the free values drawn. -/
def State.draw (s : State) (n : Nat) : State :=
  { s with draws := s.draws + n }

/-- `TOD()`: the clock never goes back (R622; 92_eei_decisions.md D9; assumption 5). -/
def State.readClock (s : State) : Dword :=
  let r := Config.clockReading s.draws
  if r < s.tod then s.tod else r

end Sys2Proof.Machine
end

