-- ==== Sys2Proof/Machine/Branch.lean ====
section
/-! DEFINITION. Branching and linkage (40_general_add_to_compare.md R136 to R151). The branch target is computed before any
register changes; no branch tests its target (60_exceptions.md R605). -/

namespace Sys2Proof.Machine

/-- The instruction length code of an instruction of `len` bytes: B'01' for 2, B'10' for 4 and under EX (R28). -/
def State.ilc (s : State) (len : Nat) : BitVec 2 :=
  BitVec.ofNat 2 (s.ilen len / 2)

/-- `LinkInfo` of BAL and BALR (R136). -/
def State.linkInfo (s : State) (len : Nat) : Word :=
  match s.amode with
  | .a24 => s.ilc len ++ s.cc ++ s.pm ++ BitVec.ofNat 24 (s.nextIa len)
  | .a31 => (1 : BitVec 1) ++ BitVec.ofNat 31 (s.nextIa len)

/-- What BAS, BASR and BASSM save: the mode bit and the continuation address (R139). -/
def State.saveInfo (s : State) (len : Nat) : Word :=
  s.amode.bit ++ BitVec.ofNat 31 (s.nextIa len)

/-- The addressing mode that bit 0 of a register selects (R141). -/
def modeOf (w : Word) : AMode :=
  if bits w 0 1 = 1 then .a31 else .a24

/-- The branch address in a register: its low-order 24 or 31 bits (R137). -/
def State.regTarget (s : State) (r : Reg) : Nat :=
  s.trunc (s.getGr r).toNat

/-- The branch address in bits 1 to 31 of a word, in the mode its bit 0 selects (R141). -/
def modeTarget (w : Word) : Nat :=
  (bits w 1 31).toNat % 2 ^ (modeOf w).width

/-- Branch to `target` if `taken`, else go on (R21). -/
def State.branch (s : State) (taken : Bool) (target len : Nat) : State :=
  if taken then s.setIa target else s.advance len

/-- Enter the mode and go to the address that the word `w` holds (R141, R142). -/
def State.enterMode (s : State) (w : Word) : State :=
  { s with amode := modeOf w, ia := BitVec.ofNat 31 (modeTarget w) }

/-- Does the mask select the condition code? Bit k of the mask, bit 0 leftmost, selects code k (R143). -/
def State.selected (s : State) (m : Mask) : Bool :=
  m.getMsbD s.cc.toNat

/-- BALR (R137). -/
def execBalr (r1 r2 : Reg) (s : State) : Outcome :=
  .next ((s.setGr r1 (s.linkInfo 2)).branch (r2 != 0) (s.regTarget r2) 2)

/-- BAL (R138). -/
def execBal (r1 x2 b2 : Reg) (d2 : Disp) (s : State) : Outcome :=
  .next ((s.setGr r1 (s.linkInfo 4)).setIa (s.ea d2 x2 b2))

/-- BASR (R139). -/
def execBasr (r1 r2 : Reg) (s : State) : Outcome :=
  .next ((s.setGr r1 (s.saveInfo 2)).branch (r2 != 0) (s.regTarget r2) 2)

/-- BAS (R140). -/
def execBas (r1 x2 b2 : Reg) (d2 : Disp) (s : State) : Outcome :=
  .next ((s.setGr r1 (s.saveInfo 4)).setIa (s.ea d2 x2 b2))

/-- BASSM (R141): only with the 31-bit mode; the mode and the target come from the old content of R2. -/
def execBassm (r1 r2 : Reg) (s : State) : Outcome :=
  if s.cpu.has31Bit then
    let t := s.setGr r1 (s.saveInfo 2)
    .next (if r2 = 0 then t.advance 2 else t.enterMode (s.getGr r2))
  else .next (s.takeInterrupt .operationCode)

/-- BSM (R142): bit 0 of R1 receives the mode, unless the R1 field is 0. -/
def execBsm (r1 r2 : Reg) (s : State) : Outcome :=
  if s.cpu.has31Bit then
    let t := if r1 = 0 then s else s.setGr r1 (s.amode.bit ++ bits (s.getGr r1) 1 31)
    .next (if r2 = 0 then t.advance 2 else t.enterMode (s.getGr r2))
  else .next (s.takeInterrupt .operationCode)

/-- BCR (R143). -/
def execBcr (m1 : Mask) (r2 : Reg) (s : State) : Outcome :=
  .next (s.branch (s.selected m1 && r2 != 0) (s.regTarget r2) 2)

/-- BC (R144). -/
def execBc (m1 : Mask) (x2 b2 : Reg) (d2 : Disp) (s : State) : Outcome :=
  .next (s.branch (s.selected m1) (s.ea d2 x2 b2) 4)

/-- BCTR (R145). -/
def execBctr (r1 r2 : Reg) (s : State) : Outcome :=
  let r := s.getGr r1 - 1
  .next ((s.setGr r1 r).branch (r != 0 && r2 != 0) (s.regTarget r2) 2)

/-- BCT (R146). -/
def execBct (r1 x2 b2 : Reg) (d2 : Disp) (s : State) : Outcome :=
  let r := s.getGr r1 - 1
  .next ((s.setGr r1 r).branch (r != 0) (s.ea d2 x2 b2) 4)

/-- The new index of BXH and BXLE, and whether it exceeds the comparand in the odd register (R150). -/
def State.index (s : State) (r1 r3 : Reg) : Word × Bool :=
  let sum := s.getGr r1 + s.getGr r3
  (sum, decide (sum.toInt > (s.getGr (r3 ||| 1)).toInt))

/-- BXH (R150). -/
def execBxh (r1 r3 b2 : Reg) (d2 : Disp) (s : State) : Outcome :=
  .next ((s.setGr r1 (s.index r1 r3).1).branch (s.index r1 r3).2 (s.ea d2 0 b2) 4)

/-- BXLE (R151). -/
def execBxle (r1 r3 b2 : Reg) (d2 : Disp) (s : State) : Outcome :=
  .next ((s.setGr r1 (s.index r1 r3).1).branch (!(s.index r1 r3).2) (s.ea d2 0 b2) 4)

end Sys2Proof.Machine
end

