-- ==== Sys2Proof/Machine/Flags.lean ====
section
/-! DEFINITION. The condition codes and the overflow conditions of the fixed-point instructions
(40_general_add_to_compare.md R130, 10_state.md R23, 60_exceptions.md R613, R614). -/

namespace Sys2Proof.Machine

/-- Is a number outside the range of a signed `w`-bit number? -/
def outOfRange (w : Nat) (v : Int) : Bool :=
  decide (v > 2 ^ (w - 1) - 1) || decide (v < -2 ^ (w - 1))

/-- `AddSigned32` (R130): the sum and whether it overflows. -/
def addSigned (a b : Word) : Word × Bool :=
  (a + b, outOfRange 32 (a.toInt + b.toInt))

/-- `SubSigned32` (R130): the difference and whether it overflows. -/
def subSigned (a b : Word) : Word × Bool :=
  (a - b, outOfRange 32 (a.toInt - b.toInt))

/-- The code of a signed number: 0 zero, 1 minus, 2 plus (R23). -/
def signCc (v : Int) : CondCode :=
  if v = 0 then 0 else if v < 0 then 1 else 2

/-- `SignedCC` (R130). -/
def signedCc (r : Word) (ov : Bool) : CondCode :=
  if ov then 3 else signCc r.toInt

/-- `AddLogical32` (R130): the sum and the carry out of bit 0. -/
def addLogical (a b : Word) : Word × Bool :=
  (a + b, decide (a.toNat + b.toNat ≥ 2 ^ 32))

/-- Logical subtraction: the ones complement of the second operand and 1 are added (R323). -/
def subLogical (a b : Word) : Word × Bool :=
  (a + ~~~b + 1, decide (a.toNat + (~~~b).toNat + 1 ≥ 2 ^ 32))

/-- `LogicalAddCC` (R130). -/
def logicalCc (r : Word) (carry : Bool) : CondCode :=
  (if r = 0 then 0 else 1) + (if carry then 2 else 0)

/-- `CompareCC` (R130). -/
def compareCc (x y : Int) : CondCode :=
  if x = y then 0 else if x < y then 1 else 2

/-- The code of the logical instructions: 0 zero, 1 not zero (R270). -/
def nonzeroCc (nz : Bool) : CondCode :=
  if nz then 1 else 0

/-- `FixedOverflow` (R130, R613): the interrupt, where the program mask enables it. -/
def State.fixedOverflow (s : State) (ov : Bool) : Option Interrupt :=
  if ov = true ∧ s.pmBit 0 = true then some .fixedPointOverflow else none

/-- `DecimalOverflow` (R402, R612): the interrupt, where the program mask enables it. -/
def State.decimalOverflow (s : State) (ov : Bool) : Option Interrupt :=
  if ov = true ∧ s.pmBit 1 = true then some .decimalOverflow else none

end Sys2Proof.Machine
end

