-- ==== Sys2Proof/Machine/Operands.lean ====
section
/-! DEFINITION. The operand forms: alignment, the address space of a main-memory operand, the tests of access, and operands of
every width (20_memory.md R53, R57, R63, R65; test order 60_exceptions.md R610 steps 4 and 5). -/

namespace Sys2Proof.Machine

/-- The alignment test of an ordinary operand, which only a processor with `ALIGN_CHECK` makes (R57). -/
def State.aligned (s : State) (a n : Nat) : Except Interrupt Unit :=
  if s.cpu.alignCheck = true ∧ a % n ≠ 0 then .error .addressing else .ok ()

/-- The alignment test that every processor makes (R57: CS, CDS, LAM, STAM). -/
def alignedAlways (a n : Nat) : Except Interrupt Unit :=
  if a % n ≠ 0 then .error .addressing else .ok ()

/-- The space of an operand of `n` bytes at `a` with base field `b`, after the tests of ALET translation and of every kind of
access in `ks` (R53, R63, R610 step 5). -/
def State.reach (s : State) (b : Reg) (a n : Nat) (ks : List Access) : Except Interrupt Space := do
  let sp ← s.space b
  if ks.all (s.allocatedAll sp a n ·) then .ok sp else .error .addressTranslation

/-- An operand of `n` bytes at `a` that is read (R53 `MemRead`). -/
def State.load (s : State) (b : Reg) (a n : Nat) : Except Interrupt (List Byte) := do
  let sp ← s.reach b a n [.read]
  return s.getBytes sp a n

/-- An operand that is stored at `a` (R53 `MemWrite`). -/
def State.store (s : State) (b : Reg) (a : Nat) (bs : List Byte) : Except Interrupt State := do
  let sp ← s.reach b a bs.length [.write]
  return s.putBytes sp a bs

/-- The word operand of an RX instruction: alignment, then access (R65). -/
def State.wordOperand (s : State) (x b : Reg) (d : Disp) : Except Interrupt Word := do
  s.aligned (s.ea d x b) 4
  return wordOf (← s.load b (s.ea d x b) 4)

/-- The sign-extended halfword operand of an RX instruction (R65). -/
def State.halfOperand (s : State) (x b : Reg) (d : Disp) : Except Interrupt Word := do
  s.aligned (s.ea d x b) 2
  return halfOf (← s.load b (s.ea d x b) 2)

/-- The doubleword operand of an RX instruction (R65). -/
def State.dwordOperand (s : State) (x b : Reg) (d : Disp) : Except Interrupt Dword := do
  s.aligned (s.ea d x b) 8
  return dwordOf (← s.load b (s.ea d x b) 8)

/-- The byte operand at `D(X,B)`, which has no alignment condition (R65). -/
def State.byteOperand (s : State) (x b : Reg) (d : Disp) : Except Interrupt Byte := do
  return (← s.load b (s.ea d x b) 1).headD 0

/-- Store the bytes `bs` at the operand `D(X,B)`, aligned to `al` (R65). -/
def State.storeOperand (s : State) (x b : Reg) (d : Disp) (al : Nat) (bs : List Byte) : Except Interrupt State := do
  s.aligned (s.ea d x b) al
  s.store b (s.ea d x b) bs

/-- The two operands of a storage-to-storage instruction: the space of each after its access tests, operand 1 first
(R66, R610 step 5). -/
def State.twoOperands (s : State) (b1 : Reg) (a1 n1 : Nat) (ks1 : List Access) (b2 : Reg) (a2 n2 : Nat) :
    Except Interrupt (Space × Space) := do
  let sp1 ← s.reach b1 a1 n1 ks1
  let sp2 ← s.reach b2 a2 n2 [.read]
  return (sp1, sp2)

/-- One byte of an operand whose bytes are tested as they are reached, out of memory `m`; none where the ALET or the byte is
not accessible (R66). -/
def State.tryByte (s : State) (sp : Except Interrupt Space) (m : List Host.Cell) (a : Nat) : Option Byte :=
  match sp with
  | .ok sp => if s.allocated sp (s.trunc a) .read then some (Memory.read m (s.key sp a)) else none
  | .error _ => none

/-- The key of one byte to be stored, tested as it is reached (R66, MVCL). -/
def State.tryStore (s : State) (sp : Except Interrupt Space) (a : Nat) : Option Nat :=
  match sp with
  | .ok sp => if s.allocated sp (s.trunc a) .write then some (s.key sp a) else none
  | .error _ => none

end Sys2Proof.Machine
end

