-- ==== Sys2Proof/Machine/Packed.lean ====
section
/-! DEFINITION. Packed decimal numbers (44_decimal.md R400, R401). -/

namespace Sys2Proof.Machine

/-- The halfbytes of a field, from the left. -/
def halfbytes (bs : List Byte) : List Nat :=
  bs.flatMap fun b => [(hiNib b).toNat, (loNib b).toNat]

/-- The digit halfbytes: all but the last (R400). -/
def packedDigits (bs : List Byte) : List Nat :=
  (halfbytes bs).dropLast

/-- The sign halfbyte: the last (R400). -/
def packedSign (bs : List Byte) : Nat :=
  (halfbytes bs).getLastD 0

/-- `PackedValid` (R401): decimal digits, and a sign of A to F. -/
def packedValid (bs : List Byte) : Bool :=
  (packedDigits bs).all (· ≤ 9) && decide (10 ≤ packedSign bs)

/-- Is the sign code negative? B and D are (R400, R401). -/
def signNeg (sign : Nat) : Bool :=
  sign == 0xB || sign == 0xD

/-- `PackedNeg` (R401). -/
def packedNeg (bs : List Byte) : Bool :=
  signNeg (packedSign bs)

/-- `PackedMag` (R401). -/
def packedMag (bs : List Byte) : Nat :=
  (packedDigits bs).foldl (fun acc h => acc * 10 + h) 0

/-- `PackedValue` (R401); both zeros give 0. -/
def packedValue (bs : List Byte) : Int :=
  if packedNeg bs then -(packedMag bs : Int) else packedMag bs

/-- The low-order 2n decimal digits of a number, two to a byte. -/
def digitBytes : Nat → Nat → List Byte
  | 0, _ => []
  | n + 1, v => digitBytes n (v / 100) ++ [ofNibs (BitVec.ofNat 4 (v / 10 % 10)) (BitVec.ofNat 4 (v % 10))]

/-- A packed field of `len` bytes with the low-order 2·len − 1 digits of `mag` and the given sign halfbyte (R401). -/
def packedBytes (len mag sign : Nat) : List Byte :=
  digitBytes (len - 1) (mag / 10) ++ [ofNibs (BitVec.ofNat 4 (mag % 10)) (BitVec.ofNat 4 sign)]

/-- `PackedEncode` (R401): X'C' for plus, X'D' for minus. -/
def packedEncode (len mag : Nat) (neg : Bool) : List Byte :=
  packedBytes len mag (if neg then 0xD else 0xC)

end Sys2Proof.Machine
end

