-- ==== Sys2Proof/Machine/Decimal.lean ====
section
/-! DEFINITION. The decimal instructions AP, SP, ZAP, CP, MP, DP and SRP (44_decimal.md R402 to R409, R412). Tests in the order of
R402: lengths, access, format and overlap, arithmetic. -/

namespace Sys2Proof.Machine

/-! ### Shared operations -/

/-- Two operands overlap: they are in one address space and share a byte (R402 item 3). -/
def State.overlap (s : State) (sp1 : Space) (a1 n1 : Nat) (sp2 : Space) (a2 n2 : Nat) : Bool :=
  sp1 == sp2 && (List.range n1).any fun i => (List.range n2).any fun j => s.trunc (a1 + i) == s.trunc (a2 + j)

/-- The overlap that AP, SP, CP, MP and DP forbid: with lowest-order bytes at different addresses (R402 item 3). -/
def State.badOverlap (s : State) (sp1 : Space) (a1 n1 : Nat) (sp2 : Space) (a2 n2 : Nat) : Bool :=
  s.overlap sp1 a1 n1 sp2 a2 n2 && s.trunc (a1 + n1 - 1) != s.trunc (a2 + n2 - 1)

/-- Two packed operands after the tests of access, format and overlap: the space of operand 1 and both fields (R404). -/
def State.packedPair (s : State) (ks1 : List Access) (n1 n2 : Nat) (b1 : Reg) (a1 : Nat) (b2 : Reg) (a2 : Nat) :
    Except Interrupt (Space × List Byte × List Byte) := do
  let (sp1, sp2) ← s.twoOperands b1 a1 n1 ks1 b2 a2 n2
  let x := s.getBytes sp1 a1 n1
  let y := s.getBytes sp2 a2 n2
  if packedValid x && packedValid y && !s.badOverlap sp1 a1 n1 sp2 a2 n2 then return (sp1, x, y)
  else .error .data

/-- Is a magnitude too large for a packed field of `len` bytes? (R403) -/
def tooLarge (len mag : Nat) : Bool :=
  decide (10 ^ (2 * len - 1) ≤ mag)

/-- The code of a decimal result (R403). -/
def decimalCc (v : Int) (ov : Bool) : CondCode :=
  if ov then 3 else signCc v

/-- `StoreDecimalResult` (R403): the low-order digits with the sign of the correct result; then decimal overflow if due. -/
def State.storeDecimal (s : State) (sp : Space) (a len : Nat) (v : Int) : State :=
  let ov := tooLarge len v.natAbs
  (((s.putBytes sp a (packedEncode len v.natAbs (decide (v < 0)))).setCc (decimalCc v ov)).advance 6).takeIf
    (s.decimalOverflow ov)

/-- The lengths of MP and DP: L2 at most 8 and less than L1 (R408, R409). -/
def lengthsOk (n1 n2 : Nat) : Bool :=
  decide (n2 ≤ 8) && decide (n2 < n1)

/-! ### Add, subtract, zero and add, compare -/

/-- AP (R404). -/
def execAp (l1 l2 : Nibble) (b1 : Reg) (d1 : Disp) (b2 : Reg) (d2 : Disp) (s : State) : Outcome :=
  s.attempt do
    let a1 := s.ea d1 0 b1
    let (sp, x, y) ← s.packedPair [.read, .write] (l1.toNat + 1) (l2.toNat + 1) b1 a1 b2 (s.ea d2 0 b2)
    return s.storeDecimal sp a1 (l1.toNat + 1) (packedValue x + packedValue y)

/-- SP (R405). -/
def execSp (l1 l2 : Nibble) (b1 : Reg) (d1 : Disp) (b2 : Reg) (d2 : Disp) (s : State) : Outcome :=
  s.attempt do
    let a1 := s.ea d1 0 b1
    let (sp, x, y) ← s.packedPair [.read, .write] (l1.toNat + 1) (l2.toNat + 1) b1 a1 b2 (s.ea d2 0 b2)
    return s.storeDecimal sp a1 (l1.toNat + 1) (packedValue x - packedValue y)

/-- CP (R407). -/
def execCp (l1 l2 : Nibble) (b1 : Reg) (d1 : Disp) (b2 : Reg) (d2 : Disp) (s : State) : Outcome :=
  s.attempt do
    let (_, x, y) ← s.packedPair [.read] (l1.toNat + 1) (l2.toNat + 1) b1 (s.ea d1 0 b1) b2 (s.ea d2 0 b2)
    return (s.setCc (compareCc (packedValue x) (packedValue y))).advance 6

/-- Does the lowest-order byte of the source lie to the right of the lowest-order byte of the receive field? Addresses wrap, so
"to the right" is the shorter way round (R402 item 3, R406). DEDUCED (assumption 10). -/
def State.rightOf (s : State) (e2 e1 : Nat) : Bool :=
  let d := s.trunc (s.trunc e2 + 2 ^ s.amode.width - s.trunc e1)
  decide (0 < d) && decide (d < 2 ^ (s.amode.width - 1))

/-- ZAP (R406); with the forbidden overlap the receive field and the code hold any value (92_eei_decisions.md D22). -/
def execZap (l1 l2 : Nibble) (b1 : Reg) (d1 : Disp) (b2 : Reg) (d2 : Disp) (s : State) : Outcome :=
  s.attempt do
    let n1 := l1.toNat + 1
    let n2 := l2.toNat + 1
    let a1 := s.ea d1 0 b1
    let a2 := s.ea d2 0 b2
    let (sp1, sp2) ← s.twoOperands b1 a1 n1 [.write] b2 a2 n2
    let y := s.getBytes sp2 a2 n2
    if packedValid y then
      if s.overlap sp1 a1 n1 sp2 a2 n2 && s.rightOf (a2 + n2 - 1) (a1 + n1 - 1) then
        return (((s.putBytes sp1 a1 (s.freeBytes 0 n1)).setCc (s.freeCc n1)).draw (n1 + 1)).advance 6
      else return s.storeDecimal sp1 a1 n1 (packedValue y)
    else .error .data

/-! ### Multiply and divide -/

/-- MP (R408): the multiplicand needs as many leading zero bytes as the multiplier is long. -/
def execMp (l1 l2 : Nibble) (b1 : Reg) (d1 : Disp) (b2 : Reg) (d2 : Disp) (s : State) : Outcome :=
  s.attempt do
    let n1 := l1.toNat + 1
    let n2 := l2.toNat + 1
    let a1 := s.ea d1 0 b1
    if lengthsOk n1 n2 then
      let (sp, x, y) ← s.packedPair [.read, .write] n1 n2 b1 a1 b2 (s.ea d2 0 b2)
      if (x.take n2).all (· == 0) then
        return (s.putBytes sp a1 (packedEncode n1 (packedMag x * packedMag y) (packedNeg x ^^ packedNeg y))).advance 6
      else .error .data
    else .error .addressing

/-- The field that DP stores: the quotient of L1 − L2 bytes, then the remainder of L2 bytes (R409). -/
def quotientField (n1 n2 : Nat) (x y : List Byte) : List Byte :=
  packedEncode (n1 - n2) (packedMag x / packedMag y) (packedNeg x ^^ packedNeg y) ++
    packedEncode n2 (packedMag x % packedMag y) (packedNeg x)

/-- DP (R409). -/
def execDp (l1 l2 : Nibble) (b1 : Reg) (d1 : Disp) (b2 : Reg) (d2 : Disp) (s : State) : Outcome :=
  s.attempt do
    let n1 := l1.toNat + 1
    let n2 := l2.toNat + 1
    let a1 := s.ea d1 0 b1
    if lengthsOk n1 n2 then
      let (sp, x, y) ← s.packedPair [.read, .write] n1 n2 b1 a1 b2 (s.ea d2 0 b2)
      if packedMag y = 0 ∨ packedMag x ≥ packedMag y * 10 ^ (2 * (n1 - n2) - 1) then .error .division
      else return (s.putBytes sp a1 (quotientField n1 n2 x y)).advance 6
    else .error .addressing

/-! ### Shift and round -/

/-- The shifted magnitude and whether a significant digit was lost: left by `b` digits for b up to 31, else right by 64 − b
digits with rounding (R412). -/
def shiftRound (n m b i3 : Nat) : Nat × Bool :=
  if b ≤ 31 then (m * 10 ^ b % 10 ^ n, decide (10 ^ n ≤ m * 10 ^ b))
  else
    let k := 64 - b
    (m / 10 ^ k + (if m / 10 ^ (k - 1) % 10 + i3 ≥ 10 then 1 else 0), false)

/-- The code of SRP (R412). -/
def srpCc (r : Nat) (ov neg : Bool) : CondCode :=
  if ov then 3 else if r = 0 then 0 else if neg then 1 else 2

/-- SRP (R412): the sign halfbyte is not changed. -/
def execSrp (l1 i3 : Nibble) (b1 : Reg) (d1 : Disp) (b2 : Reg) (d2 : Disp) (s : State) : Outcome :=
  s.attempt do
    let n1 := l1.toNat + 1
    let a1 := s.ea d1 0 b1
    let sp ← s.reach b1 a1 n1 [.read, .write]
    let x := s.getBytes sp a1 n1
    if packedValid x && decide (i3.toNat ≤ 9) then
      let r := shiftRound (2 * n1 - 1) (packedMag x) (s.ea d2 0 b2 % 64) i3.toNat
      return (((s.putBytes sp a1 (packedBytes n1 r.1 (packedSign x))).setCc (srpCc r.1 r.2 (packedNeg x))).advance 6).takeIf
        (s.decimalOverflow r.2)
    else .error .data

end Sys2Proof.Machine
end

