-- ==== Sys2Proof/Machine/Edit.lean ====
section
/-! DEFINITION. ED and EDMK (44_decimal.md R410, R411, R413). -/

namespace Sys2Proof.Machine

/-- Where editing stands between two mask bytes (R413). -/
structure EditState where
  /-- Main memory, with the receive bytes written so far. -/
  mem : List Host.Cell
  /-- The significance indicator `S`. -/
  sig : Bool
  /-- A digit that is not zero was seen in this number. -/
  nz : Bool
  /-- The address of the next source byte. -/
  sa : Nat
  /-- The right halfbyte digit waiting to be used. -/
  pending : Option (BitVec 4)
  /-- The address of the digit that last switched the indicator on. -/
  mark : Option Nat
deriving DecidableEq, Repr

/-- Why editing ends before the mask does (R413). -/
inductive EditStop where
  /-- A source byte is a byte of operand 1: the results are unpredictable (92_eei_decisions.md D20). -/
  | overlap
  /-- A program interrupt. -/
  | raise (w : Interrupt)
deriving DecidableEq, Repr

/-- The two operands of an edit: space, address and length of operand 1, and the space of operand 2. -/
structure EditField where
  sp1 : Space
  a1 : Nat
  len : Nat
  sp2 : Except Interrupt Space

/-- Is `a` the address of a byte of operand 1 in the same space? (R413) -/
def State.inField (s : State) (f : EditField) (sp2 : Space) (a : Nat) : Bool :=
  sp2 == f.sp1 && (List.range f.len).any fun j => s.trunc (f.a1 + j) == s.trunc a

/-- Is a right halfbyte a plus sign? A, C, E and F are (R400, R413). -/
def isPlus (n : BitVec 4) : Bool :=
  n == 0xA || n == 0xC || n == 0xE || n == 0xF

/-- The next source digit, and whether a plus sign follows it: the digit that waits, or the left halfbyte of the next source
byte (R413). -/
def State.editDigit (s : State) (f : EditField) (e : EditState) : Except EditStop (BitVec 4 × Bool × EditState) :=
  match e.pending with
  | some d => .ok (d, false, { e with pending := none })
  | none =>
    match f.sp2 with
    | .error w => .error (.raise w)
    | .ok sp2 =>
      if s.inField f sp2 e.sa then .error .overlap
      else
        match s.tryByte (.ok sp2) e.mem e.sa with
        | none => .error (.raise .addressTranslation)
        | some b =>
          let e' := { e with sa := s.trunc (e.sa + 1) }
          if hiNib b > 9 then .error (.raise .data)
          else if loNib b ≥ 10 then .ok (hiNib b, isPlus (loNib b), e')
          else .ok (hiNib b, false, { e' with pending := some (loNib b) })

/-- Write receive byte `i` (R413). -/
def State.editOut (s : State) (f : EditField) (i : Nat) (out : Byte) (e : EditState) : EditState :=
  { e with mem := Memory.write e.mem (s.key f.sp1 (f.a1 + i)) out }

/-- The digit `d` at mask byte `i`: the receive byte, and the significance indicator after it (R413; the manual's table). -/
def State.editPut (s : State) (f : EditField) (fill : Byte) (i : Nat) (starter : Bool) (d : BitVec 4) (plus : Bool)
    (e : EditState) : EditState :=
  let out := if !e.sig && d == 0 then fill else ofNibs 0xF d
  let mark := if !e.sig && d != 0 then some (s.trunc (f.a1 + i)) else e.mark
  let sig := if plus then false else e.sig || starter || d != 0
  s.editOut f i out { e with nz := e.nz || d != 0, mark := mark, sig := sig }

/-- Mask byte `i` (R413). -/
def State.editByte (s : State) (f : EditField) (fill : Byte) (i : Nat) (e : EditState) : Except EditStop EditState :=
  let p := Memory.read e.mem (s.key f.sp1 (f.a1 + i))
  if p = 0x22 then .ok (s.editOut f i fill { e with sig := false, nz := false })
  else if p = 0x20 ∨ p = 0x21 then
    match s.editDigit f e with
    | .ok (d, plus, e') => .ok (s.editPut f fill i (p == 0x21) d plus e')
    | .error x => .error x
  else .ok (s.editOut f i (if e.sig then p else fill) e)

/-- From mask byte `i` on, `n` mask bytes from left to right; where editing stops, how far it came (R413). -/
def State.editLoop (s : State) (f : EditField) (fill : Byte) : Nat → Nat → EditState → EditState × Option EditStop
  | 0, _, e => (e, none)
  | n + 1, i, e =>
    match s.editByte f fill i e with
    | .ok e' => State.editLoop s f fill n (i + 1) e'
    | .error x => (e, some x)

/-- The code of an edit (R413). -/
def editCc (e : EditState) : CondCode :=
  if e.nz then if e.sig then 1 else 2 else 0

/-- The editing of an instruction: the access test of operand 1, then the loop (R413). -/
def State.edit (s : State) (l : Byte) (b1 : Reg) (d1 : Disp) (b2 : Reg) (d2 : Disp) :
    Except Interrupt (EditField × EditState × Option EditStop) := do
  let a1 := s.ea d1 0 b1
  let sp1 ← s.reach b1 a1 (l.toNat + 1) [.read, .write]
  let f := { sp1 := sp1, a1 := a1, len := l.toNat + 1, sp2 := s.space b2 }
  let e := { mem := s.mem, sig := false, nz := false, sa := s.ea d2 0 b2, pending := none, mark := none }
  return (f, s.editLoop f (s.getByte sp1 a1) f.len 0 e)

/-- General-purpose register 1 with the address of the marked digit (R411, R413). -/
def State.setMark (s : State) (mark : Option Nat) : State :=
  match mark, s.amode with
  | none, _ => s
  | some a, .a24 => s.setGr 1 (bits (s.getGr 1) 0 8 ++ BitVec.ofNat 24 a)
  | some a, .a31 => s.setGr 1 (bits (s.getGr 1) 0 1 ++ BitVec.ofNat 31 a)

/-- Operand 1 and the code hold any value after an edit of overlapping operands (92_eei_decisions.md D20). -/
def State.editUnpredictable (s : State) (f : EditField) : State :=
  ((s.putBytes f.sp1 f.a1 (s.freeBytes 0 f.len)).setCc (s.freeCc f.len)).draw (f.len + 1)

/-- ED (R410). -/
def execEd (l : Byte) (b1 : Reg) (d1 : Disp) (b2 : Reg) (d2 : Disp) (s : State) : Outcome :=
  s.attempt do
    match ← s.edit l b1 d1 b2 d2 with
    | (_, e, none) => return ({ s with mem := e.mem }.setCc (editCc e)).advance 6
    | (f, _, some .overlap) => return (s.editUnpredictable f).advance 6
    | (_, e, some (.raise w)) => return { s with mem := e.mem }.takeInterrupt w

/-- EDMK (R411). -/
def execEdmk (l : Byte) (b1 : Reg) (d1 : Disp) (b2 : Reg) (d2 : Disp) (s : State) : Outcome :=
  s.attempt do
    match ← s.edit l b1 d1 b2 d2 with
    | (_, e, none) => return (({ s with mem := e.mem }.setMark e.mark).setCc (editCc e)).advance 6
    | (f, _, some .overlap) =>
      return (((s.editUnpredictable f).setGr 1 (s.freeWord (f.len + 1))).draw 1).advance 6
    | (_, e, some (.raise w)) => return ({ s with mem := e.mem }.setMark e.mark).takeInterrupt w

end Sys2Proof.Machine
end

