-- ==== Sys2Proof/Machine/LoadStore.lean ====
section
/-! DEFINITION. Loading, inserting and storing general-purpose registers, the condition code and the program mask
(41_general_convert_to_load.md R207 to R218; 43_general_subtract_to_xor.md R330, R335 to R339). -/

namespace Sys2Proof.Machine

/-! ### Shared operations -/

/-- The words that the bytes of a storage area hold. -/
def wordsOf : List Byte → List Word
  | a :: b :: c :: d :: rest => wordOf [a, b, c, d] :: wordsOf rest
  | _ => []

/-- The bytes of words in storage. -/
def bytesOf (ws : List Word) : List Byte :=
  ws.flatMap fun w => beBytes 4 w.toNat

/-- The number of registers from R1 through R3, wrapping from 15 to 0 (R215). -/
def regCount (r1 r3 : Reg) : Nat :=
  (r3 - r1).toNat + 1

/-- Load successive general-purpose registers, wrapping from 15 to 0 (R215). -/
def State.setGrs (s : State) (r : Reg) : List Word → State
  | [] => s
  | w :: ws => (s.setGr r w).setGrs (r + 1) ws

/-- The contents of `n` successive general-purpose registers (R339). -/
def State.getGrs (s : State) (r : Reg) (n : Nat) : List Word :=
  (List.range n).map fun k => s.getGr (r + BitVec.ofNat 4 k)

/-- Byte `k` of a word, byte 0 leftmost. -/
def byteOf (w : Word) (k : Nat) : Byte :=
  bits w (8 * k) 8

/-- A word with byte `k` replaced, byte 0 leftmost. -/
def withByte (w : Word) (k : Nat) (b : Byte) : Word :=
  wordOf ((List.range 4).map fun j => if j = k then b else byteOf w j)

/-- Replace the bytes whose numbers are listed by the bytes given, in this order (R208). -/
def insertBytes (w : Word) : List Nat → List Byte → Word
  | k :: ks, b :: bs => insertBytes (withByte w k b) ks bs
  | _, _ => w

/-- The bytes of a word that a mask selects (R160, R338). -/
def selectBytes (w : Word) (m : Mask) : List Byte :=
  (maskBytes m).map (byteOf w)

/-- The result, overflow and code of a load that changes the sign: store, code, go on, overflow (R213, R217). -/
def State.loadSigned (s : State) (r1 : Reg) (v : Word) (ov : Bool) (len : Nat) : State :=
  (((s.setGr r1 v).setCc (signedCc v ov)).advance len).takeIf (s.fixedOverflow ov)

/-! ### Load -/

/-- LR (R210). -/
def execLr (r1 r2 : Reg) (s : State) : Outcome :=
  .next ((s.setGr r1 (s.getGr r2)).advance 2)

/-- L (R211). -/
def execL (r1 x2 b2 : Reg) (d2 : Disp) (s : State) : Outcome :=
  s.attempt do return (s.setGr r1 (← s.wordOperand x2 b2 d2)).advance 4

/-- LH (R214). -/
def execLh (r1 x2 b2 : Reg) (d2 : Disp) (s : State) : Outcome :=
  s.attempt do return (s.setGr r1 (← s.halfOperand x2 b2 d2)).advance 4

/-- LA (R212): the address itself, with zeros to its left. -/
def execLa (r1 x2 b2 : Reg) (d2 : Disp) (s : State) : Outcome :=
  .next ((s.setGr r1 (BitVec.ofNat 32 (s.ea d2 x2 b2))).advance 4)

/-- LM (R215): every byte is tested and read before a register changes. -/
def execLm (r1 r3 b2 : Reg) (d2 : Disp) (s : State) : Outcome :=
  s.attempt do
    s.aligned (s.ea d2 0 b2) 4
    let block ← s.load b2 (s.ea d2 0 b2) (4 * regCount r1 r3)
    return (s.setGrs r1 (wordsOf block)).advance 4

/-- LTR (R218). -/
def execLtr (r1 r2 : Reg) (s : State) : Outcome :=
  .next (((s.setGr r1 (s.getGr r2)).setCc (signCc (s.getGr r2).toInt)).advance 2)

/-- LCR (R213): the least negative number overflows. -/
def execLcr (r1 r2 : Reg) (s : State) : Outcome :=
  .next (s.loadSigned r1 (-(s.getGr r2)) (s.getGr r2 == 0x80000000) 2)

/-- LPR (R217): the least negative number overflows. -/
def execLpr (r1 r2 : Reg) (s : State) : Outcome :=
  let v := s.getGr r2
  .next (s.loadSigned r1 (if v.toInt < 0 then -v else v) (v == 0x80000000) 2)

/-- LNR (R216). -/
def execLnr (r1 r2 : Reg) (s : State) : Outcome :=
  let v := s.getGr r2
  let r := if v.toInt < 0 then v else -v
  .next (((s.setGr r1 r).setCc (nonzeroCc (r != 0))).advance 2)

/-! ### Insert -/

/-- IC (R207). -/
def execIc (r1 x2 b2 : Reg) (d2 : Disp) (s : State) : Outcome :=
  s.attempt do
    let b ← s.byteOperand x2 b2 d2
    return (s.setGr r1 (bits (s.getGr r1) 0 24 ++ b)).advance 4

/-- The code of ICM: 0 all bytes zero or no byte, 1 the leftmost bit is 1, 2 otherwise (R208). -/
def icmCc (f : List Byte) : CondCode :=
  if f.all (· == 0) then 0 else if (f.headD 0).getMsbD 0 then 1 else 2

/-- ICM (R208): with a zero mask one byte is tested for access, and the code is 0. -/
def execIcm (r1 : Reg) (m3 : Mask) (b2 : Reg) (d2 : Disp) (s : State) : Outcome :=
  s.attempt do
    let n := maskCount m3
    let _ ← s.reach b2 (s.ea d2 0 b2) (max n 1) [.read]
    let f ← s.load b2 (s.ea d2 0 b2) n
    return ((s.setGr r1 (insertBytes (s.getGr r1) (maskBytes m3) f)).setCc (icmCc f)).advance 4

/-- IPM (R209). -/
def execIpm (r1 : Reg) (s : State) : Outcome :=
  .next ((s.setGr r1 ((0 : BitVec 2) ++ s.cc ++ s.pm ++ bits (s.getGr r1) 8 24)).advance 4)

/-- SPM (R330). -/
def execSpm (r1 : Reg) (s : State) : Outcome :=
  .next ({ s with cc := bits (s.getGr r1) 2 2, pm := bits (s.getGr r1) 4 4 }.advance 2)

/-! ### Store -/

/-- ST (R335). -/
def execSt (r1 x2 b2 : Reg) (d2 : Disp) (s : State) : Outcome :=
  s.attempt do
    let t ← s.storeOperand x2 b2 d2 4 (beBytes 4 (s.getGr r1).toNat)
    return t.advance 4

/-- STH (R336): bits 16 to 31. -/
def execSth (r1 x2 b2 : Reg) (d2 : Disp) (s : State) : Outcome :=
  s.attempt do
    let t ← s.storeOperand x2 b2 d2 2 (beBytes 2 (s.getGr r1).toNat)
    return t.advance 4

/-- STC (R337): bits 24 to 31. -/
def execStc (r1 x2 b2 : Reg) (d2 : Disp) (s : State) : Outcome :=
  s.attempt do
    let t ← s.storeOperand x2 b2 d2 1 [byteOf (s.getGr r1) 3]
    return t.advance 4

/-- STCM (R338): with a zero mask nothing is tested and nothing stored. -/
def execStcm (r1 : Reg) (m3 : Mask) (b2 : Reg) (d2 : Disp) (s : State) : Outcome :=
  s.attempt do
    if m3 = 0 then return s.advance 4
    else
      let t ← s.store b2 (s.ea d2 0 b2) (selectBytes (s.getGr r1) m3)
      return t.advance 4

/-- STM (R339). -/
def execStm (r1 r3 b2 : Reg) (d2 : Disp) (s : State) : Outcome :=
  s.attempt do
    let t ← s.storeOperand 0 b2 d2 4 (bytesOf (s.getGrs r1 (regCount r1 r3)))
    return t.advance 4

end Sys2Proof.Machine
end

