-- ==== Sys2Proof/Machine/Esa.lean ====
section
/-! DEFINITION. The nine ESA instructions (47_esa.md R550 to R560). Without ESA, TAR is X'54' and the others are X'58'
(R551). -/

namespace Sys2Proof.Machine

/-- An ESA instruction other than TAR, on a processor that may lack ESA (R551). -/
def State.esa (s : State) (r : Except Interrupt State) : Outcome :=
  if s.cpu.hasEsa then s.attempt r else .next (s.takeInterrupt .operationCode)

/-- Load successive access registers, wrapping from 15 to 0 (R558). -/
def State.setArs (s : State) (r : Reg) : List Word → State
  | [] => s
  | w :: ws => (s.setAr r w).setArs (r + 1) ws

/-- The contents of `n` successive access registers (R559). -/
def State.getArs (s : State) (r : Reg) (n : Nat) : List Word :=
  (List.range n).map fun k => s.getAr (r + BitVec.ofNat 4 k)

/-- CPYA (R552). -/
def execCpya (r1 r2 : Reg) (s : State) : Outcome :=
  s.esa (.ok ((s.setAr r1 (s.getAr r2)).advance 4))

/-- EAR (R553). -/
def execEar (r1 r2 : Reg) (s : State) : Outcome :=
  s.esa (.ok ((s.setGr r1 (s.getAr r2)).advance 4))

/-- SAR (R554). -/
def execSar (r1 r2 : Reg) (s : State) : Outcome :=
  s.esa (.ok ((s.setAr r1 (s.getGr r2)).advance 4))

/-- PSW bits 16 and 17 (R27, R555). -/
def Asc.pswBits : Asc → BitVec 1 × BitVec 1
  | .primary => (0, 0)
  | .ar => (0, 1)

/-- IAC (R555): bits 16 to 21 become 0, bit 22 PSW bit 17, bit 23 PSW bit 16. -/
def execIac (r1 : Reg) (s : State) : Outcome :=
  let v := s.getGr r1
  s.esa (.ok (((s.setGr r1 (bits v 0 16 ++ (0 : BitVec 6) ++ s.asc.pswBits.2 ++ s.asc.pswBits.1 ++ bits v 24 8)).setCc
    (match s.asc with | .primary => 0 | .ar => 2)).advance 4))

/-- What LAE loads into the access register (R556). -/
def State.laeAr (s : State) (b2 : Reg) : Word :=
  match s.asc with
  | .primary => 0
  | .ar => if b2 = 0 then 0 else s.getAr b2

/-- LAE (R556): where bits 0 to 6 of access register B2 are not 0 in access-register mode, both results are undefined
(92_eei_decisions.md D18). -/
def execLae (r1 x2 b2 : Reg) (d2 : Disp) (s : State) : Outcome :=
  s.esa (.ok (
    if s.asc = .ar ∧ b2 ≠ 0 ∧ bits (s.getAr b2) 0 7 ≠ 0 then
      (((s.setGr r1 (s.freeWord 0)).setAr r1 (s.freeWord 1)).draw 2).advance 4
    else ((s.setGr r1 (BitVec.ofNat 32 (s.ea d2 x2 b2))).setAr r1 (s.laeAr b2)).advance 4))

/-- The code that SAC takes: bits 20 to 23 of the sum of displacement and base as a 32-bit value (R557). -/
def State.sacCode (s : State) (b2 : Reg) (d2 : Disp) : BitVec 4 :=
  bits (BitVec.ofNat 32 (s.addend b2 + d2.toNat)) 20 4

/-- SAC (R557): a code other than B'0000' and B'0010' leaves either mode (92_eei_decisions.md D19). -/
def execSac (b2 : Reg) (d2 : Disp) (s : State) : Outcome :=
  s.esa (.ok (
    if s.sacCode b2 d2 = 0 then { s with asc := .primary }.advance 4
    else if s.sacCode b2 d2 = 2 then { s with asc := .ar }.advance 4
    else { s.draw 1 with asc := if (s.freeWord 0).getLsbD 0 then .ar else .primary }.advance 4))

/-- LAM (R558): alignment is always checked; all words are read before a register changes. -/
def execLam (r1 r3 b2 : Reg) (d2 : Disp) (s : State) : Outcome :=
  s.esa do
    alignedAlways (s.ea d2 0 b2) 4
    let block ← s.load b2 (s.ea d2 0 b2) (4 * regCount r1 r3)
    return (s.setArs r1 (wordsOf block)).advance 4

/-- STAM (R559): alignment is always checked. -/
def execStam (r1 r3 b2 : Reg) (d2 : Disp) (s : State) : Outcome :=
  s.esa do
    alignedAlways (s.ea d2 0 b2) 4
    let t ← s.store b2 (s.ea d2 0 b2) (bytesOf (s.getArs r1 (regCount r1 r3)))
    return t.advance 4

/-- The code of TAR: 0 the ALET is zero, 3 it does not translate, else the class of the ALET (R560). -/
def State.tarCc (s : State) (alet : Word) : CondCode :=
  if alet = 0 then 0
  else
    match s.art alet with
    | none => 3
    | some e => if e.tarCc2 then 2 else 1

/-- TAR (R560): general-purpose register R2 is not used. -/
def execTar (r1 _r2 : Reg) (s : State) : Outcome :=
  if s.cpu.hasEsa then .next ((s.setCc (s.tarCc (s.getAr r1))).advance 4)
  else .next (s.takeInterrupt .privilegedOperation)

end Sys2Proof.Machine
end

