-- ==== Sys2Proof/Machine/Fixed.lean ====
section
/-! DEFINITION. Fixed-point arithmetic, comparison and conversion (40_general_add_to_compare.md R131 to R135, R152 to R156;
41_general_convert_to_load.md R200 to R203; 42_general_multiply_to_pack.md R260 to R262; 43_general_subtract_to_xor.md R320 to
R324). -/

namespace Sys2Proof.Machine

/-! ### Shared operations -/

/-- Store a signed result with its code, go on, and take the fixed-point overflow if it is due (R130, R616). -/
def State.arith (s : State) (r1 : Reg) (res : Word × Bool) (len : Nat) : State :=
  (((s.setGr r1 res.1).setCc (signedCc res.1 res.2)).advance len).takeIf (s.fixedOverflow res.2)

/-- Store an unsigned result with its code and go on (R130). -/
def State.logical (s : State) (r1 : Reg) (res : Word × Bool) (len : Nat) : State :=
  ((s.setGr r1 res.1).setCc (logicalCc res.1 res.2)).advance len

/-- Set the code of a comparison and go on (R130). -/
def State.compare (s : State) (x y : Int) (len : Nat) : State :=
  (s.setCc (compareCc x y)).advance len

/-- The 64-bit product of the odd register of the pair and a word (R260). -/
def State.multiply (s : State) (r1 : Reg) (w : Word) (len : Nat) : State :=
  (s.setPair r1 (BitVec.ofInt 64 ((s.getGr (r1 + 1)).toInt * w.toInt))).advance len

/-- `Divide64` (R202): the remainder goes to the even register, the quotient to the odd one. -/
def State.divide (s : State) (r1 : Reg) (w : Word) (len : Nat) : Except Interrupt State :=
  let n := (s.getPair r1).toInt
  let d := w.toInt
  if d = 0 ∨ outOfRange 32 (n.tdiv d) = true then .error .division
  else .ok (((s.setGr r1 (BitVec.ofInt 32 (n.tmod d))).setGr (r1 + 1) (BitVec.ofInt 32 (n.tdiv d))).advance len)

/-- The pair constraint: R1 even (R105). -/
def evenOnly (r : Reg) : Except Interrupt Unit :=
  if isEven r then .ok () else .error .addressing

/-! ### Add and subtract -/

/-- AR (R131). -/
def execAr (r1 r2 : Reg) (s : State) : Outcome :=
  .next (s.arith r1 (addSigned (s.getGr r1) (s.getGr r2)) 2)

/-- A (R132). -/
def execA (r1 x2 b2 : Reg) (d2 : Disp) (s : State) : Outcome :=
  s.attempt do return s.arith r1 (addSigned (s.getGr r1) (← s.wordOperand x2 b2 d2)) 4

/-- AH (R133). -/
def execAh (r1 x2 b2 : Reg) (d2 : Disp) (s : State) : Outcome :=
  s.attempt do return s.arith r1 (addSigned (s.getGr r1) (← s.halfOperand x2 b2 d2)) 4

/-- ALR (R134). -/
def execAlr (r1 r2 : Reg) (s : State) : Outcome :=
  .next (s.logical r1 (addLogical (s.getGr r1) (s.getGr r2)) 2)

/-- AL (R135). -/
def execAl (r1 x2 b2 : Reg) (d2 : Disp) (s : State) : Outcome :=
  s.attempt do return s.logical r1 (addLogical (s.getGr r1) (← s.wordOperand x2 b2 d2)) 4

/-- SR (R320). -/
def execSr (r1 r2 : Reg) (s : State) : Outcome :=
  .next (s.arith r1 (subSigned (s.getGr r1) (s.getGr r2)) 2)

/-- S (R321). -/
def execS (r1 x2 b2 : Reg) (d2 : Disp) (s : State) : Outcome :=
  s.attempt do return s.arith r1 (subSigned (s.getGr r1) (← s.wordOperand x2 b2 d2)) 4

/-- SH (R322). -/
def execSh (r1 x2 b2 : Reg) (d2 : Disp) (s : State) : Outcome :=
  s.attempt do return s.arith r1 (subSigned (s.getGr r1) (← s.halfOperand x2 b2 d2)) 4

/-- SLR (R323). -/
def execSlr (r1 r2 : Reg) (s : State) : Outcome :=
  .next (s.logical r1 (subLogical (s.getGr r1) (s.getGr r2)) 2)

/-- SL (R324). -/
def execSl (r1 x2 b2 : Reg) (d2 : Disp) (s : State) : Outcome :=
  s.attempt do return s.logical r1 (subLogical (s.getGr r1) (← s.wordOperand x2 b2 d2)) 4

/-! ### Compare -/

/-- CR (R152). -/
def execCr (r1 r2 : Reg) (s : State) : Outcome :=
  .next (s.compare (s.getGr r1).toInt (s.getGr r2).toInt 2)

/-- C (R153). -/
def execC (r1 x2 b2 : Reg) (d2 : Disp) (s : State) : Outcome :=
  s.attempt do return s.compare (s.getGr r1).toInt (← s.wordOperand x2 b2 d2).toInt 4

/-- CH (R154). -/
def execCh (r1 x2 b2 : Reg) (d2 : Disp) (s : State) : Outcome :=
  s.attempt do return s.compare (s.getGr r1).toInt (← s.halfOperand x2 b2 d2).toInt 4

/-- CLR (R155). -/
def execClr (r1 r2 : Reg) (s : State) : Outcome :=
  .next (s.compare (s.getGr r1).toNat (s.getGr r2).toNat 2)

/-- CL (R156). -/
def execCl (r1 x2 b2 : Reg) (d2 : Disp) (s : State) : Outcome :=
  s.attempt do return s.compare (s.getGr r1).toNat (← s.wordOperand x2 b2 d2).toNat 4

/-! ### Multiply and divide -/

/-- MR (R260). -/
def execMr (r1 r2 : Reg) (s : State) : Outcome :=
  s.attempt do
    evenOnly r1
    return s.multiply r1 (s.getGr r2) 2

/-- M (R261). -/
def execM (r1 x2 b2 : Reg) (d2 : Disp) (s : State) : Outcome :=
  s.attempt do
    evenOnly r1
    return s.multiply r1 (← s.wordOperand x2 b2 d2) 4

/-- MH (R262): the low-order 32 bits of the product, the code unchanged. -/
def execMh (r1 x2 b2 : Reg) (d2 : Disp) (s : State) : Outcome :=
  s.attempt do
    let h ← s.halfOperand x2 b2 d2
    return (s.setGr r1 (BitVec.ofInt 32 ((s.getGr r1).toInt * h.toInt))).advance 4

/-- DR (R202): with R1 = R2 always a division error, also where the quotient would fit (assumption 17). -/
def execDr (r1 r2 : Reg) (s : State) : Outcome :=
  s.attempt do
    evenOnly r1
    if r1 = r2 then .error .division else s.divide r1 (s.getGr r2) 2

/-- D (R203). -/
def execD (r1 x2 b2 : Reg) (d2 : Disp) (s : State) : Outcome :=
  s.attempt do
    evenOnly r1
    s.divide r1 (← s.wordOperand x2 b2 d2) 4

/-! ### Conversion -/

/-- CVB (R200): the low-order 32 bits are stored also where the number does not fit, and the division error is then taken with
the instruction complete (R616). -/
def execCvb (r1 x2 b2 : Reg) (d2 : Disp) (s : State) : Outcome :=
  s.attempt do
    s.aligned (s.ea d2 x2 b2) 8
    let p ← s.load b2 (s.ea d2 x2 b2) 8
    if packedValid p then
      let v := packedValue p
      return ((s.setGr r1 (BitVec.ofInt 32 v)).advance 4).takeIf (if outOfRange 32 v then some .division else none)
    else .error .data

/-- CVD (R201). -/
def execCvd (r1 x2 b2 : Reg) (d2 : Disp) (s : State) : Outcome :=
  s.attempt do
    let v := (s.getGr r1).toInt
    let t ← s.storeOperand x2 b2 d2 8 (packedEncode 8 v.natAbs (decide (v < 0)))
    return t.advance 4

end Sys2Proof.Machine
end

