-- ==== Sys2Proof/Machine/Float.lean ====
section
/-! DEFINITION. Hexadecimal floating point: formats, operands, and the shared cores of the arithmetic instructions
(45_floating_point_arith.md R450 to R455, R465, R470, R478, R484; 46_floating_point_load_store.md R504, R512). A mantissa of N
digits is the integer f, 0 ≤ f < 16^N. -/

namespace Sys2Proof.Machine

/-! ### Formats -/

/-- The three formats (R450). -/
inductive Fmt where
  /-- 6 mantissa digits, the leftmost 32 bits of a register. -/
  | short
  /-- 14 mantissa digits, a register. -/
  | long
  /-- 28 mantissa digits, a register pair. -/
  | ext
deriving DecidableEq, Repr

/-- `N`, the number of mantissa digits (R450). -/
def Fmt.digits : Fmt → Nat
  | .short => 6
  | .long => 14
  | .ext => 28

/-- A number: sign, characteristic, mantissa (R453). The characteristic of an interim result may be any integer. -/
structure Hfp where
  neg : Bool
  char : Int
  frac : Nat
deriving DecidableEq, Repr

/-- `UnpackShort` (R453). -/
def unpackShort (w : Word) : Hfp :=
  { neg := w.getMsbD 0, char := (bits w 1 7).toNat, frac := (bits w 8 24).toNat }

/-- `UnpackLong` (R453). -/
def unpackLong (w : Dword) : Hfp :=
  { neg := w.getMsbD 0, char := (bits w 1 7).toNat, frac := (bits w 8 56).toNat }

/-- `UnpackExt` (R453): sign and characteristic of the lower portion are ignored. -/
def unpackExt (hi lo : Dword) : Hfp :=
  { neg := hi.getMsbD 0, char := (bits hi 1 7).toNat, frac := (bits hi 8 56).toNat * 16 ^ 14 + (bits lo 8 56).toNat }

/-- A short number as a word; the characteristic is stored modulo 128 (R453). -/
def packShort (x : Hfp) : Word :=
  BitVec.ofBool x.neg ++ BitVec.ofInt 7 x.char ++ BitVec.ofNat 24 x.frac

/-- A long number as a doubleword; the characteristic is stored modulo 128 (R453). -/
def packLong (x : Hfp) : Dword :=
  BitVec.ofBool x.neg ++ BitVec.ofInt 7 x.char ++ BitVec.ofNat 56 x.frac

/-- `StoreFP` (R453). -/
def State.storeFp (s : State) (p : Fmt) (r : Reg) (x : Hfp) : State :=
  match p with
  | .short => s.setFrs r (packShort x)
  | .long => s.setFr r (packLong x)
  | .ext =>
    (s.setFr r (packLong { x with frac := x.frac / 16 ^ 14 })).setFr (r + 2)
      (packLong { x with char := x.char - 14, frac := x.frac % 16 ^ 14 })

/-- `StoreZero`, the genuine zero (R453). -/
def State.storeZero (s : State) (p : Fmt) (r : Reg) : State :=
  match p with
  | .short => s.setFrs r 0
  | .long => s.setFr r 0
  | .ext => (s.setFr r 0).setFr (r + 2) 0

/-! ### Operands and register numbers -/

/-- `RegShort`, `RegLong`, `RegExt` (R453). -/
def State.readFp (s : State) (p : Fmt) (r : Reg) : Hfp :=
  match p with
  | .short => unpackShort (s.getFrs r)
  | .long => unpackLong (s.getFr r)
  | .ext => unpackExt (s.getFr r) (s.getFr (r + 2))

/-- `MemShort` after its alignment and access tests (R452, R453). -/
def State.memShort (s : State) (x2 b2 : Reg) (d2 : Disp) : Except Interrupt Hfp := do
  return unpackShort (← s.wordOperand x2 b2 d2)

/-- `MemLong` after its alignment and access tests (R452, R453). -/
def State.memLong (s : State) (x2 b2 : Reg) (d2 : Disp) : Except Interrupt Hfp := do
  return unpackLong (← s.dwordOperand x2 b2 d2)

/-- The test of a register field against `FPRValid` (R452). -/
def needFpr (r : Reg) : Except Interrupt Unit :=
  if isFpr r then .ok () else .error .addressing

/-- The test of a register field against `FPRPairValid` (R452). -/
def needPair (r : Reg) : Except Interrupt Unit :=
  if isFprPair r then .ok () else .error .addressing

/-! ### The end of an arithmetic instruction -/

/-- `Normalize` for an interim field of `d` digits: at most `fuel` digit shifts (R453). -/
def normalize (d : Nat) : Nat → Int → Nat → Int × Nat
  | 0, c, m => (c, m)
  | fuel + 1, c, m => if m < 16 ^ (d - 1) then normalize d fuel (c - 1) (m * 16) else (c, m)

/-- An operand with its mantissa normalized; the mantissa is not 0 (R470, R478). -/
def Hfp.normalized (x : Hfp) (n : Nat) : Hfp :=
  let r := normalize n n x.char x.frac
  { x with char := r.1, frac := r.2 }

/-- Set the code if the instruction sets one (R454). -/
def State.codeIf (s : State) (setCc : Bool) (c : CondCode) : State :=
  if setCc then s.setCc c else s

/-- The code of a stored number: 1 minus, 2 plus (R454). -/
def fpCc (neg : Bool) : CondCode :=
  if neg then 1 else 2

/-- `FinishFP` (R454): the mantissa is not 0. The state, and the interrupt that is due after `IA` has advanced. -/
def State.finishFp (s : State) (p : Fmt) (r : Reg) (x : Hfp) (setCc : Bool) : State × Option Interrupt :=
  let stored := (s.storeFp p r x).codeIf setCc (fpCc x.neg)
  if x.char > 127 then (stored, some .exponentOverflow)
  else if x.char < 0 then
    if s.pmBit 2 then (stored, some .exponentUnderflow) else ((s.storeZero p r).codeIf setCc 0, none)
  else (stored, none)

/-- Go on after a result, and take its interrupt if one is due (R454, R616). -/
def State.fpDone (res : State × Option Interrupt) (len : Nat) : State :=
  (res.1.advance len).takeIf res.2

/-! ### Add, subtract, compare -/

/-- The mantissa with a guard digit, shifted right by the difference of the characteristics, with its sign (R455 step 1). -/
def Hfp.aligned (x : Hfp) (c : Int) : Int :=
  let m : Nat := x.frac * 16 / 16 ^ (c - x.char).toNat
  if x.neg then -m else m

/-- The sign of the second operand is inverted for subtraction (R455). -/
def Hfp.negIf (x : Hfp) (sub : Bool) : Hfp :=
  { x with neg := x.neg ^^ sub }

/-- The larger characteristic and the signed sum of the aligned mantissas (R455 steps 1 and 2). -/
def alignedSum (x y : Hfp) : Int × Int :=
  let c := max x.char y.char
  (c, x.aligned c + y.aligned c)

/-- The sum after a mantissa overflow was shifted out: N+1 digits, the last one the guard digit (R455 step 3). -/
def interimSum (n : Nat) (x y : Hfp) : Hfp :=
  let cv := alignedSum x y
  let m := cv.2.natAbs
  if m ≥ 16 ^ (n + 1) then { neg := decide (cv.2 < 0), char := cv.1 + 1, frac := m / 16 }
  else { neg := decide (cv.2 < 0), char := cv.1, frac := m }

/-- Significance: the unnormalized instructions do not look at the guard digit (R455 step 4). -/
def significance (norm : Bool) (m : Nat) : Bool :=
  if norm then m == 0 else m / 16 == 0

/-- `AddFP` (R455). -/
def State.addFp (s : State) (p : Fmt) (r : Reg) (x y : Hfp) (sub norm : Bool) : State × Option Interrupt :=
  let t := interimSum p.digits x (y.negIf sub)
  if significance norm t.frac then
    if s.pmBit 3 then ((s.storeFp p r { neg := false, char := t.char, frac := 0 }).setCc 0, some .significance)
    else ((s.storeZero p r).setCc 0, none)
  else
    let u := if norm then t.normalized (p.digits + 1) else t
    s.finishFp p r { u with frac := u.frac / 16 } true

/-- `CompareFP` (R465): the code of the difference of the aligned mantissas. -/
def State.compareFp (s : State) (x y : Hfp) : State :=
  s.setCc (signCc (alignedSum x (y.negIf true)).2)

/-! ### Multiply, divide, halve, round -/

/-- The normalized product of two numbers with mantissas that are not 0: N operand digits, P result digits (R470). -/
def productFp (n q : Nat) (x y : Hfp) : Hfp :=
  let x := x.normalized n
  let y := y.normalized n
  let m := x.frac * y.frac
  let c := x.char + y.char - 64
  let (c, m) := if m < 16 ^ (2 * n - 1) then (c - 1, m * 16) else (c, m)
  { neg := x.neg ^^ y.neg, char := c, frac := if 2 * n ≤ q then m * 16 ^ (q - 2 * n) else m / 16 ^ (2 * n - q) }

/-- `MulFP` (R470): operands of format `p`, a product of format `q`. -/
def State.mulFp (s : State) (p q : Fmt) (r : Reg) (x y : Hfp) : State × Option Interrupt :=
  if x.frac = 0 ∨ y.frac = 0 then (s.storeZero q r, none)
  else s.finishFp q r (productFp p.digits q.digits x y) false

/-- The normalized quotient of two numbers with mantissas that are not 0 (R478). -/
def quotientFp (n : Nat) (x y : Hfp) : Hfp :=
  let x := x.normalized n
  let y := y.normalized n
  let c := x.char - y.char + 64
  if x.frac ≥ y.frac then { neg := x.neg ^^ y.neg, char := c + 1, frac := x.frac * 16 ^ (n - 1) / y.frac }
  else { neg := x.neg ^^ y.neg, char := c, frac := x.frac * 16 ^ n / y.frac }

/-- `DivFP` (R478). -/
def State.divFp (s : State) (p : Fmt) (r : Reg) (x y : Hfp) : Except Interrupt (State × Option Interrupt) :=
  if y.frac = 0 then .error .division
  else if x.frac = 0 then .ok (s.storeZero p r, none)
  else .ok (s.finishFp p r (quotientFp p.digits x y) false)

/-- `HalveFP` (R484). -/
def State.halveFp (s : State) (p : Fmt) (r : Reg) (x : Hfp) : State × Option Interrupt :=
  if x.frac = 0 then (s.storeZero p r, none)
  else
    let u := { x with frac := x.frac * 8 }.normalized (p.digits + 1)
    s.finishFp p r { u with frac := u.frac / 16 } false

/-- `RoundFP` (R512): `nin` digits are rounded to `nout`. -/
def roundFp (nin nout : Nat) (x : Hfp) : Hfp :=
  let g := (x.frac + 16 ^ (nin - nout) / 2) / 16 ^ (nin - nout)
  if g = 16 ^ nout then { x with char := x.char + 1, frac := 16 ^ (nout - 1) } else { x with frac := g }

/-- The end of LRER and LRDR: store, and exponent overflow if it is due (R512). -/
def State.storeRounded (s : State) (p : Fmt) (r : Reg) (x : Hfp) : State × Option Interrupt :=
  (s.storeFp p r x, if x.char > 127 then some .exponentOverflow else none)

/-- `SignCC` (R504). -/
def signFpCc (neg zero : Bool) : CondCode :=
  if zero then 0 else fpCc neg

end Sys2Proof.Machine
end

