-- ==== Sys2Proof/Machine/FloatArith.lean ====
section
/-! DEFINITION. The 36 floating-point arithmetic instructions (45_floating_point_arith.md R456 to R494) over the cores of
Machine/Float.lean. The register numbers are tested first, then alignment, then access (R452). -/

namespace Sys2Proof.Machine

/-! ### Add -/

/-- AER (R456). -/
def execAer (r1 r2 : Reg) (s : State) : Outcome :=
  s.attempt do
    needFpr r1
    needFpr r2
    return State.fpDone (s.addFp .short r1 (s.readFp .short r1) (s.readFp .short r2) false true) 2

/-- AE (R457). -/
def execAe (r1 x2 b2 : Reg) (d2 : Disp) (s : State) : Outcome :=
  s.attempt do
    needFpr r1
    let y ← s.memShort x2 b2 d2
    return State.fpDone (s.addFp .short r1 (s.readFp .short r1) y false true) 4

/-- ADR (R458). -/
def execAdr (r1 r2 : Reg) (s : State) : Outcome :=
  s.attempt do
    needFpr r1
    needFpr r2
    return State.fpDone (s.addFp .long r1 (s.readFp .long r1) (s.readFp .long r2) false true) 2

/-- AD (R459). -/
def execAd (r1 x2 b2 : Reg) (d2 : Disp) (s : State) : Outcome :=
  s.attempt do
    needFpr r1
    let y ← s.memLong x2 b2 d2
    return State.fpDone (s.addFp .long r1 (s.readFp .long r1) y false true) 4

/-- AXR (R460). -/
def execAxr (r1 r2 : Reg) (s : State) : Outcome :=
  s.attempt do
    needPair r1
    needPair r2
    return State.fpDone (s.addFp .ext r1 (s.readFp .ext r1) (s.readFp .ext r2) false true) 2

/-- AUR (R461). -/
def execAur (r1 r2 : Reg) (s : State) : Outcome :=
  s.attempt do
    needFpr r1
    needFpr r2
    return State.fpDone (s.addFp .short r1 (s.readFp .short r1) (s.readFp .short r2) false false) 2

/-- AU (R462). -/
def execAu (r1 x2 b2 : Reg) (d2 : Disp) (s : State) : Outcome :=
  s.attempt do
    needFpr r1
    let y ← s.memShort x2 b2 d2
    return State.fpDone (s.addFp .short r1 (s.readFp .short r1) y false false) 4

/-- AWR (R463). -/
def execAwr (r1 r2 : Reg) (s : State) : Outcome :=
  s.attempt do
    needFpr r1
    needFpr r2
    return State.fpDone (s.addFp .long r1 (s.readFp .long r1) (s.readFp .long r2) false false) 2

/-- AW (R464). -/
def execAw (r1 x2 b2 : Reg) (d2 : Disp) (s : State) : Outcome :=
  s.attempt do
    needFpr r1
    let y ← s.memLong x2 b2 d2
    return State.fpDone (s.addFp .long r1 (s.readFp .long r1) y false false) 4

/-! ### Subtract -/

/-- SER (R486). -/
def execSer (r1 r2 : Reg) (s : State) : Outcome :=
  s.attempt do
    needFpr r1
    needFpr r2
    return State.fpDone (s.addFp .short r1 (s.readFp .short r1) (s.readFp .short r2) true true) 2

/-- SE (R487). -/
def execSe (r1 x2 b2 : Reg) (d2 : Disp) (s : State) : Outcome :=
  s.attempt do
    needFpr r1
    let y ← s.memShort x2 b2 d2
    return State.fpDone (s.addFp .short r1 (s.readFp .short r1) y true true) 4

/-- SDR (R488). -/
def execSdr (r1 r2 : Reg) (s : State) : Outcome :=
  s.attempt do
    needFpr r1
    needFpr r2
    return State.fpDone (s.addFp .long r1 (s.readFp .long r1) (s.readFp .long r2) true true) 2

/-- SD (R489). -/
def execSd (r1 x2 b2 : Reg) (d2 : Disp) (s : State) : Outcome :=
  s.attempt do
    needFpr r1
    let y ← s.memLong x2 b2 d2
    return State.fpDone (s.addFp .long r1 (s.readFp .long r1) y true true) 4

/-- SXR (R490). -/
def execSxr (r1 r2 : Reg) (s : State) : Outcome :=
  s.attempt do
    needPair r1
    needPair r2
    return State.fpDone (s.addFp .ext r1 (s.readFp .ext r1) (s.readFp .ext r2) true true) 2

/-- SUR (R491). -/
def execSur (r1 r2 : Reg) (s : State) : Outcome :=
  s.attempt do
    needFpr r1
    needFpr r2
    return State.fpDone (s.addFp .short r1 (s.readFp .short r1) (s.readFp .short r2) true false) 2

/-- SU (R492). -/
def execSu (r1 x2 b2 : Reg) (d2 : Disp) (s : State) : Outcome :=
  s.attempt do
    needFpr r1
    let y ← s.memShort x2 b2 d2
    return State.fpDone (s.addFp .short r1 (s.readFp .short r1) y true false) 4

/-- SWR (R493). -/
def execSwr (r1 r2 : Reg) (s : State) : Outcome :=
  s.attempt do
    needFpr r1
    needFpr r2
    return State.fpDone (s.addFp .long r1 (s.readFp .long r1) (s.readFp .long r2) true false) 2

/-- SW (R494). -/
def execSw (r1 x2 b2 : Reg) (d2 : Disp) (s : State) : Outcome :=
  s.attempt do
    needFpr r1
    let y ← s.memLong x2 b2 d2
    return State.fpDone (s.addFp .long r1 (s.readFp .long r1) y true false) 4

/-! ### Compare -/

/-- CER (R466). -/
def execCer (r1 r2 : Reg) (s : State) : Outcome :=
  s.attempt do
    needFpr r1
    needFpr r2
    return State.fpDone (s.compareFp (s.readFp .short r1) (s.readFp .short r2), none) 2

/-- CE (R467). -/
def execCe (r1 x2 b2 : Reg) (d2 : Disp) (s : State) : Outcome :=
  s.attempt do
    needFpr r1
    let y ← s.memShort x2 b2 d2
    return State.fpDone (s.compareFp (s.readFp .short r1) y, none) 4

/-- CDR (R468). -/
def execCdr (r1 r2 : Reg) (s : State) : Outcome :=
  s.attempt do
    needFpr r1
    needFpr r2
    return State.fpDone (s.compareFp (s.readFp .long r1) (s.readFp .long r2), none) 2

/-- CD (R469). -/
def execCd (r1 x2 b2 : Reg) (d2 : Disp) (s : State) : Outcome :=
  s.attempt do
    needFpr r1
    let y ← s.memLong x2 b2 d2
    return State.fpDone (s.compareFp (s.readFp .long r1) y, none) 4

/-! ### Multiply -/

/-- MER (R471). -/
def execMer (r1 r2 : Reg) (s : State) : Outcome :=
  s.attempt do
    needFpr r1
    needFpr r2
    return State.fpDone (s.mulFp .short .long r1 (s.readFp .short r1) (s.readFp .short r2)) 2

/-- ME (R472). -/
def execMe (r1 x2 b2 : Reg) (d2 : Disp) (s : State) : Outcome :=
  s.attempt do
    needFpr r1
    let y ← s.memShort x2 b2 d2
    return State.fpDone (s.mulFp .short .long r1 (s.readFp .short r1) y) 4

/-- MDR (R473). -/
def execMdr (r1 r2 : Reg) (s : State) : Outcome :=
  s.attempt do
    needFpr r1
    needFpr r2
    return State.fpDone (s.mulFp .long .long r1 (s.readFp .long r1) (s.readFp .long r2)) 2

/-- MD (R474). -/
def execMd (r1 x2 b2 : Reg) (d2 : Disp) (s : State) : Outcome :=
  s.attempt do
    needFpr r1
    let y ← s.memLong x2 b2 d2
    return State.fpDone (s.mulFp .long .long r1 (s.readFp .long r1) y) 4

/-- MXDR (R475). -/
def execMxdr (r1 r2 : Reg) (s : State) : Outcome :=
  s.attempt do
    needPair r1
    needFpr r2
    return State.fpDone (s.mulFp .long .ext r1 (s.readFp .long r1) (s.readFp .long r2)) 2

/-- MXD (R476). -/
def execMxd (r1 x2 b2 : Reg) (d2 : Disp) (s : State) : Outcome :=
  s.attempt do
    needPair r1
    let y ← s.memLong x2 b2 d2
    return State.fpDone (s.mulFp .long .ext r1 (s.readFp .long r1) y) 4

/-- MXR (R477). -/
def execMxr (r1 r2 : Reg) (s : State) : Outcome :=
  s.attempt do
    needPair r1
    needPair r2
    return State.fpDone (s.mulFp .ext .ext r1 (s.readFp .ext r1) (s.readFp .ext r2)) 2

/-! ### Divide -/

/-- DER (R479). -/
def execDer (r1 r2 : Reg) (s : State) : Outcome :=
  s.attempt do
    needFpr r1
    needFpr r2
    return State.fpDone (← s.divFp .short r1 (s.readFp .short r1) (s.readFp .short r2)) 2

/-- DE (R480). -/
def execDe (r1 x2 b2 : Reg) (d2 : Disp) (s : State) : Outcome :=
  s.attempt do
    needFpr r1
    let y ← s.memShort x2 b2 d2
    return State.fpDone (← s.divFp .short r1 (s.readFp .short r1) y) 4

/-- DDR (R481). -/
def execDdr (r1 r2 : Reg) (s : State) : Outcome :=
  s.attempt do
    needFpr r1
    needFpr r2
    return State.fpDone (← s.divFp .long r1 (s.readFp .long r1) (s.readFp .long r2)) 2

/-- DD (R482). -/
def execDd (r1 x2 b2 : Reg) (d2 : Disp) (s : State) : Outcome :=
  s.attempt do
    needFpr r1
    let y ← s.memLong x2 b2 d2
    return State.fpDone (← s.divFp .long r1 (s.readFp .long r1) y) 4

/-- DXR (R483): only with the 31-bit mode. -/
def execDxr (r1 r2 : Reg) (s : State) : Outcome :=
  s.attempt do
    if s.cpu.has31Bit then
      needPair r1
      needPair r2
      return State.fpDone (← s.divFp .ext r1 (s.readFp .ext r1) (s.readFp .ext r2)) 4
    else .error .operationCode

/-! ### Halve -/

/-- HER (R484). -/
def execHer (r1 r2 : Reg) (s : State) : Outcome :=
  s.attempt do
    needFpr r1
    needFpr r2
    return State.fpDone (s.halveFp .short r1 (s.readFp .short r2)) 2

/-- HDR (R485). -/
def execHdr (r1 r2 : Reg) (s : State) : Outcome :=
  s.attempt do
    needFpr r1
    needFpr r2
    return State.fpDone (s.halveFp .long r1 (s.readFp .long r2)) 2

end Sys2Proof.Machine
end

