-- ==== Sys2Proof/Machine/FloatLoad.lean ====
section
/-! DEFINITION. The 16 floating-point load, sign, test, round and store instructions (46_floating_point_load_store.md R500 to
R515). None normalizes. -/

namespace Sys2Proof.Machine

/-! ### Shared operations -/

/-- A short number into a register after the tests of both register fields (R500, R504). -/
def State.loadShort (s : State) (r1 r2 : Reg) (f : Word → Word) (code : Word → Option CondCode) : Except Interrupt State := do
  needFpr r1
  needFpr r2
  let v := f (s.getFrs r2)
  return ((s.setFrs r1 v).codeIf (code v).isSome ((code v).getD 0)).advance 2

/-- A long number into a register after the tests of both register fields (R502, R505). -/
def State.loadLong (s : State) (r1 r2 : Reg) (f : Dword → Dword) (code : Dword → Option CondCode) : Except Interrupt State := do
  needFpr r1
  needFpr r2
  let v := f (s.getFr r2)
  return ((s.setFr r1 v).codeIf (code v).isSome ((code v).getD 0)).advance 2

/-- A number with the sign bit `b` (R504, R506, R508). -/
def withSign {w : Nat} (v : BitVec (w + 1)) (b : Bool) : BitVec (w + 1) :=
  (BitVec.ofBool b ++ v.setWidth w).cast (Nat.add_comm 1 w)

/-- The code of a short number by its sign and mantissa (R504). -/
def shortCc (v : Word) : Option CondCode :=
  some (signFpCc (unpackShort v).neg ((unpackShort v).frac == 0))

/-- The code of a long number by its sign and mantissa (R504). -/
def longCc (v : Dword) : Option CondCode :=
  some (signFpCc (unpackLong v).neg ((unpackLong v).frac == 0))

/-! ### Load -/

/-- LER (R500). -/
def execLer (r1 r2 : Reg) (s : State) : Outcome :=
  s.attempt (s.loadShort r1 r2 id fun _ => none)

/-- LE (R501). -/
def execLe (r1 x2 b2 : Reg) (d2 : Disp) (s : State) : Outcome :=
  s.attempt do
    needFpr r1
    return (s.setFrs r1 (← s.wordOperand x2 b2 d2)).advance 4

/-- LDR (R502). -/
def execLdr (r1 r2 : Reg) (s : State) : Outcome :=
  s.attempt (s.loadLong r1 r2 id fun _ => none)

/-- LD (R503). -/
def execLd (r1 x2 b2 : Reg) (d2 : Disp) (s : State) : Outcome :=
  s.attempt do
    needFpr r1
    return (s.setFr r1 (← s.dwordOperand x2 b2 d2)).advance 4

/-! ### Load with sign control -/

/-- LCER (R504): the sign is reversed. -/
def execLcer (r1 r2 : Reg) (s : State) : Outcome :=
  s.attempt (s.loadShort r1 r2 (fun v => withSign v (!v.msb)) shortCc)

/-- LCDR (R505): the sign is reversed. -/
def execLcdr (r1 r2 : Reg) (s : State) : Outcome :=
  s.attempt (s.loadLong r1 r2 (fun v => withSign v (!v.msb)) longCc)

/-- LNER (R506). -/
def execLner (r1 r2 : Reg) (s : State) : Outcome :=
  s.attempt (s.loadShort r1 r2 (withSign · true) shortCc)

/-- LNDR (R507). -/
def execLndr (r1 r2 : Reg) (s : State) : Outcome :=
  s.attempt (s.loadLong r1 r2 (withSign · true) longCc)

/-- LPER (R508). -/
def execLper (r1 r2 : Reg) (s : State) : Outcome :=
  s.attempt (s.loadShort r1 r2 (withSign · false) shortCc)

/-- LPDR (R509). -/
def execLpdr (r1 r2 : Reg) (s : State) : Outcome :=
  s.attempt (s.loadLong r1 r2 (withSign · false) longCc)

/-- LTER (R510). -/
def execLter (r1 r2 : Reg) (s : State) : Outcome :=
  s.attempt (s.loadShort r1 r2 id shortCc)

/-- LTDR (R511). -/
def execLtdr (r1 r2 : Reg) (s : State) : Outcome :=
  s.attempt (s.loadLong r1 r2 id longCc)

/-! ### Load rounded -/

/-- LRER (R512). -/
def execLrer (r1 r2 : Reg) (s : State) : Outcome :=
  s.attempt do
    needFpr r1
    needFpr r2
    return State.fpDone (s.storeRounded .short r1 (roundFp 14 6 (s.readFp .long r2))) 2

/-- LRDR (R513). -/
def execLrdr (r1 r2 : Reg) (s : State) : Outcome :=
  s.attempt do
    needFpr r1
    needPair r2
    return State.fpDone (s.storeRounded .long r1 (roundFp 28 14 (s.readFp .ext r2))) 2

/-! ### Store -/

/-- STE (R514). -/
def execSte (r1 x2 b2 : Reg) (d2 : Disp) (s : State) : Outcome :=
  s.attempt do
    needFpr r1
    let t ← s.storeOperand x2 b2 d2 4 (beBytes 4 (s.getFrs r1).toNat)
    return t.advance 4

/-- STD (R515). -/
def execStd (r1 x2 b2 : Reg) (d2 : Disp) (s : State) : Outcome :=
  s.attempt do
    needFpr r1
    let t ← s.storeOperand x2 b2 d2 8 (beBytes 8 (s.getFr r1).toNat)
    return t.advance 4

end Sys2Proof.Machine
end

