-- ==== Sys2Proof/Machine/Bytes.lean ====
section
/-! DEFINITION. The byte-by-byte loops of the storage-to-storage instructions, over memory and the keys of the operand bytes:
each byte is stored before the next is read, so overlapping operands act as the manual says (20_memory.md R66,
70_reset_and_hazards.md R664). -/

namespace Sys2Proof.Machine

/-- From byte `i` on, `n` bytes from left to right: the byte at `k1 i` becomes `f` of itself and the byte at `k2 i`. Also
answers whether a result byte, or `nz`, is not zero (R264, R266, R267, R270). -/
def mapBytes (f : Byte → Byte → Byte) (k1 k2 : Nat → Nat) : Nat → Nat → List Host.Cell → Bool → List Host.Cell × Bool
  | 0, _, m, nz => (m, nz)
  | n + 1, i, m, nz =>
    let r := f (Memory.read m (k1 i)) (Memory.read m (k2 i))
    mapBytes f k1 k2 n (i + 1) (Memory.write m (k1 i) r) (nz || r != 0)

/-- A byte of a source field numbered from the right; bytes beyond its length count as X'00' (R269, R279, R345). -/
def srcByte (ks : Nat → Nat) (l2 : Nat) (m : List Host.Cell) (k : Nat) : Byte :=
  if k < l2 then Memory.read m (ks k) else 0

/-- The loop of MVO: bytes `j` and on of the receive field, numbered from the right (R269). -/
def mvoBytes (kd ks : Nat → Nat) (l2 : Nat) : Nat → Nat → Byte → List Host.Cell → List Host.Cell
  | 0, _, _, m => m
  | n + 1, j, prev, m =>
    let cur := srcByte ks l2 m j
    mvoBytes kd ks l2 n (j + 1) cur (Memory.write m (kd j) (ofNibs (loNib cur) (hiNib prev)))

/-- The loop of PACK (R279). -/
def packBytes (kd ks : Nat → Nat) (l2 : Nat) : Nat → Nat → List Host.Cell → List Host.Cell
  | 0, _, m => m
  | n + 1, j, m =>
    let lo := srcByte ks l2 m (2 * j - 1)
    let hi := srcByte ks l2 m (2 * j)
    packBytes kd ks l2 n (j + 1) (Memory.write m (kd j) (ofNibs (loNib hi) (loNib lo)))

/-- The loop of UNPK: `cur` is the source byte read last, whose left halfbyte may still be due (R345). -/
def unpkBytes (kd ks : Nat → Nat) (l2 : Nat) : Nat → Nat → Byte → List Host.Cell → List Host.Cell
  | 0, _, _, m => m
  | n + 1, j, cur, m =>
    if (j + 1) % 2 = 0 then
      let new := srcByte ks l2 m ((j + 1) / 2)
      unpkBytes kd ks l2 n (j + 1) new (Memory.write m (kd j) (ofNibs 0xF (loNib new)))
    else unpkBytes kd ks l2 n (j + 1) cur (Memory.write m (kd j) (ofNibs 0xF (hiNib cur)))

/-- The key of byte `j`, numbered from the right, of an operand of `l` bytes at `a` (R269). -/
def State.keyRight (s : State) (sp : Space) (a l j : Nat) : Nat :=
  s.key sp (a + (l - 1 - j))

/-- A storage-to-storage instruction that maps bytes from left to right, after the access tests (R264, R266, R270): the new
state before `IA` advances, and whether a result byte is not zero. -/
def State.mapOperands (s : State) (f : Byte → Byte → Byte) (ks1 : List Access) (n : Nat) (b1 : Reg) (a1 : Nat) (b2 : Reg)
    (a2 : Nat) : Except Interrupt (State × Bool) := do
  let (sp1, sp2) ← s.twoOperands b1 a1 n ks1 b2 a2 n
  let r := mapBytes f (fun i => s.key sp1 (a1 + i)) (fun i => s.key sp2 (a2 + i)) n 0 s.mem false
  return ({ s with mem := r.1 }, r.2)

end Sys2Proof.Machine
end

