-- ==== Sys2Proof/Machine/Logic.lean ====
section
/-! DEFINITION. AND, OR, EXCLUSIVE OR and the immediate instructions (40_general_add_to_compare.md R159;
42_general_multiply_to_pack.md R263, R265, R270 to R278; 43_general_subtract_to_xor.md R341, R346 to R349). -/

namespace Sys2Proof.Machine

/-! ### Shared operations: the scheme of R270 -/

/-- `LogicRR` and the end of `LogicRX` (R270). -/
def State.logicReg (s : State) (r1 : Reg) (v : Word) (len : Nat) : State :=
  ((s.setGr r1 v).setCc (nonzeroCc (v != 0))).advance len

/-- `LogicSI` (R270). -/
def State.logicByte (s : State) (b1 : Reg) (d1 : Disp) (f : Byte → Byte) : Except Interrupt State := do
  let a1 := s.ea d1 0 b1
  let sp ← s.reach b1 a1 1 [.read, .write]
  let r := f (s.getByte sp a1)
  return ((s.putBytes sp a1 [r]).setCc (nonzeroCc (r != 0))).advance 4

/-- `LogicSS` (R270); the length field holds the length minus 1 (R97). -/
def State.logicBytes (s : State) (f : Byte → Byte → Byte) (l : Byte) (b1 : Reg) (d1 : Disp) (b2 : Reg) (d2 : Disp) :
    Except Interrupt State := do
  let (t, nz) ← s.mapOperands f [.read, .write] (l.toNat + 1) b1 (s.ea d1 0 b1) b2 (s.ea d2 0 b2)
  return (t.setCc (nonzeroCc nz)).advance 6

/-! ### AND -/

/-- NR (R271). -/
def execNr (r1 r2 : Reg) (s : State) : Outcome :=
  .next (s.logicReg r1 (s.getGr r1 &&& s.getGr r2) 2)

/-- N (R272). -/
def execN (r1 x2 b2 : Reg) (d2 : Disp) (s : State) : Outcome :=
  s.attempt do return s.logicReg r1 (s.getGr r1 &&& (← s.wordOperand x2 b2 d2)) 4

/-- NI (R273). -/
def execNi (b1 : Reg) (d1 : Disp) (i2 : Byte) (s : State) : Outcome :=
  s.attempt (s.logicByte b1 d1 (· &&& i2))

/-- NC (R274). -/
def execNc (l : Byte) (b1 : Reg) (d1 : Disp) (b2 : Reg) (d2 : Disp) (s : State) : Outcome :=
  s.attempt (s.logicBytes (· &&& ·) l b1 d1 b2 d2)

/-! ### OR -/

/-- OR (R275). -/
def execOr (r1 r2 : Reg) (s : State) : Outcome :=
  .next (s.logicReg r1 (s.getGr r1 ||| s.getGr r2) 2)

/-- O (R276). -/
def execO (r1 x2 b2 : Reg) (d2 : Disp) (s : State) : Outcome :=
  s.attempt do return s.logicReg r1 (s.getGr r1 ||| (← s.wordOperand x2 b2 d2)) 4

/-- OI (R277). -/
def execOi (b1 : Reg) (d1 : Disp) (i2 : Byte) (s : State) : Outcome :=
  s.attempt (s.logicByte b1 d1 (· ||| i2))

/-- OC (R278). -/
def execOc (l : Byte) (b1 : Reg) (d1 : Disp) (b2 : Reg) (d2 : Disp) (s : State) : Outcome :=
  s.attempt (s.logicBytes (· ||| ·) l b1 d1 b2 d2)

/-! ### EXCLUSIVE OR -/

/-- XR (R346). -/
def execXr (r1 r2 : Reg) (s : State) : Outcome :=
  .next (s.logicReg r1 (s.getGr r1 ^^^ s.getGr r2) 2)

/-- X (R347). -/
def execX (r1 x2 b2 : Reg) (d2 : Disp) (s : State) : Outcome :=
  s.attempt do return s.logicReg r1 (s.getGr r1 ^^^ (← s.wordOperand x2 b2 d2)) 4

/-- XI (R348). -/
def execXi (b1 : Reg) (d1 : Disp) (i2 : Byte) (s : State) : Outcome :=
  s.attempt (s.logicByte b1 d1 (· ^^^ i2))

/-- XC (R349). -/
def execXc (l : Byte) (b1 : Reg) (d1 : Disp) (b2 : Reg) (d2 : Disp) (s : State) : Outcome :=
  s.attempt (s.logicBytes (· ^^^ ·) l b1 d1 b2 d2)

/-! ### Immediate -/

/-- CLI (R159). -/
def execCli (b1 : Reg) (d1 : Disp) (i2 : Byte) (s : State) : Outcome :=
  s.attempt do
    let b ← s.byteOperand 0 b1 d1
    return (s.setCc (compareCc b.toNat i2.toNat)).advance 4

/-- The code of TM: 0 all tested bits 0, 3 all of them 1, 1 mixed; a zero mask gives 0 (R341). -/
def testCc (b mask : Byte) : CondCode :=
  if b &&& mask = 0 then 0 else if b &&& mask = mask then 3 else 1

/-- TM (R341). -/
def execTm (b1 : Reg) (d1 : Disp) (i2 : Byte) (s : State) : Outcome :=
  s.attempt do
    let b ← s.byteOperand 0 b1 d1
    return (s.setCc (testCc b i2)).advance 4

/-- MVI (R265). -/
def execMvi (b1 : Reg) (d1 : Disp) (i2 : Byte) (s : State) : Outcome :=
  s.attempt do
    let t ← s.storeOperand 0 b1 d1 1 [i2]
    return t.advance 4

/-- MC (R263): no operation, once the monitor class is legal. -/
def execMc (_b1 : Reg) (_d1 : Disp) (i2 : Byte) (s : State) : Outcome :=
  if i2.toNat > 15 then .next (s.takeInterrupt .addressing) else .next (s.advance 4)

end Sys2Proof.Machine
end

