-- ==== Sys2Proof/Machine/Shift.lean ====
section
/-! DEFINITION. The eight shift instructions (43_general_subtract_to_xor.md R325 to R334). -/

namespace Sys2Proof.Machine

/-- The number of positions: the rightmost 6 bits of the address D2(B2); nothing is accessed there (R325). -/
def State.shiftAmount (s : State) (b2 : Reg) (d2 : Disp) : Nat :=
  s.ea d2 0 b2 % 64

/-- Arithmetic left shift: the sign stays, the other bits shift, zeros enter (R326, R327). -/
def shiftLeftArith {w : Nat} (v : BitVec w) (n : Nat) : BitVec w :=
  let m := v.toNat % 2 ^ (w - 1)
  BitVec.ofNat w ((if v.msb then 2 ^ (w - 1) else 0) + m * 2 ^ n % 2 ^ (w - 1))

/-- Is a bit that differs from the sign shifted out? The bits shifted out are the leftmost n bits of the magnitude field
followed by n zeros (R326, R327). -/
def shiftLeftOverflow {w : Nat} (v : BitVec w) (n : Nat) : Bool :=
  let out := v.toNat % 2 ^ (w - 1) * 2 ^ n / 2 ^ (w - 1)
  if v.msb then out != 2 ^ n - 1 else out != 0

/-- The code of an arithmetic shift (R326, R331). -/
def shiftCc {w : Nat} (r : BitVec w) (ov : Bool) : CondCode :=
  if ov then 3 else signCc r.toInt

/-- SLA (R326). -/
def execSla (r1 b2 : Reg) (d2 : Disp) (s : State) : Outcome :=
  let n := s.shiftAmount b2 d2
  let v := s.getGr r1
  let r := shiftLeftArith v n
  let ov := shiftLeftOverflow v n
  .next ((((s.setGr r1 r).setCc (shiftCc r ov)).advance 4).takeIf (s.fixedOverflow ov))

/-- SLDA (R327). -/
def execSlda (r1 b2 : Reg) (d2 : Disp) (s : State) : Outcome :=
  let n := s.shiftAmount b2 d2
  let v := s.getPair r1
  let r := shiftLeftArith v n
  let ov := shiftLeftOverflow v n
  if isEven r1 then .next ((((s.setPair r1 r).setCc (shiftCc r ov)).advance 4).takeIf (s.fixedOverflow ov))
  else .next (s.takeInterrupt .addressing)

/-- SLDL (R328). -/
def execSldl (r1 b2 : Reg) (d2 : Disp) (s : State) : Outcome :=
  if isEven r1 then .next ((s.setPair r1 (s.getPair r1 <<< s.shiftAmount b2 d2)).advance 4)
  else .next (s.takeInterrupt .addressing)

/-- SLL (R329). -/
def execSll (r1 b2 : Reg) (d2 : Disp) (s : State) : Outcome :=
  .next ((s.setGr r1 (s.getGr r1 <<< s.shiftAmount b2 d2)).advance 4)

/-- SRA (R331). -/
def execSra (r1 b2 : Reg) (d2 : Disp) (s : State) : Outcome :=
  let r := (s.getGr r1).sshiftRight (s.shiftAmount b2 d2)
  .next (((s.setGr r1 r).setCc (shiftCc r false)).advance 4)

/-- SRDA (R332). -/
def execSrda (r1 b2 : Reg) (d2 : Disp) (s : State) : Outcome :=
  let r := (s.getPair r1).sshiftRight (s.shiftAmount b2 d2)
  if isEven r1 then .next (((s.setPair r1 r).setCc (shiftCc r false)).advance 4)
  else .next (s.takeInterrupt .addressing)

/-- SRDL (R333). -/
def execSrdl (r1 b2 : Reg) (d2 : Disp) (s : State) : Outcome :=
  if isEven r1 then .next ((s.setPair r1 (s.getPair r1 >>> s.shiftAmount b2 d2)).advance 4)
  else .next (s.takeInterrupt .addressing)

/-- SRL (R334). -/
def execSrl (r1 b2 : Reg) (d2 : Disp) (s : State) : Outcome :=
  .next ((s.setGr r1 (s.getGr r1 >>> s.shiftAmount b2 d2)).advance 4)

end Sys2Proof.Machine
end

