-- ==== Sys2Proof/Machine/Storage.lean ====
section
/-! DEFINITION. Moving, packing, translating and comparing fields of main memory (40_general_add_to_compare.md R157, R158, R160;
42_general_multiply_to_pack.md R264, R266 to R269, R279; 43_general_subtract_to_xor.md R342, R343, R345). -/

namespace Sys2Proof.Machine

/-! ### Move -/

/-- MVC (R264). -/
def execMvc (l : Byte) (b1 : Reg) (d1 : Disp) (b2 : Reg) (d2 : Disp) (s : State) : Outcome :=
  s.attempt do
    let (t, _) ← s.mapOperands (fun _ b => b) [.write] (l.toNat + 1) b1 (s.ea d1 0 b1) b2 (s.ea d2 0 b2)
    return t.advance 6

/-- MVN (R266): the right halfbytes move. -/
def execMvn (l : Byte) (b1 : Reg) (d1 : Disp) (b2 : Reg) (d2 : Disp) (s : State) : Outcome :=
  s.attempt do
    let (t, _) ← s.mapOperands (fun d b => ofNibs (hiNib d) (loNib b)) [.read, .write] (l.toNat + 1) b1 (s.ea d1 0 b1) b2
      (s.ea d2 0 b2)
    return t.advance 6

/-- MVZ (R267): the left halfbytes move. -/
def execMvz (l : Byte) (b1 : Reg) (d1 : Disp) (b2 : Reg) (d2 : Disp) (s : State) : Outcome :=
  s.attempt do
    let (t, _) ← s.mapOperands (fun d b => ofNibs (hiNib b) (loNib d)) [.read, .write] (l.toNat + 1) b1 (s.ea d1 0 b1) b2
      (s.ea d2 0 b2)
    return t.advance 6

/-- The memory after MVO (R269). -/
def mvoMemory (kd ks : Nat → Nat) (l1 l2 : Nat) (m : List Host.Cell) : List Host.Cell :=
  let s0 := Memory.read m (ks 0)
  let d0 := Memory.read m (kd 0)
  mvoBytes kd ks l2 (l1 - 1) 1 s0 (Memory.write m (kd 0) (ofNibs (loNib s0) (loNib d0)))

/-- The memory after PACK (R279). -/
def packMemory (kd ks : Nat → Nat) (l1 l2 : Nat) (m : List Host.Cell) : List Host.Cell :=
  let s0 := Memory.read m (ks 0)
  packBytes kd ks l2 (l1 - 1) 1 (Memory.write m (kd 0) (ofNibs (loNib s0) (hiNib s0)))

/-- The memory after UNPK (R345). -/
def unpkMemory (kd ks : Nat → Nat) (l1 l2 : Nat) (m : List Host.Cell) : List Host.Cell :=
  let s0 := Memory.read m (ks 0)
  unpkBytes kd ks l2 (l1 - 1) 1 s0 (Memory.write m (kd 0) (ofNibs (loNib s0) (hiNib s0)))

/-- A move from right to left between fields of lengths of their own: the access tests, then the memory that `f` gives
(R269, R279, R345). -/
def State.moveRight (s : State) (f : (Nat → Nat) → (Nat → Nat) → Nat → Nat → List Host.Cell → List Host.Cell)
    (ks1 : List Access) (l1 l2 : Nibble) (b1 : Reg) (d1 : Disp) (b2 : Reg) (d2 : Disp) : Except Interrupt State := do
  let n1 := l1.toNat + 1
  let n2 := l2.toNat + 1
  let (sp1, sp2) ← s.twoOperands b1 (s.ea d1 0 b1) n1 ks1 b2 (s.ea d2 0 b2) n2
  return { s with mem := f (s.keyRight sp1 (s.ea d1 0 b1) n1) (s.keyRight sp2 (s.ea d2 0 b2) n2) n1 n2 s.mem }.advance 6

/-- MVO (R269). -/
def execMvo (l1 l2 : Nibble) (b1 : Reg) (d1 : Disp) (b2 : Reg) (d2 : Disp) (s : State) : Outcome :=
  s.attempt (s.moveRight mvoMemory [.read, .write] l1 l2 b1 d1 b2 d2)

/-- PACK (R279). -/
def execPack (l1 l2 : Nibble) (b1 : Reg) (d1 : Disp) (b2 : Reg) (d2 : Disp) (s : State) : Outcome :=
  s.attempt (s.moveRight packMemory [.write] l1 l2 b1 d1 b2 d2)

/-- UNPK (R345). -/
def execUnpk (l1 l2 : Nibble) (b1 : Reg) (d1 : Disp) (b2 : Reg) (d2 : Disp) (s : State) : Outcome :=
  s.attempt (s.moveRight unpkMemory [.write] l1 l2 b1 d1 b2 d2)

/-! ### Translate -/

/-- The loop of TR: from byte `i` on, `n` argument bytes; the memory reached, and whether every table byte was accessible
(R342). -/
def State.translate (s : State) (sp1 : Space) (a1 : Nat) (sp2 : Except Interrupt Space) (a2 : Nat) :
    Nat → Nat → List Host.Cell → List Host.Cell × Bool
  | 0, _, m => (m, true)
  | n + 1, i, m =>
    match s.tryByte sp2 m (a2 + (Memory.read m (s.key sp1 (a1 + i))).toNat) with
    | some f => State.translate s sp1 a1 sp2 a2 n (i + 1) (Memory.write m (s.key sp1 (a1 + i)) f)
    | none => (m, false)

/-- TR (R342): where a table byte is not accessible, the bytes to its left are translated already
(92_eei_decisions.md D3). -/
def execTr (l : Byte) (b1 : Reg) (d1 : Disp) (b2 : Reg) (d2 : Disp) (s : State) : Outcome :=
  s.attempt do
    let a1 := s.ea d1 0 b1
    let sp1 ← s.reach b1 a1 (l.toNat + 1) [.read, .write]
    let r := s.translate sp1 a1 (s.space b2) (s.ea d2 0 b2) (l.toNat + 1) 0 s.mem
    if r.2 then return { s with mem := r.1 }.advance 6
    else return { s with mem := r.1 }.takeInterrupt .addressTranslation

/-- The loop of TRT: from byte `i` on, the number of the first argument byte with a function byte that is not zero, and that
function byte (R343). -/
def State.scan (s : State) (sp1 : Except Interrupt Space) (a1 : Nat) (sp2 : Except Interrupt Space) (a2 : Nat) :
    Nat → Nat → Except Interrupt (Option (Nat × Byte))
  | 0, _ => .ok none
  | n + 1, i =>
    match s.tryByte sp1 s.mem (a1 + i) with
    | none => .error .addressTranslation
    | some arg =>
      match s.tryByte sp2 s.mem (a2 + arg.toNat) with
      | none => .error .addressTranslation
      | some f => if f = 0 then State.scan s sp1 a1 sp2 a2 n (i + 1) else .ok (some (i, f))

/-- The content of general-purpose register 1 after TRT found a byte at address `a` (R343). -/
def State.foundAt (s : State) (a : Nat) : Word :=
  match s.amode with
  | .a24 => bits (s.getGr 1) 0 8 ++ BitVec.ofNat 24 (s.trunc a)
  | .a31 => (0 : BitVec 1) ++ BitVec.ofNat 31 (s.trunc a)

/-- TRT (R343). -/
def execTrt (l : Byte) (b1 : Reg) (d1 : Disp) (b2 : Reg) (d2 : Disp) (s : State) : Outcome :=
  s.attempt do
    let a1 := s.ea d1 0 b1
    match ← s.scan (s.space b1) a1 (s.space b2) (s.ea d2 0 b2) (l.toNat + 1) 0 with
    | none => return (s.setCc 0).advance 6
    | some (i, f) =>
      return (((s.setGr 1 (s.foundAt (a1 + i))).setGr 2 (bits (s.getGr 2) 0 24 ++ f)).setCc
        (if i = l.toNat then 2 else 1)).advance 6

/-! ### Compare -/

/-- CLC (R157): every byte of both operands is tested. -/
def execClc (l : Byte) (b1 : Reg) (d1 : Disp) (b2 : Reg) (d2 : Disp) (s : State) : Outcome :=
  s.attempt do
    let n := l.toNat + 1
    let a1 := s.ea d1 0 b1
    let a2 := s.ea d2 0 b2
    let (sp1, sp2) ← s.twoOperands b1 a1 n [.read] b2 a2 n
    return (s.setCc (compareCc (beNat (s.getBytes sp1 a1 n)) (beNat (s.getBytes sp2 a2 n)))).advance 6

/-- CLM (R160): with a zero mask one byte is tested for access, and the code is 0. -/
def execClm (r1 : Reg) (m3 : Mask) (b2 : Reg) (d2 : Disp) (s : State) : Outcome :=
  s.attempt do
    let n := maskCount m3
    let a2 := s.ea d2 0 b2
    let sp ← s.reach b2 a2 (max n 1) [.read]
    return (s.setCc (compareCc (beNat (selectBytes (s.getGr r1) m3)) (beNat (s.getBytes sp a2 n)))).advance 4

/-! ### The long operands of CLCL and MVCL -/

/-- How far a long operand has been processed: the next address and the bytes left (R158). -/
structure Long where
  addr : Nat
  left : Nat
deriving DecidableEq, Repr

/-- The long operand of a register pair: the address of the current width, and a 24-bit length (R158). -/
def State.long (s : State) (r : Reg) : Long :=
  { addr := s.trunc (s.getGr r).toNat, left := (bits (s.getGr (r + 1)) 8 24).toNat }

/-- The slack byte (R158). -/
def State.slack (s : State) (r2 : Reg) : Byte :=
  bits (s.getGr (r2 + 1)) 0 8

/-- One byte further, if bytes are left (R158). -/
def State.longNext (s : State) (o : Long) : Long :=
  if o.left = 0 then o else { addr := s.trunc (o.addr + 1), left := o.left - 1 }

/-- The byte to compare: the next byte of the operand, or the slack byte at its end; none where it is not accessible (R158). -/
def State.longByte (s : State) (sp : Except Interrupt Space) (pad : Byte) (o : Long) : Option Byte :=
  if o.left = 0 then some pad else s.tryByte sp s.mem o.addr

/-- Write a register pair back: the address with zeros to its left, and the length with the byte `hi` to its left (R158). -/
def State.setLong (s : State) (r : Reg) (hi : Byte) (o : Long) : State :=
  (s.setGr r (BitVec.ofNat 32 o.addr)).setGr (r + 1) (hi ++ BitVec.ofNat 24 o.left)

/-- Write both pairs back in the order of R158 and R268: R1, R1+1, R2, R2+1. -/
def State.setLongs (s : State) (r1 r2 : Reg) (o1 o2 : Long) : State :=
  (s.setLong r1 (bits (s.getGr (r1 + 1)) 0 8) o1).setLong r2 (s.slack r2) o2

/-- The loop of CLCL (R158): how far it comes, and the code; none where a byte is not accessible. -/
def State.compareLong (s : State) (sp1 sp2 : Except Interrupt Space) (pad : Byte) :
    Nat → Long → Long → Option (Long × Long × CondCode)
  | 0, o1, o2 => some (o1, o2, 0)
  | n + 1, o1, o2 =>
    match s.longByte sp1 pad o1, s.longByte sp2 pad o2 with
    | some x, some y =>
      if x = y then State.compareLong s sp1 sp2 pad n (s.longNext o1) (s.longNext o2)
      else some (o1, o2, if x < y then 1 else 2)
    | _, _ => none

/-- CLCL after an access fault: the four registers and the code hold any value (R158; 92_eei_decisions.md D28). -/
def State.clclUnusable (s : State) (r1 r2 : Reg) : State :=
  (((((s.setGr r1 (s.freeWord 0)).setGr (r1 + 1) (s.freeWord 1)).setGr r2 (s.freeWord 2)).setGr (r2 + 1)
    (s.freeWord 3)).setCc (s.freeCc 4)).draw 5

/-- CLCL (R158). The loop ends when both operands are used up, after at most as many rounds as the longer one has bytes. -/
def execClcl (r1 r2 : Reg) (s : State) : Outcome :=
  if isEven r1 && isEven r2 then
    let o1 := s.long r1
    let o2 := s.long r2
    match s.compareLong (s.space r1) (s.space r2) (s.slack r2) (max o1.left o2.left) o1 o2 with
    | some (p1, p2, c) => .next (((s.setLongs r1 r2 p1 p2).setCc c).advance 2)
    | none => .next ((s.clclUnusable r1 r2).takeInterrupt .addressTranslation)
  else .next (s.takeInterrupt .addressing)

/-- The loop of MVCL: `n` bytes of the receive field; the memory and how far it comes, and whether every byte was accessible.
Where the store is not, the source byte has been counted already (R268). -/
def State.moveLong (s : State) (sp1 sp2 : Except Interrupt Space) (pad : Byte) :
    Nat → List Host.Cell → Long → Long → List Host.Cell × Long × Long × Bool
  | 0, m, o1, o2 => (m, o1, o2, true)
  | n + 1, m, o1, o2 =>
    match if o2.left = 0 then some pad else s.tryByte sp2 m o2.addr with
    | none => (m, o1, o2, false)
    | some b =>
      match s.tryStore sp1 o1.addr with
      | none => (m, o1, s.longNext o2, false)
      | some k => State.moveLong s sp1 sp2 pad n (Memory.write m k b) (s.longNext o1) (s.longNext o2)

/-- Destructive overlap, by the addresses and lengths at the start (R268). -/
def destructive (o1 o2 : Long) : Bool :=
  !(decide (o1.addr ≤ o2.addr) || decide (o1.addr ≥ o2.addr + min o1.left o2.left))

/-- MVCL (R268). -/
def execMvcl (r1 r2 : Reg) (s : State) : Outcome :=
  if isEven r1 && isEven r2 then
    let o1 := s.long r1
    let o2 := s.long r2
    if destructive o1 o2 then .next ((s.setCc 3).advance 2)
    else
      match s.moveLong (s.space r1) (s.space r2) (s.slack r2) o1.left s.mem o1 o2 with
      | (m, p1, p2, ok) =>
        let t := { s.setLongs r1 r2 p1 p2 with mem := m }
        if ok then .next ((t.setCc (compareCc o1.left o2.left)).advance 2)
        else .next (t.takeInterrupt .addressTranslation)
  else .next (s.takeInterrupt .addressing)

end Sys2Proof.Machine
end

