-- ==== Sys2Proof/Machine/System.lean ====
section
/-! DEFINITION. Compare and swap, test and set, the clock and the supervisor call (40_general_add_to_compare.md R161, R162;
43_general_subtract_to_xor.md R340, R344, R366). On one processor the interlocked update is one step and the serialization has
no effect (20_memory.md R72, R73; assumption 9). -/

namespace Sys2Proof.Machine

/-- CS (R161): alignment is always checked; both kinds of access are tested whether or not the store happens. -/
def execCs (r1 r3 b2 : Reg) (d2 : Disp) (s : State) : Outcome :=
  s.attempt do
    let a2 := s.ea d2 0 b2
    alignedAlways a2 4
    let sp ← s.reach b2 a2 4 [.read, .write]
    let w := wordOf (s.getBytes sp a2 4)
    if w = s.getGr r1 then return ((s.putBytes sp a2 (beBytes 4 (s.getGr r3).toNat)).setCc 0).advance 4
    else return ((s.setGr r1 w).setCc 1).advance 4

/-- CDS (R162). -/
def execCds (r1 r3 b2 : Reg) (d2 : Disp) (s : State) : Outcome :=
  s.attempt do
    let a2 := s.ea d2 0 b2
    if isEven r1 && isEven r3 then
      alignedAlways a2 8
      let sp ← s.reach b2 a2 8 [.read, .write]
      let d := dwordOf (s.getBytes sp a2 8)
      if d = s.getPair r1 then return ((s.putBytes sp a2 (beBytes 8 (s.getPair r3).toNat)).setCc 0).advance 4
      else return ((s.setPair r1 d).setCc 1).advance 4
    else .error .addressing

/-- TS (R344): the code is the leftmost bit of the byte, which becomes X'FF'. -/
def execTs (b2 : Reg) (d2 : Disp) (s : State) : Outcome :=
  s.attempt do
    let a2 := s.ea d2 0 b2
    let sp ← s.reach b2 a2 1 [.read, .write]
    return ((s.putBytes sp a2 [0xFF]).setCc (nonzeroCc ((s.getByte sp a2).getMsbD 0))).advance 4

/-- STCK (R366): the clock is stored, and the code is 0 (92_eei_decisions.md D25). -/
def execStck (b2 : Reg) (d2 : Disp) (s : State) : Outcome :=
  s.attempt do
    let now := s.readClock
    let t ← s.storeOperand 0 b2 d2 8 (beBytes 8 now.toNat)
    return ({ t with tod := now }.draw 1 |>.setCc 0).advance 4

/-- SVC (R340): the continuation address is set, and the I field goes to the operating system (R621). -/
def execSvc (imm : Byte) (s : State) : Outcome :=
  .next { s.advance 2 with control := .supervisor imm }

end Sys2Proof.Machine
end

