-- ==== Sys2Proof/Machine/Step.lean ====
section
/-! DEFINITION. One step of the machine, and the placing of a program where the step fetches (20_memory.md R55, 10_state.md R20 to
R22, 60_exceptions.md R610, R615, R621). -/

namespace Sys2Proof.Machine

/-- One step: the program's next instruction, or the operating system's answer to an interrupt or a supervisor call, or the end
of the run. -/
def step (s : State) : Host.Outcome State Fault Refusal :=
  match s.control with
  | .program =>
    match s.fetch s.ia.toNat with
    | .error w => .next (s.takeInterrupt w)
    | .ok bs =>
      match decode bs with
      | .ok i => exec i s
      | .error _ => .next (s.takeInterrupt (s.opcodeError bs))
  | .interrupt w => .next (s.deliver w)
  | .supervisor code => .next (s.service code)
  | .terminated _ => .fault .programEnded

/-- The state with an instruction stored where the next step fetches, its pages allocated and the program running: what BS2000
does when it loads a program (R40; assumption 7). The instruction address is made even, as a fetch needs. -/
def State.withFetchWord (s : State) (nbits w : Nat) : State :=
  let a := s.ia.toNat / 2 * 2
  let page := fun k => { space := .program, page := s.trunc (a + k) / 4096, read := true, write := true, fetch := true : PageEntry }
  let pages := if page 0 = page 5 then [page 0] else [page 0, page 5]
  { s.putBytes .program a (beBytes (nbits / 8) w ++ List.replicate (6 - nbits / 8) 0) with
    ia := BitVec.ofNat 31 a, alloc := pages ++ s.alloc, control := .program }

end Sys2Proof.Machine
end

