-- ==== Sys2Proof/Safety.lean ====
section
/-! DEFINITION. The terms in which statements about instructions and runs are made: when an operand is accessible and aligned, what an
instruction leaves unchanged, and what its result is, said with mathematical integers and bytes and without the operations that
compute it. -/

namespace Sys2Proof.Machine

/-! ### Operands -/

/-- An operand of `n` bytes at `a` with base field `b` lies in space `sp` and allows every kind of access in `ks`
(20_memory.md R53, R56, R63). -/
def State.Accessible (s : State) (b : Reg) (sp : Space) (a n : Nat) (ks : List Access) : Prop :=
  s.space b = .ok sp ∧ ∀ k ∈ ks, s.allocatedAll sp a n k = true

/-- An operand meets its alignment condition on this processor (20_memory.md R57). -/
def State.AlignedTo (s : State) (a n : Nat) : Prop :=
  s.cpu.alignCheck = true → a % n = 0

/-- The byte at `a` of an operand with base field `b` lies in space `sp` and allows the access (20_memory.md R56, R63). -/
abbrev State.ByteAccessible (s : State) (b : Reg) (sp : Space) (a : Nat) (k : Access) : Prop :=
  s.space b = .ok sp ∧ s.allocated sp (s.trunc a) k = true

/-- `sp` is the space of an operand with base field `b`, if there is one: where the ALET does not translate, any space will do,
and no byte is accessible (20_memory.md R63). -/
def State.IsSpace (s : State) (b : Reg) (sp : Space) : Prop :=
  ∀ sp', s.space b = .ok sp' → sp' = sp

/-- Two operands share no byte. -/
def State.Disjoint (s : State) (sp1 : Space) (a1 n1 : Nat) (sp2 : Space) (a2 n2 : Nat) : Prop :=
  ∀ i < n1, ∀ j < n2, s.key sp1 (a1 + i) ≠ s.key sp2 (a2 + j)

/-- Instruction `i` raises X'48' where its operand of `n` bytes at `a` is not accessible though aligned to `al`
(60_exceptions.md R602). -/
def AccessTrap (i : Instr) (s : State) (b : Reg) (a n al : Nat) (ks : List Access) : Prop :=
  s.AlignedTo a al → (∀ sp, ¬ s.Accessible b sp a n ks) → exec i s = .next (s.takeInterrupt .addressTranslation)

/-- Instruction `i` raises X'5C' where its operand is misaligned (60_exceptions.md R605), and X'48' where it is aligned and not
accessible: the two tests in the order in which the rule of the instruction makes them. -/
def OperandTraps (i : Instr) (s : State) (b : Reg) (a n al : Nat) (ks : List Access) : Prop :=
  (¬ s.AlignedTo a al → exec i s = .next (s.takeInterrupt .addressing)) ∧
    AccessTrap i s b a n al ks

/-! ### Frames -/

/-- Every byte of memory reads as before. -/
def SameMemory (s t : State) : Prop :=
  ∀ k, Memory.read t.mem k = Memory.read s.mem k

/-- Every byte of memory reads as before but for the `n` bytes at `a` in space `sp`. -/
def SameMemoryBut (s t : State) (sp : Space) (a n : Nat) : Prop :=
  ∀ k, (∀ i < n, k ≠ s.key sp (a + i)) → Memory.read t.mem k = Memory.read s.mem k

/-- Every register is unchanged but for the general-purpose, access and floating-point registers listed. -/
def SameRegistersBut (s t : State) (grs ars frs : List Reg) : Prop :=
  (∀ r, r ∉ grs → t.getGr r = s.getGr r) ∧ (∀ r, r ∉ ars → t.getAr r = s.getAr r) ∧
    ∀ r, isFpr r = true → r ∉ frs → t.getFr r = s.getFr r

/-- The program mask and both modes are unchanged. -/
def SameModes (s t : State) : Prop :=
  t.pm = s.pm ∧ t.amode = s.amode ∧ t.asc = s.asc

/-- What an Assembler program cannot touch is unchanged (60_exceptions.md R620), and the model's own EX flag. -/
def SameSystem (s t : State) : Prop :=
  t.alloc = s.alloc ∧ t.accessList = s.accessList ∧ t.stxit = s.stxit ∧ t.cpu = s.cpu ∧ t.underEx = s.underEx

/-- No free value was drawn and the clock was not read. -/
def SameOracles (s t : State) : Prop :=
  t.tod = s.tod ∧ t.draws = s.draws

/-- Everything is unchanged but for the registers listed, the condition code, the instruction address, memory, and who executes
next. -/
def Frame (s t : State) (grs ars frs : List Reg) : Prop :=
  SameRegistersBut s t grs ars frs ∧ SameModes s t ∧ SameSystem s t ∧ SameOracles s t

/-- The continuation address: the instruction address plus the instruction's length, which is 4 for the target of EX, truncated
to the addressing mode (10_state.md R21, R22). -/
def State.continuation (s : State) (len : Nat) : Nat :=
  (s.ia.toNat + if s.underEx = true then 4 else len) % 2 ^ s.amode.width

/-- An instruction of `len` bytes ended without an interrupt, storing nothing: it went on to its continuation address, and no
register but those listed changed. -/
def Ended (s t : State) (len : Nat) (grs ars frs : List Reg) : Prop :=
  t.ia.toNat = s.continuation len ∧ t.control = s.control ∧ Frame s t grs ars frs ∧ SameMemory s t

/-- An instruction of `len` bytes ended without an interrupt, storing at most the `n` bytes at `a` in space `sp`. -/
def EndedStoring (s t : State) (len : Nat) (grs ars frs : List Reg) (sp : Space) (a n : Nat) : Prop :=
  t.ia.toNat = s.continuation len ∧ t.control = s.control ∧ Frame s t grs ars frs ∧ SameMemoryBut s t sp a n

/-- A branch instruction of `len` bytes: to `target` if `taken`, else to the continuation address. -/
def Branched (s t : State) (taken : Prop) (target len : Nat) : Prop :=
  (taken → t.ia.toNat = target) ∧ (¬ taken → t.ia.toNat = s.continuation len) ∧ t.control = s.control ∧ t.cc = s.cc ∧
    SameMemory s t

/-- The registers from R1 through R3, wrapping from 15 to 0 (41_general_convert_to_load.md R215). -/
def registersThrough (r1 r3 : Reg) : List Reg :=
  (List.range ((r3 - r1).toNat + 1)).map fun k => r1 + BitVec.ofNat 4 k

/-! ### Fixed-point results -/

/-- The exact result `v` of a signed operation in register `r`: its low-order 32 bits, the condition code of its sign or 3 where
it does not fit, and then the fixed-point overflow if the mask enables it (R130). -/
def FixedResult (s t : State) (r : Reg) (v : Int) (len : Nat) : Prop :=
  let fits := -2 ^ 31 ≤ v ∧ v < 2 ^ 31
  t.getGr r = BitVec.ofInt 32 v ∧
    t.cc = (if ¬ fits then 3 else if v = 0 then 0 else if v < 0 then 1 else 2) ∧
    t.control = (if ¬ fits ∧ s.pm.getMsbD 0 = true then .interrupt .fixedPointOverflow else s.control) ∧
    t.ia.toNat = s.continuation len ∧ Frame s t [r] [] [] ∧ SameMemory s t

/-- The code of a comparison: 0 equal, 1 first operand low, 2 first operand high (R130). -/
def orderCc (x y : Int) : CondCode :=
  if x = y then 0 else if x < y then 1 else 2

/-! ### Bytes read and stored one after the other -/

/-- The source byte with key `k` at the moment when the bytes of the receive field `kd 0`, …, `kd (i - 1)` have been stored: a
byte that was stored by then reads as it does at the end, `t`, since each is stored once; any other as at the start, `s`
(20_memory.md R66). -/
def byteAt (s t : State) (kd : Nat → Nat) (i k : Nat) : Byte :=
  if (List.range i).any (fun j => kd j == k) = true then Memory.read t.mem k else Memory.read s.mem k

/-! ### Packed decimal results -/

/-- A packed field holds a magnitude with the preferred sign (44_decimal.md R400, R401). -/
def PackedHolds (z : List Byte) (mag : Nat) (neg : Prop) : Prop :=
  packedValid z = true ∧ packedMag z = mag ∧ (neg → packedSign z = 0xD) ∧ (¬ neg → packedSign z = 0xC)

/-- The exact result `v` of a decimal operation in the field of `n` bytes at `a`: its low-order digits with the sign of `v`, the
condition code of its sign or 3 where it does not fit, and then the decimal overflow if the mask enables it (R403). -/
def DecimalResult (s t : State) (sp : Space) (a n : Nat) (v : Int) : Prop :=
  let fits := v.natAbs < 10 ^ (2 * n - 1)
  PackedHolds (t.getBytes sp a n) (v.natAbs % 10 ^ (2 * n - 1)) (v < 0) ∧
    t.cc = (if ¬ fits then 3 else if v = 0 then 0 else if v < 0 then 1 else 2) ∧
    t.control = (if ¬ fits ∧ s.pm.getMsbD 1 = true then .interrupt .decimalOverflow else s.control) ∧
    t.ia.toNat = s.continuation 6 ∧ Frame s t [] [] [] ∧ SameMemoryBut s t sp a n

/-! ### Editing, by the manual's table (44_decimal.md R413) -/

/-- The digits of a packed source, each with the answer whether a plus sign follows it in the same byte. -/
def sourceDigits (bs : List Byte) : List (BitVec 4 × Bool) :=
  bs.flatMap fun b =>
    if loNib b ≥ 10 then [(hiNib b, decide (loNib b ≠ 0xB ∧ loNib b ≠ 0xD))] else [(hiNib b, false), (loNib b, false)]

/-- The number of digit selectors and significance starters in a mask. -/
def selectors (mask : List Byte) : Nat :=
  mask.countP fun p => p == 0x20 || p == 0x21

/-- What editing leaves: the receive field, the significance indicator, whether the last number was not zero, and the place of
the digit that last switched the indicator on. -/
structure Edited where
  field : List Byte
  sig : Bool
  nz : Bool
  mark : Option Nat
deriving DecidableEq, Repr

/-- Editing of the mask bytes from place `i` on, row by row of the manual's table. -/
def edited (fill : Byte) : Nat → Edited → List Byte → List (BitVec 4 × Bool) → Edited
  | _, e, [], _ => e
  | i, e, p :: ps, ds =>
    if p = 0x22 then edited fill (i + 1) { e with field := e.field ++ [fill], sig := false, nz := false } ps ds
    else if p = 0x20 ∨ p = 0x21 then
      match ds with
      | [] => e
      | (d, plus) :: ds =>
        if e.sig = false ∧ d = 0 then
          edited fill (i + 1) { e with field := e.field ++ [fill], sig := decide (p = 0x21 ∧ plus = false) } ps ds
        else
          edited fill (i + 1)
            { field := e.field ++ [0xF#4 ++ d], sig := !plus, nz := e.nz || decide (d ≠ 0),
              mark := if e.sig then e.mark else some i } ps ds
    else edited fill (i + 1) { e with field := e.field ++ [if e.sig then p else fill] } ps ds

/-! ### Floating-point results (45_floating_point_arith.md R453, R454) -/

/-- The registers of an operand of format `p`. -/
def fpRegisters (p : Fmt) (r : Reg) : List Reg :=
  match p with
  | .ext => [r, r + 2]
  | _ => [r]

/-- The register holds sign, characteristic modulo 128 and mantissa; the lower portion of an extended number has the same sign
and a characteristic 14 less, modulo 128. -/
def FpHolds (t : State) (p : Fmt) (r : Reg) (neg : Bool) (c : Int) (f : Nat) : Prop :=
  t.readFp p r = { neg := neg, char := c % 128, frac := f } ∧
    (p = .ext → (unpackLong (t.getFr (r + 2))).neg = neg ∧ (unpackLong (t.getFr (r + 2))).char = (c - 14) % 128)

/-- The register holds the genuine zero: all bits of the format are zero. -/
def FpZero (t : State) (p : Fmt) (r : Reg) : Prop :=
  match p with
  | .short => t.getFrs r = 0
  | .long => t.getFr r = 0
  | .ext => t.getFr r = 0 ∧ t.getFr (r + 2) = 0

/-- The exact characteristic `c` and the mantissa `f` of a result that is not zero, after exponent overflow and underflow. -/
def FpResult (s t : State) (p : Fmt) (r : Reg) (neg : Bool) (c : Int) (f : Nat) : Prop :=
  (127 < c → FpHolds t p r neg c f ∧ t.control = .interrupt .exponentOverflow) ∧
    (c < 0 → s.pm.getMsbD 2 = true → FpHolds t p r neg c f ∧ t.control = .interrupt .exponentUnderflow) ∧
    (c < 0 → s.pm.getMsbD 2 = false → FpZero t p r ∧ t.control = s.control) ∧
    (0 ≤ c → c ≤ 127 → FpHolds t p r neg c f ∧ t.control = s.control)

/-- A floating-point instruction of `len` bytes went on, changing no more than the registers of its result; a short result leaves
the right half of its register. -/
def FpFrame (s t : State) (p : Fmt) (r : Reg) (len : Nat) : Prop :=
  t.ia.toNat = s.continuation len ∧ Frame s t [] [] (fpRegisters p r) ∧ SameMemory s t ∧
    (p = .short → bits (t.getFr r) 32 32 = bits (s.getFr r) 32 32)

/-- The signed sum of two mantissas with a guard digit each, aligned to the larger characteristic; the second one is subtracted
if `sub` (R455 steps 1 and 2). -/
def fpSum (x y : Hfp) (sub : Bool) : Int :=
  let m := fun (z : Hfp) => ((z.frac * 16 / 16 ^ (max x.char y.char - z.char).toNat : Nat) : Int)
  (if x.neg = true then -m x else m x) + (if (y.neg ^^ sub) = true then -m y else m y)

/-- The sum or difference of `x` and `y` in register `r` (R455). -/
def FpSumResult (s t : State) (p : Fmt) (r : Reg) (x y : Hfp) (sub norm : Bool) : Prop :=
  let n := p.digits
  let v := fpSum x y sub
  let carry := 16 ^ (n + 1) ≤ v.natAbs
  let c := if carry then max x.char y.char + 1 else max x.char y.char
  let m := if carry then v.natAbs / 16 else v.natAbs
  let zero := if norm = true then m = 0 else m / 16 = 0
  (zero → s.pm.getMsbD 3 = true → FpHolds t p r false c 0 ∧ t.cc = 0 ∧ t.control = .interrupt .significance) ∧
    (zero → s.pm.getMsbD 3 = false → FpZero t p r ∧ t.cc = 0 ∧ t.control = s.control) ∧
    (¬ zero → ∃ k : Nat, (norm = false → k = 0) ∧
      (norm = true → 16 ^ (n - 1) ≤ m * 16 ^ k / 16 ∧ m * 16 ^ k / 16 < 16 ^ n) ∧
      FpResult s t p r (decide (v < 0)) (c - k) (m * 16 ^ k / 16) ∧
      t.cc = (if c - k < 0 ∧ s.pm.getMsbD 2 = false then 0 else if v < 0 then 1 else 2))

end Sys2Proof.Machine
end

