-- ==== Sys2Proof/WellFormed.lean ====
section
/-! DEFINITION. Well-formed instructions: the constraints on register numbers and fields that are part of the validity of an
instruction (30_encoding.md R105, R106), and the features it needs (R4, R551). An ill-formed instruction is executable: it raises
the program interrupt that its rule names. -/

namespace Sys2Proof

open Machine

/-- The constraints of R105 and R106. The length fields hold the length minus 1 (R97). -/
def Instr.wf : Instr → Bool
  | .spm _ => true
  | .balr _ _ => true
  | .bctr _ _ => true
  | .bcr _ _ => true
  | .svc _ => true
  | .bsm _ _ => true
  | .bassm _ _ => true
  | .basr _ _ => true
  | .mvcl r1 r2 => isEven r1 && isEven r2
  | .clcl r1 r2 => isEven r1 && isEven r2
  | .lpr _ _ => true
  | .lnr _ _ => true
  | .ltr _ _ => true
  | .lcr _ _ => true
  | .nr _ _ => true
  | .clr _ _ => true
  | .or _ _ => true
  | .xr _ _ => true
  | .lr _ _ => true
  | .cr _ _ => true
  | .ar _ _ => true
  | .sr _ _ => true
  | .mr r1 _ => isEven r1
  | .dr r1 _ => isEven r1
  | .alr _ _ => true
  | .slr _ _ => true
  | .lpdr r1 r2 => isFpr r1 && isFpr r2
  | .lndr r1 r2 => isFpr r1 && isFpr r2
  | .ltdr r1 r2 => isFpr r1 && isFpr r2
  | .lcdr r1 r2 => isFpr r1 && isFpr r2
  | .hdr r1 r2 => isFpr r1 && isFpr r2
  | .lrdr r1 r2 => isFpr r1 && isFprPair r2
  | .mxr r1 r2 => isFprPair r1 && isFprPair r2
  | .mxdr r1 r2 => isFprPair r1 && isFpr r2
  | .ldr r1 r2 => isFpr r1 && isFpr r2
  | .cdr r1 r2 => isFpr r1 && isFpr r2
  | .adr r1 r2 => isFpr r1 && isFpr r2
  | .sdr r1 r2 => isFpr r1 && isFpr r2
  | .mdr r1 r2 => isFpr r1 && isFpr r2
  | .ddr r1 r2 => isFpr r1 && isFpr r2
  | .awr r1 r2 => isFpr r1 && isFpr r2
  | .swr r1 r2 => isFpr r1 && isFpr r2
  | .lper r1 r2 => isFpr r1 && isFpr r2
  | .lner r1 r2 => isFpr r1 && isFpr r2
  | .lter r1 r2 => isFpr r1 && isFpr r2
  | .lcer r1 r2 => isFpr r1 && isFpr r2
  | .her r1 r2 => isFpr r1 && isFpr r2
  | .lrer r1 r2 => isFpr r1 && isFpr r2
  | .axr r1 r2 => isFprPair r1 && isFprPair r2
  | .sxr r1 r2 => isFprPair r1 && isFprPair r2
  | .ler r1 r2 => isFpr r1 && isFpr r2
  | .cer r1 r2 => isFpr r1 && isFpr r2
  | .aer r1 r2 => isFpr r1 && isFpr r2
  | .ser r1 r2 => isFpr r1 && isFpr r2
  | .mer r1 r2 => isFpr r1 && isFpr r2
  | .der r1 r2 => isFpr r1 && isFpr r2
  | .aur r1 r2 => isFpr r1 && isFpr r2
  | .sur r1 r2 => isFpr r1 && isFpr r2
  | .sth _ _ _ _ => true
  | .la _ _ _ _ => true
  | .stc _ _ _ _ => true
  | .ic _ _ _ _ => true
  | .ex _ _ _ _ => true
  | .bal _ _ _ _ => true
  | .bct _ _ _ _ => true
  | .bc _ _ _ _ => true
  | .lh _ _ _ _ => true
  | .ch _ _ _ _ => true
  | .ah _ _ _ _ => true
  | .sh _ _ _ _ => true
  | .mh _ _ _ _ => true
  | .bas _ _ _ _ => true
  | .cvd _ _ _ _ => true
  | .cvb _ _ _ _ => true
  | .st _ _ _ _ => true
  | .lae _ _ _ _ => true
  | .n _ _ _ _ => true
  | .cl _ _ _ _ => true
  | .o _ _ _ _ => true
  | .x _ _ _ _ => true
  | .l _ _ _ _ => true
  | .c _ _ _ _ => true
  | .a _ _ _ _ => true
  | .s _ _ _ _ => true
  | .m r1 _ _ _ => isEven r1
  | .d r1 _ _ _ => isEven r1
  | .al _ _ _ _ => true
  | .sl _ _ _ _ => true
  | .std r1 _ _ _ => isFpr r1
  | .mxd r1 _ _ _ => isFprPair r1
  | .ld r1 _ _ _ => isFpr r1
  | .cd r1 _ _ _ => isFpr r1
  | .ad r1 _ _ _ => isFpr r1
  | .sd r1 _ _ _ => isFpr r1
  | .md r1 _ _ _ => isFpr r1
  | .dd r1 _ _ _ => isFpr r1
  | .aw r1 _ _ _ => isFpr r1
  | .sw r1 _ _ _ => isFpr r1
  | .ste r1 _ _ _ => isFpr r1
  | .le r1 _ _ _ => isFpr r1
  | .ce r1 _ _ _ => isFpr r1
  | .ae r1 _ _ _ => isFpr r1
  | .se r1 _ _ _ => isFpr r1
  | .me r1 _ _ _ => isFpr r1
  | .de r1 _ _ _ => isFpr r1
  | .au r1 _ _ _ => isFpr r1
  | .su r1 _ _ _ => isFpr r1
  | .bxh _ _ _ _ => true
  | .bxle _ _ _ _ => true
  | .srl _ _ _ => true
  | .sll _ _ _ => true
  | .sra _ _ _ => true
  | .sla _ _ _ => true
  | .srdl r1 _ _ => isEven r1
  | .sldl r1 _ _ => isEven r1
  | .srda r1 _ _ => isEven r1
  | .slda r1 _ _ => isEven r1
  | .stm _ _ _ _ => true
  | .tm _ _ _ => true
  | .mvi _ _ _ => true
  | .ts _ _ => true
  | .ni _ _ _ => true
  | .cli _ _ _ => true
  | .oi _ _ _ => true
  | .xi _ _ _ => true
  | .lm _ _ _ _ => true
  | .lam _ _ _ _ => true
  | .stam _ _ _ _ => true
  | .mc _ _ i2 => decide (i2.toNat ≤ 15)
  | .stck _ _ => true
  | .sac _ _ => true
  | .ipm _ => true
  | .iac _ => true
  | .dxr r1 r2 => isFprPair r1 && isFprPair r2
  | .tar _ _ => true
  | .cpya _ _ => true
  | .sar _ _ => true
  | .ear _ _ => true
  | .cs _ _ _ _ => true
  | .cds r1 r3 _ _ => isEven r1 && isEven r3
  | .clm _ _ _ _ => true
  | .stcm _ _ _ _ => true
  | .icm _ _ _ _ => true
  | .mvn _ _ _ _ _ => true
  | .mvc _ _ _ _ _ => true
  | .mvz _ _ _ _ _ => true
  | .nc _ _ _ _ _ => true
  | .clc _ _ _ _ _ => true
  | .oc _ _ _ _ _ => true
  | .xc _ _ _ _ _ => true
  | .tr _ _ _ _ _ => true
  | .trt _ _ _ _ _ => true
  | .ed _ _ _ _ _ => true
  | .edmk _ _ _ _ _ => true
  | .srp _ i3 _ _ _ _ => decide (i3.toNat ≤ 9)
  | .mvo _ _ _ _ _ _ => true
  | .pack _ _ _ _ _ _ => true
  | .unpk _ _ _ _ _ _ => true
  | .zap _ _ _ _ _ _ => true
  | .cp _ _ _ _ _ _ => true
  | .ap _ _ _ _ _ _ => true
  | .sp _ _ _ _ _ _ => true
  | .mp l1 l2 _ _ _ _ => decide (l2.toNat ≤ 7) && decide (l2.toNat < l1.toNat)
  | .dp l1 l2 _ _ _ _ => decide (l2.toNat ≤ 7) && decide (l2.toNat < l1.toNat)

end Sys2Proof
end

