-- ==== Sys2Proof/Certificates/Slice0/Obligations.lean ====
section
/-! DEFINITION. The statements for the provers. An instruction statement says, for every state and every operand, when the
instruction raises which interrupt, and else that `exec` answers a next state, what that state holds and what it leaves
unchanged. The predicates of the results and frames are those of Sys2Proof/Safety.lean. -/

open Sys2Proof Sys2Proof.Machine

/-! ### The machine as a whole -/

/-- O1. What the spec states of the machine at program start (10_state.md R25, R32, R40): program mask B'1111' and access
registers 0; primary space mode is the spec's decision D6. -/
def Obligations.ResetStatedValues : Prop :=
  State.reset.pm = 0xF ∧ (∀ r, State.reset.getAr r = 0) ∧ State.reset.asc = .primary

/-- O2. The machine at program start is well formed: memory in canonical form, the instruction address within the addressing mode,
no EX in progress. Where it starts and in which mode is the model's choice (log entry 2). -/
def Obligations.ResetWellFormed : Prop :=
  State.reset.wf

/-- O3. Every step from a well-formed state gives a well-formed state: memory keeps its canonical form, the instruction address
fits the addressing mode (R20, R21, R58), no EX is in progress between steps (the model's flag, log entry 8), and a processor
without the 31-bit mode or ESA never enters the mode it lacks (R26, R27). Of the steps that deliver an interrupt or a supervisor
call it holds only because the model takes the operating system's answers to be well-formed states of the same processor: that is
the model's choice, log entry 6. -/
def Obligations.StepKeepsWellFormed : Prop :=
  ∀ s t : State, s.wf → step s = .next t → t.wf

/-- O4. Decoding the encoding of any instruction, with every operand at every value, gives the instruction back, whatever bytes
follow. -/
def Obligations.DecodeEncode : Prop :=
  ∀ (i : Instr) (rest : List Byte), decode (encode i ++ rest) = .ok i

/-- O5. Six bytes begin with an instruction exactly where the first byte is one of the defined values of R101, with a defined
second byte after X'B2'. -/
def Obligations.DefinedOperationCodes : Prop :=
  ∀ b0 b1 b2 b3 b4 b5 : Byte,
    (∃ i, decode [b0, b1, b2, b3, b4, b5] = .ok i) ↔
      ((0x04 ≤ b0 ∧ b0 ≤ 0x07) ∨ (0x0A ≤ b0 ∧ b0 ≤ 0x3F) ∨ (0x40 ≤ b0 ∧ b0 ≤ 0x51) ∨ (0x54 ≤ b0 ∧ b0 ≤ 0x60) ∨
          (0x67 ≤ b0 ∧ b0 ≤ 0x70) ∨ (0x78 ≤ b0 ∧ b0 ≤ 0x7F) ∨ (0x86 ≤ b0 ∧ b0 ≤ 0x98) ∨
          b0 ∈ ([0x9A, 0x9B, 0xAF, 0xB2, 0xBA, 0xBB, 0xBD, 0xBE, 0xBF] : List Byte) ∨ (0xD1 ≤ b0 ∧ b0 ≤ 0xD7) ∨
          (0xDC ≤ b0 ∧ b0 ≤ 0xDF) ∨ (0xF0 ≤ b0 ∧ b0 ≤ 0xF3) ∨ (0xF8 ≤ b0 ∧ b0 ≤ 0xFD)) ∧
        (b0 = 0xB2 → b1 ∈ ([0x05, 0x19, 0x22, 0x24, 0x2D, 0x4C, 0x4D, 0x4E, 0x4F] : List Byte))

/-- O6. Words written out from the machine formats of R91 to R97 decode to the instructions they stand for: AR 15,0; A 1,291(2,3);
LM 14,1,5(6); CLI 4(5),X'A7'; STCK 8(9); IPM 11; MVC 1(256,2),3(4); AP 0(16,1),2(1,3). -/
def Obligations.DecodeWrittenWords : Prop :=
  decode [0x1A, 0xF0] = .ok (.ar 15 0) ∧
    decode [0x5A, 0x12, 0x31, 0x23] = .ok (.a 1 2 3 0x123) ∧
    decode [0x98, 0xE1, 0x60, 0x05] = .ok (.lm 14 1 6 5) ∧
    decode [0x95, 0xA7, 0x50, 0x04] = .ok (.cli 5 4 0xA7) ∧
    decode [0xB2, 0x05, 0x90, 0x08] = .ok (.stck 9 8) ∧
    decode [0xB2, 0x22, 0x00, 0xB0] = .ok (.ipm 11) ∧
    decode [0xD2, 0xFF, 0x20, 0x01, 0x40, 0x03] = .ok (.mvc 0xFF 2 1 4 3) ∧
    decode [0xFA, 0xF0, 0x10, 0x00, 0x30, 0x02] = .ok (.ap 15 0 1 0 3 2)

/-- O7. Where the running program's instruction address is even, the bytes there may be executed and are the encoding of an
instruction, the step is exactly that instruction; and the same for any bytes that were fetched and decode to it. -/
def Obligations.StepRunsInstruction : Prop :=
  (∀ (s : State) (i : Instr), s.control = .program → s.ia.toNat % 2 = 0 →
      s.allocatedAll .program s.ia.toNat (encode i).length .fetch = true →
      s.getBytes .program s.ia.toNat (encode i).length = encode i → step s = exec i s) ∧
    ∀ (s : State) (bs : List Byte) (i : Instr), s.control = .program → s.fetch s.ia.toNat = .ok bs → decode bs = .ok i →
      step s = exec i s

/-- O8. A step of the running program that executes no instruction changes nothing but to take an interrupt: X'5C' at an odd
instruction address (R605), X'48' where the first two bytes or the rest of the instruction may not be executed (R602), and for
bytes that are no instruction X'58', or X'54' if their operation code is a privileged one (R603, R604). That the fetch finds the odd
address, that it is an access of its own kind, and the parameter of privileged codes are the spec's decisions D11, D15 and D5. -/
def Obligations.StepInterruptsBeforeExecution : Prop :=
  ∀ s : State, s.control = .program →
    let a := s.ia.toNat
    let n := ilenOf (s.getByte .program a)
    (a % 2 = 1 → step s = .next (s.takeInterrupt .addressing)) ∧
      (a % 2 = 0 → s.allocatedAll .program a 2 .fetch = false → step s = .next (s.takeInterrupt .addressTranslation)) ∧
      (a % 2 = 0 → s.allocatedAll .program a 2 .fetch = true → s.allocatedAll .program a n .fetch = false →
        step s = .next (s.takeInterrupt .addressTranslation)) ∧
      ∀ e, a % 2 = 0 → s.allocatedAll .program a n .fetch = true → decode (s.getBytes .program a n) = .error e →
        step s = .next (s.takeInterrupt (
          if ∃ p ∈ s.cpu.privilegedOpcodes, p ≠ [] ∧ p <+: s.getBytes .program a n then .privilegedOperation
          else .operationCode))

/-- O9. Without an STXIT task a program interrupt ends the program with its weight, and nothing else changes; an ended program has
no further step. With one, the program goes on with the weight in the rightmost byte of general-purpose register 3, or ends
(R615; the operating system's answer is log entry 6). The weights are those of R601. -/
def Obligations.InterruptDelivery : Prop :=
  (∀ (s : State) (w : Interrupt), s.control = .interrupt w → s.stxit = false →
      step s = .next { s with control := .terminated (some w) }) ∧
    (∀ (s : State) (w : Option Interrupt), s.control = .terminated w → step s = .fault .programEnded) ∧
    (∀ (s : State) (w : Interrupt), s.control = .interrupt w → s.stxit = true →
      ∃ t, step s = .next t ∧
        (t.control = .terminated (some w) ∨ (t.control = .program ∧ bits (t.getGr 3) 24 8 = w.weight))) ∧
    [Interrupt.addressTranslation, .privilegedOperation, .operationCode, .addressing, .data, .exponentOverflow, .division,
        .significance, .exponentUnderflow, .decimalOverflow, .fixedPointOverflow].map Interrupt.weight =
      [0x48, 0x54, 0x58, 0x5C, 0x60, 0x64, 0x68, 0x6C, 0x70, 0x74, 0x78]

/-- O10. No instruction stops the machine: every instruction, also an ill-formed one, has a next state in every state; a step stops
only where the program has ended, and is never refused. -/
def Obligations.EveryInstructionHasNextState : Prop :=
  (∀ (i : Instr) (s : State), ∃ t, exec i s = .next t) ∧
    ∀ s : State, (∃ t, step s = .next t) ∨ ((∃ c, s.control = .terminated c) ∧ step s = .fault .programEnded)

/-- O11. No instruction changes the page allocation or the access list (R620), and no step of the running program does. The same
of the STXIT task, a field that stands for what the operating system keeps (log entry 6), and of the processor's parameters
(log entry 11). -/
def Obligations.ProgramCannotTouchSystem : Prop :=
  (∀ (i : Instr) (s t : State), exec i s = .next t →
      t.alloc = s.alloc ∧ t.accessList = s.accessList ∧ t.stxit = s.stxit ∧ t.cpu = s.cpu) ∧
    ∀ s t : State, s.control = .program → step s = .next t →
      t.alloc = s.alloc ∧ t.accessList = s.accessList ∧ t.stxit = s.stxit ∧ t.cpu = s.cpu

/-- O12. Which instructions write which state, but for EX, which writes what its target does: the addressing mode only BASSM and
BSM (R26), the address-space-control mode only SAC (R27), the program mask only SPM (R25, R614), the access registers only
CPYA, SAR, LAE and LAM (R32), and the condition code none of those whose column in R24 is empty, nor MC. -/
def Obligations.StateWrittenOnlyBy : Prop :=
  ∀ (i : Instr) (s t : State), exec i s = .next t → (encode i).headD 0 ≠ 0x44 →
    ((encode i).headD 0 ∉ ([0x0B, 0x0C] : List Byte) → t.amode = s.amode) ∧
      ((encode i).take 2 ≠ [0xB2, 0x19] → t.asc = s.asc) ∧
      ((encode i).headD 0 ≠ 0x04 → t.pm = s.pm) ∧
      ((encode i).headD 0 ∉ ([0x51, 0x9A] : List Byte) → (encode i).take 2 ∉ ([[0xB2, 0x4D], [0xB2, 0x4E]] : List (List Byte)) →
        t.ar = s.ar) ∧
      ((encode i).headD 0 ∈ ([0x05, 0x06, 0x07, 0x0A, 0x0B, 0x0C, 0x0D, 0x18, 0x1C, 0x1D, 0x24, 0x25, 0x26, 0x27, 0x28, 0x2C,
          0x2D, 0x34, 0x35, 0x38, 0x3C, 0x3D, 0x40, 0x41, 0x42, 0x43, 0x45, 0x46, 0x47, 0x48, 0x4C, 0x4D, 0x4E, 0x4F, 0x50,
          0x51, 0x58, 0x5C, 0x5D, 0x60, 0x67, 0x68, 0x6C, 0x6D, 0x70, 0x78, 0x7C, 0x7D, 0x86, 0x87, 0x88, 0x89, 0x8C, 0x8D,
          0x90, 0x92, 0x98, 0x9A, 0x9B, 0xAF, 0xBE, 0xD1, 0xD2, 0xD3, 0xDC, 0xF1, 0xF2, 0xF3, 0xFC, 0xFD] : List Byte) ∨
        (encode i).take 2 ∈ ([[0xB2, 0x19], [0xB2, 0x22], [0xB2, 0x2D], [0xB2, 0x4D], [0xB2, 0x4E], [0xB2, 0x4F]] :
          List (List Byte)) → t.cc = s.cc)

/-- O13. An ill-formed instruction (R105, R106) changes nothing but to take an interrupt, whatever its operands: X'5C', but X'60'
for an SRP whose rounding digit is above 9 and whose operand is accessible. DXR is asked of a processor with the 31-bit mode only
(O14 says what it does without). The order of the tests is the spec's decision D4. -/
def Obligations.IllFormedRaises : Prop :=
  (∀ (i : Instr) (s : State), i.wf = false → (∀ l1 i3 b1 d1 b2 d2, i ≠ .srp l1 i3 b1 d1 b2 d2) →
      (∀ r1 r2, i = .dxr r1 r2 → s.cpu.has31Bit = true) → exec i s = .next (s.takeInterrupt .addressing)) ∧
    ∀ (s : State) (l1 i3 : Nibble) (b1 : Reg) (d1 : Disp) (b2 : Reg) (d2 : Disp) (sp : Space),
      (Instr.srp l1 i3 b1 d1 b2 d2).wf = false → s.Accessible b1 sp (s.ea d1 0 b1) (l1.toNat + 1) [.read, .write] →
      exec (.srp l1 i3 b1 d1 b2 d2) s = .next (s.takeInterrupt .data)

/-- O14. On a processor without the 31-bit mode BASSM, BSM and DXR raise X'58' (R103, R604); on one without ESA TAR raises X'54'
and the other eight ESA instructions X'58' (R551; the spec's decisions D5 and D27). -/
def Obligations.AbsentFeatures : Prop :=
  ∀ (s : State) (r1 r2 r3 x2 b2 : Reg) (d2 : Disp),
    (s.cpu.has31Bit = false → ∀ i ∈ [Instr.bassm r1 r2, .bsm r1 r2, .dxr r1 r2],
        exec i s = .next (s.takeInterrupt .operationCode)) ∧
      (s.cpu.hasEsa = false → exec (.tar r1 r2) s = .next (s.takeInterrupt .privilegedOperation) ∧
        ∀ i ∈ [Instr.cpya r1 r2, .ear r1 r2, .iac r1, .lae r1 x2 b2 d2, .lam r1 r3 b2 d2, .sac b2 d2, .sar r1 r2,
          .stam r1 r3 b2 d2], exec i s = .next (s.takeInterrupt .operationCode))

/-! ### Fixed point -/

/-- O15. AR and SR (R131, R320): the sum or difference, its condition code, and fixed-point overflow. -/
def Obligations.AddSubtractRegister : Prop :=
  ∀ (s : State) (r1 r2 : Reg) (i : Instr) (v : Int),
    (i, v) ∈ [(Instr.ar r1 r2, (s.getGr r1).toInt + (s.getGr r2).toInt),
      (.sr r1 r2, (s.getGr r1).toInt - (s.getGr r2).toInt)] →
    ∃ t, exec i s = .next t ∧ FixedResult s t r1 v 2

/-- O16. A, AH, S and SH (R132, R133, R321, R322), with an operand of `n` bytes and value `y`. -/
def Obligations.AddSubtractStorage : Prop :=
  ∀ (s : State) (r1 x2 b2 : Reg) (d2 : Disp),
    let a := s.ea d2 x2 b2
    ∀ (i : Instr) (n : Nat) (v : Space → Int),
      (i, n, v) ∈
        ([(.a r1 x2 b2 d2, 4, fun sp => (s.getGr r1).toInt + (wordOf (s.getBytes sp a 4)).toInt),
          (.s r1 x2 b2 d2, 4, fun sp => (s.getGr r1).toInt - (wordOf (s.getBytes sp a 4)).toInt),
          (.ah r1 x2 b2 d2, 2, fun sp => (s.getGr r1).toInt + (BitVec.ofNat 16 (beNat (s.getBytes sp a 2))).toInt),
          (.sh r1 x2 b2 d2, 2, fun sp => (s.getGr r1).toInt - (BitVec.ofNat 16 (beNat (s.getBytes sp a 2))).toInt)] :
          List (Instr × Nat × (Space → Int))) →
      OperandTraps i s b2 a n n [.read] ∧
        ∀ sp, s.AlignedTo a n → s.Accessible b2 sp a n [.read] → ∃ t, exec i s = .next t ∧ FixedResult s t r1 (v sp) 4

/-- O17. ALR, SLR, AL and SL (R134, R135, R323, R324): the result modulo 2^32, the code of a sum by zero and carry, and of a
difference by the order of the operands. No interrupt of the result. -/
def Obligations.AddSubtractLogical : Prop :=
  ∀ (s : State) (r1 r2 x2 b2 : Reg) (d2 : Disp),
    let a := s.ea d2 x2 b2
    let x := (s.getGr r1).toNat
    let sum := fun (t : State) (y : Nat) => (t.getGr r1).toNat = (x + y) % 2 ^ 32 ∧
      t.cc = (if x + y = 0 then 0 else if x + y < 2 ^ 32 then 1 else if x + y = 2 ^ 32 then 2 else 3)
    let difference := fun (t : State) (y : Nat) => (t.getGr r1).toNat = (x + 2 ^ 32 - y) % 2 ^ 32 ∧
      t.cc = (if x < y then 1 else if x = y then 2 else 3)
    (∀ (i : Instr) (res : State → Nat → Prop), (i, res) ∈ [(Instr.alr r1 r2, sum), (.slr r1 r2, difference)] →
        ∃ t, exec i s = .next t ∧ res t (s.getGr r2).toNat ∧ Ended s t 2 [r1] [] []) ∧
      ∀ (i : Instr) (res : State → Nat → Prop), (i, res) ∈ [(Instr.al r1 x2 b2 d2, sum), (.sl r1 x2 b2 d2, difference)] →
        OperandTraps i s b2 a 4 4 [.read] ∧
          ∀ sp, s.AlignedTo a 4 → s.Accessible b2 sp a 4 [.read] →
            ∃ t, exec i s = .next t ∧ res t (wordOf (s.getBytes sp a 4)).toNat ∧ Ended s t 4 [r1] [] []

/-- O18. CR, CLR, C, CH and CL (R152 to R156): the code of the signed or unsigned comparison; no register changes. -/
def Obligations.CompareFixed : Prop :=
  ∀ (s : State) (r1 r2 x2 b2 : Reg) (d2 : Disp),
    let a := s.ea d2 x2 b2
    (∃ t, exec (.cr r1 r2) s = .next t ∧ t.cc = orderCc (s.getGr r1).toInt (s.getGr r2).toInt ∧ Ended s t 2 [] [] []) ∧
      (∃ t, exec (.clr r1 r2) s = .next t ∧ t.cc = orderCc (s.getGr r1).toNat (s.getGr r2).toNat ∧ Ended s t 2 [] [] []) ∧
      ∀ (i : Instr) (n : Nat) (x : Int) (y : Space → Int),
        (i, n, x, y) ∈
          ([(.c r1 x2 b2 d2, 4, (s.getGr r1).toInt, fun sp => (wordOf (s.getBytes sp a 4)).toInt),
            (.ch r1 x2 b2 d2, 2, (s.getGr r1).toInt, fun sp => (BitVec.ofNat 16 (beNat (s.getBytes sp a 2))).toInt),
            (.cl r1 x2 b2 d2, 4, ((s.getGr r1).toNat : Int), fun sp => (beNat (s.getBytes sp a 4) : Int))] :
            List (Instr × Nat × Int × (Space → Int))) →
        OperandTraps i s b2 a n n [.read] ∧
          ∀ sp, s.AlignedTo a n → s.Accessible b2 sp a n [.read] →
            ∃ t, exec i s = .next t ∧ t.cc = orderCc x (y sp) ∧ Ended s t 4 [] [] []

/-- O19. MR, M and MH (R260 to R262): the exact 64-bit product of the odd register and the operand in the register pair; the
low-order 32 bits of the product for MH. An odd R1 of MR and M is X'5C'. The condition code is unchanged. -/
def Obligations.Multiply : Prop :=
  ∀ (s : State) (r1 r2 x2 b2 : Reg) (d2 : Disp),
    let a := s.ea d2 x2 b2
    (r1.toNat % 2 = 1 → ∀ i ∈ [Instr.mr r1 r2, .m r1 x2 b2 d2], exec i s = .next (s.takeInterrupt .addressing)) ∧
      (r1.toNat % 2 = 0 →
        (∃ t, exec (.mr r1 r2) s = .next t ∧ (t.getPair r1).toInt = (s.getGr (r1 + 1)).toInt * (s.getGr r2).toInt ∧
            t.cc = s.cc ∧ Ended s t 2 [r1, r1 + 1] [] []) ∧
          OperandTraps (.m r1 x2 b2 d2) s b2 a 4 4 [.read] ∧
          ∀ sp, s.AlignedTo a 4 → s.Accessible b2 sp a 4 [.read] →
            ∃ t, exec (.m r1 x2 b2 d2) s = .next t ∧
              (t.getPair r1).toInt = (s.getGr (r1 + 1)).toInt * (wordOf (s.getBytes sp a 4)).toInt ∧
              t.cc = s.cc ∧ Ended s t 4 [r1, r1 + 1] [] []) ∧
      OperandTraps (.mh r1 x2 b2 d2) s b2 a 2 2 [.read] ∧
      ∀ sp, s.AlignedTo a 2 → s.Accessible b2 sp a 2 [.read] →
        ∃ t, exec (.mh r1 x2 b2 d2) s = .next t ∧
          t.getGr r1 = BitVec.ofInt 32 ((s.getGr r1).toInt * (BitVec.ofNat 16 (beNat (s.getBytes sp a 2))).toInt) ∧
          t.cc = s.cc ∧ Ended s t 4 [r1] [] []

/-- O20. DR and D (R202, R203): where the divisor is not 0 and the quotient fits, quotient times divisor plus remainder is the
64-bit dividend, the remainder is smaller than the divisor and has the sign of the dividend; else X'68', and nothing changes
(the spec's decision D3). DR with R1 = R2 is always X'68', as the rule's sentence says, also where the quotient would fit: where
the sentence and the rule's algorithm differ, the model takes the sentence (log entry 17). An odd R1 is X'5C'. -/
def Obligations.Divide : Prop :=
  ∀ (s : State) (r1 r2 x2 b2 : Reg) (d2 : Disp),
    let a := s.ea d2 x2 b2
    let n := (s.getPair r1).toInt
    let divided := fun (i : Instr) (d : Int) (len : Nat) =>
      (∀ q r : Int, d ≠ 0 → n = q * d + r → r.natAbs < d.natAbs → 0 ≤ r * n → -2 ^ 31 ≤ q → q < 2 ^ 31 →
          ∃ t, exec i s = .next t ∧ (t.getGr r1).toInt = r ∧ (t.getGr (r1 + 1)).toInt = q ∧ t.cc = s.cc ∧
            Ended s t len [r1, r1 + 1] [] []) ∧
        (d = 0 → exec i s = .next (s.takeInterrupt .division)) ∧
        (∀ q r : Int, d ≠ 0 → n = q * d + r → r.natAbs < d.natAbs → 0 ≤ r * n → ¬ (-2 ^ 31 ≤ q ∧ q < 2 ^ 31) →
          exec i s = .next (s.takeInterrupt .division))
    (r1.toNat % 2 = 1 → ∀ i ∈ [Instr.dr r1 r2, .d r1 x2 b2 d2], exec i s = .next (s.takeInterrupt .addressing)) ∧
      (r1.toNat % 2 = 0 →
        (r1 = r2 → exec (.dr r1 r2) s = .next (s.takeInterrupt .division)) ∧
          (r1 ≠ r2 → divided (.dr r1 r2) (s.getGr r2).toInt 2) ∧ OperandTraps (.d r1 x2 b2 d2) s b2 a 4 4 [.read] ∧
          ∀ sp, s.AlignedTo a 4 → s.Accessible b2 sp a 4 [.read] →
            divided (.d r1 x2 b2 d2) (wordOf (s.getBytes sp a 4)).toInt 4)

/-- O21. CVB and CVD (R200, R201): CVB stores the low-order 32 bits of a valid packed number, with X'68' after it where the number
does not fit, and X'60' for a field that is not valid; CVD stores the register as 15 digits with the sign C or D. -/
def Obligations.Convert : Prop :=
  ∀ (s : State) (r1 x2 b2 : Reg) (d2 : Disp),
    let a := s.ea d2 x2 b2
    OperandTraps (.cvb r1 x2 b2 d2) s b2 a 8 8 [.read] ∧
      OperandTraps (.cvd r1 x2 b2 d2) s b2 a 8 8 [.write] ∧
      (∀ sp, s.AlignedTo a 8 → s.Accessible b2 sp a 8 [.read] →
        let p := s.getBytes sp a 8
        (packedValid p = false → exec (.cvb r1 x2 b2 d2) s = .next (s.takeInterrupt .data)) ∧
          (packedValid p = true →
            ∃ t, exec (.cvb r1 x2 b2 d2) s = .next t ∧ t.getGr r1 = BitVec.ofInt 32 (packedValue p) ∧ t.cc = s.cc ∧
              t.control = (if -2 ^ 31 ≤ packedValue p ∧ packedValue p < 2 ^ 31 then s.control else .interrupt .division) ∧
              t.ia.toNat = s.continuation 4 ∧ Frame s t [r1] [] [] ∧ SameMemory s t)) ∧
      ∀ sp, s.AlignedTo a 8 → s.Accessible b2 sp a 8 [.write] →
        ∃ t, exec (.cvd r1 x2 b2 d2) s = .next t ∧
          PackedHolds (t.getBytes sp a 8) (s.getGr r1).toInt.natAbs ((s.getGr r1).toInt < 0) ∧ t.cc = s.cc ∧
          EndedStoring s t 4 [] [] [] sp a 8

/-! ### Loads, inserts and stores -/

/-- O22. LR, L, LH and LA (R210 to R212, R214): the register, the word of four bytes highest first, the sign-extended halfword,
the address with zeros to its left. The condition code is unchanged. -/
def Obligations.Load : Prop :=
  ∀ (s : State) (r1 r2 x2 b2 : Reg) (d2 : Disp),
    let a := s.ea d2 x2 b2
    (∃ t, exec (.lr r1 r2) s = .next t ∧ t.getGr r1 = s.getGr r2 ∧ t.cc = s.cc ∧ Ended s t 2 [r1] [] []) ∧
      (∃ t, exec (.la r1 x2 b2 d2) s = .next t ∧
          (t.getGr r1).toNat = ((if b2 = 0 then 0 else (s.getGr b2).toNat) + (if x2 = 0 then 0 else (s.getGr x2).toNat) +
            d2.toNat) % 2 ^ s.amode.width ∧ t.cc = s.cc ∧ Ended s t 4 [r1] [] []) ∧
      OperandTraps (.l r1 x2 b2 d2) s b2 a 4 4 [.read] ∧ OperandTraps (.lh r1 x2 b2 d2) s b2 a 2 2 [.read] ∧
      (∀ sp, s.AlignedTo a 4 → s.Accessible b2 sp a 4 [.read] →
        ∃ t, exec (.l r1 x2 b2 d2) s = .next t ∧
          t.getGr r1 = s.getByte sp a ++ s.getByte sp (a + 1) ++ s.getByte sp (a + 2) ++ s.getByte sp (a + 3) ∧
          t.cc = s.cc ∧ Ended s t 4 [r1] [] []) ∧
      ∀ sp, s.AlignedTo a 2 → s.Accessible b2 sp a 2 [.read] →
        ∃ t, exec (.lh r1 x2 b2 d2) s = .next t ∧
          (t.getGr r1).toInt = (s.getByte sp a ++ s.getByte sp (a + 1)).toInt ∧ t.cc = s.cc ∧ Ended s t 4 [r1] [] []

/-- O23. LTR, LCR, LPR and LNR (R213, R216 to R218): the exact value, its code, and fixed-point overflow for the complement of the
least negative number. -/
def Obligations.LoadSigned : Prop :=
  ∀ (s : State) (r1 r2 : Reg) (i : Instr) (v : Int),
    let y := (s.getGr r2).toInt
    (i, v) ∈ [(Instr.ltr r1 r2, y), (.lcr r1 r2, -y), (.lpr r1 r2, (y.natAbs : Int)), (.lnr r1 r2, -(y.natAbs : Int))] →
    ∃ t, exec i s = .next t ∧ FixedResult s t r1 v 2

/-- O24. LM and STM (R215, R339): registers R1 through R3, wrapping from 15 to 0, and consecutive words. All bytes are tested
before a register or a byte changes (the spec's decision D3). The condition code is unchanged. -/
def Obligations.LoadStoreMultiple : Prop :=
  ∀ (s : State) (r1 r3 b2 : Reg) (d2 : Disp),
    let a := s.ea d2 0 b2
    let n := 4 * ((r3 - r1).toNat + 1)
    OperandTraps (.lm r1 r3 b2 d2) s b2 a n 4 [.read] ∧ OperandTraps (.stm r1 r3 b2 d2) s b2 a n 4 [.write] ∧
      (∀ sp, s.AlignedTo a 4 → s.Accessible b2 sp a n [.read] →
        ∃ t, exec (.lm r1 r3 b2 d2) s = .next t ∧
          (∀ k ≤ (r3 - r1).toNat, t.getGr (r1 + BitVec.ofNat 4 k) = wordOf (s.getBytes sp (a + 4 * k) 4)) ∧
          t.cc = s.cc ∧ Ended s t 4 (registersThrough r1 r3) [] []) ∧
      ∀ sp, s.AlignedTo a 4 → s.Accessible b2 sp a n [.write] →
        ∃ t, exec (.stm r1 r3 b2 d2) s = .next t ∧
          (∀ k ≤ (r3 - r1).toNat, wordOf (t.getBytes sp (a + 4 * k) 4) = s.getGr (r1 + BitVec.ofNat 4 k)) ∧
          t.cc = s.cc ∧ EndedStoring s t 4 [] [] [] sp a n

/-- O25. IC, ICM and CLM (R207, R208, R160): with a mask, byte `k` of the register stands against the next byte of the field for
each one in the mask, from left to right. A zero mask still tests one byte (the spec's decision D15) and gives code 0. -/
def Obligations.InsertCompareMask : Prop :=
  ∀ (s : State) (r1 x2 b2 : Reg) (d2 : Disp) (m3 : Mask),
    let a := s.ea d2 0 b2
    let before := fun (k : Nat) => ((List.range k).filter fun j => m3.getMsbD j).length
    let n := before 4
    let regByte := fun (t : State) (k : Nat) => bits (t.getGr r1) (8 * k) 8
    AccessTrap (.ic r1 x2 b2 d2) s b2 (s.ea d2 x2 b2) 1 1 [.read] ∧
      AccessTrap (.icm r1 m3 b2 d2) s b2 a (max n 1) 1 [.read] ∧ AccessTrap (.clm r1 m3 b2 d2) s b2 a (max n 1) 1 [.read] ∧
      (∀ sp, s.Accessible b2 sp (s.ea d2 x2 b2) 1 [.read] →
        ∃ t, exec (.ic r1 x2 b2 d2) s = .next t ∧
          t.getGr r1 = bits (s.getGr r1) 0 24 ++ s.getByte sp (s.ea d2 x2 b2) ∧ t.cc = s.cc ∧ Ended s t 4 [r1] [] []) ∧
      (∀ sp, s.Accessible b2 sp a (max n 1) [.read] →
        ∃ t, exec (.icm r1 m3 b2 d2) s = .next t ∧
          (∀ k < 4, regByte t k = if m3.getMsbD k = true then s.getByte sp (a + before k) else regByte s k) ∧
          t.cc = (if ∀ j < n, s.getByte sp (a + j) = 0 then 0 else if (s.getByte sp a).msb = true then 1 else 2) ∧
          Ended s t 4 [r1] [] []) ∧
      ∀ sp, s.Accessible b2 sp a (max n 1) [.read] →
        let differs := fun (k : Nat) => m3.getMsbD k = true ∧ regByte s k ≠ s.getByte sp (a + before k)
        ∃ t, exec (.clm r1 m3 b2 d2) s = .next t ∧
          ((∀ k < 4, ¬ differs k) → t.cc = 0) ∧
          (∀ k < 4, differs k → (∀ j < k, ¬ differs j) →
            t.cc = if regByte s k < s.getByte sp (a + before k) then 1 else 2) ∧
          Ended s t 4 [] [] []

/-- O26. ST, STH, STC and STCM (R335 to R338): the stored bytes; STCM with a zero mask stores and tests nothing (the spec's
decision D15). The condition code is unchanged. -/
def Obligations.Store : Prop :=
  ∀ (s : State) (r1 x2 b2 : Reg) (d2 : Disp) (m3 : Mask),
    let regByte := fun (k : Nat) => bits (s.getGr r1) (8 * k) 8
    let before := fun (k : Nat) => ((List.range k).filter fun j => m3.getMsbD j).length
    (∀ (i : Instr) (n : Nat), (i, n) ∈ [(Instr.st r1 x2 b2 d2, 4), (.sth r1 x2 b2 d2, 2), (.stc r1 x2 b2 d2, 1)] →
        let a := s.ea d2 x2 b2
        (n = 1 → AccessTrap i s b2 a n 1 [.write]) ∧ (n ≠ 1 → OperandTraps i s b2 a n n [.write]) ∧
          ∀ sp, s.AlignedTo a n → s.Accessible b2 sp a n [.write] →
            ∃ t, exec i s = .next t ∧ (∀ k < n, t.getByte sp (a + k) = regByte (4 - n + k)) ∧ t.cc = s.cc ∧
              EndedStoring s t 4 [] [] [] sp a n) ∧
      (m3 = 0 → ∃ t, exec (.stcm r1 m3 b2 d2) s = .next t ∧ t.cc = s.cc ∧ Ended s t 4 [] [] []) ∧
      (m3 ≠ 0 →
        let a := s.ea d2 0 b2
        AccessTrap (.stcm r1 m3 b2 d2) s b2 a (before 4) 1 [.write] ∧
          ∀ sp, s.Accessible b2 sp a (before 4) [.write] →
            ∃ t, exec (.stcm r1 m3 b2 d2) s = .next t ∧
              (∀ k < 4, m3.getMsbD k = true → t.getByte sp (a + before k) = regByte k) ∧ t.cc = s.cc ∧
              EndedStoring s t 4 [] [] [] sp a (before 4))

/-- O27. IPM and SPM (R209, R330): bits 2 and 3 of the register are the condition code, bits 4 to 7 the program mask. -/
def Obligations.ProgramMask : Prop :=
  ∀ (s : State) (r1 : Reg),
    (∃ t, exec (.ipm r1) s = .next t ∧ bits (t.getGr r1) 0 2 = 0 ∧ bits (t.getGr r1) 2 2 = s.cc ∧
        bits (t.getGr r1) 4 4 = s.pm ∧ bits (t.getGr r1) 8 24 = bits (s.getGr r1) 8 24 ∧ t.cc = s.cc ∧
        Ended s t 4 [r1] [] []) ∧
      ∃ t, exec (.spm r1) s = .next t ∧ t.cc = bits (s.getGr r1) 2 2 ∧ t.pm = bits (s.getGr r1) 4 4 ∧
        t.ia.toNat = s.continuation 2 ∧ t.control = s.control ∧ SameRegistersBut s t [] [] [] ∧ t.amode = s.amode ∧
        t.asc = s.asc ∧ SameSystem s t ∧ SameOracles s t ∧ SameMemory s t

/-! ### Shifts -/

/-- O28. SLL, SRL, SLDL and SRDL (R328, R329, R333, R334): the unsigned number times or divided by 2^n, n being the rightmost
6 bits of the address. The condition code is unchanged; an odd R1 of the double shifts is X'5C'. -/
def Obligations.ShiftLogical : Prop :=
  ∀ (s : State) (r1 b2 : Reg) (d2 : Disp),
    let n := s.ea d2 0 b2 % 64
    (∃ t, exec (.sll r1 b2 d2) s = .next t ∧ (t.getGr r1).toNat = (s.getGr r1).toNat * 2 ^ n % 2 ^ 32 ∧ t.cc = s.cc ∧
        Ended s t 4 [r1] [] []) ∧
      (∃ t, exec (.srl r1 b2 d2) s = .next t ∧ (t.getGr r1).toNat = (s.getGr r1).toNat / 2 ^ n ∧ t.cc = s.cc ∧
        Ended s t 4 [r1] [] []) ∧
      (r1.toNat % 2 = 1 → ∀ i ∈ [Instr.sldl r1 b2 d2, .srdl r1 b2 d2], exec i s = .next (s.takeInterrupt .addressing)) ∧
      (r1.toNat % 2 = 0 →
        (∃ t, exec (.sldl r1 b2 d2) s = .next t ∧ (t.getPair r1).toNat = (s.getPair r1).toNat * 2 ^ n % 2 ^ 64 ∧
            t.cc = s.cc ∧ Ended s t 4 [r1, r1 + 1] [] []) ∧
          ∃ t, exec (.srdl r1 b2 d2) s = .next t ∧ (t.getPair r1).toNat = (s.getPair r1).toNat / 2 ^ n ∧
            t.cc = s.cc ∧ Ended s t 4 [r1, r1 + 1] [] [])

/-- O29. SLA, SRA, SLDA and SRDA (R325 to R327, R331, R332): to the right, the quotient rounded down and its code; to the left,
the exact product where it fits, else the sign with the low-order bits of the magnitude field, code 3 and fixed-point overflow.
An odd R1 of the double shifts is X'5C'. -/
def Obligations.ShiftArithmetic : Prop :=
  ∀ (s : State) (r1 b2 : Reg) (d2 : Disp),
    let n := s.ea d2 0 b2 % 64
    let code := fun (v : Int) => (if v = 0 then 0 else if v < 0 then 1 else 2 : CondCode)
    let left := fun (i : Instr) (w : Nat) (v : Int) (result : State → Int) (rs : List Reg) =>
      let fits := -2 ^ (w - 1) ≤ v * 2 ^ n ∧ v * 2 ^ n < 2 ^ (w - 1)
      ∃ t, exec i s = .next t ∧ (fits → result t = v * 2 ^ n ∧ t.cc = code (v * 2 ^ n) ∧ t.control = s.control) ∧
        (¬ fits → (result t < 0 ↔ v < 0) ∧ result t % 2 ^ (w - 1) = v * 2 ^ n % 2 ^ (w - 1) ∧ t.cc = 3 ∧
          t.control = if s.pm.getMsbD 0 = true then .interrupt .fixedPointOverflow else s.control) ∧
        t.ia.toNat = s.continuation 4 ∧ Frame s t rs [] [] ∧ SameMemory s t
    let right := fun (i : Instr) (v : Int) (result : State → Int) (rs : List Reg) =>
      ∃ t, exec i s = .next t ∧ result t = v / 2 ^ n ∧ t.cc = code (v / 2 ^ n) ∧ Ended s t 4 rs [] []
    left (.sla r1 b2 d2) 32 (s.getGr r1).toInt (fun t => (t.getGr r1).toInt) [r1] ∧
      right (.sra r1 b2 d2) (s.getGr r1).toInt (fun t => (t.getGr r1).toInt) [r1] ∧
      (r1.toNat % 2 = 1 → ∀ i ∈ [Instr.slda r1 b2 d2, .srda r1 b2 d2], exec i s = .next (s.takeInterrupt .addressing)) ∧
      (r1.toNat % 2 = 0 →
        left (.slda r1 b2 d2) 64 (s.getPair r1).toInt (fun t => (t.getPair r1).toInt) [r1, r1 + 1] ∧
          right (.srda r1 b2 d2) (s.getPair r1).toInt (fun t => (t.getPair r1).toInt) [r1, r1 + 1])

/-! ### Branches -/

/-- O30. BALR, BAL, BASR and BAS (R136 to R140): the link register receives the continuation address, in 24-bit mode for BAL and
BALR with length code, condition code and program mask to its left, and else with the mode bit; the target is computed before. -/
def Obligations.BranchAndLink : Prop :=
  ∀ (s : State) (r1 r2 x2 b2 : Reg) (d2 : Disp),
    let target := (s.getGr r2).toNat % 2 ^ s.amode.width
    let linked := fun (t : State) (len : Nat) =>
      match s.amode with
      | .a24 => bits (t.getGr r1) 0 2 = (if len = 2 ∧ s.underEx = false then 1 else 2) ∧ bits (t.getGr r1) 2 2 = s.cc ∧
          bits (t.getGr r1) 4 4 = s.pm ∧ (bits (t.getGr r1) 8 24).toNat = s.continuation len
      | .a31 => bits (t.getGr r1) 0 1 = 1 ∧ (bits (t.getGr r1) 1 31).toNat = s.continuation len
    let saved := fun (t : State) (len : Nat) =>
      bits (t.getGr r1) 0 1 = (match s.amode with | .a24 => 0 | .a31 => 1) ∧
        (bits (t.getGr r1) 1 31).toNat = s.continuation len
    (∃ t, exec (.balr r1 r2) s = .next t ∧ linked t 2 ∧ Branched s t (r2 ≠ 0) target 2 ∧ Frame s t [r1] [] []) ∧
      (∃ t, exec (.bal r1 x2 b2 d2) s = .next t ∧ linked t 4 ∧ Branched s t True (s.ea d2 x2 b2) 4 ∧ Frame s t [r1] [] []) ∧
      (∃ t, exec (.basr r1 r2) s = .next t ∧ saved t 2 ∧ Branched s t (r2 ≠ 0) target 2 ∧ Frame s t [r1] [] []) ∧
      ∃ t, exec (.bas r1 x2 b2 d2) s = .next t ∧ saved t 4 ∧ Branched s t True (s.ea d2 x2 b2) 4 ∧ Frame s t [r1] [] []

/-- O31. BASSM and BSM (R141, R142) on a processor with the 31-bit mode: where R2 is not 0, bit 0 of its old content selects the
mode and bits 1 to 31 are the target, truncated to the new mode; BASSM saves the mode and the continuation address in R1, BSM the
mode in bit 0 of R1 unless R1 is 0. -/
def Obligations.BranchAndSetMode : Prop :=
  ∀ (s : State) (r1 r2 : Reg), s.cpu.has31Bit = true →
    let old := s.getGr r2
    let mode := if bits old 0 1 = 1 then AMode.a31 else AMode.a24
    let bit : BitVec 1 := match s.amode with | .a24 => 0 | .a31 => 1
    let went := fun (t : State) =>
      t.amode = (if r2 = 0 then s.amode else mode) ∧
        Branched s t (r2 ≠ 0) ((bits old 1 31).toNat % 2 ^ mode.width) 2 ∧
        t.pm = s.pm ∧ t.asc = s.asc ∧ SameSystem s t ∧ SameOracles s t
    (∃ t, exec (.bassm r1 r2) s = .next t ∧ bits (t.getGr r1) 0 1 = bit ∧
        (bits (t.getGr r1) 1 31).toNat = s.continuation 2 ∧ SameRegistersBut s t [r1] [] [] ∧ went t) ∧
      ∃ t, exec (.bsm r1 r2) s = .next t ∧
        (r1 = 0 → SameRegistersBut s t [] [] []) ∧
        (r1 ≠ 0 → bits (t.getGr r1) 0 1 = bit ∧ bits (t.getGr r1) 1 31 = bits (s.getGr r1) 1 31 ∧
          SameRegistersBut s t [r1] [] []) ∧ went t

/-- O32. BCR, BC, BCTR and BCT (R143 to R146): the mask bit of the condition code decides; the count goes down by 1 modulo 2^32 and
a count that is not 0 branches; the register forms never branch where R2 is 0. -/
def Obligations.BranchOnConditionAndCount : Prop :=
  ∀ (s : State) (r1 r2 x2 b2 : Reg) (d2 : Disp) (m1 : Mask),
    let target := (s.getGr r2).toNat % 2 ^ s.amode.width
    let selected := (s.cc = 0 ∧ m1.toNat / 8 % 2 = 1) ∨ (s.cc = 1 ∧ m1.toNat / 4 % 2 = 1) ∨
      (s.cc = 2 ∧ m1.toNat / 2 % 2 = 1) ∨ (s.cc = 3 ∧ m1.toNat % 2 = 1)
    (∃ t, exec (.bcr m1 r2) s = .next t ∧ Branched s t (selected ∧ r2 ≠ 0) target 2 ∧ Frame s t [] [] []) ∧
      (∃ t, exec (.bc m1 x2 b2 d2) s = .next t ∧ Branched s t selected (s.ea d2 x2 b2) 4 ∧ Frame s t [] [] []) ∧
      (∃ t, exec (.bctr r1 r2) s = .next t ∧ (t.getGr r1).toNat = ((s.getGr r1).toNat + 2 ^ 32 - 1) % 2 ^ 32 ∧
        Branched s t ((s.getGr r1).toNat ≠ 1 ∧ r2 ≠ 0) target 2 ∧ Frame s t [r1] [] []) ∧
      ∃ t, exec (.bct r1 x2 b2 d2) s = .next t ∧ (t.getGr r1).toNat = ((s.getGr r1).toNat + 2 ^ 32 - 1) % 2 ^ 32 ∧
        Branched s t ((s.getGr r1).toNat ≠ 1) (s.ea d2 x2 b2) 4 ∧ Frame s t [r1] [] []

/-- O33. BXH and BXLE (R150, R151): the sum of R1 and R3 modulo 2^32, compared as a signed number with the old content of the odd
register of R3. -/
def Obligations.BranchOnIndex : Prop :=
  ∀ (s : State) (r1 r3 b2 : Reg) (d2 : Disp),
    let sum := BitVec.ofNat 32 ((s.getGr r1).toNat + (s.getGr r3).toNat)
    let comparand := s.getGr (if r3.toNat % 2 = 0 then r3 + 1 else r3)
    (∃ t, exec (.bxh r1 r3 b2 d2) s = .next t ∧ t.getGr r1 = sum ∧
        Branched s t (sum.toInt > comparand.toInt) (s.ea d2 0 b2) 4 ∧ Frame s t [r1] [] []) ∧
      ∃ t, exec (.bxle r1 r3 b2 d2) s = .next t ∧ t.getGr r1 = sum ∧
        Branched s t (sum.toInt ≤ comparand.toInt) (s.ea d2 0 b2) 4 ∧ Frame s t [r1] [] []

/-! ### Logic, immediate and storage-to-storage instructions -/

/-- O34. NR, OR, XR, N, O and X (R271, R272, R275, R276, R346, R347): every bit of the result, and the code 0 or 1. -/
def Obligations.LogicRegister : Prop :=
  ∀ (s : State) (r1 r2 x2 b2 : Reg) (d2 : Disp),
    let a := s.ea d2 x2 b2
    let done := fun (t : State) (op : Bool → Bool → Bool) (y : Word) (len : Nat) =>
      (∀ k < 32, (t.getGr r1).getLsbD k = op ((s.getGr r1).getLsbD k) (y.getLsbD k)) ∧
        t.cc = (if t.getGr r1 = 0 then 0 else 1) ∧ Ended s t len [r1] [] []
    (∀ (i : Instr) (op : Bool → Bool → Bool), (i, op) ∈ [(Instr.nr r1 r2, and), (.or r1 r2, or), (.xr r1 r2, xor)] →
        ∃ t, exec i s = .next t ∧ done t op (s.getGr r2) 2) ∧
      ∀ (i : Instr) (op : Bool → Bool → Bool),
        (i, op) ∈ [(Instr.n r1 x2 b2 d2, and), (.o r1 x2 b2 d2, or), (.x r1 x2 b2 d2, xor)] →
        OperandTraps i s b2 a 4 4 [.read] ∧
          ∀ sp, s.AlignedTo a 4 → s.Accessible b2 sp a 4 [.read] →
            ∃ t, exec i s = .next t ∧ done t op (wordOf (s.getBytes sp a 4)) 4

/-- O35. NI, OI, XI and MVI (R265, R270, R273, R277, R348): the byte, and the code 0 or 1 for the first three; MVI leaves it. -/
def Obligations.LogicImmediate : Prop :=
  ∀ (s : State) (b1 : Reg) (d1 : Disp) (i2 : Byte),
    let a := s.ea d1 0 b1
    (∀ (i : Instr) (op : Bool → Bool → Bool),
        (i, op) ∈ [(Instr.ni b1 d1 i2, and), (.oi b1 d1 i2, or), (.xi b1 d1 i2, xor)] →
        AccessTrap i s b1 a 1 1 [.read, .write] ∧
          ∀ sp, s.Accessible b1 sp a 1 [.read, .write] →
            ∃ t, exec i s = .next t ∧
              (∀ k < 8, (t.getByte sp a).getLsbD k = op ((s.getByte sp a).getLsbD k) (i2.getLsbD k)) ∧
              t.cc = (if t.getByte sp a = 0 then 0 else 1) ∧ EndedStoring s t 4 [] [] [] sp a 1) ∧
      AccessTrap (.mvi b1 d1 i2) s b1 a 1 1 [.write] ∧
      ∀ sp, s.Accessible b1 sp a 1 [.write] →
        ∃ t, exec (.mvi b1 d1 i2) s = .next t ∧ t.getByte sp a = i2 ∧ t.cc = s.cc ∧ EndedStoring s t 4 [] [] [] sp a 1

/-- O36. CLI, TM and MC (R159, R341, R263): the code of the unsigned comparison; of the bits tested, 0 where all are 0, 3 where all
are 1, else 1, and 0 for a zero mask (the spec's choice); MC up to X'0F' is no operation and above it X'5C' (the spec's decision
D8). -/
def Obligations.TestImmediate : Prop :=
  ∀ (s : State) (b1 : Reg) (d1 : Disp) (i2 : Byte),
    let a := s.ea d1 0 b1
    AccessTrap (.cli b1 d1 i2) s b1 a 1 1 [.read] ∧ AccessTrap (.tm b1 d1 i2) s b1 a 1 1 [.read] ∧
      (∀ sp, s.Accessible b1 sp a 1 [.read] →
        (∃ t, exec (.cli b1 d1 i2) s = .next t ∧ t.cc = orderCc (s.getByte sp a).toNat i2.toNat ∧ Ended s t 4 [] [] []) ∧
          let tested := fun (v : Bool) => ∀ k < 8, i2.getLsbD k = true → (s.getByte sp a).getLsbD k = v
          ∃ t, exec (.tm b1 d1 i2) s = .next t ∧ (tested false → t.cc = 0) ∧ (¬ tested false → tested true → t.cc = 3) ∧
            (¬ tested false → ¬ tested true → t.cc = 1) ∧ Ended s t 4 [] [] []) ∧
      (i2.toNat ≤ 15 → ∃ t, exec (.mc b1 d1 i2) s = .next t ∧ t.cc = s.cc ∧ Ended s t 4 [] [] []) ∧
      (i2.toNat > 15 → exec (.mc b1 d1 i2) s = .next (s.takeInterrupt .addressing))

/-- O37. MVC, MVN, MVZ, NC, OC and XC (R264, R266, R267, R270, R274, R278, R349): from left to right, each byte of operand 1 becomes
the function of itself and of the byte of operand 2 as it is when the bytes to the left have been stored, whatever the overlap;
the code of NC, OC and XC says whether a result byte is not zero. All bytes are tested first. -/
def Obligations.MapBytes : Prop :=
  ∀ (s : State) (l : Byte) (b1 : Reg) (d1 : Disp) (b2 : Reg) (d2 : Disp),
    let a1 := s.ea d1 0 b1
    let a2 := s.ea d2 0 b2
    let n := l.toNat + 1
    ∀ (i : Instr) (ks : List Access) (code : Bool) (f : Byte → Byte → Byte),
      (i, ks, code, f) ∈
        ([(.mvc l b1 d1 b2 d2, [.write], false, fun _ y => y),
          (.mvn l b1 d1 b2 d2, [.read, .write], false, fun x y => hiNib x ++ loNib y),
          (.mvz l b1 d1 b2 d2, [.read, .write], false, fun x y => hiNib y ++ loNib x),
          (.nc l b1 d1 b2 d2, [.read, .write], true, fun x y => x &&& y),
          (.oc l b1 d1 b2 d2, [.read, .write], true, fun x y => x ||| y),
          (.xc l b1 d1 b2 d2, [.read, .write], true, fun x y => x ^^^ y)] :
          List (Instr × List Access × Bool × (Byte → Byte → Byte))) →
      ((∀ sp1 sp2, ¬ (s.Accessible b1 sp1 a1 n ks ∧ s.Accessible b2 sp2 a2 n [.read])) →
          exec i s = .next (s.takeInterrupt .addressTranslation)) ∧
        ∀ sp1 sp2, s.Accessible b1 sp1 a1 n ks → s.Accessible b2 sp2 a2 n [.read] →
          ∃ t, exec i s = .next t ∧
            (∀ k < n, t.getByte sp1 (a1 + k) =
              f (s.getByte sp1 (a1 + k)) (byteAt s t (fun j => s.key sp1 (a1 + j)) k (s.key sp2 (a2 + k)))) ∧
            t.cc = (if code = false then s.cc else if ∀ k < n, t.getByte sp1 (a1 + k) = 0 then 0 else 1) ∧
            EndedStoring s t 6 [] [] [] sp1 a1 n

/-- O38. MVO, PACK and UNPK (R269, R279, R345): from right to left, with the bytes of both operands numbered from the right and
source bytes beyond the field counting as X'00'; each source byte is taken as it is when it is read, whatever the overlap. -/
def Obligations.MoveFromRight : Prop :=
  ∀ (s : State) (l1 l2 : Nibble) (b1 : Reg) (d1 : Disp) (b2 : Reg) (d2 : Disp),
    let a1 := s.ea d1 0 b1
    let a2 := s.ea d2 0 b2
    let n1 := l1.toNat + 1
    let n2 := l2.toNat + 1
    ∀ (i : Instr) (ks : List Access) (f : Byte → (Nat → Nat → Byte) → Nat → Byte),
      (i, ks, f) ∈
        ([(.mvo l1 l2 b1 d1 b2 d2, [.read, .write], fun old src j =>
            if j = 0 then loNib (src 0 0) ++ loNib old else loNib (src j j) ++ hiNib (src (j - 1) (j - 1))),
          (.pack l1 l2 b1 d1 b2 d2, [.write], fun _ src j =>
            if j = 0 then loNib (src 0 0) ++ hiNib (src 0 0) else loNib (src j (2 * j)) ++ loNib (src j (2 * j - 1))),
          (.unpk l1 l2 b1 d1 b2 d2, [.write], fun _ src j =>
            if j = 0 then loNib (src 0 0) ++ hiNib (src 0 0)
            else if j % 2 = 1 then 0xF#4 ++ loNib (src j ((j + 1) / 2)) else 0xF#4 ++ hiNib (src (j - 1) (j / 2)))] :
          List (Instr × List Access × (Byte → (Nat → Nat → Byte) → Nat → Byte))) →
      ((∀ sp1 sp2, ¬ (s.Accessible b1 sp1 a1 n1 ks ∧ s.Accessible b2 sp2 a2 n2 [.read])) →
          exec i s = .next (s.takeInterrupt .addressTranslation)) ∧
        ∀ sp1 sp2, s.Accessible b1 sp1 a1 n1 ks → s.Accessible b2 sp2 a2 n2 [.read] →
          let kd := fun j => s.key sp1 (a1 + (n1 - 1 - j))
          let ks' := fun k => s.key sp2 (a2 + (n2 - 1 - k))
          ∃ t, exec i s = .next t ∧
            (∀ j < n1, Memory.read t.mem (kd j) =
              f (Memory.read s.mem (kd j)) (fun time k => if k < n2 then byteAt s t kd time (ks' k) else 0) j) ∧
            t.cc = s.cc ∧ EndedStoring s t 6 [] [] [] sp1 a1 n1

/-- O39. TR (R342): from left to right, each argument byte becomes the table byte it selects, as that is when the bytes to the left
have been translated. The table bytes addressed are tested as reached (the spec's decision D3): where the table byte of argument
`m` is not accessible, X'48' is taken at the instruction with the first `m` bytes translated. -/
def Obligations.Translate : Prop :=
  ∀ (s : State) (l : Byte) (b1 : Reg) (d1 : Disp) (b2 : Reg) (d2 : Disp),
    let a1 := s.ea d1 0 b1
    let a2 := s.ea d2 0 b2
    let n := l.toNat + 1
    AccessTrap (.tr l b1 d1 b2 d2) s b1 a1 n 1 [.read, .write] ∧
      ∀ sp1, s.Accessible b1 sp1 a1 n [.read, .write] →
        let entry := fun k => a2 + (s.getByte sp1 (a1 + k)).toNat
        let translated := fun (t : State) (sp2 : Space) (m : Nat) =>
          (∀ k < m, t.getByte sp1 (a1 + k) = byteAt s t (fun j => s.key sp1 (a1 + j)) k (s.key sp2 (entry k))) ∧
            Frame s t [] [] [] ∧ SameMemoryBut s t sp1 a1 m ∧ t.cc = s.cc
        (∀ sp2, s.space b2 = .ok sp2 → (∀ k < n, s.allocated sp2 (s.trunc (entry k)) .read = true) →
            ∃ t, exec (.tr l b1 d1 b2 d2) s = .next t ∧ translated t sp2 n ∧ t.ia.toNat = s.continuation 6 ∧
              t.control = s.control) ∧
          (∀ sp2 m, s.space b2 = .ok sp2 → m < n → (∀ k < m, s.allocated sp2 (s.trunc (entry k)) .read = true) →
            s.allocated sp2 (s.trunc (entry m)) .read = false →
            ∃ t, exec (.tr l b1 d1 b2 d2) s = .next t ∧ translated t sp2 m ∧ t.ia = s.ia ∧
              t.control = .interrupt .addressTranslation) ∧
          ((∀ sp2, s.space b2 ≠ .ok sp2) →
            exec (.tr l b1 d1 b2 d2) s = .next (s.takeInterrupt .addressTranslation))

/-- O40. TRT (R343): the first argument byte whose function byte is not zero puts its address in general-purpose register 1 and the
function byte in register 2, with code 2 for the last byte and else 1; where all are zero, the code is 0 and no register changes.
Bytes are tested as reached (the spec's decision D3). -/
def Obligations.TranslateAndTest : Prop :=
  ∀ (s : State) (l : Byte) (b1 : Reg) (d1 : Disp) (b2 : Reg) (d2 : Disp),
    let a1 := s.ea d1 0 b1
    let a2 := s.ea d2 0 b2
    let n := l.toNat + 1
    ((∀ sp1 sp2, ¬ (s.space b1 = .ok sp1 ∧ s.space b2 = .ok sp2)) →
        exec (.trt l b1 d1 b2 d2) s = .next (s.takeInterrupt .addressTranslation)) ∧
      ∀ sp1 sp2, s.space b1 = .ok sp1 → s.space b2 = .ok sp2 →
        let entry := fun k => a2 + (s.getByte sp1 (a1 + k)).toNat
        let reached := fun k => s.allocated sp1 (s.trunc (a1 + k)) .read = true ∧
          s.allocated sp2 (s.trunc (entry k)) .read = true
        let function := fun k => s.getByte sp2 (entry k)
        ((∀ k < n, reached k ∧ function k = 0) →
            ∃ t, exec (.trt l b1 d1 b2 d2) s = .next t ∧ t.cc = 0 ∧ Ended s t 6 [] [] []) ∧
          (∀ m < n, (∀ k < m, reached k ∧ function k = 0) → reached m → function m ≠ 0 →
            ∃ t, exec (.trt l b1 d1 b2 d2) s = .next t ∧
              (match s.amode with
                | .a24 => bits (t.getGr 1) 0 8 = bits (s.getGr 1) 0 8 ∧ (bits (t.getGr 1) 8 24).toNat = (a1 + m) % 2 ^ 24
                | .a31 => bits (t.getGr 1) 0 1 = 0 ∧ (bits (t.getGr 1) 1 31).toNat = (a1 + m) % 2 ^ 31) ∧
              bits (t.getGr 2) 0 24 = bits (s.getGr 2) 0 24 ∧ bits (t.getGr 2) 24 8 = function m ∧
              t.cc = (if m = n - 1 then 2 else 1) ∧ Ended s t 6 [1, 2] [] []) ∧
          ∀ m < n, (∀ k < m, reached k ∧ function k = 0) → ¬ reached m →
            exec (.trt l b1 d1 b2 d2) s = .next (s.takeInterrupt .addressTranslation)

/-- O41. CLC (R157): 0 for equal fields, else 1 or 2 by the first byte that differs. All bytes are tested (the spec's decision
D3). -/
def Obligations.CompareCharacters : Prop :=
  ∀ (s : State) (l : Byte) (b1 : Reg) (d1 : Disp) (b2 : Reg) (d2 : Disp),
    let a1 := s.ea d1 0 b1
    let a2 := s.ea d2 0 b2
    let n := l.toNat + 1
    ((∀ sp1 sp2, ¬ (s.Accessible b1 sp1 a1 n [.read] ∧ s.Accessible b2 sp2 a2 n [.read])) →
        exec (.clc l b1 d1 b2 d2) s = .next (s.takeInterrupt .addressTranslation)) ∧
      ∀ sp1 sp2, s.Accessible b1 sp1 a1 n [.read] → s.Accessible b2 sp2 a2 n [.read] →
        let x := fun k => s.getByte sp1 (a1 + k)
        let y := fun k => s.getByte sp2 (a2 + k)
        ∃ t, exec (.clc l b1 d1 b2 d2) s = .next t ∧ ((∀ k < n, x k = y k) → t.cc = 0) ∧
          (∀ k < n, (∀ j < k, x j = y j) → x k < y k → t.cc = 1) ∧
          (∀ k < n, (∀ j < k, x j = y j) → y k < x k → t.cc = 2) ∧ Ended s t 6 [] [] []

/-- O42. CLCL (R158): the shorter operand counts as padded with the slack byte; the pairs show how far the comparison came, the code
how it ended. Bytes are tested as reached; where one is not accessible, X'48' is taken at the instruction, and nothing is said of
the four registers and the code (the spec's decision D28). Through an ALET that does not translate (D14) no byte is accessible: X'48'
at the first byte reached, and none for an operand of length 0 (log entry 12). An odd R1 or R2 is X'5C'. -/
def Obligations.CompareLong : Prop :=
  ∀ (s : State) (r1 r2 : Reg),
    ((r1.toNat % 2 = 1 ∨ r2.toNat % 2 = 1) → exec (.clcl r1 r2) s = .next (s.takeInterrupt .addressing)) ∧
      ∀ sp1 sp2, r1.toNat % 2 = 0 → r2.toNat % 2 = 0 → s.IsSpace r1 sp1 → s.IsSpace r2 sp2 →
        let a1 := (s.getGr r1).toNat % 2 ^ s.amode.width
        let a2 := (s.getGr r2).toNat % 2 ^ s.amode.width
        let n1 := (bits (s.getGr (r1 + 1)) 8 24).toNat
        let n2 := (bits (s.getGr (r2 + 1)) 8 24).toNat
        let pad := bits (s.getGr (r2 + 1)) 0 8
        let x := fun k => if k < n1 then s.getByte sp1 (a1 + k) else pad
        let y := fun k => if k < n2 then s.getByte sp2 (a2 + k) else pad
        let reached := fun k => (k < n1 → s.ByteAccessible r1 sp1 (a1 + k) .read) ∧
          (k < n2 → s.ByteAccessible r2 sp2 (a2 + k) .read)
        let progress := fun (t : State) (m : Nat) =>
          (t.getGr r1).toNat = (a1 + min m n1) % 2 ^ s.amode.width ∧
            (t.getGr r2).toNat = (a2 + min m n2) % 2 ^ s.amode.width ∧
            bits (t.getGr (r1 + 1)) 0 8 = bits (s.getGr (r1 + 1)) 0 8 ∧
            (bits (t.getGr (r1 + 1)) 8 24).toNat = n1 - min m n1 ∧
            bits (t.getGr (r2 + 1)) 0 8 = pad ∧ (bits (t.getGr (r2 + 1)) 8 24).toNat = n2 - min m n2 ∧
            Ended s t 2 [r1, r1 + 1, r2, r2 + 1] [] []
        ((∀ k < max n1 n2, reached k ∧ x k = y k) →
            ∃ t, exec (.clcl r1 r2) s = .next t ∧ t.cc = 0 ∧ progress t (max n1 n2)) ∧
          (∀ m < max n1 n2, (∀ k < m, reached k ∧ x k = y k) → reached m → x m ≠ y m →
            ∃ t, exec (.clcl r1 r2) s = .next t ∧ t.cc = (if x m < y m then 1 else 2) ∧ progress t m) ∧
          ∀ m < max n1 n2, (∀ k < m, reached k ∧ x k = y k) → ¬ reached m →
            ∃ t, exec (.clcl r1 r2) s = .next t ∧ t.control = .interrupt .addressTranslation ∧ t.ia = s.ia ∧
              SameRegistersBut s t [r1, r1 + 1, r2, r2 + 1] [] [] ∧ SameModes s t ∧ SameSystem s t ∧ SameMemory s t ∧ t.tod = s.tod

/-- O43. MVCL (R268): destructive overlap gives code 3 and changes nothing else; otherwise the receive field takes the source bytes,
each as it is when its turn comes, then slack bytes, the pairs show how far the move came and the code compares the lengths at
the start. Where a byte is not accessible, X'48' is taken at the instruction with the progress written back. An odd R1 or R2 is
X'5C'. The end state where the source is longer and the progress at a fault are the spec's decisions D24 and D28; that the source
pair counts the byte read for a store that faults, and that destructive overlap compares the addresses alone, in whichever spaces the
operands lie, is the model's reading of the rule (log entry 13). Through an ALET that does not translate (D14) no byte is
accessible: X'48' at the first byte reached, and none where no byte is (log entry 12). -/
def Obligations.MoveLong : Prop :=
  ∀ (s : State) (r1 r2 : Reg),
    ((r1.toNat % 2 = 1 ∨ r2.toNat % 2 = 1) → exec (.mvcl r1 r2) s = .next (s.takeInterrupt .addressing)) ∧
      (r1.toNat % 2 = 0 → r2.toNat % 2 = 0 →
        let a1 := (s.getGr r1).toNat % 2 ^ s.amode.width
        let a2 := (s.getGr r2).toNat % 2 ^ s.amode.width
        let n1 := (bits (s.getGr (r1 + 1)) 8 24).toNat
        let n2 := (bits (s.getGr (r2 + 1)) 8 24).toNat
        let pad := bits (s.getGr (r2 + 1)) 0 8
        let m := min n1 n2
        (a2 < a1 → a1 < a2 + m → ∃ t, exec (.mvcl r1 r2) s = .next t ∧ t.cc = 3 ∧ Ended s t 2 [] [] []) ∧
          ∀ sp1 sp2, (a1 ≤ a2 ∨ a2 + m ≤ a1) → s.IsSpace r1 sp1 → s.IsSpace r2 sp2 →
            let writable := fun k => s.ByteAccessible r1 sp1 (a1 + k) .write
            let readable := fun k => k < n2 → s.ByteAccessible r2 sp2 (a2 + k) .read
            let moved := fun (t : State) (k1 k2 : Nat) =>
              (∀ k < k1, t.getByte sp1 (a1 + k) =
                if k < n2 then byteAt s t (fun j => s.key sp1 (a1 + j)) k (s.key sp2 (a2 + k)) else pad) ∧
              (t.getGr r1).toNat = (a1 + k1) % 2 ^ s.amode.width ∧ (t.getGr r2).toNat = (a2 + k2) % 2 ^ s.amode.width ∧
              bits (t.getGr (r1 + 1)) 0 8 = bits (s.getGr (r1 + 1)) 0 8 ∧ (bits (t.getGr (r1 + 1)) 8 24).toNat = n1 - k1 ∧
              bits (t.getGr (r2 + 1)) 0 8 = pad ∧ (bits (t.getGr (r2 + 1)) 8 24).toNat = n2 - k2 ∧
              Frame s t [r1, r1 + 1, r2, r2 + 1] [] [] ∧ SameMemoryBut s t sp1 a1 k1
            ((∀ k < n1, readable k ∧ writable k) →
                ∃ t, exec (.mvcl r1 r2) s = .next t ∧ moved t n1 m ∧ t.cc = orderCc n1 n2 ∧
                  t.ia.toNat = s.continuation 2 ∧ t.control = s.control) ∧
              (r1 ≠ r2 → ∀ k0 < n1, (∀ k < k0, readable k ∧ writable k) → ¬ (readable k0 ∧ writable k0) →
                ∃ t, exec (.mvcl r1 r2) s = .next t ∧
                  ((¬ readable k0 → moved t k0 (min k0 n2)) ∧ (readable k0 → moved t k0 (min (k0 + 1) n2))) ∧
                  t.cc = s.cc ∧ t.ia = s.ia ∧ t.control = .interrupt .addressTranslation))

/-! ### System and EX -/

/-- O44. CS, CDS and TS (R161, R162, R344): equal operands are swapped in with code 0, unequal ones loaded with code 1; both kinds
of access are tested in either case (the spec's decision D15), and alignment on every processor. TS: the code is the leftmost bit
of the byte, which becomes X'FF'. -/
def Obligations.CompareAndSwap : Prop :=
  ∀ (s : State) (r1 r3 b2 : Reg) (d2 : Disp),
    let a := s.ea d2 0 b2
    let traps := fun (i : Instr) (n : Nat) =>
      (a % n ≠ 0 → exec i s = .next (s.takeInterrupt .addressing)) ∧
        (a % n = 0 → (∀ sp, ¬ s.Accessible b2 sp a n [.read, .write]) → exec i s = .next (s.takeInterrupt .addressTranslation))
    traps (.cs r1 r3 b2 d2) 4 ∧ AccessTrap (.ts b2 d2) s b2 a 1 1 [.read, .write] ∧
      ((r1.toNat % 2 = 1 ∨ r3.toNat % 2 = 1) → exec (.cds r1 r3 b2 d2) s = .next (s.takeInterrupt .addressing)) ∧
      (r1.toNat % 2 = 0 → r3.toNat % 2 = 0 → traps (.cds r1 r3 b2 d2) 8) ∧
      (∀ sp, a % 4 = 0 → s.Accessible b2 sp a 4 [.read, .write] →
        ∃ t, exec (.cs r1 r3 b2 d2) s = .next t ∧
          (if wordOf (s.getBytes sp a 4) = s.getGr r1 then
            t.cc = 0 ∧ wordOf (t.getBytes sp a 4) = s.getGr r3 ∧ EndedStoring s t 4 [] [] [] sp a 4
          else t.cc = 1 ∧ t.getGr r1 = wordOf (s.getBytes sp a 4) ∧ Ended s t 4 [r1] [] [])) ∧
      (∀ sp, r1.toNat % 2 = 0 → r3.toNat % 2 = 0 → a % 8 = 0 → s.Accessible b2 sp a 8 [.read, .write] →
        ∃ t, exec (.cds r1 r3 b2 d2) s = .next t ∧
          (if dwordOf (s.getBytes sp a 8) = s.getPair r1 then
            t.cc = 0 ∧ dwordOf (t.getBytes sp a 8) = s.getPair r3 ∧ EndedStoring s t 4 [] [] [] sp a 8
          else t.cc = 1 ∧ t.getPair r1 = dwordOf (s.getBytes sp a 8) ∧ Ended s t 4 [r1, r1 + 1] [] [])) ∧
      ∀ sp, s.Accessible b2 sp a 1 [.read, .write] →
        ∃ t, exec (.ts b2 d2) s = .next t ∧ t.getByte sp a = 0xFF ∧ t.cc = (if (s.getByte sp a).msb = true then 1 else 0) ∧
          EndedStoring s t 4 [] [] [] sp a 1

/-- O45. STCK and SVC (R366, R340, R621): the clock value stored is what the clock now shows and not below what it showed before
(the spec's decisions D9, D25); SVC hands its I field to the operating system with the instruction address at the continuation
address. No step lets the clock go back; of the steps that deliver an interrupt or a supervisor call that holds because the model
takes the operating system's answers so (log entries 5 and 6). -/
def Obligations.ClockAndSupervisorCall : Prop :=
  ∀ (s : State) (b2 : Reg) (d2 : Disp) (imm : Byte),
    let a := s.ea d2 0 b2
    OperandTraps (.stck b2 d2) s b2 a 8 8 [.write] ∧
      (∀ sp, s.AlignedTo a 8 → s.Accessible b2 sp a 8 [.write] →
        ∃ t, exec (.stck b2 d2) s = .next t ∧ dwordOf (t.getBytes sp a 8) = t.tod ∧ s.tod ≤ t.tod ∧ t.cc = 0 ∧
          t.ia.toNat = s.continuation 4 ∧ t.control = s.control ∧ SameRegistersBut s t [] [] [] ∧ SameModes s t ∧
          SameSystem s t ∧ SameMemoryBut s t sp a 8) ∧
      (∃ t, exec (.svc imm) s = .next t ∧ t.control = .supervisor imm ∧ t.ia.toNat = s.continuation 2 ∧ t.cc = s.cc ∧
        Frame s t [] [] [] ∧ SameMemory s t) ∧
      ∀ t, step s = .next t → s.tod ≤ t.tod

/-- O46. EX (R206): the bytes fetched at the even address, the second one linked with bits 24 to 31 of R1 by OR unless the R1 field
is 0, run as the instruction they are, with the continuation address and length code of the EX; the result is the target's, the
EX being over. X'5C' for an odd address or an EX as target, the fetch's interrupt, and X'58' or X'54' for bytes that are no
instruction (the spec's decision D16). -/
def Obligations.Execute : Prop :=
  ∀ (s : State) (r1 x2 b2 : Reg) (d2 : Disp),
    let a := s.ea d2 x2 b2
    let linked := fun (op second : Byte) (rest : List Byte) =>
      op :: (if r1 = 0 then second else second ||| bits (s.getGr r1) 24 8) :: rest
    (a % 2 = 1 → exec (.ex r1 x2 b2 d2) s = .next (s.takeInterrupt .addressing)) ∧
      (a % 2 = 0 → s.allocatedAll .program a (ilenOf (s.getByte .program a)) .fetch = false →
        exec (.ex r1 x2 b2 d2) s = .next (s.takeInterrupt .addressTranslation)) ∧
      ∀ (op second : Byte) (rest : List Byte), s.fetch a = .ok (op :: second :: rest) →
        (op = 0x44 → exec (.ex r1 x2 b2 d2) s = .next (s.takeInterrupt .addressing)) ∧
          (∀ e, op ≠ 0x44 → decode (linked op second rest) = .error e →
            exec (.ex r1 x2 b2 d2) s = .next (s.takeInterrupt (
              if ∃ p ∈ s.cpu.privilegedOpcodes, p ≠ [] ∧ p <+: linked op second rest then .privilegedOperation
              else .operationCode))) ∧
          ∀ i, op ≠ 0x44 → decode (linked op second rest) = .ok i →
            ∃ t, exec i { s with underEx := true } = .next t ∧
              exec (.ex r1 x2 b2 d2) s = .next { t with underEx := false }

/-! ### Decimal instructions -/

/-- O47. AP, SP and ZAP (R402 to R406): the exact sum, difference or source, with the code, the truncation and the decimal overflow
of R403. ZAP with the overlap that R402 forbids gives an unspecified field and code (the spec's decision D22; the direction of the
overlap is log entry 10). -/
def Obligations.DecimalAdd : Prop :=
  ∀ (s : State) (l1 l2 : Nibble) (b1 : Reg) (d1 : Disp) (b2 : Reg) (d2 : Disp) (sp1 sp2 : Space),
    let a1 := s.ea d1 0 b1
    let a2 := s.ea d2 0 b2
    let n1 := l1.toNat + 1
    let n2 := l2.toNat + 1
    let x := s.getBytes sp1 a1 n1
    let y := s.getBytes sp2 a2 n2
    s.Accessible b2 sp2 a2 n2 [.read] → packedValid y = true →
      (∀ (i : Instr) (v : Int), (i, v) ∈ [(Instr.ap l1 l2 b1 d1 b2 d2, packedValue x + packedValue y),
          (.sp l1 l2 b1 d1 b2 d2, packedValue x - packedValue y)] →
        s.Accessible b1 sp1 a1 n1 [.read, .write] → packedValid x = true →
        (s.Disjoint sp1 a1 n1 sp2 a2 n2 ∨ s.trunc (a1 + n1 - 1) = s.trunc (a2 + n2 - 1)) →
        ∃ t, exec i s = .next t ∧ DecimalResult s t sp1 a1 n1 v) ∧
      (s.Accessible b1 sp1 a1 n1 [.write] →
        (s.Disjoint sp1 a1 n1 sp2 a2 n2 ∨ s.rightOf (a2 + n2 - 1) (a1 + n1 - 1) = false →
          ∃ t, exec (.zap l1 l2 b1 d1 b2 d2) s = .next t ∧ DecimalResult s t sp1 a1 n1 (packedValue y)) ∧
        (¬ s.Disjoint sp1 a1 n1 sp2 a2 n2 → s.rightOf (a2 + n2 - 1) (a1 + n1 - 1) = true →
          ∃ t, exec (.zap l1 l2 b1 d1 b2 d2) s = .next t ∧ t.ia.toNat = s.continuation 6 ∧ t.control = s.control ∧
            SameRegistersBut s t [] [] [] ∧ SameModes s t ∧ SameSystem s t ∧ SameMemoryBut s t sp1 a1 n1))

/-- O48. CP (R407): the code of the comparison of the two values; nothing else changes. -/
def Obligations.DecimalCompare : Prop :=
  ∀ (s : State) (l1 l2 : Nibble) (b1 : Reg) (d1 : Disp) (b2 : Reg) (d2 : Disp) (sp1 sp2 : Space),
    let a1 := s.ea d1 0 b1
    let a2 := s.ea d2 0 b2
    let n1 := l1.toNat + 1
    let n2 := l2.toNat + 1
    s.Accessible b1 sp1 a1 n1 [.read] → s.Accessible b2 sp2 a2 n2 [.read] →
      packedValid (s.getBytes sp1 a1 n1) = true → packedValid (s.getBytes sp2 a2 n2) = true →
      (s.Disjoint sp1 a1 n1 sp2 a2 n2 ∨ s.trunc (a1 + n1 - 1) = s.trunc (a2 + n2 - 1)) →
      ∃ t, exec (.cp l1 l2 b1 d1 b2 d2) s = .next t ∧
        t.cc = orderCc (packedValue (s.getBytes sp1 a1 n1)) (packedValue (s.getBytes sp2 a2 n2)) ∧ Ended s t 6 [] [] []

/-- O49. MP and DP (R408, R409): the exact product in the first operand; the quotient in its left L1 − L2 bytes and the remainder in
its right L2 bytes, with quotient times divisor plus remainder the dividend. The signs are algebraic, also of a zero, and the
remainder has the sign of the dividend. The code is unchanged. -/
def Obligations.DecimalMultiplyDivide : Prop :=
  ∀ (s : State) (l1 l2 : Nibble) (b1 : Reg) (d1 : Disp) (b2 : Reg) (d2 : Disp) (sp1 sp2 : Space),
    let a1 := s.ea d1 0 b1
    let a2 := s.ea d2 0 b2
    let n1 := l1.toNat + 1
    let n2 := l2.toNat + 1
    let x := s.getBytes sp1 a1 n1
    let y := s.getBytes sp2 a2 n2
    let differ := packedNeg x ≠ packedNeg y
    n2 ≤ 8 → n2 < n1 → s.Accessible b1 sp1 a1 n1 [.read, .write] → s.Accessible b2 sp2 a2 n2 [.read] →
      packedValid x = true → packedValid y = true →
      (s.Disjoint sp1 a1 n1 sp2 a2 n2 ∨ s.trunc (a1 + n1 - 1) = s.trunc (a2 + n2 - 1)) →
      ((∀ k < n2, s.getByte sp1 (a1 + k) = 0) →
          ∃ t, exec (.mp l1 l2 b1 d1 b2 d2) s = .next t ∧
            PackedHolds (t.getBytes sp1 a1 n1) (packedMag x * packedMag y) differ ∧ t.cc = s.cc ∧
            EndedStoring s t 6 [] [] [] sp1 a1 n1) ∧
        (packedMag y ≠ 0 → packedMag x / packedMag y < 10 ^ (2 * (n1 - n2) - 1) →
          ∃ (t : State) (q r : Nat), exec (.dp l1 l2 b1 d1 b2 d2) s = .next t ∧
            packedMag x = q * packedMag y + r ∧ r < packedMag y ∧
            PackedHolds (t.getBytes sp1 a1 (n1 - n2)) q differ ∧
            PackedHolds (t.getBytes sp1 (a1 + (n1 - n2)) n2) r (packedNeg x = true) ∧ t.cc = s.cc ∧
            EndedStoring s t 6 [] [] [] sp1 a1 n1)

/-- O50. SRP (R412): the magnitude shifted left by up to 31 digits, or right by up to 32 with the rounding digit added to the last
digit shifted out; the sign halfbyte stays; the code by the result, and 3 with decimal overflow where a significant digit is
lost. -/
def Obligations.DecimalShift : Prop :=
  ∀ (s : State) (l1 i3 : Nibble) (b1 : Reg) (d1 : Disp) (b2 : Reg) (d2 : Disp) (sp : Space),
    let a1 := s.ea d1 0 b1
    let n1 := l1.toNat + 1
    let n := 2 * n1 - 1
    let b := s.ea d2 0 b2 % 64
    let x := s.getBytes sp a1 n1
    let m := packedMag x
    let code := fun (r : Nat) => (if r = 0 then 0 else if packedNeg x = true then 1 else 2 : CondCode)
    let field := fun (t : State) (r : Nat) =>
      packedValid (t.getBytes sp a1 n1) = true ∧ packedMag (t.getBytes sp a1 n1) = r ∧
        packedSign (t.getBytes sp a1 n1) = packedSign x ∧ t.ia.toNat = s.continuation 6 ∧ Frame s t [] [] [] ∧
        SameMemoryBut s t sp a1 n1
    s.Accessible b1 sp a1 n1 [.read, .write] → packedValid x = true → i3.toNat ≤ 9 →
      ∃ t, exec (.srp l1 i3 b1 d1 b2 d2) s = .next t ∧
        (b ≤ 31 → m * 10 ^ b < 10 ^ n → field t (m * 10 ^ b) ∧ t.cc = code (m * 10 ^ b) ∧ t.control = s.control) ∧
        (b ≤ 31 → 10 ^ n ≤ m * 10 ^ b → field t (m * 10 ^ b % 10 ^ n) ∧ t.cc = 3 ∧
          t.control = if s.pm.getMsbD 1 = true then .interrupt .decimalOverflow else s.control) ∧
        (31 < b →
          let r := (m / 10 ^ (63 - b) + i3.toNat) / 10
          field t r ∧ t.cc = code r ∧ t.control = s.control)

/-- O51. Operands that AP, SP, CP, ZAP, MP, DP and SRP do not accept raise their interrupt and change nothing (R402, R404 to
R409, R412): X'60' for a field that is not a packed number and for the overlap that R402 forbids, X'60' for a multiplicand without
enough leading zero bytes, X'68' for a zero divisor or a quotient that is too long, X'48' for an operand that is not accessible. -/
def Obligations.DecimalTraps : Prop :=
  ∀ (s : State) (l1 l2 : Nibble) (b1 : Reg) (d1 : Disp) (b2 : Reg) (d2 : Disp),
    let a1 := s.ea d1 0 b1
    let a2 := s.ea d2 0 b2
    let n1 := l1.toNat + 1
    let n2 := l2.toNat + 1
    let accessible := fun (ks : List Access) (sp1 sp2 : Space) =>
      s.Accessible b1 sp1 a1 n1 ks ∧ s.Accessible b2 sp2 a2 n2 [.read]
    let badOverlap := fun (sp1 sp2 : Space) =>
      ¬ s.Disjoint sp1 a1 n1 sp2 a2 n2 ∧ s.trunc (a1 + n1 - 1) ≠ s.trunc (a2 + n2 - 1)
    (∀ (i : Instr) (ks : List Access) (lengths : Prop),
        (i, ks, lengths) ∈
          ([(.ap l1 l2 b1 d1 b2 d2, [.read, .write], True), (.sp l1 l2 b1 d1 b2 d2, [.read, .write], True),
            (.cp l1 l2 b1 d1 b2 d2, [.read], True), (.mp l1 l2 b1 d1 b2 d2, [.read, .write], n2 ≤ 8 ∧ n2 < n1),
            (.dp l1 l2 b1 d1 b2 d2, [.read, .write], n2 ≤ 8 ∧ n2 < n1)] : List (Instr × List Access × Prop)) →
        lengths →
        ((∀ sp1 sp2, ¬ accessible ks sp1 sp2) → exec i s = .next (s.takeInterrupt .addressTranslation)) ∧
          ∀ sp1 sp2, accessible ks sp1 sp2 →
            (packedValid (s.getBytes sp1 a1 n1) = false ∨ packedValid (s.getBytes sp2 a2 n2) = false ∨ badOverlap sp1 sp2) →
            exec i s = .next (s.takeInterrupt .data)) ∧
      ((∀ sp1 sp2, ¬ accessible [.write] sp1 sp2) →
        exec (.zap l1 l2 b1 d1 b2 d2) s = .next (s.takeInterrupt .addressTranslation)) ∧
      (∀ sp1 sp2, accessible [.write] sp1 sp2 → packedValid (s.getBytes sp2 a2 n2) = false →
        exec (.zap l1 l2 b1 d1 b2 d2) s = .next (s.takeInterrupt .data)) ∧
      (AccessTrap (.srp l1 l2 b1 d1 b2 d2) s b1 a1 n1 1 [.read, .write] ∧
        ∀ sp, s.Accessible b1 sp a1 n1 [.read, .write] → packedValid (s.getBytes sp a1 n1) = false →
          exec (.srp l1 l2 b1 d1 b2 d2) s = .next (s.takeInterrupt .data)) ∧
      ∀ sp1 sp2, n2 ≤ 8 → n2 < n1 → accessible [.read, .write] sp1 sp2 →
        packedValid (s.getBytes sp1 a1 n1) = true → packedValid (s.getBytes sp2 a2 n2) = true → ¬ badOverlap sp1 sp2 →
        ((∃ k < n2, s.getByte sp1 (a1 + k) ≠ 0) → exec (.mp l1 l2 b1 d1 b2 d2) s = .next (s.takeInterrupt .data)) ∧
          ((packedMag (s.getBytes sp2 a2 n2) = 0 ∨
              10 ^ (2 * (n1 - n2) - 1) ≤ packedMag (s.getBytes sp1 a1 n1) / packedMag (s.getBytes sp2 a2 n2)) →
            exec (.dp l1 l2 b1 d1 b2 d2) s = .next (s.takeInterrupt .division))

/-- O52. ED and EDMK (R410, R411, R413): where the mask may be read and written and the `m` source bytes, apart from it, hold a
digit for each selector and starter, the receive field is the mask edited by the manual's table, the code tells the last number,
and EDMK puts the address of the digit that last switched significance on in general-purpose register 1, if there is one (the
spec's decision D29). Where the mask wants more digits, the next source byte decides: if it is not accessible, X'48', and if its left
halfbyte is above 9, X'60', at the instruction, with the receive bytes and register 1 as far as editing came and the code unchanged
(D3); if it is a byte of the mask, the instruction ends with the receive field, the code and, for EDMK, register 1 open and all
else unchanged (D20). Through an ALET that does not translate no source byte is accessible, and none is tested where the mask wants
no digit (log entry 12). -/
def Obligations.Edit : Prop :=
  ∀ (s : State) (l : Byte) (b1 : Reg) (d1 : Disp) (b2 : Reg) (d2 : Disp),
    let a1 := s.ea d1 0 b1
    let a2 := s.ea d2 0 b2
    let n := l.toNat + 1
    AccessTrap (.ed l b1 d1 b2 d2) s b1 a1 n 1 [.read, .write] ∧
      AccessTrap (.edmk l b1 d1 b2 d2) s b1 a1 n 1 [.read, .write] ∧
      ∀ (sp1 sp2 : Space) (m : Nat), s.Accessible b1 sp1 a1 n [.read, .write] → s.IsSpace b2 sp2 →
        (∀ k < m, s.ByteAccessible b2 sp2 (a2 + k) .read ∧ hiNib (s.getByte sp2 (a2 + k)) ≤ 9) →
        s.Disjoint sp1 a1 n sp2 a2 m →
        let mask := s.getBytes sp1 a1 n
        let digits := sourceDigits (s.getBytes sp2 a2 m)
        let e := edited (s.getByte sp1 a1) 0 { field := [], sig := false, nz := false, mark := none } mask digits
        let marked := fun (t : State) =>
          match e.mark, s.amode with
          | none, _ => t.getGr 1 = s.getGr 1
          | some k, .a24 => bits (t.getGr 1) 0 8 = bits (s.getGr 1) 0 8 ∧ (bits (t.getGr 1) 8 24).toNat = (a1 + k) % 2 ^ 24
          | some k, .a31 => bits (t.getGr 1) 0 1 = bits (s.getGr 1) 0 1 ∧ (bits (t.getGr 1) 1 31).toNat = (a1 + k) % 2 ^ 31
        let done := fun (t : State) (grs : List Reg) =>
          t.getBytes sp1 a1 n = e.field ∧ t.cc = (if e.nz = false then 0 else if e.sig = true then 1 else 2) ∧
            EndedStoring s t 6 grs [] [] sp1 a1 n
        let stopped := fun (w : Interrupt) (t : State) (grs : List Reg) =>
          t.getBytes sp1 a1 e.field.length = e.field ∧ t.cc = s.cc ∧ t.ia = s.ia ∧ t.control = .interrupt w ∧
            Frame s t grs [] [] ∧ SameMemoryBut s t sp1 a1 e.field.length
        let stops := fun (w : Interrupt) =>
          (∃ t, exec (.ed l b1 d1 b2 d2) s = .next t ∧ stopped w t []) ∧
            ∃ t, exec (.edmk l b1 d1 b2 d2) s = .next t ∧ stopped w t [1] ∧ marked t
        let unpredictable := fun (t : State) (grs : List Reg) =>
          t.ia.toNat = s.continuation 6 ∧ t.control = s.control ∧ SameRegistersBut s t grs [] [] ∧ SameModes s t ∧
            SameSystem s t ∧ SameMemoryBut s t sp1 a1 n ∧ t.tod = s.tod
        let overlap := s.space b2 = .ok sp2 ∧ ∃ j < n, s.key sp1 (a1 + j) = s.key sp2 (a2 + m)
        (selectors mask ≤ digits.length →
            (∃ t, exec (.ed l b1 d1 b2 d2) s = .next t ∧ done t []) ∧
              ∃ t, exec (.edmk l b1 d1 b2 d2) s = .next t ∧ done t [1] ∧ marked t) ∧
          (digits.length < selectors mask →
            (¬ overlap → ¬ s.ByteAccessible b2 sp2 (a2 + m) .read → stops .addressTranslation) ∧
              (¬ overlap → s.ByteAccessible b2 sp2 (a2 + m) .read → 9 < hiNib (s.getByte sp2 (a2 + m)) → stops .data) ∧
              (overlap → (∃ t, exec (.ed l b1 d1 b2 d2) s = .next t ∧ unpredictable t []) ∧
                ∃ t, exec (.edmk l b1 d1 b2 d2) s = .next t ∧ unpredictable t [1]))

/-! ### Floating point -/

/-- O53. The ten register forms of floating-point addition and subtraction (R455, R456, R458, R460, R461, R463, R486, R488, R490,
R491, R493): the aligned sum, normalized or not, truncated after the guard digit; significance, exponent overflow and underflow;
an invalid register number is X'5C'. -/
def Obligations.FloatAddRegister : Prop :=
  ∀ (s : State) (r1 r2 : Reg) (i : Instr) (p : Fmt) (sub norm : Bool),
    (i, p, sub, norm) ∈
      [(Instr.aer r1 r2, Fmt.short, false, true), (.adr r1 r2, .long, false, true), (.axr r1 r2, .ext, false, true),
        (.aur r1 r2, .short, false, false), (.awr r1 r2, .long, false, false), (.ser r1 r2, .short, true, true),
        (.sdr r1 r2, .long, true, true), (.sxr r1 r2, .ext, true, true), (.sur r1 r2, .short, true, false),
        (.swr r1 r2, .long, true, false)] →
    (i.wf = false → exec i s = .next (s.takeInterrupt .addressing)) ∧
      (i.wf = true →
        ∃ t, exec i s = .next t ∧ FpSumResult s t p r1 (s.readFp p r1) (s.readFp p r2) sub norm ∧ FpFrame s t p r1 2)

/-- O54. The eight storage forms of floating-point addition and subtraction (R455, R457, R459, R462, R464, R487, R489, R492, R494),
and CE, CD, CER and CDR (R465 to R469): the code of the aligned difference, with nothing stored. -/
def Obligations.FloatAddStorageAndCompare : Prop :=
  ∀ (s : State) (r1 r2 x2 b2 : Reg) (d2 : Disp),
    let a := s.ea d2 x2 b2
    let size := fun (p : Fmt) => if p = .short then 4 else 8
    let operand := fun (p : Fmt) (sp : Space) =>
      if p = .short then unpackShort (wordOf (s.getBytes sp a 4)) else unpackLong (dwordOf (s.getBytes sp a 8))
    (∀ (i : Instr) (p : Fmt) (sub norm : Bool),
        (i, p, sub, norm) ∈
          [(Instr.ae r1 x2 b2 d2, Fmt.short, false, true), (.ad r1 x2 b2 d2, .long, false, true),
            (.au r1 x2 b2 d2, .short, false, false), (.aw r1 x2 b2 d2, .long, false, false),
            (.se r1 x2 b2 d2, .short, true, true), (.sd r1 x2 b2 d2, .long, true, true),
            (.su r1 x2 b2 d2, .short, true, false), (.sw r1 x2 b2 d2, .long, true, false)] →
        i.wf = true →
        OperandTraps i s b2 a (size p) (size p) [.read] ∧
          ∀ sp, s.AlignedTo a (size p) → s.Accessible b2 sp a (size p) [.read] →
            ∃ t, exec i s = .next t ∧ FpSumResult s t p r1 (s.readFp p r1) (operand p sp) sub norm ∧ FpFrame s t p r1 4) ∧
      (∀ (i : Instr) (p : Fmt), (i, p) ∈ [(Instr.ce r1 x2 b2 d2, Fmt.short), (.cd r1 x2 b2 d2, .long)] → i.wf = true →
        OperandTraps i s b2 a (size p) (size p) [.read] ∧
          ∀ sp, s.AlignedTo a (size p) → s.Accessible b2 sp a (size p) [.read] →
            ∃ t, exec i s = .next t ∧ t.cc = orderCc (fpSum (s.readFp p r1) (operand p sp) true) 0 ∧ Ended s t 4 [] [] []) ∧
      ∀ (i : Instr) (p : Fmt), (i, p) ∈ [(Instr.cer r1 r2, Fmt.short), (.cdr r1 r2, .long)] → i.wf = true →
        ∃ t, exec i s = .next t ∧ t.cc = orderCc (fpSum (s.readFp p r1) (s.readFp p r2) true) 0 ∧ Ended s t 2 [] [] []

/-- O55. MER, MDR, MXDR, MXR, ME, MD and MXD (R470 to R477): for operands that are not zero, the normalized product of the operand
format truncated to the digits of the product format, of the algebraic sign; for a zero operand the genuine zero. The code is
unchanged. -/
def Obligations.FloatMultiply : Prop :=
  ∀ (s : State) (r1 r2 x2 b2 : Reg) (d2 : Disp),
    let a := s.ea d2 x2 b2
    let size := fun (p : Fmt) => if p = .short then 4 else 8
    let operand := fun (p : Fmt) (sp : Space) =>
      if p = .short then unpackShort (wordOf (s.getBytes sp a 4)) else unpackLong (dwordOf (s.getBytes sp a 8))
    let product := fun (t : State) (p q : Fmt) (y : Hfp) =>
      let x := s.readFp p r1
      (x.frac = 0 ∨ y.frac = 0 → FpZero t q r1 ∧ t.control = s.control) ∧
        (x.frac ≠ 0 → y.frac ≠ 0 → ∃ k : Nat,
          let f := x.frac * y.frac * 16 ^ k * 16 ^ q.digits / 16 ^ (2 * p.digits)
          16 ^ (q.digits - 1) ≤ f ∧ f < 16 ^ q.digits ∧
            FpResult s t q r1 (x.neg ^^ y.neg) (x.char + y.char - 64 - k) f) ∧ t.cc = s.cc
    (∀ (i : Instr) (p q : Fmt),
        (i, p, q) ∈ [(Instr.mer r1 r2, Fmt.short, Fmt.long), (.mdr r1 r2, .long, .long), (.mxdr r1 r2, .long, .ext),
          (.mxr r1 r2, .ext, .ext)] → i.wf = true →
        ∃ t, exec i s = .next t ∧ product t p q (s.readFp p r2) ∧ FpFrame s t q r1 2) ∧
      ∀ (i : Instr) (p q : Fmt),
        (i, p, q) ∈ [(Instr.me r1 x2 b2 d2, Fmt.short, Fmt.long), (.md r1 x2 b2 d2, .long, .long),
          (.mxd r1 x2 b2 d2, .long, .ext)] → i.wf = true →
        OperandTraps i s b2 a (size p) (size p) [.read] ∧
          ∀ sp, s.AlignedTo a (size p) → s.Accessible b2 sp a (size p) [.read] →
            ∃ t, exec i s = .next t ∧ product t p q (operand p sp) ∧ FpFrame s t q r1 4

/-- O56. DER, DDR, DXR, DE, DD, HER and HDR (R478 to R485): for operands that are not zero, the normalized quotient truncated to the
digits of the format; X'68' for a divisor of mantissa 0, changing nothing (the spec's decision D3); the genuine zero for a dividend
of mantissa 0; half of the operand, normalized and truncated after the guard digit. The code is unchanged. DXR is asked of a
processor with the 31-bit mode only (O14 says what it does without). -/
def Obligations.FloatDivideHalve : Prop :=
  ∀ (s : State) (r1 r2 x2 b2 : Reg) (d2 : Disp),
    let a := s.ea d2 x2 b2
    let size := fun (p : Fmt) => if p = .short then 4 else 8
    let operand := fun (p : Fmt) (sp : Space) =>
      if p = .short then unpackShort (wordOf (s.getBytes sp a 4)) else unpackLong (dwordOf (s.getBytes sp a 8))
    let quotient := fun (i : Instr) (p : Fmt) (y : Hfp) (len : Nat) =>
      let x := s.readFp p r1
      (y.frac = 0 → exec i s = .next (s.takeInterrupt .division)) ∧
        (y.frac ≠ 0 → x.frac = 0 → ∃ t, exec i s = .next t ∧ FpZero t p r1 ∧ t.control = s.control ∧ t.cc = s.cc ∧
          FpFrame s t p r1 len) ∧
        (y.frac ≠ 0 → x.frac ≠ 0 → ∃ (t : State) (k : Nat),
          let f := x.frac * 16 ^ k / y.frac
          exec i s = .next t ∧ 16 ^ (p.digits - 1) ≤ f ∧ f < 16 ^ p.digits ∧
            FpResult s t p r1 (x.neg ^^ y.neg) (x.char - y.char + 64 + p.digits - k) f ∧ t.cc = s.cc ∧ FpFrame s t p r1 len)
    (∀ (i : Instr) (p : Fmt) (len : Nat),
        (i, p, len) ∈ [(Instr.der r1 r2, Fmt.short, 2), (.ddr r1 r2, .long, 2), (.dxr r1 r2, .ext, 4)] → i.wf = true →
        (i = .dxr r1 r2 → s.cpu.has31Bit = true) → quotient i p (s.readFp p r2) len) ∧
      (∀ (i : Instr) (p : Fmt), (i, p) ∈ [(Instr.de r1 x2 b2 d2, Fmt.short), (.dd r1 x2 b2 d2, .long)] → i.wf = true →
        OperandTraps i s b2 a (size p) (size p) [.read] ∧
          ∀ sp, s.AlignedTo a (size p) → s.Accessible b2 sp a (size p) [.read] → quotient i p (operand p sp) 4) ∧
      ∀ (i : Instr) (p : Fmt), (i, p) ∈ [(Instr.her r1 r2, Fmt.short), (.hdr r1 r2, .long)] → i.wf = true →
        let x := s.readFp p r2
        ∃ t, exec i s = .next t ∧ t.cc = s.cc ∧ FpFrame s t p r1 2 ∧
          (x.frac = 0 → FpZero t p r1 ∧ t.control = s.control) ∧
          (x.frac ≠ 0 → ∃ k : Nat,
            let f := x.frac * 16 ^ k / 2
            16 ^ (p.digits - 1) ≤ f ∧ f < 16 ^ p.digits ∧ FpResult s t p r1 x.neg (x.char - k) f)

/-- O57. LER, LDR, LE, LD, STE and STD (R500 to R503, R514, R515): the bits of the number move as they are; a short number leaves the
right half of its register. The code is unchanged. -/
def Obligations.FloatLoadStore : Prop :=
  ∀ (s : State) (r1 r2 x2 b2 : Reg) (d2 : Disp),
    let a := s.ea d2 x2 b2
    let left := fun (v : Dword) => bits v 0 32
    let right := fun (v : Dword) => bits v 32 32
    isFpr r1 = true →
      (isFpr r2 = true →
        (∃ t, exec (.ler r1 r2) s = .next t ∧ left (t.getFr r1) = left (s.getFr r2) ∧
            right (t.getFr r1) = right (s.getFr r1) ∧ t.cc = s.cc ∧ Ended s t 2 [] [] [r1]) ∧
          ∃ t, exec (.ldr r1 r2) s = .next t ∧ t.getFr r1 = s.getFr r2 ∧ t.cc = s.cc ∧ Ended s t 2 [] [] [r1]) ∧
      (OperandTraps (.le r1 x2 b2 d2) s b2 a 4 4 [.read] ∧ OperandTraps (.ld r1 x2 b2 d2) s b2 a 8 8 [.read] ∧
        OperandTraps (.ste r1 x2 b2 d2) s b2 a 4 4 [.write] ∧ OperandTraps (.std r1 x2 b2 d2) s b2 a 8 8 [.write]) ∧
      (∀ sp, s.AlignedTo a 4 → s.Accessible b2 sp a 4 [.read] →
        ∃ t, exec (.le r1 x2 b2 d2) s = .next t ∧ left (t.getFr r1) = wordOf (s.getBytes sp a 4) ∧
          right (t.getFr r1) = right (s.getFr r1) ∧ t.cc = s.cc ∧ Ended s t 4 [] [] [r1]) ∧
      (∀ sp, s.AlignedTo a 8 → s.Accessible b2 sp a 8 [.read] →
        ∃ t, exec (.ld r1 x2 b2 d2) s = .next t ∧ t.getFr r1 = dwordOf (s.getBytes sp a 8) ∧ t.cc = s.cc ∧
          Ended s t 4 [] [] [r1]) ∧
      (∀ sp, s.AlignedTo a 4 → s.Accessible b2 sp a 4 [.write] →
        ∃ t, exec (.ste r1 x2 b2 d2) s = .next t ∧ wordOf (t.getBytes sp a 4) = left (s.getFr r1) ∧ t.cc = s.cc ∧
          EndedStoring s t 4 [] [] [] sp a 4) ∧
      ∀ sp, s.AlignedTo a 8 → s.Accessible b2 sp a 8 [.write] →
        ∃ t, exec (.std r1 x2 b2 d2) s = .next t ∧ dwordOf (t.getBytes sp a 8) = s.getFr r1 ∧ t.cc = s.cc ∧
          EndedStoring s t 4 [] [] [] sp a 8

/-- O58. LCER, LCDR, LNER, LNDR, LPER, LPDR, LTER and LTDR (R504 to R511), LRER and LRDR (R512, R513): the sign reversed, set or kept
with characteristic and mantissa as they are, and the code by sign and mantissa; the mantissa rounded to the shorter format, with
the carry shifted back, and exponent overflow after it, the code unchanged. -/
def Obligations.FloatSignAndRound : Prop :=
  ∀ (s : State) (r1 r2 : Reg),
    (∀ (i : Instr) (p : Fmt) (sign : Bool → Bool),
        (i, p, sign) ∈
          ([(.lcer r1 r2, .short, fun b => !b), (.lcdr r1 r2, .long, fun b => !b), (.lner r1 r2, .short, fun _ => true),
            (.lndr r1 r2, .long, fun _ => true), (.lper r1 r2, .short, fun _ => false), (.lpdr r1 r2, .long, fun _ => false),
            (.lter r1 r2, .short, fun b => b), (.ltdr r1 r2, .long, fun b => b)] : List (Instr × Fmt × (Bool → Bool))) →
        i.wf = true →
        let x := s.readFp p r2
        ∃ t, exec i s = .next t ∧ t.readFp p r1 = { x with neg := sign x.neg } ∧
          t.cc = (if x.frac = 0 then 0 else if sign x.neg = true then 1 else 2) ∧ t.control = s.control ∧
          FpFrame s t p r1 2) ∧
      ∀ (i : Instr) (p q : Fmt), (i, p, q) ∈ [(Instr.lrer r1 r2, Fmt.long, Fmt.short), (.lrdr r1 r2, .ext, .long)] →
        i.wf = true →
        let x := s.readFp p r2
        let unit := 16 ^ (p.digits - q.digits)
        let g := (2 * x.frac + unit) / (2 * unit)
        let c := if g = 16 ^ q.digits then x.char + 1 else x.char
        ∃ t, exec i s = .next t ∧ FpHolds t q r1 x.neg c (if g = 16 ^ q.digits then 16 ^ (q.digits - 1) else g) ∧
          t.cc = s.cc ∧ t.control = (if 127 < c then .interrupt .exponentOverflow else s.control) ∧ FpFrame s t q r1 2

/-! ### ESA -/

/-- O59. CPYA, EAR, SAR, IAC, TAR, LAE and SAC (R552 to R557, R560) on a processor with ESA. The two cases that the spec leaves open
say only what stays: LAE through an access register with bits 0 to 6 not 0 (D18), SAC with another code (D19). The class of a
valid ALET is the access list's (D26). -/
def Obligations.AccessRegisters : Prop :=
  ∀ (s : State) (r1 r2 x2 b2 : Reg) (d2 : Disp), s.cpu.hasEsa = true →
    (∃ t, exec (.cpya r1 r2) s = .next t ∧ t.getAr r1 = s.getAr r2 ∧ t.cc = s.cc ∧ Ended s t 4 [] [r1] []) ∧
      (∃ t, exec (.ear r1 r2) s = .next t ∧ t.getGr r1 = s.getAr r2 ∧ t.cc = s.cc ∧ Ended s t 4 [r1] [] []) ∧
      (∃ t, exec (.sar r1 r2) s = .next t ∧ t.getAr r1 = s.getGr r2 ∧ t.cc = s.cc ∧ Ended s t 4 [] [r1] []) ∧
      (∃ t, exec (.iac r1) s = .next t ∧ bits (t.getGr r1) 0 16 = bits (s.getGr r1) 0 16 ∧
        bits (t.getGr r1) 16 8 = (match s.asc with | .primary => 0 | .ar => 2) ∧
        bits (t.getGr r1) 24 8 = bits (s.getGr r1) 24 8 ∧ t.cc = (match s.asc with | .primary => 0 | .ar => 2) ∧
        Ended s t 4 [r1] [] []) ∧
      (∃ t, exec (.tar r1 r2) s = .next t ∧ Ended s t 4 [] [] [] ∧
        (s.getAr r1 = 0 → t.cc = 0) ∧
        (s.getAr r1 ≠ 0 → (∀ e ∈ s.accessList, e.alet ≠ s.getAr r1) → t.cc = 3) ∧
        (s.getAr r1 ≠ 0 → (∃ e ∈ s.accessList, e.alet = s.getAr r1) → t.cc = 1 ∨ t.cc = 2)) ∧
      (let undefined := s.asc = .ar ∧ b2 ≠ 0 ∧ bits (s.getAr b2) 0 7 ≠ 0
        ∃ t, exec (.lae r1 x2 b2 d2) s = .next t ∧ t.cc = s.cc ∧ t.ia.toNat = s.continuation 4 ∧ t.control = s.control ∧
          SameRegistersBut s t [r1] [r1] [] ∧ SameModes s t ∧ SameSystem s t ∧ SameMemory s t ∧
          (¬ undefined → (t.getGr r1).toNat = s.ea d2 x2 b2 ∧
            t.getAr r1 = (if s.asc = .ar ∧ b2 ≠ 0 then s.getAr b2 else 0) ∧ SameOracles s t)) ∧
      (let code := ((if b2 = 0 then 0 else (s.getGr b2).toNat) + d2.toNat) / 256 % 16
        ∃ t, exec (.sac b2 d2) s = .next t ∧ (code = 0 → t.asc = .primary ∧ SameOracles s t) ∧
          (code = 2 → t.asc = .ar ∧ SameOracles s t) ∧ t.cc = s.cc ∧ t.ia.toNat = s.continuation 4 ∧
          t.control = s.control ∧ SameRegistersBut s t [] [] [] ∧ t.pm = s.pm ∧ t.amode = s.amode ∧ SameSystem s t ∧
          SameMemory s t)

/-- O60. LAM and STAM (R558, R559) on a processor with ESA: access registers R1 through R3, wrapping from 15 to 0, and consecutive
words. Alignment is always checked (the spec's decision D1), and all bytes are tested before anything changes (D3). -/
def Obligations.AccessMultiple : Prop :=
  ∀ (s : State) (r1 r3 b2 : Reg) (d2 : Disp), s.cpu.hasEsa = true →
    let a := s.ea d2 0 b2
    let n := 4 * ((r3 - r1).toNat + 1)
    (∀ (i : Instr) (k : Access), (i, k) ∈ [(Instr.lam r1 r3 b2 d2, Access.read), (.stam r1 r3 b2 d2, .write)] →
        (a % 4 ≠ 0 → exec i s = .next (s.takeInterrupt .addressing)) ∧
          (a % 4 = 0 → (∀ sp, ¬ s.Accessible b2 sp a n [k]) → exec i s = .next (s.takeInterrupt .addressTranslation))) ∧
      (∀ sp, a % 4 = 0 → s.Accessible b2 sp a n [.read] →
        ∃ t, exec (.lam r1 r3 b2 d2) s = .next t ∧
          (∀ k ≤ (r3 - r1).toNat, t.getAr (r1 + BitVec.ofNat 4 k) = wordOf (s.getBytes sp (a + 4 * k) 4)) ∧
          t.cc = s.cc ∧ Ended s t 4 [] (registersThrough r1 r3) []) ∧
      ∀ sp, a % 4 = 0 → s.Accessible b2 sp a n [.write] →
        ∃ t, exec (.stam r1 r3 b2 d2) s = .next t ∧
          (∀ k ≤ (r3 - r1).toNat, wordOf (t.getBytes sp (a + 4 * k) 4) = s.getAr (r1 + BitVec.ofNat 4 k)) ∧
          t.cc = s.cc ∧ EndedStoring s t 4 [] [] [] sp a n
end

