-- ==== Sys2Proof/Laws/Bits.lean ====
section
/-! SUPPORT. Bit fields, halfbytes and byte order. -/

namespace Sys2Proof.Machine

/-! ### Fields -/

/-- A field as a number: bits `a` to `a + n - 1` from the left. -/
theorem bits_toNat {w : Nat} (v : BitVec w) (a n : Nat) : (bits v a n).toNat = v.toNat / 2 ^ (w - a - n) % 2 ^ n := by
  simp [bits, BitVec.extractLsb'_toNat, Nat.shiftRight_eq_div_pow]

theorem getLsbD_bits {w : Nat} (v : BitVec w) (a n i : Nat) :
    (bits v a n).getLsbD i = (decide (i < n) && v.getLsbD (w - a - n + i)) := by
  simp [bits]

/-- The left part of a concatenation. -/
@[simp] theorem bits_append_left {m n : Nat} (x : BitVec m) (y : BitVec n) : bits (x ++ y) 0 m = x := by
  apply BitVec.eq_of_getLsbD_eq
  intro i hi
  simp only [getLsbD_bits, BitVec.getLsbD_append, hi, decide_true, Bool.true_and]
  rw [if_neg (by omega)]
  congr 1
  omega

/-- The right part of a concatenation. -/
@[simp] theorem bits_append_right {m n : Nat} (x : BitVec m) (y : BitVec n) : bits (x ++ y) m n = y := by
  apply BitVec.eq_of_getLsbD_eq
  intro i hi
  simp only [getLsbD_bits, BitVec.getLsbD_append, hi, decide_true, Bool.true_and]
  rw [if_pos (by omega)]
  congr 1
  omega

@[simp] theorem hiNib_ofNibs (h l : BitVec 4) : hiNib (ofNibs h l) = h := by
  revert h l; decide

@[simp] theorem loNib_ofNibs (h l : BitVec 4) : loNib (ofNibs h l) = l := by
  revert h l; decide

theorem ofNibs_hiNib_loNib (b : Byte) : ofNibs (hiNib b) (loNib b) = b := by
  revert b; decide

/-! ### Byte order -/

theorem beNat_append (xs ys : List Byte) : beNat (xs ++ ys) = beNat xs * 256 ^ ys.length + beNat ys := by
  have fold : ∀ (zs : List Byte) (acc : Nat),
      zs.foldl (fun acc b => acc * 256 + b.toNat) acc = acc * 256 ^ zs.length + beNat zs := by
    intro zs
    induction zs with
    | nil => intro acc; simp [beNat]
    | cons z zs ih =>
      intro acc
      rw [List.foldl_cons, ih, beNat.eq_def (z :: zs), List.foldl_cons, ih, List.length_cons]
      ring
  rw [beNat, List.foldl_append, fold ys]
  rfl

@[simp] theorem beNat_nil : beNat [] = 0 := rfl

theorem beNat_cons (b : Byte) (bs : List Byte) : beNat (b :: bs) = b.toNat * 256 ^ bs.length + beNat bs := by
  have := beNat_append [b] bs
  simpa [beNat] using this

theorem beNat_lt (bs : List Byte) : beNat bs < 256 ^ bs.length := by
  induction bs with
  | nil => simp
  | cons b bs ih =>
    rw [beNat_cons, List.length_cons, pow_succ]
    have := b.isLt
    have h : b.toNat * 256 ^ bs.length ≤ 255 * 256 ^ bs.length := Nat.mul_le_mul_right _ (by omega)
    omega

@[simp] theorem beBytes_length (n v : Nat) : (beBytes n v).length = n := by
  induction n generalizing v with
  | zero => rfl
  | succ n ih => simp [beBytes, ih]

/-- Storing a number and reading it back gives its low-order bytes. -/
theorem beNat_beBytes (n v : Nat) : beNat (beBytes n v) = v % 256 ^ n := by
  induction n generalizing v with
  | zero => simp [beBytes, Nat.mod_one]
  | succ n ih =>
    rw [beBytes, beNat_append, ih]
    have h1 : beNat [BitVec.ofNat 8 v] = v % 256 := by simp [beNat_cons]
    rw [h1, List.length_singleton, pow_one, pow_succ, Nat.mul_comm (256 ^ n) 256, Nat.mod_mul]
    omega

@[simp] theorem wordOf_beBytes (w : Word) : wordOf (beBytes 4 w.toNat) = w := by
  rw [wordOf, beNat_beBytes]
  apply BitVec.eq_of_toNat_eq
  have := w.isLt
  simp only [BitVec.toNat_ofNat]
  omega

@[simp] theorem dwordOf_beBytes (d : Dword) : dwordOf (beBytes 8 d.toNat) = d := by
  rw [dwordOf, beNat_beBytes]
  apply BitVec.eq_of_toNat_eq
  have := d.isLt
  simp only [BitVec.toNat_ofNat]
  omega

/-- The bytes of a stored number, from the left. -/
theorem beBytes_getElem (n v i : Nat) (h : i < (beBytes n v).length) :
    (beBytes n v)[i] = BitVec.ofNat 8 (v / 256 ^ (n - 1 - i)) := by
  induction n generalizing v i with
  | zero => simp at h
  | succ n ih =>
    simp only [beBytes]
    rw [List.getElem_append]
    split
    · rename_i hi
      rw [ih]
      simp only [beBytes_length] at hi
      rw [Nat.div_div_eq_div_mul, ← pow_succ', show n - 1 - i + 1 = n + 1 - 1 - i by omega]
    · rename_i hi
      simp only [beBytes_length] at hi h
      simp [show n - i = 0 by omega]

/-- Fields of equal length compare as their first different bytes do (R157). -/
theorem beNat_compare (xs ys : List Byte) (hl : xs.length = ys.length) (k : Nat) (hk : k < xs.length)
    (heq : ∀ j (hj : j < k), xs[j]'(by omega) = ys[j]'(by omega)) (hlt : xs[k] < ys[k]'(hl ▸ hk)) : beNat xs < beNat ys := by
  induction xs generalizing ys k with
  | nil => simp at hk
  | cons x xs ih =>
    cases ys with
    | nil => simp at hl
    | cons y ys =>
      have hl' : xs.length = ys.length := by simpa using hl
      rw [beNat_cons, beNat_cons, hl']
      cases k with
      | zero =>
        have h1 : x.toNat + 1 ≤ y.toNat := hlt
        have h2 := beNat_lt xs
        rw [hl'] at h2
        have h3 := Nat.mul_le_mul_right (256 ^ ys.length) h1
        rw [Nat.add_mul] at h3
        omega
      | succ k =>
        have h0 := heq 0 (by omega)
        simp only [List.getElem_cons_zero] at h0
        subst h0
        have := ih ys hl' k (by simpa using hk) (fun j hj => by simpa using heq (j + 1) (by omega)) (by simpa using hlt)
        omega

end Sys2Proof.Machine
end

