-- ==== Sys2Proof/Laws/Memory.lean ====
section
/-! SUPPORT. Main memory: what a read gives after each operation, every operation keeps the canonical form, and memories in that
form are equal when all their bytes are. -/

namespace Sys2Proof.Machine

/-! ### Reading after writing -/

theorem Memory.read_erase (m : List Host.Cell) (a k : Nat) :
    Memory.read (Memory.erase m a) k = if k = a then Memory.unwritten else Memory.read m k := by
  induction m with
  | nil => simp [Memory.erase, Memory.read]
  | cons c m ih =>
    obtain ⟨j, v⟩ := c
    simp only [Memory.erase, List.filter_cons, bne_iff_ne, ne_eq] at ih ⊢
    by_cases hj : j = a
    · subst hj
      simp only [not_true_eq_false, if_false, ih, Memory.read]
      split
      · rfl
      · rename_i h; simp [Ne.symm h]
    · simp only [hj, not_false_eq_true, if_true, Memory.read]
      split
      · rename_i h; subst h; simp [hj]
      · exact ih

theorem Memory.read_insert (m : List Host.Cell) (a : Nat) (v : Byte) (k : Nat) :
    Memory.read (Memory.insert m a v) k = if k = a then v else Memory.read m k := by
  induction m with
  | nil => simp [Memory.insert, Memory.read, eq_comm]
  | cons c m ih =>
    obtain ⟨j, w⟩ := c
    simp only [Memory.insert]
    split
    · simp only [Memory.read, eq_comm]
    · split
      · rename_i h; subst h
        simp only [Memory.read, eq_comm]
        split <;> simp_all
      · rename_i h
        simp only [Memory.read, ih]
        split
        · rename_i h'; subst h'; simp [Ne.symm h]
        · rfl

/-- A read after a write to the same key gives what was written; every other key reads as before. -/
theorem Memory.read_write (m : List Host.Cell) (a : Nat) (v : Byte) (k : Nat) :
    Memory.read (Memory.write m a v) k = if k = a then v else Memory.read m k := by
  unfold Memory.write
  split
  · rename_i h; rw [Memory.read_erase, h]
  · exact Memory.read_insert m a v k

@[simp] theorem Memory.read_write_same (m : List Host.Cell) (a : Nat) (v : Byte) :
    Memory.read (Memory.write m a v) a = v := by
  simp [Memory.read_write]

theorem Memory.read_write_other (m : List Host.Cell) (a : Nat) (v : Byte) (k : Nat) (h : k ≠ a) :
    Memory.read (Memory.write m a v) k = Memory.read m k := by
  simp [Memory.read_write, h]

/-- Writing bytes leaves every other key alone. -/
theorem Memory.read_writeBytes_other (key : Nat → Nat) (bs : List Byte) (m : List Host.Cell) (a k : Nat)
    (h : ∀ i < bs.length, k ≠ key (a + i)) : Memory.read (Memory.writeBytes key m a bs) k = Memory.read m k := by
  induction bs generalizing m a with
  | nil => rfl
  | cons b bs ih =>
    rw [Memory.writeBytes, ih, Memory.read_write_other]
    · simpa using h 0 (by simp)
    · intro i hi
      have := h (i + 1) (by simpa using hi)
      rwa [show a + 1 + i = a + (i + 1) by omega]

/-- Bytes written at different keys are read back. -/
theorem Memory.read_writeBytes_same (key : Nat → Nat) (bs : List Byte) (m : List Host.Cell) (a i : Nat) (hi : i < bs.length)
    (inj : ∀ i < bs.length, ∀ j < bs.length, key (a + i) = key (a + j) → i = j) :
    Memory.read (Memory.writeBytes key m a bs) (key (a + i)) = bs[i] := by
  induction bs generalizing m a i with
  | nil => simp at hi
  | cons b bs ih =>
    rw [Memory.writeBytes]
    cases i with
    | zero =>
      rw [Memory.read_writeBytes_other]
      · simp
      · intro j hj h
        have := inj 0 (by simp) (j + 1) (by simpa using hj) (by rw [show a + (j + 1) = a + 1 + j by omega]; exact h)
        omega
    | succ i =>
      have := ih (Memory.write m (key a) b) (a + 1) i (by simpa using hi) (by
        intro x hx y hy hxy
        have := inj (x + 1) (by simpa using hx) (y + 1) (by simpa using hy)
          (by rw [show a + (x + 1) = a + 1 + x by omega, show a + (y + 1) = a + 1 + y by omega]; exact hxy)
        omega)
      rw [show a + (i + 1) = a + 1 + i by omega]
      simpa using this

/-! ### The canonical form -/

theorem Memory.wf_nil : Memory.wf [] := by
  simp [Memory.wf]

theorem Memory.wf_erase (m : List Host.Cell) (a : Nat) (h : Memory.wf m) : Memory.wf (Memory.erase m a) :=
  ⟨h.1.filter _, fun c hc => h.2 c (List.mem_of_mem_filter hc)⟩

theorem Memory.mem_insert {m : List Host.Cell} {a : Nat} {v : Byte} {c : Host.Cell} (h : c ∈ Memory.insert m a v) :
    c = (a, v) ∨ c ∈ m := by
  induction m with
  | nil => simpa [Memory.insert] using h
  | cons d m ih =>
    obtain ⟨j, w⟩ := d
    simp only [Memory.insert] at h
    split at h
    · simpa using h
    · split at h
      · simp only [List.mem_cons] at h ⊢
        exact h.imp_right Or.inr
      · simp only [List.mem_cons] at h ⊢
        rcases h with h | h
        · exact .inr (.inl h)
        · exact (ih h).imp_right Or.inr

theorem Memory.wf_insert (m : List Host.Cell) (a : Nat) (v : Byte) (h : Memory.wf m) (hv : v ≠ Memory.unwritten) :
    Memory.wf (Memory.insert m a v) := by
  refine ⟨?_, fun c hc => ?_⟩
  · obtain ⟨h1, -⟩ := h
    induction m with
    | nil => simp [Memory.insert]
    | cons d m ih =>
      obtain ⟨j, w⟩ := d
      have hp := List.pairwise_cons.1 h1
      simp only [Memory.insert]
      split
      · rename_i hlt
        refine List.pairwise_cons.2 ⟨fun c hc => ?_, h1⟩
        rcases List.mem_cons.1 hc with rfl | hc
        · exact hlt
        · exact Nat.lt_trans hlt (hp.1 c hc)
      · split
        · rename_i heq
          subst heq
          exact List.pairwise_cons.2 ⟨hp.1, hp.2⟩
        · rename_i h2 h3
          refine List.pairwise_cons.2 ⟨fun c hc => ?_, ih hp.2⟩
          rcases Memory.mem_insert hc with rfl | hc
          · simp only; omega
          · exact hp.1 c hc
  · rcases Memory.mem_insert hc with rfl | hc
    · exact hv
    · exact h.2 c hc

/-- A write keeps the canonical form. -/
theorem Memory.wf_write (m : List Host.Cell) (a : Nat) (v : Byte) (h : Memory.wf m) : Memory.wf (Memory.write m a v) := by
  unfold Memory.write
  split
  · exact Memory.wf_erase m a h
  · rename_i hv; exact Memory.wf_insert m a v h hv

/-- Writing bytes keeps the canonical form. -/
theorem Memory.wf_writeBytes (key : Nat → Nat) (bs : List Byte) (m : List Host.Cell) (a : Nat) (h : Memory.wf m) :
    Memory.wf (Memory.writeBytes key m a bs) := by
  induction bs generalizing m a with
  | nil => exact h
  | cons b bs ih => exact ih _ _ (Memory.wf_write m (key a) b h)

theorem Memory.read_lt {m : List Host.Cell} {k : Nat} (h : ∀ c ∈ m, k < c.1) : Memory.read m k = Memory.unwritten := by
  induction m with
  | nil => rfl
  | cons c m ih =>
    obtain ⟨j, v⟩ := c
    have hj : k < j := h (j, v) (by simp)
    rw [Memory.read, if_neg (by omega)]
    exact ih fun c hc => h c (by simp [hc])

/-- Memories in canonical form with equal bytes are equal data. -/
theorem Memory.ext {m n : List Host.Cell} (hm : Memory.wf m) (hn : Memory.wf n)
    (h : ∀ k, Memory.read m k = Memory.read n k) : m = n := by
  induction m generalizing n with
  | nil =>
    cases n with
    | nil => rfl
    | cons c n =>
      have := h c.1
      rw [Memory.read, Memory.read, if_pos rfl] at this
      exact absurd this.symm (hn.2 c (by simp))
  | cons c m ih =>
    obtain ⟨j, v⟩ := c
    have hpm := List.pairwise_cons.1 hm.1
    cases n with
    | nil =>
      have := h j
      rw [Memory.read, Memory.read, if_pos rfl] at this
      exact absurd this (hm.2 (j, v) (by simp))
    | cons d n =>
      obtain ⟨l, w⟩ := d
      have hpn := List.pairwise_cons.1 hn.1
      have hjl : j = l := by
        rcases Nat.lt_trichotomy j l with hlt | heq | hgt
        · have := h j
          rw [Memory.read, if_pos rfl, Memory.read_lt (m := (l, w) :: n)] at this
          · exact absurd this (hm.2 (j, v) (by simp))
          · intro c hc
            rcases List.mem_cons.1 hc with rfl | hc
            · exact hlt
            · exact Nat.lt_trans hlt (hpn.1 c hc)
        · exact heq
        · have := h l
          rw [Memory.read_lt (m := (j, v) :: m), Memory.read, if_pos rfl] at this
          · exact absurd this.symm (hn.2 (l, w) (by simp))
          · intro c hc
            rcases List.mem_cons.1 hc with rfl | hc
            · exact hgt
            · exact Nat.lt_trans hgt (hpm.1 c hc)
      subst hjl
      have hvw : v = w := by
        have := h j
        rwa [Memory.read, if_pos rfl, Memory.read, if_pos rfl] at this
      subst hvw
      congr 1
      refine ih ⟨hpm.2, fun c hc => hm.2 c (by simp [hc])⟩ ⟨hpn.2, fun c hc => hn.2 c (by simp [hc])⟩ fun k => ?_
      have hk := h k
      rw [Memory.read, Memory.read] at hk
      split at hk
      · rename_i hjk
        subst hjk
        rw [Memory.read_lt hpm.1, Memory.read_lt hpn.1]
      · exact hk

end Sys2Proof.Machine
end

