-- ==== Sys2Proof/Laws/State.lean ====
section
/-! SUPPORT. One lemma per field and update of the state, and the reading of registers after every update: no later proof unfolds
a record update. -/

namespace Sys2Proof.Machine

/-! ### setGr -/

@[simp] theorem State.setGr_ar (s : State) (r : Reg) (v : Word) : (s.setGr r v).ar = s.ar := rfl
@[simp] theorem State.setGr_fr (s : State) (r : Reg) (v : Word) : (s.setGr r v).fr = s.fr := rfl
@[simp] theorem State.setGr_ia (s : State) (r : Reg) (v : Word) : (s.setGr r v).ia = s.ia := rfl
@[simp] theorem State.setGr_cc (s : State) (r : Reg) (v : Word) : (s.setGr r v).cc = s.cc := rfl
@[simp] theorem State.setGr_pm (s : State) (r : Reg) (v : Word) : (s.setGr r v).pm = s.pm := rfl
@[simp] theorem State.setGr_amode (s : State) (r : Reg) (v : Word) : (s.setGr r v).amode = s.amode := rfl
@[simp] theorem State.setGr_asc (s : State) (r : Reg) (v : Word) : (s.setGr r v).asc = s.asc := rfl
@[simp] theorem State.setGr_mem (s : State) (r : Reg) (v : Word) : (s.setGr r v).mem = s.mem := rfl
@[simp] theorem State.setGr_alloc (s : State) (r : Reg) (v : Word) : (s.setGr r v).alloc = s.alloc := rfl
@[simp] theorem State.setGr_accessList (s : State) (r : Reg) (v : Word) : (s.setGr r v).accessList = s.accessList := rfl
@[simp] theorem State.setGr_stxit (s : State) (r : Reg) (v : Word) : (s.setGr r v).stxit = s.stxit := rfl
@[simp] theorem State.setGr_control (s : State) (r : Reg) (v : Word) : (s.setGr r v).control = s.control := rfl
@[simp] theorem State.setGr_underEx (s : State) (r : Reg) (v : Word) : (s.setGr r v).underEx = s.underEx := rfl
@[simp] theorem State.setGr_tod (s : State) (r : Reg) (v : Word) : (s.setGr r v).tod = s.tod := rfl
@[simp] theorem State.setGr_draws (s : State) (r : Reg) (v : Word) : (s.setGr r v).draws = s.draws := rfl
@[simp] theorem State.setGr_cpu (s : State) (r : Reg) (v : Word) : (s.setGr r v).cpu = s.cpu := rfl
@[simp] theorem State.setGr_getAr (s : State) (r : Reg) (v : Word) (q : Reg) : (s.setGr r v).getAr q = s.getAr q := rfl
@[simp] theorem State.setGr_getFr (s : State) (r : Reg) (v : Word) (q : Reg) : (s.setGr r v).getFr q = s.getFr q := rfl
@[simp] theorem State.setGr_trunc (s : State) (r : Reg) (v : Word) (x : Nat) : (s.setGr r v).trunc x = s.trunc x := rfl
@[simp] theorem State.setGr_key (s : State) (r : Reg) (v : Word) (d : Space) (x : Nat) : (s.setGr r v).key d x = s.key d x := rfl
@[simp] theorem State.setGr_ilen (s : State) (r : Reg) (v : Word) (x : Nat) : (s.setGr r v).ilen x = s.ilen x := rfl
@[simp] theorem State.setGr_nextIa (s : State) (r : Reg) (v : Word) (x : Nat) : (s.setGr r v).nextIa x = s.nextIa x := rfl
@[simp] theorem State.setGr_getByte (s : State) (r : Reg) (v : Word) (d : Space) (x : Nat) : (s.setGr r v).getByte d x = s.getByte d x := rfl
@[simp] theorem State.setGr_pmBit (s : State) (r : Reg) (v : Word) (x : Nat) : (s.setGr r v).pmBit x = s.pmBit x := rfl
@[simp] theorem State.setGr_allocated (s : State) (r : Reg) (v : Word) (d : Space) (x : Nat) (y : Access) : (s.setGr r v).allocated d x y = s.allocated d x y := rfl

/-! ### setAr -/

@[simp] theorem State.setAr_gr (s : State) (r : Reg) (v : Word) : (s.setAr r v).gr = s.gr := rfl
@[simp] theorem State.setAr_fr (s : State) (r : Reg) (v : Word) : (s.setAr r v).fr = s.fr := rfl
@[simp] theorem State.setAr_ia (s : State) (r : Reg) (v : Word) : (s.setAr r v).ia = s.ia := rfl
@[simp] theorem State.setAr_cc (s : State) (r : Reg) (v : Word) : (s.setAr r v).cc = s.cc := rfl
@[simp] theorem State.setAr_pm (s : State) (r : Reg) (v : Word) : (s.setAr r v).pm = s.pm := rfl
@[simp] theorem State.setAr_amode (s : State) (r : Reg) (v : Word) : (s.setAr r v).amode = s.amode := rfl
@[simp] theorem State.setAr_asc (s : State) (r : Reg) (v : Word) : (s.setAr r v).asc = s.asc := rfl
@[simp] theorem State.setAr_mem (s : State) (r : Reg) (v : Word) : (s.setAr r v).mem = s.mem := rfl
@[simp] theorem State.setAr_alloc (s : State) (r : Reg) (v : Word) : (s.setAr r v).alloc = s.alloc := rfl
@[simp] theorem State.setAr_accessList (s : State) (r : Reg) (v : Word) : (s.setAr r v).accessList = s.accessList := rfl
@[simp] theorem State.setAr_stxit (s : State) (r : Reg) (v : Word) : (s.setAr r v).stxit = s.stxit := rfl
@[simp] theorem State.setAr_control (s : State) (r : Reg) (v : Word) : (s.setAr r v).control = s.control := rfl
@[simp] theorem State.setAr_underEx (s : State) (r : Reg) (v : Word) : (s.setAr r v).underEx = s.underEx := rfl
@[simp] theorem State.setAr_tod (s : State) (r : Reg) (v : Word) : (s.setAr r v).tod = s.tod := rfl
@[simp] theorem State.setAr_draws (s : State) (r : Reg) (v : Word) : (s.setAr r v).draws = s.draws := rfl
@[simp] theorem State.setAr_cpu (s : State) (r : Reg) (v : Word) : (s.setAr r v).cpu = s.cpu := rfl
@[simp] theorem State.setAr_getGr (s : State) (r : Reg) (v : Word) (q : Reg) : (s.setAr r v).getGr q = s.getGr q := rfl
@[simp] theorem State.setAr_getFr (s : State) (r : Reg) (v : Word) (q : Reg) : (s.setAr r v).getFr q = s.getFr q := rfl
@[simp] theorem State.setAr_trunc (s : State) (r : Reg) (v : Word) (x : Nat) : (s.setAr r v).trunc x = s.trunc x := rfl
@[simp] theorem State.setAr_key (s : State) (r : Reg) (v : Word) (d : Space) (x : Nat) : (s.setAr r v).key d x = s.key d x := rfl
@[simp] theorem State.setAr_ilen (s : State) (r : Reg) (v : Word) (x : Nat) : (s.setAr r v).ilen x = s.ilen x := rfl
@[simp] theorem State.setAr_nextIa (s : State) (r : Reg) (v : Word) (x : Nat) : (s.setAr r v).nextIa x = s.nextIa x := rfl
@[simp] theorem State.setAr_getByte (s : State) (r : Reg) (v : Word) (d : Space) (x : Nat) : (s.setAr r v).getByte d x = s.getByte d x := rfl
@[simp] theorem State.setAr_pmBit (s : State) (r : Reg) (v : Word) (x : Nat) : (s.setAr r v).pmBit x = s.pmBit x := rfl
@[simp] theorem State.setAr_allocated (s : State) (r : Reg) (v : Word) (d : Space) (x : Nat) (y : Access) : (s.setAr r v).allocated d x y = s.allocated d x y := rfl

/-! ### setFr -/

@[simp] theorem State.setFr_gr (s : State) (r : Reg) (v : Dword) : (s.setFr r v).gr = s.gr := rfl
@[simp] theorem State.setFr_ar (s : State) (r : Reg) (v : Dword) : (s.setFr r v).ar = s.ar := rfl
@[simp] theorem State.setFr_ia (s : State) (r : Reg) (v : Dword) : (s.setFr r v).ia = s.ia := rfl
@[simp] theorem State.setFr_cc (s : State) (r : Reg) (v : Dword) : (s.setFr r v).cc = s.cc := rfl
@[simp] theorem State.setFr_pm (s : State) (r : Reg) (v : Dword) : (s.setFr r v).pm = s.pm := rfl
@[simp] theorem State.setFr_amode (s : State) (r : Reg) (v : Dword) : (s.setFr r v).amode = s.amode := rfl
@[simp] theorem State.setFr_asc (s : State) (r : Reg) (v : Dword) : (s.setFr r v).asc = s.asc := rfl
@[simp] theorem State.setFr_mem (s : State) (r : Reg) (v : Dword) : (s.setFr r v).mem = s.mem := rfl
@[simp] theorem State.setFr_alloc (s : State) (r : Reg) (v : Dword) : (s.setFr r v).alloc = s.alloc := rfl
@[simp] theorem State.setFr_accessList (s : State) (r : Reg) (v : Dword) : (s.setFr r v).accessList = s.accessList := rfl
@[simp] theorem State.setFr_stxit (s : State) (r : Reg) (v : Dword) : (s.setFr r v).stxit = s.stxit := rfl
@[simp] theorem State.setFr_control (s : State) (r : Reg) (v : Dword) : (s.setFr r v).control = s.control := rfl
@[simp] theorem State.setFr_underEx (s : State) (r : Reg) (v : Dword) : (s.setFr r v).underEx = s.underEx := rfl
@[simp] theorem State.setFr_tod (s : State) (r : Reg) (v : Dword) : (s.setFr r v).tod = s.tod := rfl
@[simp] theorem State.setFr_draws (s : State) (r : Reg) (v : Dword) : (s.setFr r v).draws = s.draws := rfl
@[simp] theorem State.setFr_cpu (s : State) (r : Reg) (v : Dword) : (s.setFr r v).cpu = s.cpu := rfl
@[simp] theorem State.setFr_getGr (s : State) (r : Reg) (v : Dword) (q : Reg) : (s.setFr r v).getGr q = s.getGr q := rfl
@[simp] theorem State.setFr_getAr (s : State) (r : Reg) (v : Dword) (q : Reg) : (s.setFr r v).getAr q = s.getAr q := rfl
@[simp] theorem State.setFr_trunc (s : State) (r : Reg) (v : Dword) (x : Nat) : (s.setFr r v).trunc x = s.trunc x := rfl
@[simp] theorem State.setFr_key (s : State) (r : Reg) (v : Dword) (d : Space) (x : Nat) : (s.setFr r v).key d x = s.key d x := rfl
@[simp] theorem State.setFr_ilen (s : State) (r : Reg) (v : Dword) (x : Nat) : (s.setFr r v).ilen x = s.ilen x := rfl
@[simp] theorem State.setFr_nextIa (s : State) (r : Reg) (v : Dword) (x : Nat) : (s.setFr r v).nextIa x = s.nextIa x := rfl
@[simp] theorem State.setFr_getByte (s : State) (r : Reg) (v : Dword) (d : Space) (x : Nat) : (s.setFr r v).getByte d x = s.getByte d x := rfl
@[simp] theorem State.setFr_pmBit (s : State) (r : Reg) (v : Dword) (x : Nat) : (s.setFr r v).pmBit x = s.pmBit x := rfl
@[simp] theorem State.setFr_allocated (s : State) (r : Reg) (v : Dword) (d : Space) (x : Nat) (y : Access) : (s.setFr r v).allocated d x y = s.allocated d x y := rfl

/-! ### setFrs -/

@[simp] theorem State.setFrs_gr (s : State) (r : Reg) (v : Word) : (s.setFrs r v).gr = s.gr := rfl
@[simp] theorem State.setFrs_ar (s : State) (r : Reg) (v : Word) : (s.setFrs r v).ar = s.ar := rfl
@[simp] theorem State.setFrs_ia (s : State) (r : Reg) (v : Word) : (s.setFrs r v).ia = s.ia := rfl
@[simp] theorem State.setFrs_cc (s : State) (r : Reg) (v : Word) : (s.setFrs r v).cc = s.cc := rfl
@[simp] theorem State.setFrs_pm (s : State) (r : Reg) (v : Word) : (s.setFrs r v).pm = s.pm := rfl
@[simp] theorem State.setFrs_amode (s : State) (r : Reg) (v : Word) : (s.setFrs r v).amode = s.amode := rfl
@[simp] theorem State.setFrs_asc (s : State) (r : Reg) (v : Word) : (s.setFrs r v).asc = s.asc := rfl
@[simp] theorem State.setFrs_mem (s : State) (r : Reg) (v : Word) : (s.setFrs r v).mem = s.mem := rfl
@[simp] theorem State.setFrs_alloc (s : State) (r : Reg) (v : Word) : (s.setFrs r v).alloc = s.alloc := rfl
@[simp] theorem State.setFrs_accessList (s : State) (r : Reg) (v : Word) : (s.setFrs r v).accessList = s.accessList := rfl
@[simp] theorem State.setFrs_stxit (s : State) (r : Reg) (v : Word) : (s.setFrs r v).stxit = s.stxit := rfl
@[simp] theorem State.setFrs_control (s : State) (r : Reg) (v : Word) : (s.setFrs r v).control = s.control := rfl
@[simp] theorem State.setFrs_underEx (s : State) (r : Reg) (v : Word) : (s.setFrs r v).underEx = s.underEx := rfl
@[simp] theorem State.setFrs_tod (s : State) (r : Reg) (v : Word) : (s.setFrs r v).tod = s.tod := rfl
@[simp] theorem State.setFrs_draws (s : State) (r : Reg) (v : Word) : (s.setFrs r v).draws = s.draws := rfl
@[simp] theorem State.setFrs_cpu (s : State) (r : Reg) (v : Word) : (s.setFrs r v).cpu = s.cpu := rfl
@[simp] theorem State.setFrs_getGr (s : State) (r : Reg) (v : Word) (q : Reg) : (s.setFrs r v).getGr q = s.getGr q := rfl
@[simp] theorem State.setFrs_getAr (s : State) (r : Reg) (v : Word) (q : Reg) : (s.setFrs r v).getAr q = s.getAr q := rfl
@[simp] theorem State.setFrs_trunc (s : State) (r : Reg) (v : Word) (x : Nat) : (s.setFrs r v).trunc x = s.trunc x := rfl
@[simp] theorem State.setFrs_key (s : State) (r : Reg) (v : Word) (d : Space) (x : Nat) : (s.setFrs r v).key d x = s.key d x := rfl
@[simp] theorem State.setFrs_ilen (s : State) (r : Reg) (v : Word) (x : Nat) : (s.setFrs r v).ilen x = s.ilen x := rfl
@[simp] theorem State.setFrs_nextIa (s : State) (r : Reg) (v : Word) (x : Nat) : (s.setFrs r v).nextIa x = s.nextIa x := rfl
@[simp] theorem State.setFrs_getByte (s : State) (r : Reg) (v : Word) (d : Space) (x : Nat) : (s.setFrs r v).getByte d x = s.getByte d x := rfl
@[simp] theorem State.setFrs_pmBit (s : State) (r : Reg) (v : Word) (x : Nat) : (s.setFrs r v).pmBit x = s.pmBit x := rfl
@[simp] theorem State.setFrs_allocated (s : State) (r : Reg) (v : Word) (d : Space) (x : Nat) (y : Access) : (s.setFrs r v).allocated d x y = s.allocated d x y := rfl

/-! ### setPair -/

@[simp] theorem State.setPair_ar (s : State) (r : Reg) (v : Dword) : (s.setPair r v).ar = s.ar := rfl
@[simp] theorem State.setPair_fr (s : State) (r : Reg) (v : Dword) : (s.setPair r v).fr = s.fr := rfl
@[simp] theorem State.setPair_ia (s : State) (r : Reg) (v : Dword) : (s.setPair r v).ia = s.ia := rfl
@[simp] theorem State.setPair_cc (s : State) (r : Reg) (v : Dword) : (s.setPair r v).cc = s.cc := rfl
@[simp] theorem State.setPair_pm (s : State) (r : Reg) (v : Dword) : (s.setPair r v).pm = s.pm := rfl
@[simp] theorem State.setPair_amode (s : State) (r : Reg) (v : Dword) : (s.setPair r v).amode = s.amode := rfl
@[simp] theorem State.setPair_asc (s : State) (r : Reg) (v : Dword) : (s.setPair r v).asc = s.asc := rfl
@[simp] theorem State.setPair_mem (s : State) (r : Reg) (v : Dword) : (s.setPair r v).mem = s.mem := rfl
@[simp] theorem State.setPair_alloc (s : State) (r : Reg) (v : Dword) : (s.setPair r v).alloc = s.alloc := rfl
@[simp] theorem State.setPair_accessList (s : State) (r : Reg) (v : Dword) : (s.setPair r v).accessList = s.accessList := rfl
@[simp] theorem State.setPair_stxit (s : State) (r : Reg) (v : Dword) : (s.setPair r v).stxit = s.stxit := rfl
@[simp] theorem State.setPair_control (s : State) (r : Reg) (v : Dword) : (s.setPair r v).control = s.control := rfl
@[simp] theorem State.setPair_underEx (s : State) (r : Reg) (v : Dword) : (s.setPair r v).underEx = s.underEx := rfl
@[simp] theorem State.setPair_tod (s : State) (r : Reg) (v : Dword) : (s.setPair r v).tod = s.tod := rfl
@[simp] theorem State.setPair_draws (s : State) (r : Reg) (v : Dword) : (s.setPair r v).draws = s.draws := rfl
@[simp] theorem State.setPair_cpu (s : State) (r : Reg) (v : Dword) : (s.setPair r v).cpu = s.cpu := rfl
@[simp] theorem State.setPair_getAr (s : State) (r : Reg) (v : Dword) (q : Reg) : (s.setPair r v).getAr q = s.getAr q := rfl
@[simp] theorem State.setPair_getFr (s : State) (r : Reg) (v : Dword) (q : Reg) : (s.setPair r v).getFr q = s.getFr q := rfl
@[simp] theorem State.setPair_trunc (s : State) (r : Reg) (v : Dword) (x : Nat) : (s.setPair r v).trunc x = s.trunc x := rfl
@[simp] theorem State.setPair_key (s : State) (r : Reg) (v : Dword) (d : Space) (x : Nat) : (s.setPair r v).key d x = s.key d x := rfl
@[simp] theorem State.setPair_ilen (s : State) (r : Reg) (v : Dword) (x : Nat) : (s.setPair r v).ilen x = s.ilen x := rfl
@[simp] theorem State.setPair_nextIa (s : State) (r : Reg) (v : Dword) (x : Nat) : (s.setPair r v).nextIa x = s.nextIa x := rfl
@[simp] theorem State.setPair_getByte (s : State) (r : Reg) (v : Dword) (d : Space) (x : Nat) : (s.setPair r v).getByte d x = s.getByte d x := rfl
@[simp] theorem State.setPair_pmBit (s : State) (r : Reg) (v : Dword) (x : Nat) : (s.setPair r v).pmBit x = s.pmBit x := rfl
@[simp] theorem State.setPair_allocated (s : State) (r : Reg) (v : Dword) (d : Space) (x : Nat) (y : Access) : (s.setPair r v).allocated d x y = s.allocated d x y := rfl

/-! ### setCc -/

@[simp] theorem State.setCc_gr (s : State) (k : CondCode) : (s.setCc k).gr = s.gr := rfl
@[simp] theorem State.setCc_ar (s : State) (k : CondCode) : (s.setCc k).ar = s.ar := rfl
@[simp] theorem State.setCc_fr (s : State) (k : CondCode) : (s.setCc k).fr = s.fr := rfl
@[simp] theorem State.setCc_ia (s : State) (k : CondCode) : (s.setCc k).ia = s.ia := rfl
@[simp] theorem State.setCc_cc (s : State) (k : CondCode) : (s.setCc k).cc = k := rfl
@[simp] theorem State.setCc_pm (s : State) (k : CondCode) : (s.setCc k).pm = s.pm := rfl
@[simp] theorem State.setCc_amode (s : State) (k : CondCode) : (s.setCc k).amode = s.amode := rfl
@[simp] theorem State.setCc_asc (s : State) (k : CondCode) : (s.setCc k).asc = s.asc := rfl
@[simp] theorem State.setCc_mem (s : State) (k : CondCode) : (s.setCc k).mem = s.mem := rfl
@[simp] theorem State.setCc_alloc (s : State) (k : CondCode) : (s.setCc k).alloc = s.alloc := rfl
@[simp] theorem State.setCc_accessList (s : State) (k : CondCode) : (s.setCc k).accessList = s.accessList := rfl
@[simp] theorem State.setCc_stxit (s : State) (k : CondCode) : (s.setCc k).stxit = s.stxit := rfl
@[simp] theorem State.setCc_control (s : State) (k : CondCode) : (s.setCc k).control = s.control := rfl
@[simp] theorem State.setCc_underEx (s : State) (k : CondCode) : (s.setCc k).underEx = s.underEx := rfl
@[simp] theorem State.setCc_tod (s : State) (k : CondCode) : (s.setCc k).tod = s.tod := rfl
@[simp] theorem State.setCc_draws (s : State) (k : CondCode) : (s.setCc k).draws = s.draws := rfl
@[simp] theorem State.setCc_cpu (s : State) (k : CondCode) : (s.setCc k).cpu = s.cpu := rfl
@[simp] theorem State.setCc_getGr (s : State) (k : CondCode) (q : Reg) : (s.setCc k).getGr q = s.getGr q := rfl
@[simp] theorem State.setCc_getAr (s : State) (k : CondCode) (q : Reg) : (s.setCc k).getAr q = s.getAr q := rfl
@[simp] theorem State.setCc_getFr (s : State) (k : CondCode) (q : Reg) : (s.setCc k).getFr q = s.getFr q := rfl
@[simp] theorem State.setCc_trunc (s : State) (k : CondCode) (x : Nat) : (s.setCc k).trunc x = s.trunc x := rfl
@[simp] theorem State.setCc_key (s : State) (k : CondCode) (d : Space) (x : Nat) : (s.setCc k).key d x = s.key d x := rfl
@[simp] theorem State.setCc_ilen (s : State) (k : CondCode) (x : Nat) : (s.setCc k).ilen x = s.ilen x := rfl
@[simp] theorem State.setCc_nextIa (s : State) (k : CondCode) (x : Nat) : (s.setCc k).nextIa x = s.nextIa x := rfl
@[simp] theorem State.setCc_getByte (s : State) (k : CondCode) (d : Space) (x : Nat) : (s.setCc k).getByte d x = s.getByte d x := rfl
@[simp] theorem State.setCc_pmBit (s : State) (k : CondCode) (x : Nat) : (s.setCc k).pmBit x = s.pmBit x := rfl
@[simp] theorem State.setCc_allocated (s : State) (k : CondCode) (d : Space) (x : Nat) (y : Access) : (s.setCc k).allocated d x y = s.allocated d x y := rfl

/-! ### setIa -/

@[simp] theorem State.setIa_gr (s : State) (a : Nat) : (s.setIa a).gr = s.gr := rfl
@[simp] theorem State.setIa_ar (s : State) (a : Nat) : (s.setIa a).ar = s.ar := rfl
@[simp] theorem State.setIa_fr (s : State) (a : Nat) : (s.setIa a).fr = s.fr := rfl
@[simp] theorem State.setIa_cc (s : State) (a : Nat) : (s.setIa a).cc = s.cc := rfl
@[simp] theorem State.setIa_pm (s : State) (a : Nat) : (s.setIa a).pm = s.pm := rfl
@[simp] theorem State.setIa_amode (s : State) (a : Nat) : (s.setIa a).amode = s.amode := rfl
@[simp] theorem State.setIa_asc (s : State) (a : Nat) : (s.setIa a).asc = s.asc := rfl
@[simp] theorem State.setIa_mem (s : State) (a : Nat) : (s.setIa a).mem = s.mem := rfl
@[simp] theorem State.setIa_alloc (s : State) (a : Nat) : (s.setIa a).alloc = s.alloc := rfl
@[simp] theorem State.setIa_accessList (s : State) (a : Nat) : (s.setIa a).accessList = s.accessList := rfl
@[simp] theorem State.setIa_stxit (s : State) (a : Nat) : (s.setIa a).stxit = s.stxit := rfl
@[simp] theorem State.setIa_control (s : State) (a : Nat) : (s.setIa a).control = s.control := rfl
@[simp] theorem State.setIa_underEx (s : State) (a : Nat) : (s.setIa a).underEx = s.underEx := rfl
@[simp] theorem State.setIa_tod (s : State) (a : Nat) : (s.setIa a).tod = s.tod := rfl
@[simp] theorem State.setIa_draws (s : State) (a : Nat) : (s.setIa a).draws = s.draws := rfl
@[simp] theorem State.setIa_cpu (s : State) (a : Nat) : (s.setIa a).cpu = s.cpu := rfl
@[simp] theorem State.setIa_getGr (s : State) (a : Nat) (q : Reg) : (s.setIa a).getGr q = s.getGr q := rfl
@[simp] theorem State.setIa_getAr (s : State) (a : Nat) (q : Reg) : (s.setIa a).getAr q = s.getAr q := rfl
@[simp] theorem State.setIa_getFr (s : State) (a : Nat) (q : Reg) : (s.setIa a).getFr q = s.getFr q := rfl
@[simp] theorem State.setIa_trunc (s : State) (a : Nat) (x : Nat) : (s.setIa a).trunc x = s.trunc x := rfl
@[simp] theorem State.setIa_key (s : State) (a : Nat) (d : Space) (x : Nat) : (s.setIa a).key d x = s.key d x := rfl
@[simp] theorem State.setIa_ilen (s : State) (a : Nat) (x : Nat) : (s.setIa a).ilen x = s.ilen x := rfl
@[simp] theorem State.setIa_getByte (s : State) (a : Nat) (d : Space) (x : Nat) : (s.setIa a).getByte d x = s.getByte d x := rfl
@[simp] theorem State.setIa_pmBit (s : State) (a : Nat) (x : Nat) : (s.setIa a).pmBit x = s.pmBit x := rfl
@[simp] theorem State.setIa_allocated (s : State) (a : Nat) (d : Space) (x : Nat) (y : Access) : (s.setIa a).allocated d x y = s.allocated d x y := rfl

/-! ### advance -/

@[simp] theorem State.advance_gr (s : State) (len : Nat) : (s.advance len).gr = s.gr := rfl
@[simp] theorem State.advance_ar (s : State) (len : Nat) : (s.advance len).ar = s.ar := rfl
@[simp] theorem State.advance_fr (s : State) (len : Nat) : (s.advance len).fr = s.fr := rfl
@[simp] theorem State.advance_cc (s : State) (len : Nat) : (s.advance len).cc = s.cc := rfl
@[simp] theorem State.advance_pm (s : State) (len : Nat) : (s.advance len).pm = s.pm := rfl
@[simp] theorem State.advance_amode (s : State) (len : Nat) : (s.advance len).amode = s.amode := rfl
@[simp] theorem State.advance_asc (s : State) (len : Nat) : (s.advance len).asc = s.asc := rfl
@[simp] theorem State.advance_mem (s : State) (len : Nat) : (s.advance len).mem = s.mem := rfl
@[simp] theorem State.advance_alloc (s : State) (len : Nat) : (s.advance len).alloc = s.alloc := rfl
@[simp] theorem State.advance_accessList (s : State) (len : Nat) : (s.advance len).accessList = s.accessList := rfl
@[simp] theorem State.advance_stxit (s : State) (len : Nat) : (s.advance len).stxit = s.stxit := rfl
@[simp] theorem State.advance_control (s : State) (len : Nat) : (s.advance len).control = s.control := rfl
@[simp] theorem State.advance_underEx (s : State) (len : Nat) : (s.advance len).underEx = s.underEx := rfl
@[simp] theorem State.advance_tod (s : State) (len : Nat) : (s.advance len).tod = s.tod := rfl
@[simp] theorem State.advance_draws (s : State) (len : Nat) : (s.advance len).draws = s.draws := rfl
@[simp] theorem State.advance_cpu (s : State) (len : Nat) : (s.advance len).cpu = s.cpu := rfl
@[simp] theorem State.advance_getGr (s : State) (len : Nat) (q : Reg) : (s.advance len).getGr q = s.getGr q := rfl
@[simp] theorem State.advance_getAr (s : State) (len : Nat) (q : Reg) : (s.advance len).getAr q = s.getAr q := rfl
@[simp] theorem State.advance_getFr (s : State) (len : Nat) (q : Reg) : (s.advance len).getFr q = s.getFr q := rfl
@[simp] theorem State.advance_trunc (s : State) (len : Nat) (x : Nat) : (s.advance len).trunc x = s.trunc x := rfl
@[simp] theorem State.advance_key (s : State) (len : Nat) (d : Space) (x : Nat) : (s.advance len).key d x = s.key d x := rfl
@[simp] theorem State.advance_ilen (s : State) (len : Nat) (x : Nat) : (s.advance len).ilen x = s.ilen x := rfl
@[simp] theorem State.advance_getByte (s : State) (len : Nat) (d : Space) (x : Nat) : (s.advance len).getByte d x = s.getByte d x := rfl
@[simp] theorem State.advance_pmBit (s : State) (len : Nat) (x : Nat) : (s.advance len).pmBit x = s.pmBit x := rfl
@[simp] theorem State.advance_allocated (s : State) (len : Nat) (d : Space) (x : Nat) (y : Access) : (s.advance len).allocated d x y = s.allocated d x y := rfl

/-! ### takeInterrupt -/

@[simp] theorem State.takeInterrupt_gr (s : State) (w : Interrupt) : (s.takeInterrupt w).gr = s.gr := rfl
@[simp] theorem State.takeInterrupt_ar (s : State) (w : Interrupt) : (s.takeInterrupt w).ar = s.ar := rfl
@[simp] theorem State.takeInterrupt_fr (s : State) (w : Interrupt) : (s.takeInterrupt w).fr = s.fr := rfl
@[simp] theorem State.takeInterrupt_ia (s : State) (w : Interrupt) : (s.takeInterrupt w).ia = s.ia := rfl
@[simp] theorem State.takeInterrupt_cc (s : State) (w : Interrupt) : (s.takeInterrupt w).cc = s.cc := rfl
@[simp] theorem State.takeInterrupt_pm (s : State) (w : Interrupt) : (s.takeInterrupt w).pm = s.pm := rfl
@[simp] theorem State.takeInterrupt_amode (s : State) (w : Interrupt) : (s.takeInterrupt w).amode = s.amode := rfl
@[simp] theorem State.takeInterrupt_asc (s : State) (w : Interrupt) : (s.takeInterrupt w).asc = s.asc := rfl
@[simp] theorem State.takeInterrupt_mem (s : State) (w : Interrupt) : (s.takeInterrupt w).mem = s.mem := rfl
@[simp] theorem State.takeInterrupt_alloc (s : State) (w : Interrupt) : (s.takeInterrupt w).alloc = s.alloc := rfl
@[simp] theorem State.takeInterrupt_accessList (s : State) (w : Interrupt) : (s.takeInterrupt w).accessList = s.accessList := rfl
@[simp] theorem State.takeInterrupt_stxit (s : State) (w : Interrupt) : (s.takeInterrupt w).stxit = s.stxit := rfl
@[simp] theorem State.takeInterrupt_control (s : State) (w : Interrupt) : (s.takeInterrupt w).control = .interrupt w := rfl
@[simp] theorem State.takeInterrupt_underEx (s : State) (w : Interrupt) : (s.takeInterrupt w).underEx = s.underEx := rfl
@[simp] theorem State.takeInterrupt_tod (s : State) (w : Interrupt) : (s.takeInterrupt w).tod = s.tod := rfl
@[simp] theorem State.takeInterrupt_draws (s : State) (w : Interrupt) : (s.takeInterrupt w).draws = s.draws := rfl
@[simp] theorem State.takeInterrupt_cpu (s : State) (w : Interrupt) : (s.takeInterrupt w).cpu = s.cpu := rfl
@[simp] theorem State.takeInterrupt_getGr (s : State) (w : Interrupt) (q : Reg) : (s.takeInterrupt w).getGr q = s.getGr q := rfl
@[simp] theorem State.takeInterrupt_getAr (s : State) (w : Interrupt) (q : Reg) : (s.takeInterrupt w).getAr q = s.getAr q := rfl
@[simp] theorem State.takeInterrupt_getFr (s : State) (w : Interrupt) (q : Reg) : (s.takeInterrupt w).getFr q = s.getFr q := rfl
@[simp] theorem State.takeInterrupt_trunc (s : State) (w : Interrupt) (x : Nat) : (s.takeInterrupt w).trunc x = s.trunc x := rfl
@[simp] theorem State.takeInterrupt_key (s : State) (w : Interrupt) (d : Space) (x : Nat) : (s.takeInterrupt w).key d x = s.key d x := rfl
@[simp] theorem State.takeInterrupt_ilen (s : State) (w : Interrupt) (x : Nat) : (s.takeInterrupt w).ilen x = s.ilen x := rfl
@[simp] theorem State.takeInterrupt_nextIa (s : State) (w : Interrupt) (x : Nat) : (s.takeInterrupt w).nextIa x = s.nextIa x := rfl
@[simp] theorem State.takeInterrupt_getByte (s : State) (w : Interrupt) (d : Space) (x : Nat) : (s.takeInterrupt w).getByte d x = s.getByte d x := rfl
@[simp] theorem State.takeInterrupt_pmBit (s : State) (w : Interrupt) (x : Nat) : (s.takeInterrupt w).pmBit x = s.pmBit x := rfl
@[simp] theorem State.takeInterrupt_allocated (s : State) (w : Interrupt) (d : Space) (x : Nat) (y : Access) : (s.takeInterrupt w).allocated d x y = s.allocated d x y := rfl

/-! ### takeIf -/

@[simp] theorem State.takeIf_gr (s : State) (w : Option Interrupt) : (s.takeIf w).gr = s.gr := by cases w <;> rfl
@[simp] theorem State.takeIf_ar (s : State) (w : Option Interrupt) : (s.takeIf w).ar = s.ar := by cases w <;> rfl
@[simp] theorem State.takeIf_fr (s : State) (w : Option Interrupt) : (s.takeIf w).fr = s.fr := by cases w <;> rfl
@[simp] theorem State.takeIf_ia (s : State) (w : Option Interrupt) : (s.takeIf w).ia = s.ia := by cases w <;> rfl
@[simp] theorem State.takeIf_cc (s : State) (w : Option Interrupt) : (s.takeIf w).cc = s.cc := by cases w <;> rfl
@[simp] theorem State.takeIf_pm (s : State) (w : Option Interrupt) : (s.takeIf w).pm = s.pm := by cases w <;> rfl
@[simp] theorem State.takeIf_amode (s : State) (w : Option Interrupt) : (s.takeIf w).amode = s.amode := by cases w <;> rfl
@[simp] theorem State.takeIf_asc (s : State) (w : Option Interrupt) : (s.takeIf w).asc = s.asc := by cases w <;> rfl
@[simp] theorem State.takeIf_mem (s : State) (w : Option Interrupt) : (s.takeIf w).mem = s.mem := by cases w <;> rfl
@[simp] theorem State.takeIf_alloc (s : State) (w : Option Interrupt) : (s.takeIf w).alloc = s.alloc := by cases w <;> rfl
@[simp] theorem State.takeIf_accessList (s : State) (w : Option Interrupt) : (s.takeIf w).accessList = s.accessList := by cases w <;> rfl
@[simp] theorem State.takeIf_stxit (s : State) (w : Option Interrupt) : (s.takeIf w).stxit = s.stxit := by cases w <;> rfl
@[simp] theorem State.takeIf_underEx (s : State) (w : Option Interrupt) : (s.takeIf w).underEx = s.underEx := by cases w <;> rfl
@[simp] theorem State.takeIf_tod (s : State) (w : Option Interrupt) : (s.takeIf w).tod = s.tod := by cases w <;> rfl
@[simp] theorem State.takeIf_draws (s : State) (w : Option Interrupt) : (s.takeIf w).draws = s.draws := by cases w <;> rfl
@[simp] theorem State.takeIf_cpu (s : State) (w : Option Interrupt) : (s.takeIf w).cpu = s.cpu := by cases w <;> rfl
@[simp] theorem State.takeIf_getGr (s : State) (w : Option Interrupt) (q : Reg) : (s.takeIf w).getGr q = s.getGr q := by cases w <;> rfl
@[simp] theorem State.takeIf_getAr (s : State) (w : Option Interrupt) (q : Reg) : (s.takeIf w).getAr q = s.getAr q := by cases w <;> rfl
@[simp] theorem State.takeIf_getFr (s : State) (w : Option Interrupt) (q : Reg) : (s.takeIf w).getFr q = s.getFr q := by cases w <;> rfl
@[simp] theorem State.takeIf_trunc (s : State) (w : Option Interrupt) (x : Nat) : (s.takeIf w).trunc x = s.trunc x := by cases w <;> rfl
@[simp] theorem State.takeIf_key (s : State) (w : Option Interrupt) (d : Space) (x : Nat) : (s.takeIf w).key d x = s.key d x := by cases w <;> rfl
@[simp] theorem State.takeIf_ilen (s : State) (w : Option Interrupt) (x : Nat) : (s.takeIf w).ilen x = s.ilen x := by cases w <;> rfl
@[simp] theorem State.takeIf_nextIa (s : State) (w : Option Interrupt) (x : Nat) : (s.takeIf w).nextIa x = s.nextIa x := by cases w <;> rfl
@[simp] theorem State.takeIf_getByte (s : State) (w : Option Interrupt) (d : Space) (x : Nat) : (s.takeIf w).getByte d x = s.getByte d x := by cases w <;> rfl
@[simp] theorem State.takeIf_pmBit (s : State) (w : Option Interrupt) (x : Nat) : (s.takeIf w).pmBit x = s.pmBit x := by cases w <;> rfl
@[simp] theorem State.takeIf_allocated (s : State) (w : Option Interrupt) (d : Space) (x : Nat) (y : Access) : (s.takeIf w).allocated d x y = s.allocated d x y := by cases w <;> rfl

/-! ### putBytes -/

@[simp] theorem State.putBytes_gr (s : State) (sp : Space) (a : Nat) (bs : List Byte) : (s.putBytes sp a bs).gr = s.gr := rfl
@[simp] theorem State.putBytes_ar (s : State) (sp : Space) (a : Nat) (bs : List Byte) : (s.putBytes sp a bs).ar = s.ar := rfl
@[simp] theorem State.putBytes_fr (s : State) (sp : Space) (a : Nat) (bs : List Byte) : (s.putBytes sp a bs).fr = s.fr := rfl
@[simp] theorem State.putBytes_ia (s : State) (sp : Space) (a : Nat) (bs : List Byte) : (s.putBytes sp a bs).ia = s.ia := rfl
@[simp] theorem State.putBytes_cc (s : State) (sp : Space) (a : Nat) (bs : List Byte) : (s.putBytes sp a bs).cc = s.cc := rfl
@[simp] theorem State.putBytes_pm (s : State) (sp : Space) (a : Nat) (bs : List Byte) : (s.putBytes sp a bs).pm = s.pm := rfl
@[simp] theorem State.putBytes_amode (s : State) (sp : Space) (a : Nat) (bs : List Byte) : (s.putBytes sp a bs).amode = s.amode := rfl
@[simp] theorem State.putBytes_asc (s : State) (sp : Space) (a : Nat) (bs : List Byte) : (s.putBytes sp a bs).asc = s.asc := rfl
@[simp] theorem State.putBytes_alloc (s : State) (sp : Space) (a : Nat) (bs : List Byte) : (s.putBytes sp a bs).alloc = s.alloc := rfl
@[simp] theorem State.putBytes_accessList (s : State) (sp : Space) (a : Nat) (bs : List Byte) : (s.putBytes sp a bs).accessList = s.accessList := rfl
@[simp] theorem State.putBytes_stxit (s : State) (sp : Space) (a : Nat) (bs : List Byte) : (s.putBytes sp a bs).stxit = s.stxit := rfl
@[simp] theorem State.putBytes_control (s : State) (sp : Space) (a : Nat) (bs : List Byte) : (s.putBytes sp a bs).control = s.control := rfl
@[simp] theorem State.putBytes_underEx (s : State) (sp : Space) (a : Nat) (bs : List Byte) : (s.putBytes sp a bs).underEx = s.underEx := rfl
@[simp] theorem State.putBytes_tod (s : State) (sp : Space) (a : Nat) (bs : List Byte) : (s.putBytes sp a bs).tod = s.tod := rfl
@[simp] theorem State.putBytes_draws (s : State) (sp : Space) (a : Nat) (bs : List Byte) : (s.putBytes sp a bs).draws = s.draws := rfl
@[simp] theorem State.putBytes_cpu (s : State) (sp : Space) (a : Nat) (bs : List Byte) : (s.putBytes sp a bs).cpu = s.cpu := rfl
@[simp] theorem State.putBytes_getGr (s : State) (sp : Space) (a : Nat) (bs : List Byte) (q : Reg) : (s.putBytes sp a bs).getGr q = s.getGr q := rfl
@[simp] theorem State.putBytes_getAr (s : State) (sp : Space) (a : Nat) (bs : List Byte) (q : Reg) : (s.putBytes sp a bs).getAr q = s.getAr q := rfl
@[simp] theorem State.putBytes_getFr (s : State) (sp : Space) (a : Nat) (bs : List Byte) (q : Reg) : (s.putBytes sp a bs).getFr q = s.getFr q := rfl
@[simp] theorem State.putBytes_trunc (s : State) (sp : Space) (a : Nat) (bs : List Byte) (x : Nat) : (s.putBytes sp a bs).trunc x = s.trunc x := rfl
@[simp] theorem State.putBytes_key (s : State) (sp : Space) (a : Nat) (bs : List Byte) (d : Space) (x : Nat) : (s.putBytes sp a bs).key d x = s.key d x := rfl
@[simp] theorem State.putBytes_ilen (s : State) (sp : Space) (a : Nat) (bs : List Byte) (x : Nat) : (s.putBytes sp a bs).ilen x = s.ilen x := rfl
@[simp] theorem State.putBytes_nextIa (s : State) (sp : Space) (a : Nat) (bs : List Byte) (x : Nat) : (s.putBytes sp a bs).nextIa x = s.nextIa x := rfl
@[simp] theorem State.putBytes_pmBit (s : State) (sp : Space) (a : Nat) (bs : List Byte) (x : Nat) : (s.putBytes sp a bs).pmBit x = s.pmBit x := rfl
@[simp] theorem State.putBytes_allocated (s : State) (sp : Space) (a : Nat) (bs : List Byte) (d : Space) (x : Nat) (y : Access) : (s.putBytes sp a bs).allocated d x y = s.allocated d x y := rfl

/-! ### draw -/

@[simp] theorem State.draw_gr (s : State) (n : Nat) : (s.draw n).gr = s.gr := rfl
@[simp] theorem State.draw_ar (s : State) (n : Nat) : (s.draw n).ar = s.ar := rfl
@[simp] theorem State.draw_fr (s : State) (n : Nat) : (s.draw n).fr = s.fr := rfl
@[simp] theorem State.draw_ia (s : State) (n : Nat) : (s.draw n).ia = s.ia := rfl
@[simp] theorem State.draw_cc (s : State) (n : Nat) : (s.draw n).cc = s.cc := rfl
@[simp] theorem State.draw_pm (s : State) (n : Nat) : (s.draw n).pm = s.pm := rfl
@[simp] theorem State.draw_amode (s : State) (n : Nat) : (s.draw n).amode = s.amode := rfl
@[simp] theorem State.draw_asc (s : State) (n : Nat) : (s.draw n).asc = s.asc := rfl
@[simp] theorem State.draw_mem (s : State) (n : Nat) : (s.draw n).mem = s.mem := rfl
@[simp] theorem State.draw_alloc (s : State) (n : Nat) : (s.draw n).alloc = s.alloc := rfl
@[simp] theorem State.draw_accessList (s : State) (n : Nat) : (s.draw n).accessList = s.accessList := rfl
@[simp] theorem State.draw_stxit (s : State) (n : Nat) : (s.draw n).stxit = s.stxit := rfl
@[simp] theorem State.draw_control (s : State) (n : Nat) : (s.draw n).control = s.control := rfl
@[simp] theorem State.draw_underEx (s : State) (n : Nat) : (s.draw n).underEx = s.underEx := rfl
@[simp] theorem State.draw_tod (s : State) (n : Nat) : (s.draw n).tod = s.tod := rfl
@[simp] theorem State.draw_draws (s : State) (n : Nat) : (s.draw n).draws = s.draws + n := rfl
@[simp] theorem State.draw_cpu (s : State) (n : Nat) : (s.draw n).cpu = s.cpu := rfl
@[simp] theorem State.draw_getGr (s : State) (n : Nat) (q : Reg) : (s.draw n).getGr q = s.getGr q := rfl
@[simp] theorem State.draw_getAr (s : State) (n : Nat) (q : Reg) : (s.draw n).getAr q = s.getAr q := rfl
@[simp] theorem State.draw_getFr (s : State) (n : Nat) (q : Reg) : (s.draw n).getFr q = s.getFr q := rfl
@[simp] theorem State.draw_trunc (s : State) (n : Nat) (x : Nat) : (s.draw n).trunc x = s.trunc x := rfl
@[simp] theorem State.draw_key (s : State) (n : Nat) (d : Space) (x : Nat) : (s.draw n).key d x = s.key d x := rfl
@[simp] theorem State.draw_ilen (s : State) (n : Nat) (x : Nat) : (s.draw n).ilen x = s.ilen x := rfl
@[simp] theorem State.draw_nextIa (s : State) (n : Nat) (x : Nat) : (s.draw n).nextIa x = s.nextIa x := rfl
@[simp] theorem State.draw_getByte (s : State) (n : Nat) (d : Space) (x : Nat) : (s.draw n).getByte d x = s.getByte d x := rfl
@[simp] theorem State.draw_pmBit (s : State) (n : Nat) (x : Nat) : (s.draw n).pmBit x = s.pmBit x := rfl
@[simp] theorem State.draw_allocated (s : State) (n : Nat) (d : Space) (x : Nat) (y : Access) : (s.draw n).allocated d x y = s.allocated d x y := rfl

/-! ### A register after it was written -/

@[simp] theorem State.getGr_setGr (s : State) (r q : Reg) (v : Word) :
    (s.setGr r v).getGr q = if q = r then v else s.getGr q := by
  simp only [State.getGr, State.setGr, Vector.getElem_set, BitVec.toNat_inj, eq_comm]

@[simp] theorem State.getAr_setAr (s : State) (r q : Reg) (v : Word) :
    (s.setAr r v).getAr q = if q = r then v else s.getAr q := by
  simp only [State.getAr, State.setAr, Vector.getElem_set, BitVec.toNat_inj, eq_comm]

theorem State.getFr_setFr (s : State) (r q : Reg) (v : Dword) :
    (s.setFr r v).getFr q = if fprIndex q = fprIndex r then v else s.getFr q := by
  simp only [State.getFr, State.setFr, Fin.getElem_fin, Vector.getElem_set, Fin.ext_iff, eq_comm]

/-- Different floating-point register numbers name different registers (R30). -/
theorem fprIndex_inj : ∀ r q : Reg, isFpr r = true → isFpr q = true → (fprIndex q = fprIndex r ↔ q = r) := by decide

theorem State.getFr_setFr_same (s : State) (r : Reg) (v : Dword) : (s.setFr r v).getFr r = v := by
  simp [State.getFr_setFr]

theorem State.getFr_setFr_other (s : State) (r q : Reg) (v : Dword) (hr : isFpr r = true) (hq : isFpr q = true) (h : q ≠ r) :
    (s.setFr r v).getFr q = s.getFr q := by
  simp [State.getFr_setFr, fprIndex_inj r q hr hq, h]

/-- The word of a register pair is its two halves (R11). -/
theorem bits_append_halves (v : Dword) : bits v 0 32 ++ bits v 32 32 = v := by
  apply BitVec.eq_of_getElem_eq
  intro i hi
  simp only [bits, BitVec.getElem_append, BitVec.getElem_extractLsb']
  split <;> simp_all [← BitVec.getLsbD_eq_getElem]

end Sys2Proof.Machine
end

