-- ==== Sys2Proof/Laws/Ops.lean ====
section
/-! SUPPORT. What each shared operation over addresses, memory and operands can do, said once; later proofs cite these lemmas instead
of unfolding the operations. -/

namespace Sys2Proof.Machine

/-! ### Addresses and keys -/

theorem AMode.width_le (m : AMode) : 24 ≤ m.width ∧ m.width ≤ 31 := by
  cases m <;> decide

theorem State.trunc_lt (s : State) (a : Nat) : s.trunc a < 2 ^ s.amode.width :=
  Nat.mod_lt _ (Nat.two_pow_pos _)

theorem State.trunc_lt_31 (s : State) (a : Nat) : s.trunc a < 2 ^ 31 :=
  Nat.lt_of_lt_of_le (s.trunc_lt a) (Nat.pow_le_pow_right (by omega) s.amode.width_le.2)

@[simp] theorem State.trunc_trunc (s : State) (a : Nat) : s.trunc (s.trunc a) = s.trunc a :=
  Nat.mod_mod _ _

theorem State.trunc_of_lt (s : State) (a : Nat) (h : a < 2 ^ s.amode.width) : s.trunc a = a :=
  Nat.mod_eq_of_lt h

@[simp] theorem State.trunc_trunc_add (s : State) (a i : Nat) : s.trunc (s.trunc a + i) = s.trunc (a + i) := by
  simp [State.trunc, Nat.add_mod]

@[simp] theorem State.key_trunc (s : State) (sp : Space) (a : Nat) : s.key sp (s.trunc a) = s.key sp a := by
  simp [State.key]

theorem Space.index_inj (x y : Space) : x.index = y.index ↔ x = y := by
  cases x <;> cases y <;> simp [Space.index]

/-- Two bytes have one key exactly when they have one space and one truncated address (R51, R67). -/
theorem State.key_eq_iff (s : State) (sp sp' : Space) (a a' : Nat) :
    s.key sp a = s.key sp' a' ↔ sp = sp' ∧ s.trunc a = s.trunc a' := by
  have h1 := s.trunc_lt_31 a
  have h2 := s.trunc_lt_31 a'
  rw [← Space.index_inj]
  simp only [State.key, Space.key]
  omega

/-- The bytes of an operand of at most 2^24 bytes have different keys, also where the operand wraps (R67). -/
theorem State.key_inj (s : State) (sp : Space) (a n : Nat) (hn : n ≤ 2 ^ 24) (i : Nat) (hi : i < n) (j : Nat) (hj : j < n)
    (h : s.key sp (a + i) = s.key sp (a + j)) : i = j := by
  have h2 := ((s.key_eq_iff sp sp _ _).1 h).2
  have h3 : 2 ^ 24 ≤ 2 ^ s.amode.width := Nat.pow_le_pow_right (by omega) s.amode.width_le.1
  have h4 : a + i ≡ a + j [MOD 2 ^ s.amode.width] := h2
  have h5 : i ≡ j [MOD 2 ^ s.amode.width] := Nat.ModEq.add_left_cancel' a h4
  rwa [Nat.ModEq, Nat.mod_eq_of_lt (by omega), Nat.mod_eq_of_lt (by omega)] at h5

/-- Where the instruction address goes (R21). -/
theorem State.setIa_toNat (s : State) (a : Nat) (h : a < 2 ^ 31) : (s.setIa a).ia.toNat = a := by
  simp only [State.setIa, BitVec.toNat_ofNat]
  exact Nat.mod_eq_of_lt h

@[simp] theorem State.advance_ia (s : State) (len : Nat) : (s.advance len).ia.toNat = s.nextIa len :=
  s.setIa_toNat _ (s.trunc_lt_31 _)

/-- The continuation address is the one that `advance` goes to (R21, R22). -/
@[simp] theorem State.continuation_eq (s : State) (len : Nat) : s.continuation len = s.nextIa len := by
  simp [State.continuation, State.nextIa, State.trunc, State.ilen]

theorem State.nextIa_lt (s : State) (len : Nat) : s.nextIa len < 2 ^ s.amode.width :=
  s.trunc_lt _

/-! ### Bytes of an operand -/

@[simp] theorem State.getBytes_length (s : State) (sp : Space) (a n : Nat) : (s.getBytes sp a n).length = n := by
  simp [State.getBytes]

theorem State.getBytes_getElem (s : State) (sp : Space) (a n i : Nat) (h : i < (s.getBytes sp a n).length) :
    (s.getBytes sp a n)[i] = s.getByte sp (a + i) := by
  simp [State.getBytes]

/-- Storing bytes changes no other byte of any space. -/
theorem State.putBytes_other (s : State) (sp : Space) (a : Nat) (bs : List Byte) :
    SameMemoryBut s (s.putBytes sp a bs) sp a bs.length :=
  fun k h => Memory.read_writeBytes_other _ bs s.mem a k h

/-- A stored byte is read back. -/
theorem State.putBytes_same (s : State) (sp : Space) (a : Nat) (bs : List Byte) (hn : bs.length ≤ 2 ^ 24) (i : Nat)
    (hi : i < bs.length) : (s.putBytes sp a bs).getByte sp (a + i) = bs[i] :=
  Memory.read_writeBytes_same (s.key sp) bs s.mem a i hi fun i hi j hj h => s.key_inj sp a bs.length hn i hi j hj h

/-- Stored bytes are read back. -/
theorem State.getBytes_putBytes (s : State) (sp : Space) (a : Nat) (bs : List Byte) (hn : bs.length ≤ 2 ^ 24) :
    (s.putBytes sp a bs).getBytes sp a bs.length = bs := by
  apply List.ext_getElem (by simp)
  intro i h1 h2
  rw [State.getBytes_getElem, State.putBytes_same s sp a bs hn i h2]

/-- The left part of stored bytes is read back. -/
theorem State.getBytes_putBytes_left (s : State) (sp : Space) (a : Nat) (xs ys : List Byte)
    (hn : (xs ++ ys).length ≤ 2 ^ 24) : (s.putBytes sp a (xs ++ ys)).getBytes sp a xs.length = xs := by
  apply List.ext_getElem (by simp)
  intro i h1 h2
  rw [State.getBytes_getElem, State.putBytes_same s sp a (xs ++ ys) hn i (by rw [List.length_append]; omega),
    List.getElem_append_left h2]

/-- The right part of stored bytes is read back. -/
theorem State.getBytes_putBytes_right (s : State) (sp : Space) (a : Nat) (xs ys : List Byte)
    (hn : (xs ++ ys).length ≤ 2 ^ 24) : (s.putBytes sp a (xs ++ ys)).getBytes sp (a + xs.length) ys.length = ys := by
  apply List.ext_getElem (by simp)
  intro i h1 h2
  rw [State.getBytes_getElem, Nat.add_assoc,
    State.putBytes_same s sp a (xs ++ ys) hn (xs.length + i) (by rw [List.length_append]; omega)]
  simp

/-- Storing bytes keeps the canonical form of memory. -/
theorem State.putBytes_wf (s : State) (sp : Space) (a : Nat) (bs : List Byte) (h : Memory.wf s.mem) :
    Memory.wf (s.putBytes sp a bs).mem :=
  Memory.wf_writeBytes _ bs s.mem a h

/-! ### Access and alignment -/

theorem State.allocatedAll_iff (s : State) (sp : Space) (a n : Nat) (k : Access) :
    s.allocatedAll sp a n k = true ↔ ∀ i < n, s.allocated sp (s.trunc (a + i)) k = true := by
  simp [State.allocatedAll]

/-- `reach` answers a space exactly where the operand is accessible in it. -/
theorem State.reach_ok (s : State) (b : Reg) (a n : Nat) (ks : List Access) (sp : Space) :
    s.reach b a n ks = .ok sp ↔ s.Accessible b sp a n ks := by
  unfold State.reach State.Accessible
  cases h : s.space b with
  | error w => simp [Bind.bind, Except.bind]
  | ok x =>
    simp only [Bind.bind, Except.bind, Except.ok.injEq]
    split
    · rename_i hall
      rw [List.all_eq_true] at hall
      simp only [Except.ok.injEq]
      exact ⟨fun h => h ▸ ⟨rfl, hall⟩, fun h => h.1⟩
    · rename_i hall
      rw [List.all_eq_true] at hall
      simp only [reduceCtorEq, false_iff, not_and]
      exact fun h => h ▸ hall

/-- The space of an operand is missing for one reason only (R63). -/
theorem State.space_error (s : State) (b : Reg) (w : Interrupt) (h : s.space b = .error w) : w = .addressTranslation := by
  unfold State.space at h
  split at h
  · cases h
  · split at h
    · cases h
    · exact (Except.error.inj h).symm

/-- An operand is not reached for one reason only (R56, R63). -/
theorem State.reach_error (s : State) (b : Reg) (a n : Nat) (ks : List Access) (w : Interrupt)
    (h : s.reach b a n ks = .error w) : w = .addressTranslation := by
  unfold State.reach at h
  cases hs : s.space b with
  | error x =>
    rw [hs] at h
    simp only [Bind.bind, Except.bind, Except.error.injEq] at h
    exact h ▸ s.space_error b x hs
  | ok x =>
    rw [hs] at h
    simp only [Bind.bind, Except.bind] at h
    split at h
    · cases h
    · exact (Except.error.inj h).symm

theorem State.aligned_ok (s : State) (a n : Nat) : s.aligned a n = .ok () ↔ s.AlignedTo a n := by
  unfold State.aligned State.AlignedTo
  split <;> simp_all

theorem State.aligned_error (s : State) (a n : Nat) (w : Interrupt) (h : s.aligned a n = .error w) : w = .addressing := by
  unfold State.aligned at h
  split at h
  · exact (Except.error.inj h).symm
  · cases h

/-- `load` answers the bytes of the operand exactly where it may be read (R53). -/
theorem State.load_ok (s : State) (b : Reg) (a n : Nat) (bs : List Byte) :
    s.load b a n = .ok bs ↔ ∃ sp, s.Accessible b sp a n [.read] ∧ bs = s.getBytes sp a n := by
  unfold State.load
  cases h : s.reach b a n [.read] with
  | error w =>
    simp only [Bind.bind, Except.bind, reduceCtorEq, false_iff, not_exists, not_and]
    intro sp hsp
    rw [← State.reach_ok, h] at hsp
    cases hsp
  | ok x =>
    simp only [Bind.bind, Except.bind, pure, Except.pure, Except.ok.injEq]
    constructor
    · exact fun hb => ⟨x, (s.reach_ok b a n _ x).1 h, hb.symm⟩
    · rintro ⟨sp, hsp, rfl⟩
      rw [← State.reach_ok, h] at hsp
      cases hsp
      rfl

theorem State.load_error (s : State) (b : Reg) (a n : Nat) (w : Interrupt) (h : s.load b a n = .error w) :
    w = .addressTranslation := by
  unfold State.load at h
  cases hr : s.reach b a n [.read] with
  | error x =>
    rw [hr] at h
    simp only [Bind.bind, Except.bind, Except.error.injEq] at h
    exact h ▸ s.reach_error b a n _ x hr
  | ok x =>
    rw [hr] at h
    simp [Bind.bind, Except.bind, pure, Except.pure] at h

/-- `store` stores exactly where the operand may be written (R53). -/
theorem State.store_ok (s : State) (b : Reg) (a : Nat) (bs : List Byte) (t : State) :
    s.store b a bs = .ok t ↔ ∃ sp, s.Accessible b sp a bs.length [.write] ∧ t = s.putBytes sp a bs := by
  unfold State.store
  cases h : s.reach b a bs.length [.write] with
  | error w =>
    simp only [Bind.bind, Except.bind, reduceCtorEq, false_iff, not_exists, not_and]
    intro sp hsp
    rw [← State.reach_ok, h] at hsp
    cases hsp
  | ok x =>
    simp only [Bind.bind, Except.bind, pure, Except.pure, Except.ok.injEq]
    constructor
    · exact fun hb => ⟨x, (s.reach_ok b a _ _ x).1 h, hb.symm⟩
    · rintro ⟨sp, hsp, rfl⟩
      rw [← State.reach_ok, h] at hsp
      cases hsp
      rfl

theorem State.store_error (s : State) (b : Reg) (a : Nat) (bs : List Byte) (w : Interrupt) (h : s.store b a bs = .error w) :
    w = .addressTranslation := by
  unfold State.store at h
  cases hr : s.reach b a bs.length [.write] with
  | error x =>
    rw [hr] at h
    simp only [Bind.bind, Except.bind, Except.error.injEq] at h
    exact h ▸ s.reach_error b a _ _ x hr
  | ok x =>
    rw [hr] at h
    simp [Bind.bind, Except.bind, pure, Except.pure] at h

/-- A word operand that is aligned and readable. -/
theorem State.wordOperand_ok (s : State) (x b : Reg) (d : Disp) (sp : Space) (ha : s.AlignedTo (s.ea d x b) 4)
    (h : s.Accessible b sp (s.ea d x b) 4 [.read]) :
    s.wordOperand x b d = .ok (wordOf (s.getBytes sp (s.ea d x b) 4)) := by
  rw [State.wordOperand, (s.aligned_ok _ _).2 ha, (s.load_ok _ _ _ _).2 ⟨sp, h, rfl⟩]
  rfl

/-- A halfword operand that is aligned and readable. -/
theorem State.halfOperand_ok (s : State) (x b : Reg) (d : Disp) (sp : Space) (ha : s.AlignedTo (s.ea d x b) 2)
    (h : s.Accessible b sp (s.ea d x b) 2 [.read]) :
    s.halfOperand x b d = .ok (halfOf (s.getBytes sp (s.ea d x b) 2)) := by
  rw [State.halfOperand, (s.aligned_ok _ _).2 ha, (s.load_ok _ _ _ _).2 ⟨sp, h, rfl⟩]
  rfl

/-- A doubleword operand that is aligned and readable. -/
theorem State.dwordOperand_ok (s : State) (x b : Reg) (d : Disp) (sp : Space) (ha : s.AlignedTo (s.ea d x b) 8)
    (h : s.Accessible b sp (s.ea d x b) 8 [.read]) :
    s.dwordOperand x b d = .ok (dwordOf (s.getBytes sp (s.ea d x b) 8)) := by
  rw [State.dwordOperand, (s.aligned_ok _ _).2 ha, (s.load_ok _ _ _ _).2 ⟨sp, h, rfl⟩]
  rfl

/-- A byte operand that is readable. -/
theorem State.byteOperand_ok (s : State) (x b : Reg) (d : Disp) (sp : Space)
    (h : s.Accessible b sp (s.ea d x b) 1 [.read]) :
    s.byteOperand x b d = .ok (s.getByte sp (s.ea d x b)) := by
  rw [State.byteOperand, (s.load_ok _ _ _ _).2 ⟨sp, h, rfl⟩]
  rfl

/-- A stored operand that is aligned and may be written. -/
theorem State.storeOperand_ok (s : State) (x b : Reg) (d : Disp) (al : Nat) (bs : List Byte) (sp : Space)
    (ha : s.AlignedTo (s.ea d x b) al) (h : s.Accessible b sp (s.ea d x b) bs.length [.write]) :
    s.storeOperand x b d al bs = .ok (s.putBytes sp (s.ea d x b) bs) := by
  rw [State.storeOperand, (s.aligned_ok _ _).2 ha]
  exact (s.store_ok _ _ _ _).2 ⟨sp, h, rfl⟩

/-- Both operands of a storage-to-storage instruction, where they are accessible. -/
theorem State.twoOperands_ok (s : State) (b1 : Reg) (a1 n1 : Nat) (ks : List Access) (b2 : Reg) (a2 n2 : Nat) (sp1 sp2 : Space) :
    s.twoOperands b1 a1 n1 ks b2 a2 n2 = .ok (sp1, sp2) ↔
      s.Accessible b1 sp1 a1 n1 ks ∧ s.Accessible b2 sp2 a2 n2 [.read] := by
  unfold State.twoOperands
  cases h1 : s.reach b1 a1 n1 ks with
  | error w =>
    simp only [Bind.bind, Except.bind, reduceCtorEq, false_iff, not_and]
    intro h
    rw [← State.reach_ok, h1] at h
    cases h
  | ok x =>
    cases h2 : s.reach b2 a2 n2 [.read] with
    | error w =>
      simp only [Bind.bind, Except.bind, reduceCtorEq, false_iff, not_and]
      intro _ h
      rw [← State.reach_ok, h2] at h
      cases h
    | ok y =>
      simp only [Bind.bind, Except.bind, pure, Except.pure, Except.ok.injEq, Prod.mk.injEq, ← State.reach_ok, h1, h2]

/-- One byte tested as it is reached (R66). -/
theorem State.tryByte_some (s : State) (sp : Space) (m : List Host.Cell) (a : Nat)
    (h : s.allocated sp (s.trunc a) .read = true) : s.tryByte (.ok sp) m a = some (Memory.read m (s.key sp a)) := by
  simp [State.tryByte, h]

/-! ### Taking an interrupt -/

/-- What an instruction that was tested can do: its effect, or an interrupt in the state before it (R616). -/
theorem State.attempt_next (s t : State) (r : Except Interrupt State) (h : s.attempt r = .next t) :
    r = .ok t ∨ ∃ w, r = .error w ∧ t = s.takeInterrupt w := by
  cases r with
  | ok x => exact .inl (by rw [State.attempt] at h; exact congrArg Except.ok (Host.Outcome.next.inj h))
  | error w => exact .inr ⟨w, rfl, by rw [State.attempt] at h; exact (Host.Outcome.next.inj h).symm⟩

/-- An interrupt changes nothing but who executes next (R616). -/
theorem State.takeInterrupt_frame (s : State) (w : Interrupt) :
    Frame s (s.takeInterrupt w) [] [] [] ∧ SameMemory s (s.takeInterrupt w) ∧ (s.takeInterrupt w).ia = s.ia ∧
      (s.takeInterrupt w).cc = s.cc ∧ (s.takeInterrupt w).control = .interrupt w := by
  simp [Frame, SameRegistersBut, SameModes, SameSystem, SameOracles, SameMemory]

@[simp] theorem State.takeIf_none (s : State) : s.takeIf none = s := rfl

@[simp] theorem State.takeIf_some (s : State) (w : Interrupt) : s.takeIf (some w) = s.takeInterrupt w := rfl

/-! ### Operands that are missing or misaligned -/

theorem State.reach_missing (s : State) (b : Reg) (a n : Nat) (ks : List Access) (h : ∀ sp, ¬ s.Accessible b sp a n ks) :
    s.reach b a n ks = .error .addressTranslation := by
  cases hr : s.reach b a n ks with
  | ok sp => exact absurd ((s.reach_ok b a n ks sp).1 hr) (h sp)
  | error w => rw [s.reach_error b a n ks w hr]

theorem State.load_missing (s : State) (b : Reg) (a n : Nat) (h : ∀ sp, ¬ s.Accessible b sp a n [.read]) :
    s.load b a n = .error .addressTranslation := by
  rw [State.load, s.reach_missing b a n _ h]; rfl

theorem State.store_missing (s : State) (b : Reg) (a : Nat) (bs : List Byte)
    (h : ∀ sp, ¬ s.Accessible b sp a bs.length [.write]) :
    s.store b a bs = .error .addressTranslation := by
  rw [State.store, s.reach_missing b a _ _ h]; rfl

theorem State.aligned_missing (s : State) (a n : Nat) (h : ¬ s.AlignedTo a n) : s.aligned a n = .error .addressing := by
  cases ha : s.aligned a n with
  | ok u => exact absurd ((s.aligned_ok a n).1 ha) h
  | error w => rw [s.aligned_error a n w ha]

theorem State.wordOperand_misaligned (s : State) (x b : Reg) (d : Disp) (h : ¬ s.AlignedTo (s.ea d x b) 4) :
    s.wordOperand x b d = .error .addressing := by
  rw [State.wordOperand, s.aligned_missing _ _ h]; rfl

theorem State.wordOperand_missing (s : State) (x b : Reg) (d : Disp) (ha : s.AlignedTo (s.ea d x b) 4)
    (h : ∀ sp, ¬ s.Accessible b sp (s.ea d x b) 4 [.read]) : s.wordOperand x b d = .error .addressTranslation := by
  rw [State.wordOperand, (s.aligned_ok _ _).2 ha, s.load_missing _ _ _ h]; rfl

theorem State.halfOperand_misaligned (s : State) (x b : Reg) (d : Disp) (h : ¬ s.AlignedTo (s.ea d x b) 2) :
    s.halfOperand x b d = .error .addressing := by
  rw [State.halfOperand, s.aligned_missing _ _ h]; rfl

theorem State.halfOperand_missing (s : State) (x b : Reg) (d : Disp) (ha : s.AlignedTo (s.ea d x b) 2)
    (h : ∀ sp, ¬ s.Accessible b sp (s.ea d x b) 2 [.read]) : s.halfOperand x b d = .error .addressTranslation := by
  rw [State.halfOperand, (s.aligned_ok _ _).2 ha, s.load_missing _ _ _ h]; rfl

theorem State.dwordOperand_misaligned (s : State) (x b : Reg) (d : Disp) (h : ¬ s.AlignedTo (s.ea d x b) 8) :
    s.dwordOperand x b d = .error .addressing := by
  rw [State.dwordOperand, s.aligned_missing _ _ h]; rfl

theorem State.dwordOperand_missing (s : State) (x b : Reg) (d : Disp) (ha : s.AlignedTo (s.ea d x b) 8)
    (h : ∀ sp, ¬ s.Accessible b sp (s.ea d x b) 8 [.read]) : s.dwordOperand x b d = .error .addressTranslation := by
  rw [State.dwordOperand, (s.aligned_ok _ _).2 ha, s.load_missing _ _ _ h]; rfl

theorem State.byteOperand_missing (s : State) (x b : Reg) (d : Disp)
    (h : ∀ sp, ¬ s.Accessible b sp (s.ea d x b) 1 [.read]) : s.byteOperand x b d = .error .addressTranslation := by
  rw [State.byteOperand, s.load_missing _ _ _ h]; rfl

theorem State.storeOperand_misaligned (s : State) (x b : Reg) (d : Disp) (al : Nat) (bs : List Byte)
    (h : ¬ s.AlignedTo (s.ea d x b) al) : s.storeOperand x b d al bs = .error .addressing := by
  rw [State.storeOperand, s.aligned_missing _ _ h]; rfl

theorem State.storeOperand_missing (s : State) (x b : Reg) (d : Disp) (al : Nat) (bs : List Byte)
    (ha : s.AlignedTo (s.ea d x b) al)
    (h : ∀ sp, ¬ s.Accessible b sp (s.ea d x b) bs.length [.write]) :
    s.storeOperand x b d al bs = .error .addressTranslation := by
  rw [State.storeOperand, (s.aligned_ok _ _).2 ha]
  exact s.store_missing _ _ _ h

theorem State.twoOperands_missing (s : State) (b1 : Reg) (a1 n1 : Nat) (ks : List Access) (b2 : Reg) (a2 n2 : Nat)
    (h : ∀ sp1 sp2, ¬ (s.Accessible b1 sp1 a1 n1 ks ∧ s.Accessible b2 sp2 a2 n2 [.read])) :
    s.twoOperands b1 a1 n1 ks b2 a2 n2 = .error .addressTranslation := by
  unfold State.twoOperands
  cases h1 : s.reach b1 a1 n1 ks with
  | error w => rw [s.reach_error _ _ _ _ _ h1]; rfl
  | ok sp1 =>
    cases h2 : s.reach b2 a2 n2 [.read] with
    | error w => rw [s.reach_error _ _ _ _ _ h2]; rfl
    | ok sp2 => exact absurd ⟨(s.reach_ok _ _ _ _ _).1 h1, (s.reach_ok _ _ _ _ _).1 h2⟩ (h sp1 sp2)

/-! ### Instructions that begin with one operand -/

/-- An instruction that begins with its word operand: its interrupts, and what it does after the tests. -/
theorem traps_word {i : Instr} {s : State} {x b : Reg} {d : Disp} (f : Word → Except Interrupt State)
    (h : exec i s = s.attempt (s.wordOperand x b d >>= f)) : OperandTraps i s b (s.ea d x b) 4 4 [.read] :=
  ⟨fun ha => by rw [h, s.wordOperand_misaligned x b d ha]; rfl, fun ha hs => by rw [h, s.wordOperand_missing x b d ha hs]; rfl⟩

theorem traps_half {i : Instr} {s : State} {x b : Reg} {d : Disp} (f : Word → Except Interrupt State)
    (h : exec i s = s.attempt (s.halfOperand x b d >>= f)) : OperandTraps i s b (s.ea d x b) 2 2 [.read] :=
  ⟨fun ha => by rw [h, s.halfOperand_misaligned x b d ha]; rfl, fun ha hs => by rw [h, s.halfOperand_missing x b d ha hs]; rfl⟩

theorem traps_dword {i : Instr} {s : State} {x b : Reg} {d : Disp} (f : Dword → Except Interrupt State)
    (h : exec i s = s.attempt (s.dwordOperand x b d >>= f)) : OperandTraps i s b (s.ea d x b) 8 8 [.read] :=
  ⟨fun ha => by rw [h, s.dwordOperand_misaligned x b d ha]; rfl, fun ha hs => by rw [h, s.dwordOperand_missing x b d ha hs]; rfl⟩

theorem exec_word {i : Instr} {s : State} {x b : Reg} {d : Disp} (f : Word → Except Interrupt State)
    (h : exec i s = s.attempt (s.wordOperand x b d >>= f)) (sp : Space) (ha : s.AlignedTo (s.ea d x b) 4)
    (hs : s.Accessible b sp (s.ea d x b) 4 [.read]) : exec i s = s.attempt (f (wordOf (s.getBytes sp (s.ea d x b) 4))) := by
  rw [h, s.wordOperand_ok x b d sp ha hs]; rfl

theorem exec_half {i : Instr} {s : State} {x b : Reg} {d : Disp} (f : Word → Except Interrupt State)
    (h : exec i s = s.attempt (s.halfOperand x b d >>= f)) (sp : Space) (ha : s.AlignedTo (s.ea d x b) 2)
    (hs : s.Accessible b sp (s.ea d x b) 2 [.read]) : exec i s = s.attempt (f (halfOf (s.getBytes sp (s.ea d x b) 2))) := by
  rw [h, s.halfOperand_ok x b d sp ha hs]; rfl

theorem exec_dword {i : Instr} {s : State} {x b : Reg} {d : Disp} (f : Dword → Except Interrupt State)
    (h : exec i s = s.attempt (s.dwordOperand x b d >>= f)) (sp : Space) (ha : s.AlignedTo (s.ea d x b) 8)
    (hs : s.Accessible b sp (s.ea d x b) 8 [.read]) : exec i s = s.attempt (f (dwordOf (s.getBytes sp (s.ea d x b) 8))) := by
  rw [h, s.dwordOperand_ok x b d sp ha hs]; rfl

theorem exec_word_next {i : Instr} {s : State} {x b : Reg} {d : Disp} (f : Word → State)
    (h : exec i s = s.attempt (s.wordOperand x b d >>= fun w => pure (f w))) (sp : Space) (ha : s.AlignedTo (s.ea d x b) 4)
    (hs : s.Accessible b sp (s.ea d x b) 4 [.read]) : exec i s = .next (f (wordOf (s.getBytes sp (s.ea d x b) 4))) :=
  exec_word _ h sp ha hs

theorem exec_half_next {i : Instr} {s : State} {x b : Reg} {d : Disp} (f : Word → State)
    (h : exec i s = s.attempt (s.halfOperand x b d >>= fun w => pure (f w))) (sp : Space) (ha : s.AlignedTo (s.ea d x b) 2)
    (hs : s.Accessible b sp (s.ea d x b) 2 [.read]) : exec i s = .next (f (halfOf (s.getBytes sp (s.ea d x b) 2))) :=
  exec_half _ h sp ha hs

theorem exec_dword_next {i : Instr} {s : State} {x b : Reg} {d : Disp} (f : Dword → State)
    (h : exec i s = s.attempt (s.dwordOperand x b d >>= fun w => pure (f w))) (sp : Space) (ha : s.AlignedTo (s.ea d x b) 8)
    (hs : s.Accessible b sp (s.ea d x b) 8 [.read]) : exec i s = .next (f (dwordOf (s.getBytes sp (s.ea d x b) 8))) :=
  exec_dword _ h sp ha hs

theorem store_traps {i : Instr} {s : State} {x b : Reg} {d : Disp} (al : Nat) (bs : List Byte) (f : State → Except Interrupt State)
    (h : exec i s = s.attempt (s.storeOperand x b d al bs >>= f)) : OperandTraps i s b (s.ea d x b) bs.length al [.write] :=
  ⟨fun ha => by rw [h, s.storeOperand_misaligned x b d al bs ha]; rfl, fun ha hs => by rw [h, s.storeOperand_missing x b d al bs ha hs]; rfl⟩

theorem store_next {i : Instr} {s : State} {x b : Reg} {d : Disp} (al : Nat) (bs : List Byte) (f : State → State)
    (h : exec i s = s.attempt (s.storeOperand x b d al bs >>= fun t => pure (f t))) (sp : Space) (ha : s.AlignedTo (s.ea d x b) al)
    (hs : s.Accessible b sp (s.ea d x b) bs.length [.write]) : exec i s = .next (f (s.putBytes sp (s.ea d x b) bs)) := by
  rw [h, s.storeOperand_ok x b d al bs sp ha hs]; rfl

/-- An instruction that only goes on. -/
theorem State.advance_ended (s : State) (len : Nat) : Ended s (s.advance len) len [] [] [] := by
  simp [Ended, Frame, SameRegistersBut, SameModes, SameSystem, SameOracles, SameMemory]

theorem State.reach_access (s : State) (b : Reg) (sp : Space) (a n : Nat) (ks : List Access) (h : s.Accessible b sp a n ks) :
    s.reach b a n ks = .ok sp :=
  (s.reach_ok b a n ks sp).2 h

/-- The first bytes of an accessible operand are accessible. -/
theorem State.accessible_le (s : State) (b : Reg) (sp : Space) (a n m : Nat) (ks : List Access) (h : s.Accessible b sp a n ks)
    (hm : m ≤ n) : s.Accessible b sp a m ks := by
  refine ⟨h.1, fun k hk => ?_⟩
  have := h.2 k hk
  rw [State.allocatedAll_iff] at this ⊢
  exact fun i hi => this i (by omega)

@[simp] theorem State.advance_getBytes (s : State) (len : Nat) (sp : Space) (a n : Nat) : (s.advance len).getBytes sp a n = s.getBytes sp a n := rfl
@[simp] theorem State.setCc_getBytes (s : State) (c : CondCode) (sp : Space) (a n : Nat) : (s.setCc c).getBytes sp a n = s.getBytes sp a n := rfl

theorem State.put_advance_ended (s : State) (sp : Space) (a : Nat) (bs : List Byte) (len : Nat) :
    EndedStoring s ((s.putBytes sp a bs).advance len) len [] [] [] sp a bs.length := by
  refine ⟨by simp, rfl, by simp [Frame, SameRegistersBut, SameModes, SameSystem, SameOracles], s.putBytes_other sp a bs⟩

/-! ### The operating system's answers -/

/-- The clock shows no less than before (R622). -/
theorem State.readClock_ge (s : State) : s.tod ≤ s.readClock := by
  unfold State.readClock
  dsimp only
  split
  · exact BitVec.le_refl _
  · exact BitVec.not_lt.1 ‹_›

/-- All that may follow a program interrupt: the program ends, or the STXIT task runs in a state that the operating system
answers, with the weight in general-purpose register 3 (R615). -/
theorem State.deliver_cases (s : State) (w : Interrupt) :
    s.deliver w = { s with control := .terminated (some w) } ∨
      ∃ r : HostReply s, s.stxit = true ∧
        s.deliver w = { r.val.setGr 3 (bits (r.val.getGr 3) 0 24 ++ w.weight) with control := .program } := by
  unfold State.deliver
  split
  · split
    · rename_i hs _ r _
      exact .inr ⟨r, hs, rfl⟩
    · exact .inl rfl
  · exact .inl rfl

/-- All that may follow a supervisor call: the program ends, or it goes on in a state that the operating system answers (R621). -/
theorem State.service_cases (s : State) (code : Byte) :
    s.service code = { s with control := .terminated none } ∨
      ∃ r : HostReply s, s.service code = { r.val with control := .program } := by
  unfold State.service
  split
  · rename_i r _
    exact .inr ⟨r, rfl⟩
  · exact .inl rfl

/-! ### Fetching -/

/-- What a fetch answers: the bytes of an even address whose instruction is wholly in pages that may be executed (R22, R90). -/
theorem State.fetch_ok (s : State) (a : Nat) (bs : List Byte) (h : s.fetch a = .ok bs) :
    a % 2 = 0 ∧ s.allocatedAll .program a 2 .fetch = true ∧
      s.allocatedAll .program (a + 2) (ilenOf (s.getByte .program a) - 2) .fetch = true ∧
      bs = s.getBytes .program a (ilenOf (s.getByte .program a)) := by
  unfold State.fetch at h
  split at h
  · cases h
  · split at h
    · simp only at h
      split at h
      · exact ⟨by omega, ‹_›, ‹_›, (Except.ok.inj h).symm⟩
      · cases h
    · cases h

end Sys2Proof.Machine
end

