-- ==== Sys2Proof/Laws/Fixed.lean ====
section
/-! SUPPORT. Fixed-point results: addition, comparison, multiplication, division and the arithmetic shifts, each said once. -/

namespace Sys2Proof.Machine

/-! ### Signed and unsigned results -/

theorem outOfRange_iff (v : Int) : outOfRange 32 v = true ↔ ¬ (-2 ^ 31 ≤ v ∧ v < 2 ^ 31) := by
  simp [outOfRange]; omega

theorem toInt_ofInt_fits (v : Int) (h : -2 ^ 31 ≤ v ∧ v < 2 ^ 31) : (BitVec.ofInt 32 v).toInt = v := by
  rw [BitVec.toInt_ofInt]; apply Int.bmod_eq_of_le <;> omega

/-- `arith` stores the exact result `v`. -/
theorem State.arith_spec (s : State) (r1 : Reg) (res : Word × Bool) (len : Nat) (v : Int) (hv : res.1 = BitVec.ofInt 32 v)
    (hov : res.2 = outOfRange 32 v) : FixedResult s (s.arith r1 res len) r1 v len := by
  obtain ⟨w, ov⟩ := res
  subst hv hov
  have ht := toInt_ofInt_fits v
  dsimp only [FixedResult]
  by_cases hF : (-2 ^ 31 ≤ v ∧ v < 2 ^ 31)
  · rw [Bool.eq_false_iff.2 (fun h => (outOfRange_iff v).1 h hF)]
    simp only [hF, and_self, not_true_eq_false, if_false, false_and]
    simp +contextual [State.arith, State.fixedOverflow, Frame, SameRegistersBut, SameModes, SameSystem, SameOracles, SameMemory, signedCc, signCc, ht hF]
  · rw [(outOfRange_iff v).2 hF]
    simp only [hF, not_false_eq_true, if_true, true_and]
    cases hp : s.pm.getMsbD 0 <;>
    simp +contextual [State.arith, State.fixedOverflow, Frame, SameRegistersBut, SameModes, SameSystem, SameOracles, SameMemory, signedCc, State.pmBit, hp]

theorem halfOf_toInt (bs : List Byte) : (halfOf bs).toInt = (BitVec.ofNat 16 (beNat bs)).toInt := by
  rw [halfOf, BitVec.toInt_signExtend_of_le (by omega)]

/-- `logical` stores a result and its code. -/
theorem State.logical_ended (s : State) (r1 : Reg) (res : Word × Bool) (len : Nat) : 
   (s.logical r1 res len).getGr r1 = res.1 ∧ (s.logical r1 res len).cc = logicalCc res.1 res.2 ∧ Ended s (s.logical r1 res len) len [r1] [] [] := by
  simp +contextual [State.logical, Ended, Frame, SameRegistersBut, SameModes, SameSystem, SameOracles, SameMemory]

theorem addLogical_cc (x y : Word) : logicalCc (addLogical x y).1 (addLogical x y).2 =
   if x.toNat + y.toNat = 0 then 0 else if x.toNat + y.toNat < 2 ^ 32 then 1 else if x.toNat + y.toNat = 2 ^ 32 then 2 else 3 := by
  have hx := x.isLt
  have hy := y.isLt
  have hz : x + y = 0 ↔ (x.toNat + y.toNat) % 2 ^ 32 = 0 := by
    rw [← BitVec.toNat_inj, BitVec.toNat_add]; simp
  simp only [logicalCc, addLogical, hz]
  simp only [decide_eq_true_eq]
  by_cases h1 : x.toNat + y.toNat < 2 ^ 32
  · by_cases h0 : x.toNat + y.toNat = 0
    · simp [h0]
    · rw [if_neg (by omega), if_neg (by omega), if_neg h0, if_pos h1]; rfl
  · by_cases h0 : x.toNat + y.toNat = 2 ^ 32
    · simp [h0]
    · rw [if_neg (by omega), if_pos (by omega), if_neg (by omega), if_neg h1, if_neg h0]; rfl

theorem subLogical_cc (x y : Word) : logicalCc (subLogical x y).1 (subLogical x y).2 =
   if x.toNat < y.toNat then 1 else if x.toNat = y.toNat then 2 else 3 := by
  have hx := x.isLt
  have hy := y.isLt
  have hz : x + ~~~y + 1 = 0 ↔ x.toNat = y.toNat := by
    rw [← BitVec.toNat_inj]; simp [BitVec.toNat_add, BitVec.toNat_not]; omega
  simp only [logicalCc, subLogical, hz]
  simp only [decide_eq_true_eq, BitVec.toNat_not]
  by_cases h1 : x.toNat < y.toNat
  · rw [if_neg (by omega), if_neg (by omega), if_pos h1]; rfl
  · by_cases h0 : x.toNat = y.toNat
    · rw [if_pos h0, if_pos (by omega), if_neg h1, if_pos h0]; rfl
    · rw [if_neg h0, if_pos (by omega), if_neg h1, if_neg h0]; rfl

theorem State.compare_ended (s : State) (x y : Int) (len : Nat) : (s.compare x y len).cc = orderCc x y ∧ Ended s (s.compare x y len) len [] [] [] := by
  simp [State.compare, compareCc, orderCc, Ended, Frame, SameRegistersBut, SameModes, SameSystem, SameOracles, SameMemory]


theorem wordOf_toNat (bs : List Byte) (h : bs.length = 4) : (wordOf bs).toNat = beNat bs := by
  have := beNat_lt bs
  rw [h] at this
  simp only [wordOf, BitVec.toNat_ofNat]
  omega

/-! ### Register pairs -/

theorem reg_succ_ne (r : Reg) : r + 1 ≠ r ∧ r ≠ r + 1 := by revert r; decide

/-- Both registers of a pair after it was written, and every other register (R11). -/
@[simp] theorem State.getGr_setPair (s : State) (r q : Reg) (v : Dword) :
    (s.setPair r v).getGr q = if q = r + 1 then bits v 32 32 else if q = r then bits v 0 32 else s.getGr q := by
  simp [State.setPair]

@[simp] theorem State.getPair_setPair (s : State) (r : Reg) (v : Dword) : (s.setPair r v).getPair r = v := by
  simp [State.getPair, bits_append_halves]

@[simp] theorem State.getPair_advance (s : State) (r : Reg) (n : Nat) : (s.advance n).getPair r = s.getPair r := rfl

@[simp] theorem State.getPair_setCc (s : State) (r : Reg) (c : CondCode) : (s.setCc c).getPair r = s.getPair r := rfl

@[simp] theorem State.getPair_takeInterrupt (s : State) (r : Reg) (w : Interrupt) :
    (s.takeInterrupt w).getPair r = s.getPair r := rfl

theorem isEven_iff (r : Reg) : isEven r = true ↔ r.toNat % 2 = 0 := by simp [isEven]

theorem evenOnly_ok (r : Reg) (h : r.toNat % 2 = 0) : evenOnly r = .ok () := by
  rw [evenOnly, if_pos ((isEven_iff r).2 h)]

theorem evenOnly_error (r : Reg) (h : r.toNat % 2 = 1) : evenOnly r = .error .addressing := by
  rw [evenOnly, if_neg fun he => by rw [isEven_iff] at he; omega]

/-! ### Multiply and divide -/

/-- The product is exact (R260). -/
theorem State.multiply_spec (s : State) (r1 : Reg) (w : Word) (len : Nat) :
    ((s.multiply r1 w len).getPair r1).toInt = (s.getGr (r1 + 1)).toInt * w.toInt ∧ (s.multiply r1 w len).cc = s.cc ∧
      Ended s (s.multiply r1 w len) len [r1, r1 + 1] [] [] := by
  refine ⟨?_, rfl, ?_⟩
  · rw [State.multiply, State.getPair_advance, State.getPair_setPair, BitVec.toInt_ofInt]
    have h1 := BitVec.toInt_mul_toInt_le (x := s.getGr (r1 + 1)) (y := w)
    have h2 := BitVec.le_toInt_mul_toInt (x := s.getGr (r1 + 1)) (y := w)
    apply Int.bmod_eq_of_le <;> omega
  · simp +contextual [State.multiply, State.setPair, Ended, Frame, SameRegistersBut, SameModes, SameSystem, SameOracles, SameMemory]

/-- Quotient and remainder, where they exist (R202). -/
theorem State.divide_spec (s : State) (r1 : Reg) (w : Word) (len : Nat) (q r : Int) (hd : w.toInt ≠ 0)
    (hn : (s.getPair r1).toInt = q * w.toInt + r) (hr : r.natAbs < w.toInt.natAbs) (hs : 0 ≤ r * (s.getPair r1).toInt) :
    (-2 ^ 31 ≤ q ∧ q < 2 ^ 31 →
      ∃ t, s.divide r1 w len = .ok t ∧ (t.getGr r1).toInt = r ∧ (t.getGr (r1 + 1)).toInt = q ∧ t.cc = s.cc ∧
        Ended s t len [r1, r1 + 1] [] []) ∧
    (¬ (-2 ^ 31 ≤ q ∧ q < 2 ^ 31) → s.divide r1 w len = .error .division) := by
  have hw := BitVec.le_toInt w
  have hw' := BitVec.toInt_lt (x := w)
  have hqr : (s.getPair r1).toInt.tdiv w.toInt = q ∧ (s.getPair r1).toInt.tmod w.toInt = r := by
    rcases lt_trichotomy (s.getPair r1).toInt 0 with h | h | h
    · refine (Int.tdiv_tmod_unique' h.le hd).2 ⟨by rw [hn]; ring, ?_, ?_⟩
      · omega
      · by_contra hc
        have := Int.mul_neg_of_pos_of_neg (show 0 < r by omega) h
        omega
    · have hq : q = 0 := by
        by_contra hq
        have h1 : r = -q * w.toInt := by rw [h] at hn; linarith
        rw [h1, Int.natAbs_mul, Int.natAbs_neg] at hr
        have : 1 ≤ q.natAbs := by omega
        have := Nat.mul_le_mul_right w.toInt.natAbs this
        omega
      subst hq
      have hr0 : r = 0 := by rw [h] at hn; omega
      simp [h, hr0]
    · refine (Int.tdiv_tmod_unique h.le hd).2 ⟨by rw [hn]; ring, ?_, ?_⟩
      · by_contra hc
        have := Int.mul_neg_of_neg_of_pos (show r < 0 by omega) h
        omega
      · omega
  constructor
  · intro hq
    refine ⟨((s.setGr r1 (BitVec.ofInt 32 r)).setGr (r1 + 1) (BitVec.ofInt 32 q)).advance len, ?_, ?_⟩
    · unfold State.divide
      dsimp only
      rw [hqr.1, hqr.2, if_neg fun h => h.elim hd fun h => (outOfRange_iff q).1 h hq]
    · have h1 := toInt_ofInt_fits q hq
      have h2 := toInt_ofInt_fits r (by omega)
      simp +contextual [h1, h2, Ended, Frame, SameRegistersBut, SameModes, SameSystem, SameOracles, SameMemory]
  · intro hq
    unfold State.divide
    dsimp only
    rw [hqr.1, if_pos (.inr ((outOfRange_iff q).2 hq))]

theorem State.divide_zero (s : State) (r1 : Reg) (w : Word) (len : Nat) (hd : w.toInt = 0) :
    s.divide r1 w len = .error .division := by
  rw [State.divide]
  exact if_pos (.inl hd)

/-! ### Arithmetic shifts -/

/-- The low-order bits of a signed number, and its sign. -/
theorem toInt_eq_magnitude {w : Nat} (hw : 0 < w) (v : BitVec w) :
    v.toInt = (v.toNat % 2 ^ (w - 1) : Nat) - (if v.msb then 2 ^ (w - 1) else 0 : Nat) := by
  have h2 : 2 ^ w = 2 * 2 ^ (w - 1) := by rw [← pow_succ', show w - 1 + 1 = w by omega]
  have hv := v.isLt
  rw [BitVec.toInt_eq_msb_cond]
  cases hm : v.msb
  · have := (BitVec.msb_eq_false_iff_two_mul_lt).1 hm
    rw [Nat.mod_eq_of_lt (by omega)]
    simp
  · have := (BitVec.msb_eq_true_iff_two_mul_ge).1 hm
    have h3 : v.toNat % 2 ^ (w - 1) = v.toNat - 2 ^ (w - 1) := by
      rw [Nat.mod_eq_sub_mod (by omega), Nat.mod_eq_of_lt (by omega)]
    rw [h3]
    simp only [if_true]
    have h4 : (2 : Int) ^ w = 2 * 2 ^ (w - 1) := by exact_mod_cast h2
    have h5 : ((2 ^ (w - 1) : Nat) : Int) = 2 ^ (w - 1) := by push_cast; rfl
    omega

/-- An arithmetic left shift keeps the sign, and its magnitude field is that of the product (R326). -/
theorem shiftLeftArith_toInt {w : Nat} (hw : 0 < w) (v : BitVec w) (n : Nat) :
    (shiftLeftArith v n).toInt =
      (v.toNat % 2 ^ (w - 1) * 2 ^ n % 2 ^ (w - 1) : Nat) - (if v.msb then 2 ^ (w - 1) else 0 : Nat) := by
  have h2 : 2 ^ w = 2 * 2 ^ (w - 1) := by rw [← pow_succ', show w - 1 + 1 = w by omega]
  have hlt : v.toNat % 2 ^ (w - 1) * 2 ^ n % 2 ^ (w - 1) < 2 ^ (w - 1) := Nat.mod_lt _ (Nat.two_pow_pos _)
  generalize hm : v.toNat % 2 ^ (w - 1) * 2 ^ n % 2 ^ (w - 1) = m at hlt
  have hn : (shiftLeftArith v n).toNat = (if v.msb then 2 ^ (w - 1) else 0) + m := by
    rw [shiftLeftArith, hm, BitVec.toNat_ofNat, Nat.mod_eq_of_lt]
    split <;> omega
  have hmsb : (shiftLeftArith v n).msb = v.msb := by
    cases h : v.msb
    · rw [BitVec.msb_eq_false_iff_two_mul_lt, hn, h]; simp; omega
    · rw [BitVec.msb_eq_true_iff_two_mul_ge, hn, h]; simp; omega
  rw [toInt_eq_magnitude hw, hmsb, hn]
  congr 2
  split
  · rw [Nat.add_mod_left, Nat.mod_eq_of_lt hlt]
  · rw [Nat.zero_add, Nat.mod_eq_of_lt hlt]

/-- A bit different from the sign is shifted out exactly where the product does not fit (R326). -/
theorem shiftLeftOverflow_iff {w : Nat} (hw : 0 < w) (v : BitVec w) (n : Nat) :
    shiftLeftOverflow v n = true ↔ ¬ (-2 ^ (w - 1) ≤ v.toInt * 2 ^ n ∧ v.toInt * 2 ^ n < 2 ^ (w - 1)) := by
  have hlt : v.toNat % 2 ^ (w - 1) < 2 ^ (w - 1) := Nat.mod_lt _ (Nat.two_pow_pos _)
  rw [toInt_eq_magnitude hw, shiftLeftOverflow]
  generalize v.toNat % 2 ^ (w - 1) = m at *
  have hp : 0 < 2 ^ n := Nat.two_pow_pos n
  have hP : 0 < 2 ^ (w - 1) := Nat.two_pow_pos _
  have hc : ((2 : Int) ^ (w - 1)) = ((2 ^ (w - 1) : Nat) : Int) := by push_cast; rfl
  have hc' : ((2 : Int) ^ n) = ((2 ^ n : Nat) : Int) := by push_cast; rfl
  rw [hc, hc']
  generalize 2 ^ (w - 1) = P at *
  generalize 2 ^ n = N at *
  cases v.msb
  · simp only [Bool.false_eq_true, if_false, bne_iff_ne, ne_eq, Nat.div_eq_zero_iff]
    push_cast
    constructor
    · intro h h'
      have : (m : Int) * N < P := by linarith [h'.2]
      have : m * N < P := by exact_mod_cast this
      omega
    · intro h h'
      apply h
      have h1 : m * N < P := by omega
      have h2 : ((m * N : Nat) : Int) < P := by exact_mod_cast h1
      push_cast at h2
      constructor
      · have : (0 : Int) ≤ m * N := by positivity
        linarith
      · linarith
  · simp only [if_true, bne_iff_ne, ne_eq]
    have h1 : m * N / P = N - 1 ↔ (N - 1) * P ≤ m * N := by
      constructor
      · intro h; rw [← h]; exact Nat.div_mul_le_self _ _
      · intro h
        apply Nat.le_antisymm
        · have : m * N / P < N := by
            rw [Nat.div_lt_iff_lt_mul hP, Nat.mul_comm N P]
            exact Nat.mul_lt_mul_of_pos_right hlt hp
          omega
        · rwa [Nat.le_div_iff_mul_le hP]
    rw [h1, not_iff_not]
    have h2 : ((m : Int) - P) * N < P := by
      have : ((m : Int) - P) * N ≤ 0 := by
        apply mul_nonpos_of_nonpos_of_nonneg
        · have : (m : Int) < P := by exact_mod_cast hlt
          linarith
        · positivity
      have : (0 : Int) < P := by exact_mod_cast hP
      linarith
    have h3 : (N - 1) * P ≤ m * N ↔ ((N : Int) - 1) * P ≤ m * N := by
      have : ((N - 1 : Nat) : Int) = N - 1 := by omega
      rw [← this]; exact_mod_cast Iff.rfl
    rw [h3]
    constructor
    · intro h; exact ⟨by nlinarith, h2⟩
    · intro h; nlinarith [h.1]

/-- The magnitude field of the shifted number is that of the product, and the sign stays. -/
theorem shiftLeftArith_mod {w : Nat} (hw : 0 < w) (v : BitVec w) (n : Nat) :
    (shiftLeftArith v n).toInt % 2 ^ (w - 1) = v.toInt * 2 ^ n % 2 ^ (w - 1) := by
  rw [shiftLeftArith_toInt hw, toInt_eq_magnitude hw v]
  have hc : ((2 : Int) ^ (w - 1)) = ((2 ^ (w - 1) : Nat) : Int) := by push_cast; rfl
  have hc' : ((2 : Int) ^ n) = ((2 ^ n : Nat) : Int) := by push_cast; rfl
  rw [hc, hc']
  generalize v.toNat % 2 ^ (w - 1) = m at *
  generalize 2 ^ (w - 1) = P at *
  generalize 2 ^ n = N at *
  cases v.msb
  · simp
  · simp [sub_mul]

theorem shiftLeftArith_neg {w : Nat} (hw : 0 < w) (v : BitVec w) (n : Nat) :
    (shiftLeftArith v n).toInt < 0 ↔ v.toInt < 0 := by
  rw [shiftLeftArith_toInt hw, toInt_eq_magnitude hw v]
  have h1 : v.toNat % 2 ^ (w - 1) < 2 ^ (w - 1) := Nat.mod_lt _ (Nat.two_pow_pos _)
  have h2 : v.toNat % 2 ^ (w - 1) * 2 ^ n % 2 ^ (w - 1) < 2 ^ (w - 1) := Nat.mod_lt _ (Nat.two_pow_pos _)
  generalize v.toNat % 2 ^ (w - 1) * 2 ^ n % 2 ^ (w - 1) = a at *
  generalize v.toNat % 2 ^ (w - 1) = b at *
  generalize 2 ^ (w - 1) = P at *
  cases v.msb <;> simp <;> omega

/-- Where the product fits, the shift is exact (R326). -/
theorem shiftLeftArith_fits {w : Nat} (hw : 0 < w) (v : BitVec w) (n : Nat)
    (hf : -2 ^ (w - 1) ≤ v.toInt * 2 ^ n ∧ v.toInt * 2 ^ n < 2 ^ (w - 1)) : (shiftLeftArith v n).toInt = v.toInt * 2 ^ n := by
  have h1 := shiftLeftArith_mod hw v n
  have h2 := shiftLeftArith_neg hw v n
  have h3 := BitVec.le_toInt (shiftLeftArith v n)
  have h4 := BitVec.toInt_lt (x := shiftLeftArith v n)
  have hp : (0 : Int) < 2 ^ n := by positivity
  have h5 : v.toInt * 2 ^ n < 0 ↔ v.toInt < 0 := by
    constructor
    · intro h; by_contra hc; have := mul_nonneg (not_lt.1 hc) hp.le; omega
    · intro h; exact mul_neg_of_neg_of_pos h hp
  obtain ⟨k, hk⟩ := Int.ModEq.dvd (show (shiftLeftArith v n).toInt ≡ v.toInt * 2 ^ n [ZMOD 2 ^ (w - 1)] from h1)
  have hP : (0 : Int) < 2 ^ (w - 1) := by positivity
  generalize (2 : Int) ^ (w - 1) = P at *
  generalize v.toInt * 2 ^ n = y at *
  generalize (shiftLeftArith v n).toInt = x at *
  have hk0 : k = 0 := by
    by_contra h0
    rcases lt_or_gt_of_ne h0 with h | h
    · have : P * k ≤ P * (-1) := mul_le_mul_of_nonneg_left (by omega) hP.le
      omega
    · have : P * 1 ≤ P * k := mul_le_mul_of_nonneg_left (by omega) hP.le
      omega
  rw [hk0] at hk
  omega

end Sys2Proof.Machine
end

