-- ==== Sys2Proof/Laws/Branch.lean ====
section
/-! SUPPORT. Branches: the link information, and where a branch goes. -/

namespace Sys2Proof.Machine

/-- The four fields of the link information of 24-bit mode (R136). -/
theorem bits_fields (a : BitVec 2) (c : BitVec 2) (p : BitVec 4) (x : BitVec 24) :
  bits (a ++ c ++ p ++ x) 0 2 = a ∧ bits (a ++ c ++ p ++ x) 2 2 = c ∧ bits (a ++ c ++ p ++ x) 4 4 = p ∧ bits (a ++ c ++ p ++ x) 8 24 = x := by
      refine ⟨?_, ?_, ?_, bits_append_right _ _⟩ <;>
      · apply BitVec.eq_of_toNat_eq
        rw [bits_toNat]
        have := a.isLt; have := c.isLt; have := p.isLt; have := x.isLt
        simp only [BitVec.toNat_append]
        rw [← Nat.shiftLeft_add_eq_or_of_lt (by omega), ← Nat.shiftLeft_add_eq_or_of_lt (by omega), ← Nat.shiftLeft_add_eq_or_of_lt (by omega)]
        simp only [Nat.shiftLeft_eq]
        omega

/-- What BAL and BALR store (R136). -/
theorem State.linkInfo_spec (s : State) (len : Nat) (hl : len = 2 ∨ len = 4) :
      match s.amode with
      | .a24 => bits (s.linkInfo len) 0 2 = (if len = 2 ∧ s.underEx = false then 1 else 2) ∧ bits (s.linkInfo len) 2 2 = s.cc ∧
          bits (s.linkInfo len) 4 4 = s.pm ∧ (bits (s.linkInfo len) 8 24).toNat = s.continuation len
      | .a31 => bits (s.linkInfo len) 0 1 = 1 ∧ (bits (s.linkInfo len) 1 31).toNat = s.continuation len := by
  have hn := s.nextIa_lt len
  rw [State.continuation_eq]
  unfold State.linkInfo
  cases h : s.amode with
  | a24 =>
    rw [h] at hn
    obtain ⟨h1, h2, h3, h4⟩ := bits_fields (s.ilc len) s.cc s.pm (BitVec.ofNat 24 (s.nextIa len))
    refine ⟨?_, h2, h3, ?_⟩
    · rw [h1]; unfold State.ilc State.ilen
      rcases hl with rfl | rfl <;> cases s.underEx <;> simp
    · rw [h4, BitVec.toNat_ofNat]; exact Nat.mod_eq_of_lt hn
  | a31 =>
    rw [h] at hn
    refine ⟨bits_append_left _ _, ?_⟩
    rw [show bits ((1 : BitVec 1) ++ BitVec.ofNat 31 (s.nextIa len)) 1 31 = _ from bits_append_right _ _, BitVec.toNat_ofNat]
    exact Nat.mod_eq_of_lt hn

/-- What BAS, BASR and BASSM store (R139). -/
theorem State.saveInfo_spec (s : State) (len : Nat) : bits (s.saveInfo len) 0 1 = (match s.amode with | .a24 => 0 | .a31 => 1) ∧
        (bits (s.saveInfo len) 1 31).toNat = s.continuation len := by
  have hn := s.trunc_lt_31 (s.ia.toNat + s.ilen len)
  rw [State.continuation_eq]
  refine ⟨?_, ?_⟩
  · rw [State.saveInfo, bits_append_left]; cases s.amode <;> rfl
  · rw [State.saveInfo, bits_append_right, BitVec.toNat_ofNat]; exact Nat.mod_eq_of_lt hn

/-- Where a branch goes (R21). -/
theorem State.branch_spec (s : State) (taken : Bool) (target len : Nat) (h : target < 2 ^ 31) :
    Branched s (s.branch taken target len) (taken = true) target len ∧ Frame s (s.branch taken target len) [] [] [] := by
  cases taken
  · simp [State.branch, Branched, Frame, SameRegistersBut, SameModes, SameSystem, SameOracles, SameMemory]
  · simp [State.branch, Branched, Frame, SameRegistersBut, SameModes, SameSystem, SameOracles, SameMemory, State.setIa_toNat _ _ h]

/-- A branch after a register was written. -/
theorem State.setGr_branch_spec (s : State) (r : Reg) (v : Word) (taken : Bool) (target len : Nat) (h : target < 2 ^ 31) :
    Branched s ((s.setGr r v).branch taken target len) (taken = true) target len ∧ Frame s ((s.setGr r v).branch taken target len) [r] [] [] ∧
    ((s.setGr r v).branch taken target len).getGr r = v := by
  cases taken
  · simp +contextual [State.branch, Branched, Frame, SameRegistersBut, SameModes, SameSystem, SameOracles, SameMemory]
  · have := State.setIa_toNat (s.setGr r v) _ h
    simp +contextual [State.branch, Branched, Frame, SameRegistersBut, SameModes, SameSystem, SameOracles, SameMemory, this]

theorem Branched.congr {s t : State} {p q : Prop} {a n : Nat} (h : Branched s t p a n) (hpq : p ↔ q) : Branched s t q a n :=
  ⟨fun hq => h.1 (hpq.2 hq), fun hq => h.2.1 (fun hp => hq (hpq.1 hp)), h.2.2⟩

theorem State.ea_lt (s : State) (d : Disp) (x b : Reg) : s.ea d x b < 2 ^ 31 := s.trunc_lt_31 _

end Sys2Proof.Machine
end

