-- ==== Sys2Proof/Laws/Bytes.lean ====
section
/-! SUPPORT. The byte-by-byte loops of the storage-to-storage instructions: each is one chain of stores, one byte a time, and a
chain of stores to different bytes is read back as a whole. -/

namespace Sys2Proof.Machine

/-! ### A chain of stores -/

/-- The memory after `n` stores and, before it, the memory one store earlier: store `j` goes to key `k j`, with a value computed
from the memories one store earlier and now. -/
def chainPair (k : Nat → Nat) (v : Nat → List Host.Cell → List Host.Cell → Byte) (m : List Host.Cell) :
    Nat → List Host.Cell × List Host.Cell
  | 0 => (m, m)
  | n + 1 =>
    let p := chainPair k v m n
    (p.2, Memory.write p.2 (k n) (v n p.1 p.2))

/-- The memory after `n` stores. -/
def chain (k : Nat → Nat) (v : Nat → List Host.Cell → List Host.Cell → Byte) (m : List Host.Cell) (n : Nat) : List Host.Cell :=
  (chainPair k v m n).2

@[simp] theorem chain_zero (k : Nat → Nat) (v : Nat → List Host.Cell → List Host.Cell → Byte) (m : List Host.Cell) :
    chain k v m 0 = m := rfl

theorem chain_succ (k : Nat → Nat) (v : Nat → List Host.Cell → List Host.Cell → Byte) (m : List Host.Cell) (n : Nat) :
    chain k v m (n + 1) = Memory.write (chain k v m n) (k n) (v n (chain k v m (n - 1)) (chain k v m n)) := by
  cases n with
  | zero => rfl
  | succ n => rfl

/-- The byte stored by store `j`. -/
def chainByte (k : Nat → Nat) (v : Nat → List Host.Cell → List Host.Cell → Byte) (m : List Host.Cell) (j : Nat) : Byte :=
  v j (chain k v m (j - 1)) (chain k v m j)

/-- Bytes that the chain does not store read as before. -/
theorem read_chain_other (k : Nat → Nat) (v : Nat → List Host.Cell → List Host.Cell → Byte) (m : List Host.Cell) (n a : Nat)
    (h : ∀ j < n, a ≠ k j) : Memory.read (chain k v m n) a = Memory.read m a := by
  induction n with
  | zero => rfl
  | succ n ih => rw [chain_succ, Memory.read_write_other _ _ _ _ (h n (by omega)), ih fun j hj => h j (by omega)]

/-- A byte stored once is read back. -/
theorem read_chain_same (k : Nat → Nat) (v : Nat → List Host.Cell → List Host.Cell → Byte) (m : List Host.Cell) (n : Nat)
    (inj : ∀ i < n, ∀ j < n, k i = k j → i = j) (j : Nat) (hj : j < n) :
    Memory.read (chain k v m n) (k j) = chainByte k v m j := by
  induction n with
  | zero => omega
  | succ n ih =>
    rw [chain_succ]
    by_cases h : j = n
    · subst h; rw [Memory.read_write_same]; rfl
    · rw [Memory.read_write_other _ _ _ _ fun he => h (inj j hj n (by omega) he)]
      exact ih (fun i hi l hl => inj i (by omega) l (by omega)) (by omega)

/-- A byte while the chain runs: as it is at the end if it was stored by then, else as at the start. -/
theorem read_chain_during (k : Nat → Nat) (v : Nat → List Host.Cell → List Host.Cell → Byte) (m : List Host.Cell) (n : Nat)
    (inj : ∀ i < n, ∀ j < n, k i = k j → i = j) (j : Nat) (hj : j ≤ n) (a : Nat) :
    Memory.read (chain k v m j) a =
      if (List.range j).any (fun i => k i == a) = true then Memory.read (chain k v m n) a else Memory.read m a := by
  split
  · rename_i h
    simp only [List.any_eq_true, List.mem_range, beq_iff_eq] at h
    obtain ⟨i, hi, rfl⟩ := h
    rw [read_chain_same k v m j (fun x hx y hy => inj x (by omega) y (by omega)) i hi, read_chain_same k v m n inj i (by omega)]
  · rename_i h
    simp only [List.any_eq_true, List.mem_range, beq_iff_eq, not_exists, not_and] at h
    exact read_chain_other k v m j a fun i hi he => h i hi he.symm

/-- A chain of stores keeps the canonical form. -/
theorem wf_chain (k : Nat → Nat) (v : Nat → List Host.Cell → List Host.Cell → Byte) (m : List Host.Cell) (n : Nat)
    (h : Memory.wf m) : Memory.wf (chain k v m n) := by
  induction n with
  | zero => exact h
  | succ n ih => rw [chain_succ]; exact Memory.wf_write _ _ _ ih

/-! ### From left to right -/

/-- `mapBytes` is a chain of stores (R264, R266, R270). -/
theorem mapBytes_chain (f : Byte → Byte → Byte) (k1 k2 : Nat → Nat) (n i : Nat) (m : List Host.Cell) (nz : Bool) :
    let v := fun j (_ p : List Host.Cell) => f (Memory.read p (k1 j)) (Memory.read p (k2 j))
    mapBytes f k1 k2 n i (chain k1 v m i) nz =
      (chain k1 v m (i + n), nz || (List.range n).any fun j => chainByte k1 v m (i + j) != 0) := by
  intro v
  induction n generalizing i nz with
  | zero => simp [mapBytes]
  | succ n ih =>
    have hs : Memory.write (chain k1 v m i) (k1 i) (f (Memory.read (chain k1 v m i) (k1 i)) (Memory.read (chain k1 v m i) (k2 i))) =
      chain k1 v m (i + 1) := (chain_succ k1 v m i).symm
    rw [mapBytes]
    rw [hs, ih, List.range_succ_eq_map, List.any_cons, List.any_map, ← Bool.or_assoc, show i + 1 + n = i + (n + 1) by omega]
    congr 2
    congr 1
    funext j
    simp only [Function.comp, Nat.succ_eq_add_one, show i + 1 + j = i + (j + 1) by omega]

/-- The bytes of an operand of at most 2^24 bytes have different keys. -/
theorem State.key_injOn (s : State) (sp : Space) (a n : Nat) (hn : n ≤ 2 ^ 24) :
    ∀ i < n, ∀ j < n, s.key sp (a + i) = s.key sp (a + j) → i = j :=
  fun i hi j hj h => s.key_inj sp a n hn i hi j hj h

/-- What a mapping of bytes leaves, where both operands are accessible (R264, R266, R270). -/
theorem State.mapOperands_ok (s : State) (f : Byte → Byte → Byte) (ks : List Access) (n : Nat) (b1 : Reg) (a1 : Nat) (b2 : Reg)
    (a2 : Nat) (sp1 sp2 : Space) (h1 : s.Accessible b1 sp1 a1 n ks) (h2 : s.Accessible b2 sp2 a2 n [.read]) (hn : n ≤ 2 ^ 24) :
    ∃ (m : List Host.Cell) (nz : Bool), s.mapOperands f ks n b1 a1 b2 a2 = .ok ({ s with mem := m }, nz) ∧
      (∀ k < n, Memory.read m (s.key sp1 (a1 + k)) =
         f (s.getByte sp1 (a1 + k)) (byteAt s { s with mem := m } (fun j => s.key sp1 (a1 + j)) k (s.key sp2 (a2 + k)))) ∧
      SameMemoryBut s { s with mem := m } sp1 a1 n ∧
      (nz = true ↔ ∃ k < n, Memory.read m (s.key sp1 (a1 + k)) ≠ 0) := by
  have hm := mapBytes_chain f (fun i => s.key sp1 (a1 + i)) (fun i => s.key sp2 (a2 + i)) n 0 s.mem false
  dsimp only at hm
  have inj := s.key_injOn sp1 a1 n hn
  refine ⟨(mapBytes f (fun i => s.key sp1 (a1 + i)) (fun i => s.key sp2 (a2 + i)) n 0 s.mem false).1,
     (mapBytes f (fun i => s.key sp1 (a1 + i)) (fun i => s.key sp2 (a2 + i)) n 0 s.mem false).2, ?_, ?_⟩
  · unfold State.mapOperands
    rw [(s.twoOperands_ok _ _ _ _ _ _ _ _ _).2 ⟨h1, h2⟩]; rfl
  · rw [chain_zero, Nat.zero_add] at hm
    rw [hm]
    generalize hv : (fun j (_ p : List Host.Cell) => f (Memory.read p (s.key sp1 (a1 + j))) (Memory.read p (s.key sp2 (a2 + j)))) = v
    refine ⟨fun k hk => ?_, fun key hkey => read_chain_other _ v _ _ _ hkey, ?_⟩
    · rw [read_chain_same _ v s.mem n inj k hk]
      have hvk : ∀ q p, v k q p = f (Memory.read p (s.key sp1 (a1 + k))) (Memory.read p (s.key sp2 (a2 + k))) := by
        subst hv; intros; rfl
      rw [chainByte, hvk]
      congr 1
      · rw [read_chain_other]; rfl
        intro j hj he
        have := inj k hk j (by omega) he; omega
      · exact read_chain_during _ v s.mem n inj k hk.le _
    · simp only [Bool.false_or, List.any_eq_true, List.mem_range, bne_iff_ne, Nat.zero_add]
      constructor
      · rintro ⟨k, hk, h⟩; exact ⟨k, hk, by rw [read_chain_same _ v s.mem n inj k hk]; exact h⟩
      · rintro ⟨k, hk, h⟩; exact ⟨k, hk, by rw [read_chain_same _ v s.mem n inj k hk] at h; exact h⟩

theorem State.mapOperands_missing (s : State) (f : Byte → Byte → Byte) (ks : List Access) (n : Nat) (b1 : Reg) (a1 : Nat)
    (b2 : Reg) (a2 : Nat) (h : ∀ sp1 sp2, ¬ (s.Accessible b1 sp1 a1 n ks ∧ s.Accessible b2 sp2 a2 n [.read])) :
    s.mapOperands f ks n b1 a1 b2 a2 = .error .addressTranslation := by
  rw [State.mapOperands, s.twoOperands_missing _ _ _ _ _ _ _ h]; rfl

/-! ### Translate -/

/-- The byte that TR stores at place `j` (R342). -/
def trByte (s : State) (sp1 : Space) (a1 : Nat) (sp2 : Space) (a2 : Nat) (j : Nat) (_q p : List Host.Cell) : Byte :=
  Memory.read p (s.key sp2 (a2 + (Memory.read p (s.key sp1 (a1 + j))).toNat))

/-- TR comes as far as the first table byte that is not accessible. -/
theorem State.translate_chain (s : State) (sp1 : Space) (a1 : Nat) (sp2 : Space) (a2 n i : Nat)
    (inj : ∀ x < i + n, ∀ y < i + n, s.key sp1 (a1 + x) = s.key sp1 (a1 + y) → x = y) (m : Nat) (hm : m ≤ n) 
    (h : ∀ k, i ≤ k → k < i + m → s.allocated sp2 (s.trunc (a2 + (s.getByte sp1 (a1 + k)).toNat)) .read = true)
    (hstop : m = n ∨ s.allocated sp2 (s.trunc (a2 + (s.getByte sp1 (a1 + (i + m))).toNat)) .read = false) :
    let k1 := fun j => s.key sp1 (a1 + j)
    let v := trByte s sp1 a1 sp2 a2
    s.translate sp1 a1 (.ok sp2) a2 n i (chain k1 v s.mem i) = (chain k1 v s.mem (i + m), decide (m = n)) := by
  intro k1 v
  have hr : ∀ j, i ≤ j → j < i + n → Memory.read (chain k1 v s.mem j) (s.key sp1 (a1 + j)) = s.getByte sp1 (a1 + j) := by
    intro j h1 h2
    rw [read_chain_other]; rfl
    intro x hx he
    have := inj j h2 x (by omega) he; omega
  induction n generalizing i m with
  | zero => obtain rfl : m = 0 := by omega
            simp [State.translate]
  | succ n ih =>
    rw [State.translate, hr i (le_refl _) (by omega)]
    cases m with
    | zero =>
      rcases hstop with h0 | h0
      · omega
      · simp only [State.tryByte]
        rw [Nat.add_zero] at h0
        rw [h0]
        simp
    | succ m =>
      have hi := h i (le_refl _) (by omega)
      simp only [State.tryByte, hi, if_true]
      have hs := chain_succ k1 v s.mem i
      have hv : v i (chain k1 v s.mem (i - 1)) (chain k1 v s.mem i) = Memory.read (chain k1 v s.mem i) (s.key sp2 (a2 + (s.getByte sp1 (a1 + i)).toNat)) := by
        simp only [v, trByte, hr i (le_refl _) (by omega)]
      rw [hv] at hs
      rw [show Memory.write (chain k1 v s.mem i) (s.key sp1 (a1 + i)) (Memory.read (chain k1 v s.mem i) (s.key sp2 (a2 + (s.getByte sp1 (a1 + i)).toNat))) = chain k1 v s.mem (i + 1) from hs.symm]
      rw [ih (i + 1) (fun x hx y hy => inj x (by omega) y (by omega)) m (by omega) (fun k hk hk' => h k (by omega) (by omega))
        (by rcases hstop with h0 | h0
            · exact .inl (by omega)
            · exact .inr (by rw [show i + 1 + m = i + (m + 1) by omega]; exact h0))
        (fun j h1 h2 => hr j (by omega) (by omega))]
      simp [show i + 1 + m = i + (m + 1) by omega]

/-- TRT goes on over accessible argument bytes whose function byte is zero (R343). -/
theorem State.scan_spec (s : State) (sp1 : Space) (a1 : Nat) (sp2 : Space) (a2 n i m : Nat) (hm : m ≤ n)
    (h : ∀ k, i ≤ k → k < i + m → s.allocated sp1 (s.trunc (a1 + k)) .read = true ∧
       s.allocated sp2 (s.trunc (a2 + (s.getByte sp1 (a1 + k)).toNat)) .read = true ∧ s.getByte sp2 (a2 + (s.getByte sp1 (a1 + k)).toNat) = 0) :
    s.scan (.ok sp1) a1 (.ok sp2) a2 n i = s.scan (.ok sp1) a1 (.ok sp2) a2 (n - m) (i + m) := by
  induction m generalizing n i with
  | zero => simp
  | succ m ih =>
    obtain ⟨n, rfl⟩ : ∃ n', n = n' + 1 := ⟨n - 1, by omega⟩
    obtain ⟨h1, h2, h3⟩ := h i (by omega) (by omega)
    have hb : Memory.read s.mem (s.key sp1 (a1 + i)) = s.getByte sp1 (a1 + i) := rfl
    have hb' : Memory.read s.mem (s.key sp2 (a2 + (s.getByte sp1 (a1 + i)).toNat)) = 0 := h3
    rw [State.scan]
    simp only [State.tryByte, h1, if_true, hb, h2, hb']
    rw [ih n (i + 1) (by omega) fun k hk hk' => h k (by omega) (by omega)]
    congr 1 <;> omega

/-! ### From right to left -/

/-- The byte that MVO stores at place `j`, from the memories one store earlier and now (R269). -/
def mvoByte (kd ks : Nat → Nat) (l2 j : Nat) (q p : List Host.Cell) : Byte :=
  if j = 0 then ofNibs (loNib (srcByte ks l2 p 0)) (loNib (Memory.read p (kd 0)))
  else ofNibs (loNib (srcByte ks l2 p j)) (hiNib (srcByte ks l2 q (j - 1)))

theorem mvoMemory_chain (kd ks : Nat → Nat) (l1 l2 : Nat) (m : List Host.Cell) (h1 : 0 < l1) (h2 : 0 < l2) :
    mvoMemory kd ks l1 l2 m = chain kd (mvoByte kd ks l2) m l1 := by
  have loop : ∀ n j, 0 < j → mvoBytes kd ks l2 n j (srcByte ks l2 (chain kd (mvoByte kd ks l2) m (j - 1)) (j - 1))
      (chain kd (mvoByte kd ks l2) m j) = chain kd (mvoByte kd ks l2) m (j + n) := by
    intro n
    induction n with
    | zero => intro j _; rfl
    | succ n ih =>
      intro j hj
      have hs := chain_succ kd (mvoByte kd ks l2) m j
      rw [show mvoByte kd ks l2 j _ _ = ofNibs _ _ from if_neg (by omega)] at hs
      have := ih (j + 1) (by omega)
      rw [Nat.add_sub_cancel] at this
      rw [mvoBytes]
      rw [← hs, this]
      congr 1
      omega
  have h0 := loop (l1 - 1) 1 (by omega)
  rw [show 1 + (l1 - 1) = l1 by omega] at h0
  have hsrc : srcByte ks l2 m 0 = Memory.read m (ks 0) := if_pos h2
  rw [← h0, mvoMemory]
  show mvoBytes kd ks l2 (l1 - 1) 1 (Memory.read m (ks 0)) _ = mvoBytes kd ks l2 (l1 - 1) 1 (srcByte ks l2 m 0) _
  rw [hsrc, chain_succ, show mvoByte kd ks l2 0 _ _ = ofNibs _ _ from if_pos rfl]
  simp only [chain_zero, hsrc]

/-- The byte that PACK stores at place `j` (R279). -/
def packByte (ks : Nat → Nat) (l2 j : Nat) (_q p : List Host.Cell) : Byte :=
  if j = 0 then ofNibs (loNib (srcByte ks l2 p 0)) (hiNib (srcByte ks l2 p 0))
  else ofNibs (loNib (srcByte ks l2 p (2 * j))) (loNib (srcByte ks l2 p (2 * j - 1)))

theorem packMemory_chain (kd ks : Nat → Nat) (l1 l2 : Nat) (m : List Host.Cell) (h1 : 0 < l1) (h2 : 0 < l2) :
    packMemory kd ks l1 l2 m = chain kd (packByte ks l2) m l1 := by
  have loop : ∀ n j, 0 < j → packBytes kd ks l2 n j (chain kd (packByte ks l2) m j) = chain kd (packByte ks l2) m (j + n) := by
    intro n
    induction n with
    | zero => intro j _; rfl
    | succ n ih =>
      intro j hj
      have hs := chain_succ kd (packByte ks l2) m j
      rw [show packByte ks l2 j _ _ = ofNibs _ _ from if_neg (by omega)] at hs
      rw [packBytes]
      rw [← hs, ih (j + 1) (by omega)]
      congr 1
      omega
  have h0 := loop (l1 - 1) 1 (by omega)
  rw [show 1 + (l1 - 1) = l1 by omega] at h0
  have hsrc : srcByte ks l2 m 0 = Memory.read m (ks 0) := if_pos h2
  rw [← h0, packMemory, chain_succ, show packByte ks l2 0 _ _ = ofNibs _ _ from if_pos rfl]
  simp only [chain_zero, hsrc]

/-- The byte that UNPK stores at place `j`, from the memories one store earlier and now (R345). -/
def unpkByte (ks : Nat → Nat) (l2 j : Nat) (q p : List Host.Cell) : Byte :=
  if j = 0 then ofNibs (loNib (srcByte ks l2 p 0)) (hiNib (srcByte ks l2 p 0))
  else if (j + 1) % 2 = 0 then ofNibs 0xF (loNib (srcByte ks l2 p ((j + 1) / 2)))
  else ofNibs 0xF (hiNib (srcByte ks l2 q (j / 2)))

theorem unpkMemory_chain (kd ks : Nat → Nat) (l1 l2 : Nat) (m : List Host.Cell) (h1 : 0 < l1) (h2 : 0 < l2) :
    unpkMemory kd ks l1 l2 m = chain kd (unpkByte ks l2) m l1 := by
  have loop : ∀ n j cur, 0 < j → (j % 2 = 0 → cur = srcByte ks l2 (chain kd (unpkByte ks l2) m (j - 1)) (j / 2)) →
      unpkBytes kd ks l2 n j cur (chain kd (unpkByte ks l2) m j) = chain kd (unpkByte ks l2) m (j + n) := by
    intro n
    induction n with
    | zero => intro j _ _ _; rfl
    | succ n ih =>
      intro j cur hj hc
      have hs := chain_succ kd (unpkByte ks l2) m j
      rw [unpkBytes]
      by_cases hp : (j + 1) % 2 = 0
      · rw [show unpkByte ks l2 j _ _ = ofNibs _ _ from (if_neg (by omega)).trans (if_pos hp)] at hs
        rw [if_pos hp]
        dsimp only
        rw [← hs, ih (j + 1) _ (by omega) fun _ => by rw [Nat.add_sub_cancel]]
        congr 1
        omega
      · rw [show unpkByte ks l2 j _ _ = ofNibs _ _ from (if_neg (by omega)).trans (if_neg hp), ← hc (by omega)] at hs
        rw [if_neg hp, ← hs, ih (j + 1) _ (by omega) fun h => by omega]
        congr 1
        omega
  have h0 := fun cur => loop (l1 - 1) 1 cur (by omega) (fun h => by omega)
  rw [show 1 + (l1 - 1) = l1 by omega] at h0
  have hsrc : srcByte ks l2 m 0 = Memory.read m (ks 0) := if_pos h2
  rw [← h0 (Memory.read m (ks 0)), unpkMemory, chain_succ, show unpkByte ks l2 0 _ _ = ofNibs _ _ from if_pos rfl]
  simp only [chain_zero, hsrc]

end Sys2Proof.Machine
end

