-- ==== Sys2Proof/Laws/Packed.lean ====
section
/-! SUPPORT. Packed decimal numbers: what is encoded is valid and reads as the number encoded (44_decimal.md R400, R401). -/

namespace Sys2Proof.Machine

/-- The number that digits stand for, highest first. -/
def digitsValue (ds : List Nat) : Nat :=
  ds.foldl (fun acc h => acc * 10 + h) 0

theorem digitsValue_append (xs ys : List Nat) :
    digitsValue (xs ++ ys) = digitsValue xs * 10 ^ ys.length + digitsValue ys := by
  have fold : ∀ (zs : List Nat) (acc : Nat),
      zs.foldl (fun acc h => acc * 10 + h) acc = acc * 10 ^ zs.length + digitsValue zs := by
    intro zs
    induction zs with
    | nil => intro acc; simp [digitsValue]
    | cons z zs ih =>
      intro acc
      rw [List.foldl_cons, ih, digitsValue.eq_def (z :: zs), List.foldl_cons, ih, List.length_cons]
      ring
  rw [digitsValue, List.foldl_append, fold ys]
  rfl

@[simp] theorem halfbytes_append (xs ys : List Byte) : halfbytes (xs ++ ys) = halfbytes xs ++ halfbytes ys := by
  simp [halfbytes]

@[simp] theorem halfbytes_length (bs : List Byte) : (halfbytes bs).length = 2 * bs.length := by
  induction bs with
  | nil => rfl
  | cons b bs ih => simp only [halfbytes, List.flatMap_cons, List.length_append, List.length_cons] at ih ⊢; simp; omega

@[simp] theorem digitBytes_length (n v : Nat) : (digitBytes n v).length = n := by
  induction n generalizing v with
  | zero => rfl
  | succ n ih => simp [digitBytes, ih]

theorem halfbytes_single (h l : Nat) (hh : h < 16) (hl : l < 16) :
    halfbytes [ofNibs (BitVec.ofNat 4 h) (BitVec.ofNat 4 l)] = [h, l] := by
  simp [halfbytes]; omega

theorem halfbytes_digitBytes_le (n v : Nat) : ∀ d ∈ halfbytes (digitBytes n v), d ≤ 9 := by
  induction n generalizing v with
  | zero => simp [digitBytes, halfbytes]
  | succ n ih =>
    intro d hd
    rw [digitBytes, halfbytes_append, halfbytes_single _ _ (by omega) (by omega)] at hd
    rcases List.mem_append.1 hd with hd | hd
    · exact ih _ d hd
    · simp only [List.mem_cons, List.not_mem_nil, or_false] at hd
      omega

theorem digitsValue_digitBytes (n v : Nat) : digitsValue (halfbytes (digitBytes n v)) = v % 100 ^ n := by
  induction n generalizing v with
  | zero => simp [digitBytes, halfbytes, digitsValue, Nat.mod_one]
  | succ n ih =>
    rw [digitBytes, halfbytes_append, halfbytes_single _ _ (by omega) (by omega), digitsValue_append, ih, pow_succ,
      Nat.mul_comm (100 ^ n) 100, Nat.mod_mul]
    have h : digitsValue [v / 10 % 10, v % 10] = v % 100 := by simp [digitsValue]; omega
    rw [h, List.length_cons, List.length_singleton]
    omega

@[simp] theorem packedBytes_length (len mag sign : Nat) (h : 0 < len) : (packedBytes len mag sign).length = len := by
  simp [packedBytes]; omega

@[simp] theorem packedEncode_length (len mag : Nat) (neg : Bool) (h : 0 < len) : (packedEncode len mag neg).length = len :=
  packedBytes_length _ _ _ h

theorem halfbytes_packedBytes (len mag sign : Nat) (hs : sign < 16) :
    halfbytes (packedBytes len mag sign) = (halfbytes (digitBytes (len - 1) (mag / 10)) ++ [mag % 10]) ++ [sign] := by
  rw [packedBytes, halfbytes_append, halfbytes_single _ _ (by omega) hs, List.append_assoc]
  rfl

/-- The sign halfbyte of an encoded field. -/
theorem packedSign_packedBytes (len mag sign : Nat) (hs : sign < 16) : packedSign (packedBytes len mag sign) = sign := by
  rw [packedSign, halfbytes_packedBytes _ _ _ hs]
  simp

/-- An encoded field is valid. -/
theorem packedValid_packedBytes (len mag sign : Nat) (h10 : 10 ≤ sign) (hs : sign < 16) :
    packedValid (packedBytes len mag sign) = true := by
  rw [packedValid, packedSign_packedBytes _ _ _ hs, packedDigits, halfbytes_packedBytes _ _ _ hs, List.dropLast_concat]
  simp only [List.all_append, Bool.and_eq_true, List.all_eq_true, decide_eq_true_eq]
  refine ⟨⟨halfbytes_digitBytes_le _ _, ?_⟩, h10⟩
  simp; omega

/-- The magnitude of an encoded field: the low-order 2·len − 1 digits. -/
theorem packedMag_packedBytes (len mag sign : Nat) (h : 0 < len) (hs : sign < 16) :
    packedMag (packedBytes len mag sign) = mag % 10 ^ (2 * len - 1) := by
  have hv : packedMag (packedBytes len mag sign) = digitsValue (packedDigits (packedBytes len mag sign)) := rfl
  rw [hv, packedDigits, halfbytes_packedBytes _ _ _ hs, List.dropLast_concat, digitsValue_append, digitsValue_digitBytes]
  obtain ⟨n, rfl⟩ : ∃ n, len = n + 1 := ⟨len - 1, by omega⟩
  rw [show 2 * (n + 1) - 1 = 2 * n + 1 by omega, pow_succ, pow_mul, Nat.mul_comm _ 10, Nat.mod_mul]
  simp [digitsValue]
  omega

/-- The magnitude that a field shows has at most 2·len − 1 digits. -/
theorem packedMag_lt (bs : List Byte) (h : packedValid bs = true) : packedMag bs < 10 ^ (2 * bs.length - 1) := by
  have lt : ∀ ds : List Nat, (∀ d ∈ ds, d ≤ 9) → digitsValue ds < 10 ^ ds.length := by
    intro ds
    induction ds with
    | nil => intro _; simp [digitsValue]
    | cons d ds ih =>
      intro hd
      have h1 := digitsValue_append [d] ds
      rw [List.singleton_append] at h1
      rw [h1, List.length_cons, pow_succ]
      have h2 := ih fun x hx => hd x (List.mem_cons_of_mem _ hx)
      have h3 : digitsValue [d] ≤ 9 := by simpa [digitsValue] using hd d (by simp)
      have h4 := Nat.mul_le_mul_right (10 ^ ds.length) h3
      omega
  have h1 := lt (packedDigits bs) (by
    simp only [packedValid, Bool.and_eq_true, List.all_eq_true, decide_eq_true_eq] at h
    exact h.1)
  rw [packedDigits, List.length_dropLast, halfbytes_length] at h1
  exact h1

/-- What `packedEncode` stores: a valid field with the low-order digits and the preferred sign (R401). -/
theorem packedHolds_encode (len mag : Nat) (neg : Bool) (h : 0 < len) :
    packedValid (packedEncode len mag neg) = true ∧ packedMag (packedEncode len mag neg) = mag % 10 ^ (2 * len - 1) ∧
      packedSign (packedEncode len mag neg) = if neg then 0xD else 0xC := by
  cases neg <;>
  exact ⟨packedValid_packedBytes _ _ _ (by decide) (by decide), packedMag_packedBytes _ _ _ h (by decide),
    packedSign_packedBytes _ _ _ (by decide)⟩

end Sys2Proof.Machine
end

