-- ==== Sys2Proof/Laws/Decimal.lean ====
section
/-! SUPPORT. The decimal instructions: the tests of two packed operands, and a stored result (44_decimal.md R402, R403). -/

namespace Sys2Proof.Machine

/-! ### Overlap -/

/-- Operands overlap where they are not disjoint (R402). -/
theorem State.overlap_iff (s : State) (sp1 : Space) (a1 n1 : Nat) (sp2 : Space) (a2 n2 : Nat) :
    s.overlap sp1 a1 n1 sp2 a2 n2 = true ↔ ¬ s.Disjoint sp1 a1 n1 sp2 a2 n2 := by
  unfold State.overlap State.Disjoint
  simp only [Bool.and_eq_true, beq_iff_eq, List.any_eq_true, List.mem_range]
  constructor
  · rintro ⟨h, i, hi, j, hj, hij⟩ hn
    exact hn i hi j hj ((s.key_eq_iff _ _ _ _).2 ⟨h, hij⟩)
  · intro h
    by_contra hn
    apply h
    intro i hi j hj hij
    rw [State.key_eq_iff] at hij
    exact hn ⟨hij.1, i, hi, j, hj, hij.2⟩

/-- The overlap that most instructions forbid (R402). -/
theorem State.badOverlap_iff (s : State) (sp1 : Space) (a1 n1 : Nat) (sp2 : Space) (a2 n2 : Nat) :
    s.badOverlap sp1 a1 n1 sp2 a2 n2 = true ↔
      ¬ s.Disjoint sp1 a1 n1 sp2 a2 n2 ∧ s.trunc (a1 + n1 - 1) ≠ s.trunc (a2 + n2 - 1) := by
  unfold State.badOverlap
  rw [Bool.and_eq_true, State.overlap_iff, bne_iff_ne]

theorem State.badOverlap_false (s : State) (sp1 : Space) (a1 n1 : Nat) (sp2 : Space) (a2 n2 : Nat)
    (h : s.Disjoint sp1 a1 n1 sp2 a2 n2 ∨ s.trunc (a1 + n1 - 1) = s.trunc (a2 + n2 - 1)) :
    s.badOverlap sp1 a1 n1 sp2 a2 n2 = false := by
  rw [Bool.eq_false_iff, ne_eq, State.badOverlap_iff]
  rintro ⟨h1, h2⟩
  exact h.elim h1 h2

/-! ### Two operands -/

/-- Both fields, where they are accessible, valid and lie as R402 allows. -/
theorem State.packedPair_ok (s : State) (ks : List Access) (n1 n2 : Nat) (b1 : Reg) (a1 : Nat) (b2 : Reg) (a2 : Nat)
    (sp1 sp2 : Space) (h1 : s.Accessible b1 sp1 a1 n1 ks) (h2 : s.Accessible b2 sp2 a2 n2 [.read])
    (hx : packedValid (s.getBytes sp1 a1 n1) = true) (hy : packedValid (s.getBytes sp2 a2 n2) = true)
    (ho : s.Disjoint sp1 a1 n1 sp2 a2 n2 ∨ s.trunc (a1 + n1 - 1) = s.trunc (a2 + n2 - 1)) :
    s.packedPair ks n1 n2 b1 a1 b2 a2 = .ok (sp1, s.getBytes sp1 a1 n1, s.getBytes sp2 a2 n2) := by
  rw [State.packedPair, (s.twoOperands_ok _ _ _ _ _ _ _ _ _).2 ⟨h1, h2⟩]
  show (if (packedValid (s.getBytes sp1 a1 n1) && packedValid (s.getBytes sp2 a2 n2) &&
    !s.badOverlap sp1 a1 n1 sp2 a2 n2) = true then _ else _) = _
  rw [hx, hy, s.badOverlap_false _ _ _ _ _ _ ho]
  rfl

/-- X'48' for an operand that is not accessible (R402). -/
theorem State.packedPair_missing (s : State) (ks : List Access) (n1 n2 : Nat) (b1 : Reg) (a1 : Nat) (b2 : Reg) (a2 : Nat)
    (h : ∀ sp1 sp2, ¬ (s.Accessible b1 sp1 a1 n1 ks ∧ s.Accessible b2 sp2 a2 n2 [.read])) :
    s.packedPair ks n1 n2 b1 a1 b2 a2 = .error .addressTranslation := by
  rw [State.packedPair, s.twoOperands_missing _ _ _ _ _ _ _ h]; rfl

/-- X'60' for a field that is not a packed number, and for the forbidden overlap (R402). -/
theorem State.packedPair_data (s : State) (ks : List Access) (n1 n2 : Nat) (b1 : Reg) (a1 : Nat) (b2 : Reg) (a2 : Nat)
    (sp1 sp2 : Space) (h1 : s.Accessible b1 sp1 a1 n1 ks) (h2 : s.Accessible b2 sp2 a2 n2 [.read])
    (h : packedValid (s.getBytes sp1 a1 n1) = false ∨ packedValid (s.getBytes sp2 a2 n2) = false ∨
      (¬ s.Disjoint sp1 a1 n1 sp2 a2 n2 ∧ s.trunc (a1 + n1 - 1) ≠ s.trunc (a2 + n2 - 1))) :
    s.packedPair ks n1 n2 b1 a1 b2 a2 = .error .data := by
  rw [← s.badOverlap_iff] at h
  rw [State.packedPair, (s.twoOperands_ok _ _ _ _ _ _ _ _ _).2 ⟨h1, h2⟩]
  show (if (packedValid (s.getBytes sp1 a1 n1) && packedValid (s.getBytes sp2 a2 n2) &&
    !s.badOverlap sp1 a1 n1 sp2 a2 n2) = true then _ else _) = _
  rw [if_neg]
  rcases h with h | h | h <;> simp [h]

/-! ### The result -/

theorem packedHolds_packedEncode (len mag : Nat) (neg : Bool) (h : 0 < len) (p : Prop) (hp : neg = true ↔ p) :
    PackedHolds (packedEncode len mag neg) (mag % 10 ^ (2 * len - 1)) p := by
  obtain ⟨h1, h2, h3⟩ := packedHolds_encode len mag neg h
  refine ⟨h1, h2, fun hq => ?_, fun hq => ?_⟩
  · rw [h3, if_pos (hp.2 hq)]
  · rw [h3, if_neg fun hn => hq (hp.1 hn)]

/-- Decimal overflow, where the program mask enables it (R402, R612). -/
theorem State.takeIf_decimalOverflow (s t : State) (ov : Bool) : (t.takeIf (s.decimalOverflow ov)).control =
    if ov = true ∧ s.pm.getMsbD 1 = true then .interrupt .decimalOverflow else t.control := by
  unfold State.decimalOverflow State.pmBit
  split <;> rfl

/-- `StoreDecimalResult` (R403). -/
theorem State.storeDecimal_spec (s : State) (sp : Space) (a n : Nat) (v : Int) (hn : 0 < n) (hn' : n ≤ 16) :
    DecimalResult s (s.storeDecimal sp a n v) sp a n v := by
  have hb : (packedEncode n v.natAbs (decide (v < 0))).length = n := packedEncode_length _ _ _ hn
  have hg : (s.storeDecimal sp a n v).getBytes sp a n = packedEncode n v.natAbs (decide (v < 0)) := by
    have h1 : (s.storeDecimal sp a n v).getBytes sp a n =
        (s.putBytes sp a (packedEncode n v.natAbs (decide (v < 0)))).getBytes sp a n := by
      unfold State.storeDecimal
      simp only [State.getBytes, State.takeIf_getByte, State.advance_getByte, State.setCc_getByte]
    have h2 := s.getBytes_putBytes sp a (packedEncode n v.natAbs (decide (v < 0))) (by omega)
    rw [hb] at h2
    rw [h1, h2]
  have hov : tooLarge n v.natAbs = true ↔ ¬ v.natAbs < 10 ^ (2 * n - 1) := by
    simp [tooLarge]
  refine ⟨?_, ?_, ?_, ?_, ?_, ?_⟩
  · rw [hg]
    exact packedHolds_packedEncode n v.natAbs _ hn _ (by simp)
  · unfold State.storeDecimal
    simp only [State.takeIf_cc, State.advance_cc, State.setCc_cc, decimalCc]
    by_cases h : v.natAbs < 10 ^ (2 * n - 1)
    · rw [if_neg (fun hc => (hov.1 hc) h), if_neg (not_not.2 h)]; rfl
    · rw [if_pos (hov.2 h), if_pos h]
  · unfold State.storeDecimal
    dsimp only
    rw [State.takeIf_decimalOverflow]
    by_cases h : v.natAbs < 10 ^ (2 * n - 1)
    · rw [if_neg fun hc => hov.1 hc.1 h, if_neg fun hc => hc.1 h]; rfl
    · have ht := hov.2 h
      simp only [ht, h, not_false_eq_true, true_and]; rfl
  · unfold State.storeDecimal
    simp
  · unfold State.storeDecimal
    simp [Frame, SameRegistersBut, SameModes, SameSystem, SameOracles]
  · have h1 : (s.storeDecimal sp a n v).mem = (s.putBytes sp a (packedEncode n v.natAbs (decide (v < 0)))).mem := by
      unfold State.storeDecimal
      simp
    have := s.putBytes_other sp a (packedEncode n v.natAbs (decide (v < 0)))
    rw [hb] at this
    intro k hk
    rw [h1]
    exact this k hk

/-! ### Fields and digits -/

/-- The leading bytes of a field are zero (R408). -/
theorem State.getBytes_take_zero (s : State) (sp : Space) (a n m : Nat) (h : m ≤ n) : ((s.getBytes sp a n).take m).all (· == 0) = true ↔ ∀ k < m, s.getByte sp (a + k) = 0 := by
  simp only [State.getBytes, ← List.map_take, List.take_range, Nat.min_eq_left h, List.all_map, List.all_eq_true, List.mem_range, Function.comp, beq_iff_eq]

theorem State.packedMag_getBytes_lt (s : State) (sp : Space) (a n : Nat) (h : packedValid (s.getBytes sp a n) = true) : packedMag (s.getBytes sp a n) < 10 ^ (2 * n - 1) := by
  have := packedMag_lt _ h
  rwa [State.getBytes_length] at this

/-- Leading zero bytes do not count. -/
theorem packedMag_leading (z y : List Byte) (h : ∀ b ∈ z, b = 0) (hy : y ≠ []) : packedMag (z ++ y) = packedMag y := by
  induction z with
  | nil => rfl
  | cons b z ih =>
    have hb : b = 0 := h b (by simp)
    subst hb
    rw [← ih fun b hb => h b (List.mem_cons_of_mem _ hb)]
    have hne : halfbytes (z ++ y) ≠ [] := by
      intro hh
      have := congrArg List.length hh
      rw [halfbytes_length] at this
      simp at this
      exact hy this.2
    show digitsValue (packedDigits _) = digitsValue (packedDigits _)
    unfold packedDigits
    rw [List.cons_append, show halfbytes (0 :: (z ++ y)) = [0, 0] ++ halfbytes (z ++ y) from rfl, List.dropLast_append_of_ne_nil hne, digitsValue_append]
    simp [digitsValue]

/-- A product fits where the multiplicand has leading zero bytes enough (R408). -/
theorem State.product_fits (s : State) (sp1 sp2 : Space) (a1 a2 n1 n2 : Nat) (h2 : n2 < n1) (hp : 0 < n2)
    (hx : packedValid (s.getBytes sp1 a1 n1) = true) (hy : packedValid (s.getBytes sp2 a2 n2) = true)
    (hz : ((s.getBytes sp1 a1 n1).take n2).all (· == 0) = true) :
    packedMag (s.getBytes sp1 a1 n1) * packedMag (s.getBytes sp2 a2 n2) < 10 ^ (2 * n1 - 1) := by
  have h3 := s.packedMag_getBytes_lt _ _ _ hy
  have hsplit : s.getBytes sp1 a1 n1 = (s.getBytes sp1 a1 n1).take n2 ++ (s.getBytes sp1 a1 n1).drop n2 := (List.take_append_drop _ _).symm
  have hdl : ((s.getBytes sp1 a1 n1).drop n2).length = n1 - n2 := by simp
  have hm : packedMag (s.getBytes sp1 a1 n1) = packedMag ((s.getBytes sp1 a1 n1).drop n2) := by
    conv_lhs => rw [hsplit]
    apply packedMag_leading
    · intro b hb; simpa using List.all_eq_true.1 hz b hb
    · intro h; rw [h] at hdl; simp at hdl; omega
  have hv : packedValid ((s.getBytes sp1 a1 n1).drop n2) = true := by
    have hne : halfbytes ((s.getBytes sp1 a1 n1).drop n2) ≠ [] := by
      intro hh; have := congrArg List.length hh; rw [halfbytes_length, hdl] at this; simp at this; omega
    rw [hsplit] at hx
    unfold packedValid packedDigits packedSign at hx ⊢
    rw [halfbytes_append, List.dropLast_append_of_ne_nil hne, List.getLastD_eq_getLast?, List.getLast?_append_of_ne_nil _ hne, List.all_append, Bool.and_eq_true, Bool.and_eq_true] at hx
    rw [Bool.and_eq_true, List.getLastD_eq_getLast?]
    exact ⟨hx.1.2, hx.2⟩
  have h4 := packedMag_lt _ hv
  rw [hdl, ← hm] at h4
  calc _ < 10 ^ (2 * (n1 - n2) - 1) * 10 ^ (2 * n2 - 1) := Nat.mul_lt_mul'' h4 h3
    _ = 10 ^ (2 * (n1 - n2) - 1 + (2 * n2 - 1)) := (pow_add _ _ _).symm
    _ ≤ _ := Nat.pow_le_pow_right (by omega) (by omega)

/-- The rounding of SRP is addition of the rounding digit to the last digit shifted out (R412). -/
theorem round_eq (m k i : Nat) (hk : 0 < k) (hi : i ≤ 9) : m / 10 ^ k + (if m / 10 ^ (k - 1) % 10 + i ≥ 10 then 1 else 0) = (m / 10 ^ (k - 1) + i) / 10 := by
  have : m / 10 ^ k = m / 10 ^ (k - 1) / 10 := by
    obtain ⟨k, rfl⟩ : ∃ j, k = j + 1 := ⟨k - 1, by omega⟩
    rw [pow_succ, Nat.div_div_eq_div_mul]; rfl
  rw [this]
  split <;> omega

end Sys2Proof.Machine
end

