-- ==== Sys2Proof/Laws/Decode.lean ====
section
/-! SUPPORT. What decoding makes of the bytes of each instruction format, said once per format (30_encoding.md R90 to R97). -/

namespace Sys2Proof

open Machine

/-! ### Fields -/

@[simp] theorem dispOf_bytes (b : Reg) (d : Disp) : dispOf (baseByte b d) (dispByte d) = d := by
  simp only [dispOf, baseByte, dispByte, loNib_ofNibs]
  apply BitVec.eq_of_getLsbD_eq
  intro i hi
  simp only [BitVec.getLsbD_append, BitVec.getLsbD_extractLsb']
  split
  · simp; omega
  · simp only [show i - 8 < 4 by omega, decide_true, Bool.true_and]
    congr 1
    omega

@[simp] theorem hiNib_baseByte (b : Reg) (d : Disp) : hiNib (baseByte b d) = b := by
  simp [baseByte]

/-! ### Formats -/

/-- Bits 0 and 1 of the operation code, by its value (R90). -/
theorem typeBits (op : Byte) :
    (bits op 0 2).toNat = if op < 0x40 then 0 else if op < 0x80 then 1 else if op < 0xC0 then 2 else 3 := by
  revert op; decide

/-- Two-byte instructions. -/
theorem decode_two (op b1 : Byte) (rest : List Byte) (h : op < 0x40) :
    decode (op :: b1 :: rest) = orUnknown [op] (decode2 op.toNat b1) := by
  unfold decode
  dsimp only
  rw [typeBits, if_pos h]
  rfl

/-- Four-byte instructions with an operation code of one byte. -/
theorem decode_four (op b1 b2 b3 : Byte) (rest : List Byte) (h : 0x40 ≤ op) (h' : op < 0xC0) (hb : op ≠ 0xB2) :
    decode (op :: b1 :: b2 :: b3 :: rest) = orUnknown [op] (decode4 op.toNat b1 b2 b3) := by
  unfold decode
  dsimp only
  rw [typeBits, if_neg (BitVec.not_lt.2 h)]
  by_cases h2 : op < 0x80
  · rw [if_pos h2]
    exact if_neg hb
  · rw [if_neg h2, if_pos h']
    exact if_neg hb

/-- Four-byte instructions with an operation code of two bytes. -/
theorem decode_b2 (op2 b2 b3 : Byte) (rest : List Byte) :
    decode (0xB2 :: op2 :: b2 :: b3 :: rest) = orUnknown [0xB2, op2] (decodeB2 op2.toNat b2 b3) := by
  unfold decode
  dsimp only
  rw [typeBits, if_neg (by decide), if_neg (by decide), if_pos (by decide)]
  exact if_pos rfl

/-- Six-byte instructions. -/
theorem decode_six (op b1 b2 b3 b4 b5 : Byte) (rest : List Byte) (h : 0xC0 ≤ op) :
    decode (op :: b1 :: b2 :: b3 :: b4 :: b5 :: rest) = orUnknown [op] (decode6 op.toNat b1 b2 b3 b4 b5) := by
  have h0 : ¬ op < 0xC0 := BitVec.not_lt.2 h
  unfold decode
  dsimp only
  rw [typeBits, if_neg (show ¬ op < 0x40 from fun h => h0 (BitVec.lt_trans h (show (0x40 : Byte) < 0xC0 by decide))),
    if_neg (show ¬ op < 0x80 from fun h => h0 (BitVec.lt_trans h (show (0x80 : Byte) < 0xC0 by decide))), if_neg h0]
  rfl

end Sys2Proof
end

