-- ==== Sys2Proof/Laws/Edit.lean ====
section
/-! SUPPORT. The loop of ED and EDMK gives what the manual's table gives (44_decimal.md R410, R411, R413). -/

namespace Sys2Proof.Machine

/-- How the state of the loop after `i` mask bytes stands to the table's: `c` source bytes of `m` are used up, `ds` are the
digits still to come. -/
structure EditRel (s : State) (f : EditField) (sp2 : Space) (a2 m : Nat) (i c : Nat) (e : EditState) (x : Edited)
    (ds : List (BitVec 4 × Bool)) : Prop where
  length : x.field.length = i
  done : ∀ j (h : j < x.field.length), Memory.read e.mem (s.key f.sp1 (f.a1 + j)) = x.field[j]
  other : ∀ k, (∀ j < i, k ≠ s.key f.sp1 (f.a1 + j)) → Memory.read e.mem k = Memory.read s.mem k
  sig : x.sig = e.sig
  nz : x.nz = e.nz
  mark : e.mark = x.mark.map fun j => s.trunc (f.a1 + j)
  le : c ≤ m
  sa : e.sa = s.trunc (a2 + c)
  digits : ds = (match e.pending with | some d => [(d, false)] | none => []) ++ sourceDigits (s.getBytes sp2 (a2 + c) (m - c))

/-- One receive byte more. -/
theorem EditRel.out {s : State} {f : EditField} {sp2 : Space} {a2 m i c : Nat} {e : EditState} {x : Edited}
    {ds : List (BitVec 4 × Bool)} (h : EditRel s f sp2 a2 m i c e x ds) (hl : f.len ≤ 2 ^ 24) (hi : i < f.len) (b : Byte)
    (e' : EditState) (x' : Edited) (c' : Nat) (ds' : List (BitVec 4 × Bool)) (he : e'.mem = e.mem)
    (hx : x'.field = x.field ++ [b]) (hsig : x'.sig = e'.sig) (hnz : x'.nz = e'.nz)
    (hm : e'.mark = x'.mark.map fun j => s.trunc (f.a1 + j)) (hc : c' ≤ m) (hsa : e'.sa = s.trunc (a2 + c'))
    (hd : ds' = (match e'.pending with | some d => [(d, false)] | none => []) ++
      sourceDigits (s.getBytes sp2 (a2 + c') (m - c'))) :
    EditRel s f sp2 a2 m (i + 1) c' (s.editOut f i b e') x' ds' where
  length := by rw [hx, List.length_append, h.length]; rfl
  done := by
    intro j hj
    have hj' : j < i + 1 := by rw [hx, List.length_append, h.length] at hj; exact hj
    show Memory.read (Memory.write e'.mem _ b) _ = _
    by_cases hij : j = i
    · subst hij
      rw [Memory.read_write_same]
      simp only [hx]
      rw [List.getElem_append_right (by rw [h.length])]
      simp
    · rw [Memory.read_write_other _ _ _ _ fun hk => hij (s.key_inj f.sp1 f.a1 f.len hl j (by omega) i hi hk), he]
      simp only [hx]
      rw [List.getElem_append_left (by rw [h.length]; omega)]
      exact h.done j (by rw [h.length]; omega)
  other := by
    intro k hk
    show Memory.read (Memory.write e'.mem _ b) _ = _
    rw [Memory.read_write_other _ _ _ _ (hk i (by omega)), he]
    exact h.other k fun j hj => hk j (by omega)
  sig := hsig
  nz := hnz
  mark := hm
  le := hc
  sa := hsa
  digits := hd

theorem sourceDigits_cons (b : Byte) (bs : List Byte) : sourceDigits (b :: bs) =
    (if loNib b ≥ 10 then [(hiNib b, decide (loNib b ≠ 0xB ∧ loNib b ≠ 0xD))] else [(hiNib b, false), (loNib b, false)]) ++
      sourceDigits bs :=
  List.flatMap_cons

theorem isPlus_eq : ∀ n : BitVec 4, 10 ≤ n → isPlus n = decide (n ≠ 0xB ∧ n ≠ 0xD) := by decide

theorem nibble_bne : ∀ d : BitVec 4, (d != 0) = decide (d ≠ 0) := by decide

theorem State.getBytes_succ (s : State) (sp : Space) (a n : Nat) :
    s.getBytes sp a (n + 1) = s.getByte sp a :: s.getBytes sp (a + 1) n := by
  simp only [State.getBytes, List.range_succ_eq_map, List.map_cons, List.map_map, Nat.add_zero]
  congr 1
  apply List.map_congr_left
  intro i _
  simp only [Function.comp, Nat.succ_eq_add_one]
  congr 1
  omega

/-- The next digit, where there is one. -/
theorem EditRel.digit {s : State} {f : EditField} {sp2 : Space} {a2 m i c : Nat} {e : EditState} {x : Edited} {d : BitVec 4}
    {plus : Bool} {ds : List (BitVec 4 × Bool)} (h : EditRel s f sp2 a2 m i c e x ((d, plus) :: ds)) (hi : i ≤ f.len)
    (hb : ∀ k < m, (f.sp2 = .ok sp2 ∧ s.allocated sp2 (s.trunc (a2 + k)) .read = true) ∧ hiNib (s.getByte sp2 (a2 + k)) ≤ 9)
    (hdis : s.Disjoint f.sp1 f.a1 f.len sp2 a2 m) :
    ∃ e' c', s.editDigit f e = .ok (d, plus, e') ∧ e'.mem = e.mem ∧ e'.sig = e.sig ∧ e'.nz = e.nz ∧ e'.mark = e.mark ∧ c' ≤ m ∧
      e'.sa = s.trunc (a2 + c') ∧
      ds = (match e'.pending with | some d => [(d, false)] | none => []) ++ sourceDigits (s.getBytes sp2 (a2 + c') (m - c')) := by
  unfold State.editDigit
  have hd := h.digits
  cases hp : e.pending with
  | some q =>
    rw [hp] at hd
    obtain ⟨h1, h2⟩ := List.cons.inj hd
    cases h1
    exact ⟨_, c, rfl, rfl, rfl, rfl, rfl, h.le, h.sa, h2⟩
  | none =>
    rw [hp] at hd
    have hcm : c < m := by
      by_contra hcm
      rw [show m - c = 0 by omega] at hd
      exact absurd hd (List.cons_ne_nil _ _)
    obtain ⟨⟨hok, hal⟩, hhi⟩ := hb c hcm
    have hin : s.inField f sp2 e.sa = false := by
      rw [Bool.eq_false_iff]
      intro hin
      simp only [State.inField, Bool.and_eq_true, beq_iff_eq, List.any_eq_true, List.mem_range] at hin
      obtain ⟨hs1, j, hj, hk⟩ := hin
      refine hdis j hj c hcm ((s.key_eq_iff _ _ _ _).2 ⟨hs1.symm, ?_⟩)
      rw [hk, h.sa, State.trunc_trunc]
    have hread : Memory.read e.mem (s.key sp2 e.sa) = s.getByte sp2 (a2 + c) := by
      rw [h.sa, State.key_trunc]
      exact h.other _ fun j hj hk => hdis j (by omega) c hcm hk.symm
    have htry : s.tryByte (.ok sp2) e.mem e.sa = some (s.getByte sp2 (a2 + c)) := by
      rw [State.tryByte_some _ _ _ _ (by rw [h.sa, State.trunc_trunc]; exact hal), hread]
    have hsa' : s.trunc (e.sa + 1) = s.trunc (a2 + (c + 1)) := by
      rw [h.sa, State.trunc_trunc_add, Nat.add_assoc]
    rw [hok]
    simp only [hin, htry, hsa']
    rw [if_neg (by simp), if_neg (BitVec.not_lt.2 hhi)]
    rw [List.nil_append, show m - c = m - (c + 1) + 1 by omega, State.getBytes_succ, sourceDigits_cons,
      show a2 + c + 1 = a2 + (c + 1) by omega] at hd
    by_cases hlo : loNib (s.getByte sp2 (a2 + c)) ≥ 10
    · rw [if_pos hlo] at hd ⊢
      obtain ⟨h1, h2⟩ := List.cons.inj hd
      obtain ⟨rfl, rfl⟩ := Prod.mk.inj h1
      rw [← isPlus_eq _ hlo]
      exact ⟨_, c + 1, rfl, rfl, rfl, rfl, rfl, by omega, rfl, h2⟩
    · rw [if_neg hlo] at hd ⊢
      obtain ⟨h1, h2⟩ := List.cons.inj hd
      obtain ⟨rfl, rfl⟩ := Prod.mk.inj h1
      exact ⟨_, c + 1, rfl, rfl, rfl, rfl, rfl, by omega, rfl, h2⟩

/-- One row of the manual's table (R413). -/
theorem edited_cons (fill : Byte) (i : Nat) (e : Edited) (p : Byte) (ps : List Byte) (ds : List (BitVec 4 × Bool)) :
    edited fill i e (p :: ps) ds =
      if p = 0x22 then edited fill (i + 1) { e with field := e.field ++ [fill], sig := false, nz := false } ps ds
      else if p = 0x20 ∨ p = 0x21 then
        match ds with
        | [] => e
        | (d, plus) :: ds =>
          if e.sig = false ∧ d = 0 then
            edited fill (i + 1) { e with field := e.field ++ [fill], sig := decide (p = 0x21 ∧ plus = false) } ps ds
          else
            edited fill (i + 1)
              { field := e.field ++ [0xF#4 ++ d], sig := !plus, nz := e.nz || decide (d ≠ 0),
                mark := if e.sig then e.mark else some i } ps ds
      else edited fill (i + 1) { e with field := e.field ++ [if e.sig then p else fill] } ps ds :=
  edited.eq_def fill i e (p :: ps) ds

/-- Editing one mask byte, if there is a digit for it where it wants one. -/
theorem EditRel.byte {s : State} {f : EditField} {sp2 : Space} {a2 m i c : Nat} {e : EditState} {x : Edited}
    {ds : List (BitVec 4 × Bool)} (fill : Byte) (h : EditRel s f sp2 a2 m i c e x ds) (hl : f.len ≤ 2 ^ 24) (hi : i < f.len)
    (hb : ∀ k < m, (f.sp2 = .ok sp2 ∧ s.allocated sp2 (s.trunc (a2 + k)) .read = true) ∧ hiNib (s.getByte sp2 (a2 + k)) ≤ 9)
    (hdis : s.Disjoint f.sp1 f.a1 f.len sp2 a2 m) :
    let p := s.getByte f.sp1 (f.a1 + i)
    let wanted := if p = 0x20 ∨ p = 0x21 then 1 else 0
    wanted ≤ ds.length →
      ∃ e' c' x' ds', s.editByte f fill i e = .ok e' ∧ EditRel s f sp2 a2 m (i + 1) c' e' x' ds' ∧
        ds.length = ds'.length + wanted ∧ ∀ ps, edited fill i x (p :: ps) ds = edited fill (i + 1) x' ps ds' := by
  intro p wanted hw
  have hp : Memory.read e.mem (s.key f.sp1 (f.a1 + i)) = p :=
    h.other _ fun j hj hk => by
      have := s.key_inj f.sp1 f.a1 f.len hl i hi j (by omega) hk
      omega
  unfold State.editByte
  simp only [hp]
  by_cases h22 : p = 0x22
  · rw [if_pos h22]
    refine ⟨_, c, { x with field := x.field ++ [fill], sig := false, nz := false }, ds, rfl,
      h.out hl hi fill _ _ c ds rfl rfl rfl rfl h.mark h.le h.sa h.digits, ?_, fun ps => ?_⟩
    · rw [show wanted = 0 from if_neg (by rw [h22]; decide), Nat.add_zero]
    · rw [edited_cons, if_pos h22]
  · rw [if_neg h22]
    by_cases hd : p = 0x20 ∨ p = 0x21
    · rw [if_pos hd]
      cases ds with
      | nil => rw [show wanted = 1 from if_pos hd] at hw; simp at hw
      | cons dp ds =>
        obtain ⟨d, plus⟩ := dp
        obtain ⟨e', c', he, hmem, hsig, hnz, hmark, hc, hsa, hds⟩ := h.digit (by omega) hb hdis
        rw [he]
        dsimp only
        have hlen : ((d, plus) :: ds).length = ds.length + wanted := by
          rw [show wanted = 1 from if_pos hd, List.length_cons]
        have hxs : x.sig = e'.sig := h.sig.trans hsig.symm
        have hxn : x.nz = e'.nz := h.nz.trans hnz.symm
        have hxm : e'.mark = x.mark.map fun j => s.trunc (f.a1 + j) := hmark.trans h.mark
        by_cases hz : x.sig = false ∧ d = 0
        · obtain ⟨hz1, rfl⟩ := hz
          have hs0 : e'.sig = false := hxs.symm.trans hz1
          have hput : s.editPut f fill i (p == 0x21) 0 plus e' =
              s.editOut f i fill { e' with sig := decide (p = 0x21 ∧ plus = false) } := by
            unfold State.editPut
            rw [hs0]
            cases plus <;> simp
            rfl
          rw [hput]
          refine ⟨_, c', { x with field := x.field ++ [fill], sig := decide (p = 0x21 ∧ plus = false) }, ds, rfl,
            h.out hl hi fill _ _ c' ds hmem rfl rfl hxn hxm hc hsa hds, hlen, fun ps => ?_⟩
          rw [edited_cons, if_neg h22, if_pos hd]
          dsimp only
          rw [if_pos ⟨hz1, rfl⟩]
        · have hput : s.editPut f fill i (p == 0x21) d plus e' =
              s.editOut f i (0xF#4 ++ d)
                { e' with
                  sig := !plus
                  nz := e'.nz || decide (d ≠ 0)
                  mark := if e'.sig then e'.mark else some (s.trunc (f.a1 + i)) } := by
            rw [hxs] at hz
            unfold State.editPut
            simp only [nibble_bne]
            cases hsg : e'.sig with
            | true => cases plus <;> simp [ofNibs]
            | false =>
              have hd0 : d ≠ 0#4 := fun hd0 => hz ⟨hsg, hd0⟩
              cases plus <;> simp [hd0, ofNibs]
          rw [hput]
          refine ⟨_, c',
            { field := x.field ++ [0xF#4 ++ d], sig := !plus, nz := x.nz || decide (d ≠ 0),
              mark := if x.sig then x.mark else some i }, ds, rfl,
            h.out hl hi (0xF#4 ++ d) _ _ c' ds hmem rfl rfl (by rw [hxn]) ?_ hc hsa hds, hlen, fun ps => ?_⟩
          · rw [hxs]
            cases e'.sig with
            | true => exact hxm
            | false => rfl
          · rw [edited_cons, if_neg h22, if_pos hd]
            dsimp only
            rw [if_neg hz]
    · rw [if_neg hd]
      refine ⟨_, c, { x with field := x.field ++ [if x.sig then p else fill] }, ds, rfl,
        h.out hl hi _ _ _ c ds rfl (by rw [h.sig]) h.sig h.nz h.mark h.le h.sa h.digits, ?_, fun ps => ?_⟩
      · rw [show wanted = 0 from if_neg hd, Nat.add_zero]
      · rw [edited_cons, if_neg h22, if_neg hd]

/-- Where no digit is left, all `m` source bytes are used up. -/
theorem EditRel.exhausted {s : State} {f : EditField} {sp2 : Space} {a2 m i c : Nat} {e : EditState} {x : Edited}
    (h : EditRel s f sp2 a2 m i c e x []) : e.pending = none ∧ c = m := by
  have hd := h.digits
  cases hp : e.pending with
  | some q => rw [hp] at hd; exact absurd hd.symm (List.cons_ne_nil _ _)
  | none =>
    refine ⟨rfl, ?_⟩
    by_contra hcm
    have := h.le
    rw [hp, show m - c = m - (c + 1) + 1 by omega, State.getBytes_succ, sourceDigits_cons, List.nil_append] at hd
    by_cases hlo : loNib (s.getByte sp2 (a2 + c)) ≥ 10
    · rw [if_pos hlo] at hd; exact absurd hd.symm (List.cons_ne_nil _ _)
    · rw [if_neg hlo] at hd; exact absurd hd.symm (List.cons_ne_nil _ _)

/-- The digit that is missing: what the next source byte raises (R413). -/
theorem EditRel.missing {s : State} {f : EditField} {sp2 : Space} {a2 m i c : Nat} {e : EditState} {x : Edited}
    (h : EditRel s f sp2 a2 m i c e x []) (hi : i ≤ f.len) :
    let overlap := f.sp2 = .ok sp2 ∧ ∃ j < f.len, s.key f.sp1 (f.a1 + j) = s.key sp2 (a2 + m)
    let accessible := f.sp2 = .ok sp2 ∧ s.allocated sp2 (s.trunc (a2 + m)) .read = true
    (overlap → s.editDigit f e = .error .overlap) ∧
      ((∀ sp', f.sp2 = .ok sp' → sp' = sp2) → (∀ w, f.sp2 = .error w → w = .addressTranslation) → ¬ overlap → ¬ accessible →
        s.editDigit f e = .error (.raise .addressTranslation)) ∧
      (¬ overlap → accessible → 9 < hiNib (s.getByte sp2 (a2 + m)) → s.editDigit f e = .error (.raise .data)) := by
  obtain ⟨hp, rfl⟩ := h.exhausted
  have hin : s.inField f sp2 e.sa = true ↔ ∃ j < f.len, s.key f.sp1 (f.a1 + j) = s.key sp2 (a2 + c) := by
    simp only [State.inField, Bool.and_eq_true, beq_iff_eq, List.any_eq_true, List.mem_range, h.sa, State.trunc_trunc,
      State.key_eq_iff]
    exact ⟨fun ⟨hs, j, hj, hk⟩ => ⟨j, hj, hs.symm, hk⟩, fun ⟨j, hj, hs, hk⟩ => ⟨hs.symm, j, hj, hk⟩⟩
  intro overlap accessible
  unfold State.editDigit
  rw [hp]
  dsimp only
  refine ⟨fun ho => ?_, fun hsp hw hno hna => ?_, fun hno hac h9 => ?_⟩
  · rw [ho.1]
    dsimp only
    rw [if_pos (hin.2 ho.2)]
  · cases hs : f.sp2 with
    | error w => rw [hw w hs]
    | ok sp' =>
      obtain rfl := hsp sp' hs
      have hal : s.allocated sp' (s.trunc (a2 + c)) .read = false := by
        rw [Bool.eq_false_iff]; exact fun hc => hna ⟨hs, hc⟩
      dsimp only
      rw [if_neg fun hc => hno ⟨hs, hin.1 hc⟩]
      simp [State.tryByte, h.sa, State.trunc_trunc, hal]
  · have hread : Memory.read e.mem (s.key sp2 e.sa) = s.getByte sp2 (a2 + c) := by
      rw [h.sa, State.key_trunc]
      exact h.other _ fun j hj hk => hno ⟨hac.1, j, by omega, hk.symm⟩
    rw [hac.1]
    dsimp only
    rw [if_neg fun hc => hno ⟨hac.1, hin.1 hc⟩, State.tryByte_some _ _ _ _ (by rw [h.sa, State.trunc_trunc]; exact hac.2), hread]
    dsimp only
    rw [if_pos h9]

/-- Editing `n` mask bytes from place `i` on: to the end of the mask, or to the mask byte for which no digit is left. -/
theorem State.editLoop_spec (s : State) (f : EditField) (fill : Byte) (sp2 : Space) (a2 m : Nat) (hl : f.len ≤ 2 ^ 24)
    (hb : ∀ k < m, (f.sp2 = .ok sp2 ∧ s.allocated sp2 (s.trunc (a2 + k)) .read = true) ∧ hiNib (s.getByte sp2 (a2 + k)) ≤ 9)
    (hdis : s.Disjoint f.sp1 f.a1 f.len sp2 a2 m) (n : Nat) :
    ∀ (i c : Nat) (e : EditState) (x : Edited) (ds : List (BitVec 4 × Bool)), i + n = f.len →
      EditRel s f sp2 a2 m i c e x ds →
      let mask := s.getBytes f.sp1 (f.a1 + i) n
      (selectors mask ≤ ds.length →
        ∃ e' c' ds', s.editLoop f fill n i e = (e', none) ∧ EditRel s f sp2 a2 m f.len c' e' (edited fill i x mask ds) ds') ∧
      (ds.length < selectors mask →
        ∃ e' c' i', i' < f.len ∧ EditRel s f sp2 a2 m i' c' e' (edited fill i x mask ds) [] ∧
          ∀ stop, s.editDigit f e' = .error stop → s.editLoop f fill n i e = (e', some stop)) := by
  induction n with
  | zero =>
    intro i c e x ds hin h mask
    obtain rfl : i = f.len := hin
    refine ⟨fun _ => ⟨e, c, ds, rfl, ?_⟩, fun hlt => absurd hlt (Nat.not_lt_zero _)⟩
    rw [show mask = [] from rfl, edited]
    exact h
  | succ n ih =>
    intro i c e x ds hin h
    have hnext : s.getBytes f.sp1 (f.a1 + i) (n + 1) = s.getByte f.sp1 (f.a1 + i) :: s.getBytes f.sp1 (f.a1 + (i + 1)) n := by
      rw [State.getBytes_succ, Nat.add_assoc]
    intro mask
    rw [show mask = _ from hnext]
    have hcount : selectors (s.getByte f.sp1 (f.a1 + i) :: s.getBytes f.sp1 (f.a1 + (i + 1)) n) =
        selectors (s.getBytes f.sp1 (f.a1 + (i + 1)) n) +
          if s.getByte f.sp1 (f.a1 + i) = 0x20 ∨ s.getByte f.sp1 (f.a1 + i) = 0x21 then 1 else 0 := by
      rw [selectors, List.countP_cons]
      congr 1
      simp
    rw [hcount]
    by_cases hw : (if s.getByte f.sp1 (f.a1 + i) = 0x20 ∨ s.getByte f.sp1 (f.a1 + i) = 0x21 then 1 else 0) ≤ ds.length
    · obtain ⟨e', c', x', ds', he, hrel, hlen, hx⟩ := h.byte fill hl (by omega) hb hdis hw
      rw [State.editLoop, he, hx, hlen]
      obtain ⟨h1, h2⟩ := ih (i + 1) c' e' x' ds' (by omega) hrel
      exact ⟨fun hs => h1 (by omega), fun hs => h2 (by omega)⟩
    · have hsel : s.getByte f.sp1 (f.a1 + i) = 0x20 ∨ s.getByte f.sp1 (f.a1 + i) = 0x21 := by
        by_contra hc; rw [if_neg hc] at hw; omega
      rw [if_pos hsel] at hw ⊢
      obtain rfl : ds = [] := List.length_eq_zero_iff.1 (by omega)
      refine ⟨fun hs => by simp at hs, fun _ => ⟨e, c, i, by omega, ?_, fun stop hstop => ?_⟩⟩
      · rw [edited_cons, if_neg (by rcases hsel with hc | hc <;> rw [hc] <;> decide), if_pos hsel]
        exact h
      · have hp : Memory.read e.mem (s.key f.sp1 (f.a1 + i)) = s.getByte f.sp1 (f.a1 + i) :=
          h.other _ fun j hj hk => by
            have := s.key_inj f.sp1 f.a1 f.len hl i (by omega) j (by omega) hk
            omega
        rw [State.editLoop, State.editByte]
        simp only [hp]
        rw [if_neg (by rcases hsel with hc | hc <;> rw [hc] <;> decide), if_pos hsel, hstop]

/-! ### The mark of EDMK -/

@[simp] theorem State.setMark_mem (t : State) (mark : Option Nat) : (t.setMark mark).mem = t.mem := by
  unfold State.setMark; split <;> rfl

@[simp] theorem State.setMark_ia (t : State) (mark : Option Nat) : (t.setMark mark).ia = t.ia := by
  unfold State.setMark; split <;> rfl

@[simp] theorem State.setMark_cc (t : State) (mark : Option Nat) : (t.setMark mark).cc = t.cc := by
  unfold State.setMark; split <;> rfl

@[simp] theorem State.setMark_control (t : State) (mark : Option Nat) : (t.setMark mark).control = t.control := by
  unfold State.setMark; split <;> rfl

/-- Another memory is all that differs. -/
theorem State.withMem_frame (s : State) (m : List Host.Cell) : Frame s { s with mem := m } [] [] [] :=
  ⟨⟨fun _ _ => rfl, fun _ _ => rfl, fun _ _ _ => rfl⟩, ⟨rfl, rfl, rfl⟩, ⟨rfl, rfl, rfl, rfl, rfl⟩, rfl, rfl⟩

/-- The mark changes general-purpose register 1 only. -/
theorem State.setMark_frame (s t : State) (mark : Option Nat) (h : Frame s t [] [] []) : Frame s (t.setMark mark) [1] [] [] := by
  obtain ⟨⟨h1, h2, h3⟩, h4, h5, h6⟩ := h
  unfold State.setMark
  split
  · exact ⟨⟨fun r _ => h1 r (by simp), h2, h3⟩, h4, h5, h6⟩
  all_goals
    refine ⟨⟨fun r hr => ?_, h2, h3⟩, h4, h5, h6⟩
    rw [State.getGr_setGr, if_neg (by simpa using hr)]
    exact h1 r (by simp)

/-- General-purpose register 1 with the mark in it (R411). -/
theorem State.setMark_gr (s t : State) (a1 : Nat) (mark : Option Nat) (hg : t.getGr 1 = s.getGr 1) (ha : t.amode = s.amode) :
    let v := (t.setMark (mark.map fun j => s.trunc (a1 + j))).getGr 1
    match mark, s.amode with
    | none, _ => v = s.getGr 1
    | some k, .a24 => bits v 0 8 = bits (s.getGr 1) 0 8 ∧ (bits v 8 24).toNat = (a1 + k) % 2 ^ 24
    | some k, .a31 => bits v 0 1 = bits (s.getGr 1) 0 1 ∧ (bits v 1 31).toNat = (a1 + k) % 2 ^ 31 := by
  cases mark with
  | none => cases s.amode <;> exact hg
  | some k =>
    dsimp only [Option.map]
    unfold State.setMark
    rw [ha]
    cases hma : s.amode with
    | a24 =>
      simp only [State.getGr_setGr, if_true, hg]
      refine ⟨bits_append_left _ _, ?_⟩
      rw [show bits (bits _ 0 8 ++ BitVec.ofNat 24 (s.trunc (a1 + k))) 8 24 = BitVec.ofNat 24 (s.trunc (a1 + k)) from
        bits_append_right _ _, BitVec.toNat_ofNat]
      simp [State.trunc, hma, AMode.width]
    | a31 =>
      simp only [State.getGr_setGr, if_true, hg]
      refine ⟨bits_append_left _ _, ?_⟩
      rw [show bits (bits _ 0 1 ++ BitVec.ofNat 31 (s.trunc (a1 + k))) 1 31 = BitVec.ofNat 31 (s.trunc (a1 + k)) from
        bits_append_right _ _, BitVec.toNat_ofNat]
      simp [State.trunc, hma, AMode.width]

end Sys2Proof.Machine
end

