-- ==== Sys2Proof/Laws/Float.lean ====
section
/-! SUPPORT. Hexadecimal floating point: packing and unpacking, normalization, and what each shared core of the arithmetic leaves
(45_floating_point_arith.md R453 to R455, R470, R478, R484; 46_floating_point_load_store.md R512). -/

namespace Sys2Proof.Machine

/-! ### Formats -/

theorem getMsbD_ofBool_append {m n : Nat} (b : Bool) (x : BitVec m) (y : BitVec n) :
    (BitVec.ofBool b ++ x ++ y).getMsbD 0 = b := by
  rw [BitVec.getMsbD_append, BitVec.getMsbD_append]
  simp

theorem bits_middle {k m n : Nat} (x : BitVec k) (y : BitVec m) (z : BitVec n) : bits (x ++ y ++ z) k m = y := by
  apply BitVec.eq_of_getLsbD_eq
  intro i hi
  simp only [bits, BitVec.getLsbD_extractLsb', BitVec.getLsbD_append]
  rw [if_neg (by omega), if_pos (by omega)]
  simp only [hi, decide_true, Bool.true_and]
  congr 1
  omega

theorem ofInt_seven_toNat (c : Int) : ((BitVec.ofInt 7 c).toNat : Int) = c % 128 := by
  rw [BitVec.toNat_ofInt]
  exact Int.toNat_of_nonneg (Int.emod_nonneg _ (by decide))

/-- A packed short number reads back, its characteristic modulo 128 (R453). -/
theorem unpackShort_pack (x : Hfp) (h : x.frac < 16 ^ 6) :
    unpackShort (packShort x) = { neg := x.neg, char := x.char % 128, frac := x.frac } := by
  unfold unpackShort packShort
  rw [getMsbD_ofBool_append, show bits _ 1 7 = _ from bits_middle (BitVec.ofBool x.neg) (BitVec.ofInt 7 x.char) _,
    show bits _ 8 24 = _ from bits_append_right (BitVec.ofBool x.neg ++ BitVec.ofInt 7 x.char) _, ofInt_seven_toNat,
    BitVec.toNat_ofNat, Nat.mod_eq_of_lt (by omega)]

/-- A packed long number reads back (R453). -/
theorem unpackLong_pack (x : Hfp) (h : x.frac < 16 ^ 14) :
    unpackLong (packLong x) = { neg := x.neg, char := x.char % 128, frac := x.frac } := by
  unfold unpackLong packLong
  rw [getMsbD_ofBool_append, show bits _ 1 7 = _ from bits_middle (BitVec.ofBool x.neg) (BitVec.ofInt 7 x.char) _,
    show bits _ 8 56 = _ from bits_append_right (BitVec.ofBool x.neg ++ BitVec.ofInt 7 x.char) _, ofInt_seven_toNat,
    BitVec.toNat_ofNat, Nat.mod_eq_of_lt (by omega)]

theorem unpackExt_eq (hi lo : Dword) : unpackExt hi lo =
    { unpackLong hi with frac := (unpackLong hi).frac * 16 ^ 14 + (unpackLong lo).frac } := rfl

theorem unpackShort_frac_lt (w : Word) : (unpackShort w).frac < 16 ^ 6 := (bits w 8 24).isLt

theorem unpackLong_frac_lt (w : Dword) : (unpackLong w).frac < 16 ^ 14 := (bits w 8 56).isLt

/-- A mantissa has the digits of its format (R450). -/
theorem State.readFp_frac_lt (s : State) (p : Fmt) (r : Reg) : (s.readFp p r).frac < 16 ^ p.digits := by
  cases p
  · exact unpackShort_frac_lt _
  · exact unpackLong_frac_lt _
  · have h1 := unpackLong_frac_lt (s.getFr r)
    have h2 := unpackLong_frac_lt (s.getFr (r + 2))
    show (unpackLong (s.getFr r)).frac * 16 ^ 14 + (unpackLong (s.getFr (r + 2))).frac < 16 ^ 28
    omega

/-- A register field that an instruction of format `p` may have (R452). -/
def fmtReg (p : Fmt) (r : Reg) : Bool :=
  match p with
  | .ext => isFprPair r
  | _ => isFpr r

theorem pair_cases (r : Reg) (h : isFprPair r = true) : r = 0 ∨ r = 4 := by
  simpa [isFprPair] using h

theorem isFpr_of_pair : ∀ r : Reg, isFprPair r = true → isFpr r = true ∧ isFpr (r + 2) = true ∧ r + 2 ≠ r ∧ r ≠ r + 2 := by
  decide

/-! ### Storing -/

/-- What storing a number of format `p` leaves unchanged. -/
structure FpStored (s t : State) (p : Fmt) (r : Reg) : Prop where
  eq : t = { s with fr := t.fr }
  other : ∀ q, isFpr q = true → q ∉ fpRegisters p r → t.getFr q = s.getFr q
  right : p = .short → bits (t.getFr r) 32 32 = bits (s.getFr r) 32 32

theorem State.setFrs_stored (s : State) (r : Reg) (v : Word) (hr : isFpr r = true) : FpStored s (s.setFrs r v) .short r where
  eq := rfl
  other := fun q hq hn => State.getFr_setFr_other _ _ _ _ hr hq (by simpa [fpRegisters] using hn)
  right := fun _ => by
    show bits ((s.setFr r _).getFr r) 32 32 = _
    rw [State.getFr_setFr_same]
    exact bits_append_right _ _

theorem State.setFr_stored (s : State) (r : Reg) (v : Dword) (hr : isFpr r = true) : FpStored s (s.setFr r v) .long r where
  eq := rfl
  other := fun q hq hn => State.getFr_setFr_other _ _ _ _ hr hq (by simpa [fpRegisters] using hn)
  right := fun h => nomatch h

theorem State.setFr_setFr_stored (s : State) (r : Reg) (v w : Dword) (hr : isFprPair r = true) :
    FpStored s ((s.setFr r v).setFr (r + 2) w) .ext r where
  eq := rfl
  other := fun q hq hn => by
    obtain ⟨h1, h2, -, -⟩ := isFpr_of_pair r hr
    simp only [fpRegisters, List.mem_cons, List.not_mem_nil, or_false, not_or] at hn
    rw [State.getFr_setFr_other _ _ _ _ h2 hq hn.2, State.getFr_setFr_other _ _ _ _ h1 hq hn.1]
  right := fun h => nomatch h

theorem State.getFr_pair (s : State) (r : Reg) (v w : Dword) (hr : isFprPair r = true) :
    ((s.setFr r v).setFr (r + 2) w).getFr r = v ∧ ((s.setFr r v).setFr (r + 2) w).getFr (r + 2) = w := by
  obtain ⟨h1, h2, -, h4⟩ := isFpr_of_pair r hr
  exact ⟨by rw [State.getFr_setFr_other _ _ _ _ h2 h1 h4, State.getFr_setFr_same], State.getFr_setFr_same _ _ _⟩

theorem State.getFrs_setFrs (s : State) (r : Reg) (v : Word) : (s.setFrs r v).getFrs r = v := by
  show bits ((s.setFr r _).getFr r) 0 32 = _
  rw [State.getFr_setFr_same]
  exact bits_append_left _ _

/-- `StoreFP` (R453). -/
theorem State.storeFp_spec (s : State) (p : Fmt) (r : Reg) (x : Hfp) (hr : fmtReg p r = true) (hx : x.frac < 16 ^ p.digits) :
    FpStored s (s.storeFp p r x) p r ∧ FpHolds (s.storeFp p r x) p r x.neg x.char x.frac := by
  cases p with
  | short =>
    refine ⟨s.setFrs_stored r _ hr, ?_, fun h => nomatch h⟩
    show unpackShort ((s.setFrs r _).getFrs r) = _
    rw [State.getFrs_setFrs, unpackShort_pack x hx]
  | long =>
    refine ⟨s.setFr_stored r _ hr, ?_, fun h => nomatch h⟩
    show unpackLong ((s.setFr r _).getFr r) = _
    rw [State.getFr_setFr_same, unpackLong_pack x hx]
  | ext =>
    have hx' : x.frac < 16 ^ 28 := hx
    obtain ⟨h1, h2⟩ := s.getFr_pair r (packLong { x with frac := x.frac / 16 ^ 14 })
      (packLong { x with char := x.char - 14, frac := x.frac % 16 ^ 14 }) hr
    have e1 := unpackLong_pack { x with frac := x.frac / 16 ^ 14 } (show x.frac / 16 ^ 14 < 16 ^ 14 by omega)
    have e2 := unpackLong_pack { x with char := x.char - 14, frac := x.frac % 16 ^ 14 } (Nat.mod_lt _ (by decide))
    refine ⟨s.setFr_setFr_stored r _ _ hr, ?_, fun _ => ⟨?_, ?_⟩⟩
    · show unpackExt (((s.setFr r _).setFr (r + 2) _).getFr r) (((s.setFr r _).setFr (r + 2) _).getFr (r + 2)) = _
      rw [h1, h2, unpackExt_eq, e1, e2]
      simp only [Hfp.mk.injEq, true_and]
      omega
    · show (unpackLong (((s.setFr r _).setFr (r + 2) _).getFr (r + 2))).neg = _
      rw [h2, e2]
    · show (unpackLong (((s.setFr r _).setFr (r + 2) _).getFr (r + 2))).char = _
      rw [h2, e2]

/-- `StoreZero` (R453). -/
theorem State.storeZero_spec (s : State) (p : Fmt) (r : Reg) (hr : fmtReg p r = true) :
    FpStored s (s.storeZero p r) p r ∧ FpZero (s.storeZero p r) p r := by
  cases p with
  | short => exact ⟨s.setFrs_stored r _ hr, s.getFrs_setFrs r 0⟩
  | long => exact ⟨s.setFr_stored r _ hr, s.getFr_setFr_same r 0⟩
  | ext => exact ⟨s.setFr_setFr_stored r _ _ hr, s.getFr_pair r 0 0 hr⟩

/-! ### The end of an instruction -/

theorem FpHolds.congr {t u : State} {p : Fmt} {r : Reg} {neg : Bool} {c : Int} {f : Nat} (h : FpHolds t p r neg c f)
    (hu : u.fr = t.fr) : FpHolds u p r neg c f := by
  have hg : ∀ q, u.getFr q = t.getFr q := fun q => by simp only [State.getFr, hu]
  have hr : u.readFp p r = t.readFp p r := by cases p <;> simp only [State.readFp, State.getFrs, hg]
  exact ⟨hr.trans h.1, fun hp => by rw [hg]; exact h.2 hp⟩

theorem FpZero.congr {t u : State} {p : Fmt} {r : Reg} (h : FpZero t p r) (hu : u.fr = t.fr) : FpZero u p r := by
  have hg : ∀ q, u.getFr q = t.getFr q := fun q => by simp only [State.getFr, hu]
  cases p
  · show bits (u.getFr r) 0 32 = 0
    rw [hg]; exact h
  · show u.getFr r = 0
    rw [hg]; exact h
  · show u.getFr r = 0 ∧ u.getFr (r + 2) = 0
    rw [hg, hg]; exact h

theorem State.fpDone_fr (t : State) (w : Option Interrupt) (len : Nat) : (State.fpDone (t, w) len).fr = t.fr := by
  cases w <;> rfl

/-- The frame of a stored result after the instruction went on (R454). -/
theorem FpStored.frame {s t : State} {p : Fmt} {r : Reg} (h : FpStored s t p r) (b : Bool) (c : CondCode)
    (w : Option Interrupt) (len : Nat) : FpFrame s (State.fpDone (t.codeIf b c, w) len) p r len := by
  have ht := h.eq
  have hfr : ∀ u : State, u.fr = t.fr → ∀ q, u.getFr q = t.getFr q := fun u hu q => by simp only [State.getFr, hu]
  have hu : (State.fpDone (t.codeIf b c, w) len).fr = t.fr := by cases b <;> cases w <;> rfl
  generalize htf : t.fr = f at ht hu
  subst ht
  refine ⟨?_, ⟨⟨?_, ?_, ?_⟩, ?_⟩, ?_, ?_⟩
  · rw [State.continuation_eq]
    cases b <;> cases w <;> exact State.advance_ia _ _
  · intro q _; cases b <;> cases w <;> rfl
  · intro q _; cases b <;> cases w <;> rfl
  · intro q hq hn
    rw [hfr _ (hu.trans htf.symm)]
    exact h.other q hq hn
  · cases b <;> cases w <;> exact ⟨⟨rfl, rfl, rfl⟩, ⟨rfl, rfl, rfl, rfl, rfl⟩, rfl, rfl⟩
  · intro k; cases b <;> cases w <;> rfl
  · intro hp
    rw [hfr _ (hu.trans htf.symm)]
    exact h.right hp

/-- `FinishFP` (R454). -/
theorem State.finishFp_spec (s : State) (p : Fmt) (r : Reg) (x : Hfp) (setCc : Bool) (len : Nat) (hr : fmtReg p r = true)
    (hx : x.frac < 16 ^ p.digits) :
    FpResult s (State.fpDone (s.finishFp p r x setCc) len) p r x.neg x.char x.frac ∧
      FpFrame s (State.fpDone (s.finishFp p r x setCc) len) p r len ∧
      (State.fpDone (s.finishFp p r x setCc) len).cc =
        if setCc = true then (if x.char < 0 ∧ s.pm.getMsbD 2 = false then 0 else fpCc x.neg) else s.cc := by
  obtain ⟨hst, hh⟩ := s.storeFp_spec p r x hr hx
  obtain ⟨hzt, hz⟩ := s.storeZero_spec p r hr
  have hc1 : (s.storeFp p r x).cc = s.cc := by rw [hst.eq]
  have hc2 : (s.storeZero p r).cc = s.cc := by rw [hzt.eq]
  have hk1 : (s.storeFp p r x).control = s.control := by rw [hst.eq]
  have hk2 : (s.storeZero p r).control = s.control := by rw [hzt.eq]
  unfold State.finishFp
  dsimp only
  by_cases h1 : x.char > 127
  · rw [if_pos h1]
    refine ⟨⟨fun _ => ⟨?_, rfl⟩, fun h => by omega, fun h => by omega, fun _ h => by omega⟩, hst.frame _ _ _ _, ?_⟩
    · exact hh.congr (by cases setCc <;> rfl)
    · cases setCc
      · exact hc1
      · rw [if_pos rfl, if_neg (by omega)]; rfl
  · rw [if_neg h1]
    by_cases h2 : x.char < 0
    · rw [if_pos h2]
      by_cases hp : s.pm.getMsbD 2 = true
      · rw [if_pos (show s.pmBit 2 = true from hp)]
        refine ⟨⟨fun h => by omega, fun _ _ => ⟨?_, rfl⟩, fun _ h => (by rw [hp] at h; cases h), fun h => by omega⟩,
          hst.frame _ _ _ _, ?_⟩
        · exact hh.congr (by cases setCc <;> rfl)
        · cases setCc
          · exact hc1
          · rw [if_pos rfl, if_neg (by rw [hp]; simp)]; rfl
      · rw [if_neg (show ¬ s.pmBit 2 = true from hp)]
        refine ⟨⟨fun h => by omega, fun _ h => absurd h hp, fun _ _ => ⟨?_, ?_⟩, fun h => by omega⟩, hzt.frame _ _ _ _, ?_⟩
        · exact hz.congr (by cases setCc <;> rfl)
        · cases setCc <;> exact hk2
        · cases setCc
          · exact hc2
          · rw [if_pos rfl, if_pos ⟨h2, by simpa using hp⟩]; rfl
    · rw [if_neg h2]
      refine ⟨⟨fun h => by omega, fun h => by omega, fun h => by omega, fun _ _ => ⟨?_, ?_⟩⟩, hst.frame _ _ _ _, ?_⟩
      · exact hh.congr (by cases setCc <;> rfl)
      · cases setCc <;> exact hk1
      · cases setCc
        · exact hc1
        · rw [if_pos rfl, if_neg (by omega)]; rfl

/-! ### Normalization -/

/-- Normalization of a mantissa that is not 0 (R453). -/
theorem normalize_spec (d fuel : Nat) (c : Int) (m : Nat) (hm : 0 < m) (hlt : m < 16 ^ d) (hf : 16 ^ (d - 1) ≤ m * 16 ^ fuel) :
    ∃ k : Nat, normalize d fuel c m = (c - k, m * 16 ^ k) ∧ 16 ^ (d - 1) ≤ m * 16 ^ k ∧ m * 16 ^ k < 16 ^ d ∧ k ≤ fuel := by
  have hd : 0 < d := by
    rcases Nat.eq_zero_or_pos d with rfl | h
    · simp at hlt; omega
    · exact h
  induction fuel generalizing c m with
  | zero =>
    refine ⟨0, ?_, ?_, ?_, le_refl _⟩
    · simp [normalize]
    · exact hf
    · simpa using hlt
  | succ fuel ih =>
    rw [normalize]
    by_cases h : m < 16 ^ (d - 1)
    · rw [if_pos h]
      have hlt' : m * 16 < 16 ^ d := by
        calc m * 16 < 16 ^ (d - 1) * 16 := by omega
          _ = 16 ^ d := by rw [← pow_succ, Nat.sub_add_cancel hd]
      obtain ⟨k, hk, h1, h2, h3⟩ := ih (c - 1) (m * 16) (by omega) hlt' (by rw [Nat.mul_assoc, ← pow_succ']; exact hf)
      have he : m * 16 * 16 ^ k = m * 16 ^ (k + 1) := by rw [Nat.mul_assoc, ← pow_succ']
      rw [he] at hk h1 h2
      exact ⟨k + 1, by rw [hk]; simp only [Prod.mk.injEq, and_true]; push_cast; omega, h1, h2, by omega⟩
    · rw [if_neg h]
      exact ⟨0, by simp, by simpa using h, by simpa using hlt, by omega⟩

/-- An operand with its mantissa normalized (R453). -/
theorem Hfp.normalized_spec (x : Hfp) (n : Nat) (hn : 0 < n) (hx : 0 < x.frac) (hlt : x.frac < 16 ^ n) :
    ∃ k : Nat, x.normalized n = { x with char := x.char - k, frac := x.frac * 16 ^ k } ∧ 16 ^ (n - 1) ≤ x.frac * 16 ^ k ∧
      x.frac * 16 ^ k < 16 ^ n ∧ k < n := by
  have hp : 16 ^ (n - 1) ≤ x.frac * 16 ^ n := by
    calc 16 ^ (n - 1) ≤ 16 ^ n := Nat.pow_le_pow_right (by omega) (by omega)
      _ ≤ x.frac * 16 ^ n := Nat.le_mul_of_pos_left _ hx
  obtain ⟨k, h, h1, h2, h3⟩ := normalize_spec n n x.char x.frac hx hlt hp
  refine ⟨k, by unfold Hfp.normalized; rw [h], h1, h2, ?_⟩
  by_contra hk
  have hk' : k = n := by omega
  subst hk'
  have := Nat.le_mul_of_pos_left (16 ^ k) hx
  omega

/-! ### Addition -/

theorem State.addFp_spec (s : State) (p : Fmt) (r : Reg) (x y : Hfp) (sub norm : Bool) (len : Nat) (hr : fmtReg p r = true)
    (hx : x.frac < 16 ^ p.digits) (hy : y.frac < 16 ^ p.digits) :
    FpSumResult s (State.fpDone (s.addFp p r x y sub norm) len) p r x y sub norm ∧
      FpFrame s (State.fpDone (s.addFp p r x y sub norm) len) p r len := by
  have hn : 0 < p.digits := by cases p <;> decide
  have hv : (alignedSum x (y.negIf sub)).2 = fpSum x y sub := rfl
  have ht : interimSum p.digits x (y.negIf sub) =
      (if 16 ^ (p.digits + 1) ≤ (fpSum x y sub).natAbs then
        { neg := decide (fpSum x y sub < 0), char := max x.char y.char + 1, frac := (fpSum x y sub).natAbs / 16 }
      else { neg := decide (fpSum x y sub < 0), char := max x.char y.char, frac := (fpSum x y sub).natAbs }) := rfl
  have hbound : (fpSum x y sub).natAbs < 2 * 16 ^ (p.digits + 1) := by
    have hm : ∀ z : Hfp, z.frac < 16 ^ p.digits → ∀ j, z.frac * 16 / 16 ^ j < 16 ^ (p.digits + 1) := by
      intro z hz j
      have := Nat.div_le_self (z.frac * 16) (16 ^ j)
      rw [pow_succ]
      omega
    have h1 := hm x hx (max x.char y.char - x.char).toNat
    have h2 := hm y hy (max x.char y.char - y.char).toNat
    unfold fpSum
    dsimp only
    generalize x.frac * 16 / 16 ^ (max x.char y.char - x.char).toNat = mx at h1 ⊢
    generalize y.frac * 16 / 16 ^ (max x.char y.char - y.char).toNat = my at h2 ⊢
    split <;> split <;> omega
  have hpow : 16 ^ (p.digits + 1) = 16 * 16 ^ p.digits := pow_succ' 16 _
  unfold State.addFp FpSumResult
  rw [ht]
  generalize fpSum x y sub = v at hbound
  generalize max x.char y.char = c0
  dsimp only
  -- the interim result
  obtain ⟨c, m, htc, hcc, hmm, hmlt⟩ : ∃ (c : Int) (m : Nat),
      (if 16 ^ (p.digits + 1) ≤ v.natAbs then { neg := decide (v < 0), char := c0 + 1, frac := v.natAbs / 16 : Hfp }
        else { neg := decide (v < 0), char := c0, frac := v.natAbs }) = { neg := decide (v < 0), char := c, frac := m } ∧
      (if 16 ^ (p.digits + 1) ≤ v.natAbs then c0 + 1 else c0) = c ∧
      (if 16 ^ (p.digits + 1) ≤ v.natAbs then v.natAbs / 16 else v.natAbs) = m ∧ m < 16 ^ (p.digits + 1) := by
    by_cases h : 16 ^ (p.digits + 1) ≤ v.natAbs
    · simp only [if_pos h]
      refine ⟨_, _, rfl, rfl, rfl, ?_⟩
      omega
    · simp only [if_neg h]
      exact ⟨_, _, rfl, rfl, rfl, by omega⟩
  rw [htc, hcc, hmm]
  dsimp only
  have hsig : significance norm m = true ↔ (if norm = true then m = 0 else m / 16 = 0) := by
    unfold significance; cases norm <;> simp
  obtain ⟨hzt, hz⟩ := s.storeZero_spec p r hr
  by_cases hzero : (if norm = true then m = 0 else m / 16 = 0)
  · rw [if_pos (hsig.2 hzero)]
    obtain ⟨hst, hh⟩ := s.storeFp_spec p r { neg := false, char := c, frac := 0 } hr (Nat.pow_pos (by omega))
    by_cases hp : s.pm.getMsbD 3 = true
    · rw [if_pos (show s.pmBit 3 = true from hp)]
      refine ⟨⟨fun _ _ => ⟨hh.congr rfl, rfl, rfl⟩, fun _ h => ?_, fun h => absurd hzero h⟩, hst.frame true 0 _ _⟩
      rw [hp] at h; cases h
    · rw [if_neg (show ¬ s.pmBit 3 = true from hp)]
      refine ⟨⟨fun _ h => absurd h hp, fun _ _ => ⟨hz.congr rfl, rfl, ?_⟩, fun h => absurd hzero h⟩, hzt.frame true 0 _ _⟩
      show (s.storeZero p r).control = _
      rw [hzt.eq]
  · rw [if_neg fun h => hzero (hsig.1 h)]
    have hcode : ∀ cx : Int, (if cx < 0 ∧ s.pm.getMsbD 2 = false then 0 else fpCc (decide (v < 0))) =
        (if cx < 0 ∧ s.pm.getMsbD 2 = false then 0 else if v < 0 then 1 else 2 : CondCode) := by
      intro cx
      unfold fpCc
      simp
    cases norm with
    | false =>
      have hf : m / 16 < 16 ^ p.digits := by omega
      obtain ⟨h1, h2, h3⟩ := s.finishFp_spec p r { neg := decide (v < 0), char := c, frac := m / 16 } true len hr hf
      refine ⟨⟨fun h => absurd h hzero, fun h => absurd h hzero, fun _ => ⟨0, fun _ => rfl, fun h => (nomatch h), ?_, ?_⟩⟩, h2⟩
      · simpa using h1
      · refine h3.trans ?_
        simpa using hcode c
    | true =>
      have hm0 : 0 < m := Nat.pos_of_ne_zero hzero
      obtain ⟨k, hk, hlo, hhi, -⟩ := Hfp.normalized_spec { neg := decide (v < 0), char := c, frac := m } (p.digits + 1) (by omega) hm0 hmlt
      dsimp only at hk hlo hhi
      rw [Nat.add_sub_cancel] at hlo
      rw [if_pos rfl, hk]
      have hpow' : 16 ^ p.digits = 16 * 16 ^ (p.digits - 1) := by rw [← pow_succ', Nat.sub_add_cancel hn]
      have hf : m * 16 ^ k / 16 < 16 ^ p.digits := by omega
      obtain ⟨h1, h2, h3⟩ := s.finishFp_spec p r { neg := decide (v < 0), char := c - k, frac := m * 16 ^ k / 16 } true len hr hf
      refine ⟨⟨fun h => absurd h hzero, fun h => absurd h hzero, fun _ => ⟨k, fun h => (nomatch h), fun _ => ⟨by omega, hf⟩, h1, ?_⟩⟩, h2⟩
      exact h3.trans (hcode _)

/-! ### Multiplication, division, halving, rounding -/

/-- The genuine zero as a result (R470, R478, R484). -/
theorem State.zeroFp_spec (s : State) (p : Fmt) (r : Reg) (len : Nat) (hr : fmtReg p r = true) :
    FpZero (State.fpDone (s.storeZero p r, none) len) p r ∧
      (State.fpDone (s.storeZero p r, none) len).control = s.control ∧
      (State.fpDone (s.storeZero p r, none) len).cc = s.cc ∧ FpFrame s (State.fpDone (s.storeZero p r, none) len) p r len := by
  obtain ⟨hzt, hz⟩ := s.storeZero_spec p r hr
  refine ⟨hz.congr rfl, ?_, ?_, hzt.frame false 0 none len⟩
  · show (s.storeZero p r).control = _
    rw [hzt.eq]
  · show (s.storeZero p r).cc = _
    rw [hzt.eq]

/-- The product of two mantissas that are not 0 (R470). -/
theorem productFp_spec (n q : Nat) (x y : Hfp) (hn : 0 < n) (hx : 0 < x.frac) (hy : 0 < y.frac) (hxl : x.frac < 16 ^ n)
    (hyl : y.frac < 16 ^ n) (hq : 0 < q) : ∃ k : Nat,
      productFp n q x y =
        { neg := x.neg ^^ y.neg, char := x.char + y.char - 64 - k,
          frac := x.frac * y.frac * 16 ^ k * 16 ^ q / 16 ^ (2 * n) } ∧
      16 ^ (q - 1) ≤ x.frac * y.frac * 16 ^ k * 16 ^ q / 16 ^ (2 * n) ∧
      x.frac * y.frac * 16 ^ k * 16 ^ q / 16 ^ (2 * n) < 16 ^ q := by
  obtain ⟨i, hi, i1, i2, -⟩ := x.normalized_spec n hn hx hxl
  obtain ⟨j, hj, j1, j2, -⟩ := y.normalized_spec n hn hy hyl
  have hm : x.frac * 16 ^ i * (y.frac * 16 ^ j) = x.frac * y.frac * 16 ^ (i + j) := by rw [pow_add]; ring
  have hlt : x.frac * y.frac * 16 ^ (i + j) < 16 ^ (2 * n) := by
    rw [← hm, Nat.two_mul, pow_add]
    exact Nat.mul_lt_mul'' i2 j2
  have hge : 16 ^ (2 * n - 2) ≤ x.frac * y.frac * 16 ^ (i + j) := by
    rw [← hm, show 2 * n - 2 = n - 1 + (n - 1) by omega, pow_add]
    exact Nat.mul_le_mul i1 j1
  have fits : ∀ M, 16 ^ (2 * n - 1) ≤ M → M < 16 ^ (2 * n) →
      (if 2 * n ≤ q then M * 16 ^ (q - 2 * n) else M / 16 ^ (2 * n - q)) = M * 16 ^ q / 16 ^ (2 * n) ∧
        16 ^ (q - 1) ≤ M * 16 ^ q / 16 ^ (2 * n) ∧ M * 16 ^ q / 16 ^ (2 * n) < 16 ^ q := by
    intro M h1 h2
    have hp : 0 < 16 ^ (2 * n) := Nat.pow_pos (by decide)
    refine ⟨?_, ?_, ?_⟩
    · split
      · rename_i h
        rw [show 16 ^ q = 16 ^ (q - 2 * n) * 16 ^ (2 * n) by rw [← pow_add, Nat.sub_add_cancel h], ← Nat.mul_assoc,
          Nat.mul_div_cancel _ hp]
      · rename_i h
        rw [show 16 ^ (2 * n) = 16 ^ (2 * n - q) * 16 ^ q by rw [← pow_add, Nat.sub_add_cancel (by omega)],
          Nat.mul_div_mul_right _ _ (Nat.pow_pos (by decide))]
    · rw [Nat.le_div_iff_mul_le hp, ← pow_add]
      calc 16 ^ (q - 1 + 2 * n) = 16 ^ (2 * n - 1 + q) := by congr 1; omega
        _ = 16 ^ (2 * n - 1) * 16 ^ q := pow_add _ _ _
        _ ≤ M * 16 ^ q := Nat.mul_le_mul_right _ h1
    · rw [Nat.div_lt_iff_lt_mul hp, Nat.mul_comm (16 ^ q)]
      exact Nat.mul_lt_mul_of_pos_right h2 (Nat.pow_pos (by decide))
  unfold productFp
  rw [hi, hj]
  dsimp only
  rw [hm]
  by_cases h : x.frac * y.frac * 16 ^ (i + j) < 16 ^ (2 * n - 1)
  · have he : x.frac * y.frac * 16 ^ (i + j) * 16 = x.frac * y.frac * 16 ^ (i + j + 1) := by rw [pow_succ]; ring
    obtain ⟨f1, f2, f3⟩ := fits (x.frac * y.frac * 16 ^ (i + j + 1))
      (by rw [← he, show 2 * n - 1 = 2 * n - 2 + 1 by omega, pow_succ]; omega)
      (by rw [← he, show 2 * n = 2 * n - 1 + 1 by omega, pow_succ]; omega)
    refine ⟨i + j + 1, ?_, f2, f3⟩
    simp only [if_pos h, he, f1, Hfp.mk.injEq, true_and, and_true]
    push_cast
    omega
  · obtain ⟨f1, f2, f3⟩ := fits (x.frac * y.frac * 16 ^ (i + j)) (by omega) hlt
    refine ⟨i + j, ?_, f2, f3⟩
    simp only [if_neg h, f1, Hfp.mk.injEq, true_and, and_true]
    push_cast
    omega

/-- The quotient of two mantissas that are not 0 (R478). -/
theorem quotientFp_spec (n : Nat) (x y : Hfp) (hn : 0 < n) (hx : 0 < x.frac) (hy : 0 < y.frac) (hxl : x.frac < 16 ^ n)
    (hyl : y.frac < 16 ^ n) : ∃ k : Nat,
      quotientFp n x y =
        { neg := x.neg ^^ y.neg, char := x.char - y.char + 64 + n - k, frac := x.frac * 16 ^ k / y.frac } ∧
      16 ^ (n - 1) ≤ x.frac * 16 ^ k / y.frac ∧ x.frac * 16 ^ k / y.frac < 16 ^ n := by
  obtain ⟨i, hi, i1, i2, -⟩ := x.normalized_spec n hn hx hxl
  obtain ⟨j, hj, j1, j2, hjn⟩ := y.normalized_spec n hn hy hyl
  have hpj : 0 < 16 ^ j := Nat.pow_pos (by decide)
  have hY : 0 < y.frac * 16 ^ j := Nat.mul_pos hy hpj
  have hpn : 16 ^ n = 16 ^ (n - 1) * 16 := by rw [← pow_succ, Nat.sub_add_cancel hn]
  have he : ∀ e, j ≤ i + e → x.frac * 16 ^ i * 16 ^ e / (y.frac * 16 ^ j) = x.frac * 16 ^ (i + e - j) / y.frac := by
    intro e h
    rw [Nat.mul_assoc, ← pow_add, show i + e = i + e - j + j by omega, pow_add, ← Nat.mul_assoc,
      Nat.mul_div_mul_right _ _ hpj, Nat.add_sub_cancel]
  unfold quotientFp
  rw [hi, hj]
  dsimp only
  by_cases h : x.frac * 16 ^ i ≥ y.frac * 16 ^ j
  · rw [if_pos h]
    refine ⟨i + (n - 1) - j, ?_, ?_, ?_⟩
    · rw [he (n - 1) (by omega)]
      simp only [Hfp.mk.injEq, true_and, and_true]
      omega
    · rw [← he (n - 1) (by omega), Nat.le_div_iff_mul_le hY, Nat.mul_comm]
      exact Nat.mul_le_mul_right _ h
    · rw [← he (n - 1) (by omega), Nat.div_lt_iff_lt_mul hY, Nat.mul_comm]
      calc 16 ^ (n - 1) * (x.frac * 16 ^ i) < 16 ^ (n - 1) * 16 ^ n := Nat.mul_lt_mul_of_pos_left i2 (Nat.pow_pos (by decide))
        _ = 16 ^ n * 16 ^ (n - 1) := Nat.mul_comm _ _
        _ ≤ 16 ^ n * (y.frac * 16 ^ j) := Nat.mul_le_mul_left _ j1
  · rw [if_neg h]
    refine ⟨i + n - j, ?_, ?_, ?_⟩
    · rw [he n (by omega)]
      simp only [Hfp.mk.injEq, true_and, and_true]
      omega
    · rw [← he n (by omega), Nat.le_div_iff_mul_le hY]
      calc 16 ^ (n - 1) * (y.frac * 16 ^ j) ≤ 16 ^ (n - 1) * 16 ^ n := Nat.mul_le_mul_left _ j2.le
        _ ≤ x.frac * 16 ^ i * 16 ^ n := Nat.mul_le_mul_right _ i1
    · rw [← he n (by omega), Nat.div_lt_iff_lt_mul hY, Nat.mul_comm]
      exact Nat.mul_lt_mul_of_pos_left (by omega) (Nat.pow_pos (by decide))

/-- Half of a mantissa that is not 0, normalized with a guard digit (R484). -/
theorem half_spec (n : Nat) (x : Hfp) (hn : 0 < n) (hx : 0 < x.frac) (hxl : x.frac < 16 ^ n) : ∃ k : Nat,
    ({ x with frac := x.frac * 8 } : Hfp).normalized (n + 1) =
        { x with char := x.char - k, frac := x.frac * 8 * 16 ^ k } ∧
      x.frac * 8 * 16 ^ k / 16 = x.frac * 16 ^ k / 2 ∧ 16 ^ (n - 1) ≤ x.frac * 16 ^ k / 2 ∧ x.frac * 16 ^ k / 2 < 16 ^ n := by
  have hp : 16 ^ (n + 1) = 16 * 16 ^ n := pow_succ' 16 n
  have hp' : 16 ^ n = 16 * 16 ^ (n - 1) := by rw [← pow_succ', Nat.sub_add_cancel hn]
  obtain ⟨k, hk, h1, h2, -⟩ := Hfp.normalized_spec { x with frac := x.frac * 8 } (n + 1) (by omega)
    (show 0 < x.frac * 8 by omega) (show x.frac * 8 < _ by omega)
  dsimp only at hk h1 h2
  rw [Nat.add_sub_cancel] at h1
  have he : x.frac * 8 * 16 ^ k = x.frac * 16 ^ k * 8 := by ring
  rw [he] at h1 h2
  exact ⟨k, hk, by omega, by omega, by omega⟩

/-- Rounding to a shorter format (R512). -/
theorem roundFp_spec (p q : Fmt) (x : Hfp) (h : q.digits < p.digits) (hx : x.frac < 16 ^ p.digits) :
    let unit := 16 ^ (p.digits - q.digits)
    let g := (2 * x.frac + unit) / (2 * unit)
    roundFp p.digits q.digits x = { x with
        char := if g = 16 ^ q.digits then x.char + 1 else x.char
        frac := if g = 16 ^ q.digits then 16 ^ (q.digits - 1) else g } ∧
      (roundFp p.digits q.digits x).frac < 16 ^ q.digits := by
  intro unit g
  have hu : unit = 2 * (unit / 2) := by
    have : unit = 16 ^ (p.digits - q.digits - 1) * 16 := by rw [← pow_succ, Nat.sub_add_cancel (by omega)]
    omega
  have hu0 : 0 < unit := Nat.pow_pos (by decide)
  have hg : (x.frac + unit / 2) / unit = g := by
    show _ = (2 * x.frac + unit) / (2 * unit)
    rw [show 2 * x.frac + unit = 2 * (x.frac + unit / 2) by omega, Nat.mul_div_mul_left _ _ (by decide)]
  have hle : g ≤ 16 ^ q.digits := by
    rw [← hg, ← Nat.lt_succ_iff, Nat.div_lt_iff_lt_mul hu0, Nat.succ_mul, ← pow_add, Nat.add_sub_cancel' h.le]
    omega
  have hd : 0 < q.digits := by cases q <;> decide
  unfold roundFp
  dsimp only
  rw [show (x.frac + 16 ^ (p.digits - q.digits) / 2) / 16 ^ (p.digits - q.digits) = g from hg]
  by_cases h1 : g = 16 ^ q.digits
  · simp only [if_pos h1, true_and]
    exact Nat.pow_lt_pow_right (by decide) (by omega)
  · simp only [if_neg h1, true_and]
    omega

/-! ### Instructions -/

/-- The tests of register fields (R452). -/
theorem needFpr_ok {r : Reg} (h : isFpr r = true) : (needFpr r) = .ok () := by
  unfold needFpr; rw [h]; rfl

theorem needPair_ok {r : Reg} (h : isFprPair r = true) : (needPair r) = .ok () := by
  unfold needPair; rw [h]; rfl

theorem needFpr_error {r : Reg} (h : isFpr r = false) : (needFpr r) = .error .addressing := by
  unfold needFpr; rw [h]; rfl

theorem needPair_error {r : Reg} (h : isFprPair r = false) : (needPair r) = .error .addressing := by
  unfold needPair; rw [h]; rfl

/-- The test of a register field for format `p` (R452). -/
def needReg (p : Fmt) (r : Reg) : Except Interrupt Unit := match p with | .ext => needPair r | _ => needFpr r

theorem needReg_ok {p : Fmt} {r : Reg} (h : fmtReg p r = true) : needReg p r = .ok () := by
  cases p; exact needFpr_ok h; exact needFpr_ok h; exact needPair_ok h

theorem needReg_error {p : Fmt} {r : Reg} (h : fmtReg p r = false) : needReg p r = .error .addressing := by
  cases p; exact needFpr_error h; exact needFpr_error h; exact needPair_error h

/-- Two register fields that are as their formats need. -/
theorem attempt_twoRegs {s : State} {p q : Fmt} {r1 r2 : Reg} {f : Except Interrupt State} (h : (fmtReg p r1 && fmtReg q r2) = true) : s.attempt (needReg p r1 >>= fun _ => needReg q r2 >>= fun _ => f) = s.attempt f := by
  rw [Bool.and_eq_true] at h
  rw [needReg_ok h.1, needReg_ok h.2]; rfl

/-- A register field that is not: X'5C'. -/
theorem attempt_twoRegs_error {s : State} {p q : Fmt} {r1 r2 : Reg} {f : Except Interrupt State} (h : (fmtReg p r1 && fmtReg q r2) = false) : s.attempt (needReg p r1 >>= fun _ => needReg q r2 >>= fun _ => f) = .next (s.takeInterrupt .addressing) := by
  cases h1 : fmtReg p r1 with
  | false => rw [needReg_error h1]; rfl
  | true => rw [h1] at h; rw [needReg_ok h1, needReg_error h]; rfl

theorem State.memShort_eq (s : State) (x b d) : s.memShort x b d = (s.wordOperand x b d >>= fun w => pure (unpackShort w)) := rfl

/-- An instruction with a floating-point operand in main memory: its interrupts, and what it does after the tests (R452, R610). -/
theorem exec_fpOperand {i : Instr} {s : State} {r x b : Reg} {d : Disp} {p : Fmt} (f : Hfp → Except Interrupt State) (hp : p ≠ .ext) (q : Fmt)
   (h : exec i s = s.attempt (needReg q r >>= fun _ => (if p = .short then s.memShort x b d else s.memLong x b d) >>= f)) (hr : fmtReg q r = true) :
   OperandTraps i s b (s.ea d x b) (if p = .short then 4 else 8) (if p = .short then 4 else 8) [.read] ∧
   ∀ sp, s.AlignedTo (s.ea d x b) (if p = .short then 4 else 8) → s.Accessible b sp (s.ea d x b) (if p = .short then 4 else 8) [.read] →
    exec i s = s.attempt (f (if p = .short then unpackShort (wordOf (s.getBytes sp (s.ea d x b) 4)) else unpackLong (dwordOf (s.getBytes sp (s.ea d x b) 8)))) := by
  rw [needReg_ok hr] at h
  cases p with
  | ext => exact absurd rfl hp
  | short =>
    have h' : exec i s = s.attempt (s.wordOperand x b d >>= fun w => f (unpackShort w)) := by
      rw [h]; simp only [if_true, State.memShort_eq]; cases s.wordOperand x b d <;> rfl
    exact ⟨traps_word _ h', fun sp h1 h2 => exec_word _ h' sp h1 h2⟩
  | long =>
    have h' : exec i s = s.attempt (s.dwordOperand x b d >>= fun w => f (unpackLong w)) := by
      rw [h]; simp only [State.memLong]; cases s.dwordOperand x b d <;> rfl
    exact ⟨traps_dword _ h', fun sp h1 h2 => exec_dword _ h' sp h1 h2⟩

/-- A mantissa in main memory has the digits of its format. -/
theorem State.fpOperand_frac_lt (s : State) (p : Fmt) (hp : p ≠ .ext) (a sp) : (if p = .short then unpackShort (wordOf (s.getBytes sp a 4)) else unpackLong (dwordOf (s.getBytes sp a 8))).frac < 16 ^ p.digits := by
  cases p with
  | ext => exact absurd rfl hp
  | short => exact unpackShort_frac_lt _
  | long => exact unpackLong_frac_lt _

/-- A comparison (R465). -/
theorem State.compareFp_ended {s : State} {x y : Hfp} {len} : (State.fpDone (s.compareFp x y, none) len).cc = orderCc (fpSum x y true) 0 ∧ Ended s (State.fpDone (s.compareFp x y, none) len) len [] [] [] := by
  refine ⟨rfl, ?_⟩
  have : State.fpDone (s.compareFp x y, none) len = (s.compareFp x y).advance len := rfl
  rw [this]
  simp [State.compareFp, Ended, Frame, SameRegistersBut, SameModes, SameSystem, SameOracles, SameMemory]

theorem Fmt.digits_pos (p : Fmt) : 0 < p.digits := by cases p <;> decide

/-- `MulFP` (R470). -/
theorem State.mulFp_spec (s : State) (p q : Fmt) (r1 : Reg) (x y : Hfp) (len) (hr : fmtReg q r1 = true) (hx : x.frac < 16 ^ p.digits) (hy : y.frac < 16 ^ p.digits) :
  let t := State.fpDone (s.mulFp p q r1 x y) len
  ((x.frac = 0 ∨ y.frac = 0 → FpZero t q r1 ∧ t.control = s.control) ∧
        (x.frac ≠ 0 → y.frac ≠ 0 → ∃ k : Nat,
          let f := x.frac * y.frac * 16 ^ k * 16 ^ q.digits / 16 ^ (2 * p.digits)
          16 ^ (q.digits - 1) ≤ f ∧ f < 16 ^ q.digits ∧
            FpResult s t q r1 (x.neg ^^ y.neg) (x.char + y.char - 64 - k) f) ∧ t.cc = s.cc) ∧ FpFrame s t q r1 len := by
  dsimp only
  unfold State.mulFp
  by_cases h0 : x.frac = 0 ∨ y.frac = 0
  · rw [if_pos h0]
    obtain ⟨h1, h2, h3, h4⟩ := s.zeroFp_spec q r1 len hr
    exact ⟨⟨fun _ => ⟨h1, h2⟩, fun hx hy => absurd h0 (by simp [hx, hy]), h3⟩, h4⟩
  · rw [if_neg h0]
    rw [not_or] at h0
    obtain ⟨k, hk, h1, h2⟩ := productFp_spec p.digits q.digits x y (Fmt.digits_pos p) (Nat.pos_of_ne_zero h0.1) (Nat.pos_of_ne_zero h0.2) hx hy (Fmt.digits_pos q)
    rw [hk]
    obtain ⟨f1, f2, f3⟩ := s.finishFp_spec q r1 { neg := x.neg ^^ y.neg, char := x.char + y.char - 64 - k, frac := x.frac * y.frac * 16 ^ k * 16 ^ q.digits / 16 ^ (2 * p.digits) } false len hr h2
    exact ⟨⟨fun h => absurd h (by simp [h0.1, h0.2]), fun _ _ => ⟨k, h1, h2, f1⟩, f3⟩, f2⟩

/-- An instruction that only loads (R500, R502). -/
theorem FpStored.ended {s t : State} {p : Fmt} {r : Reg} {len} (h : FpStored s t p r) (hp : p ≠ .ext) : t.cc = s.cc ∧ Ended s (t.advance len) len [] [] [r] := by
  have hf := h.frame false 0 none len
  have e : State.fpDone (t.codeIf false 0, none) len = t.advance len := rfl
  rw [e] at hf
  obtain ⟨h1, h2, h3, h4⟩ := hf
  refine ⟨by rw [h.eq], h1, ?_, ?_, h3⟩
  · show t.control = _; rw [h.eq]
  · cases p with
    | ext => exact absurd rfl hp
    | short => exact h2
    | long => exact h2

/-- A number with another sign (R504, R506, R508). -/
theorem withSign_short (v : Word) (b : Bool) : unpackShort (withSign v b) = { unpackShort v with neg := b } := by
  have e : withSign v b = BitVec.ofBool b ++ v.setWidth 31 := rfl
  rw [e]
  have hb : ∀ a n, 0 < a → a + n ≤ 32 → bits (BitVec.ofBool b ++ v.setWidth 31) a n = bits v a n := by
    intro a n ha hn
    apply BitVec.eq_of_getLsbD_eq
    intro i hi
    simp only [bits, BitVec.getLsbD_extractLsb', BitVec.getLsbD_append]
    rw [if_pos (by omega), BitVec.getLsbD_setWidth]
    simp only [hi, decide_true, Bool.true_and]
    rw [decide_eq_true (by omega), Bool.true_and]
  unfold unpackShort
  simp only [Hfp.mk.injEq]
  refine ⟨?_, ?_, ?_⟩
  · rw [BitVec.getMsbD_append]; simp
  · rw [show bits (BitVec.ofBool b ++ v.setWidth 31) 1 7 = bits v 1 7 from hb 1 7 (by omega) (by omega)]
  · rw [show bits (BitVec.ofBool b ++ v.setWidth 31) 8 24 = bits v 8 24 from hb 8 24 (by omega) (by omega)]

theorem withSign_long (v : Dword) (b : Bool) : unpackLong (withSign v b) = { unpackLong v with neg := b } := by
  have e : withSign v b = BitVec.ofBool b ++ v.setWidth 63 := rfl
  rw [e]
  have hb : ∀ a n, 0 < a → a + n ≤ 64 → bits (BitVec.ofBool b ++ v.setWidth 63) a n = bits v a n := by
    intro a n ha hn
    apply BitVec.eq_of_getLsbD_eq
    intro i hi
    simp only [bits, BitVec.getLsbD_extractLsb', BitVec.getLsbD_append]
    rw [if_pos (by omega), BitVec.getLsbD_setWidth]
    simp only [hi, decide_true, Bool.true_and]
    rw [decide_eq_true (by omega), Bool.true_and]
  unfold unpackLong
  simp only [Hfp.mk.injEq]
  refine ⟨?_, ?_, ?_⟩
  · rw [BitVec.getMsbD_append]; simp
  · rw [show bits (BitVec.ofBool b ++ v.setWidth 63) 1 7 = bits v 1 7 from hb 1 7 (by omega) (by omega)]
  · rw [show bits (BitVec.ofBool b ++ v.setWidth 63) 8 56 = bits v 8 56 from hb 8 56 (by omega) (by omega)]

end Sys2Proof.Machine
end

