-- ==== Sys2Proof/Laws/Step.lean ====
section
/-! SUPPORT. Fetching, the target of EX, and what every instruction keeps, said once (20_memory.md R55, 41_general_convert_to_load.md
R206). -/

namespace Sys2Proof

/-- A decoded EX has the operation code of EX (R206). -/
theorem decode_ex (op : Byte) (bs : List Byte) (r1 x2 b2 : Reg) (d2 : Disp) (h : decode (op :: bs) = .ok (.ex r1 x2 b2 d2)) :
    op = 0x44 := by
  have e2 : ∀ n b1, decode2 n b1 ≠ some (.ex r1 x2 b2 d2) := by
    intro n b1; unfold decode2; split <;> simp
  have e4 : ∀ n b1 c2 c3, decode4 n b1 c2 c3 = some (.ex r1 x2 b2 d2) → n = 0x44 := by
    intro n b1 c2 c3; unfold decode4; split <;> simp
  have eB : ∀ n c2 c3, decodeB2 n c2 c3 ≠ some (.ex r1 x2 b2 d2) := by
    intro n c2 c3; unfold decodeB2; split <;> simp
  have e6 : ∀ n b1 c2 c3 c4 c5, decode6 n b1 c2 c3 c4 c5 ≠ some (.ex r1 x2 b2 d2) := by
    intro n b1 c2 c3 c4 c5; unfold decode6; split <;> simp
  have hu : ∀ x o, orUnknown x o = .ok (.ex r1 x2 b2 d2) → o = some (.ex r1 x2 b2 d2) := by
    intro x o; cases o <;> simp [orUnknown]
  unfold decode at h
  split at h
  · rename_i heq
    obtain ⟨rfl, -⟩ := List.cons.inj heq
    split at h
    · exact absurd (hu _ _ h) (e2 _ _)
    · split at h
      · exact absurd (hu _ _ h) (e6 _ _ _ _ _ _)
      · cases h
    · split at h
      · split at h
        · exact absurd (hu _ _ h) (eB _ _ _)
        · exact BitVec.eq_of_toNat_eq (e4 _ _ _ _ (hu _ _ h))
      · cases h
  · cases h

/-- An encoding is as long as its first byte tells (R90). -/
theorem encode_len (i : Instr) : (encode i).length = Machine.ilenOf ((encode i).headD 0) ∧ encode i ≠ [] := by
  constructor
  · cases i <;>
    simp only [encode, enc2, enc4, enc6, encS, encRre, List.headD_cons, List.length_cons, List.length_nil] <;> decide
  · cases i <;> exact List.cons_ne_nil _ _

namespace Machine

/-! ### Fetching -/

theorem ilenOf_range : ∀ b : Byte, ilenOf b = 2 ∨ ilenOf b = 4 ∨ ilenOf b = 6 := by
  decide

/-- The access test of a fetch in two parts is one of all its bytes (R22). -/
theorem State.allocatedAll_split (s : State) (sp : Space) (a n : Nat) (k : Access) (hn : 2 ≤ n) :
    s.allocatedAll sp a n k = true ↔ s.allocatedAll sp a 2 k = true ∧ s.allocatedAll sp (a + 2) (n - 2) k = true := by
  simp only [State.allocatedAll_iff]
  constructor
  · intro h
    exact ⟨fun i hi => h i (by omega), fun i hi => by have := h (i + 2) (by omega); rwa [show a + (i + 2) = a + 2 + i by omega] at this⟩
  · rintro ⟨h1, h2⟩ i hi
    by_cases h : i < 2
    · exact h1 i h
    · have := h2 (i - 2) (by omega)
      rwa [show a + 2 + (i - 2) = a + i by omega] at this

/-- A fetch in all cases. -/
theorem State.fetch_eq (s : State) (a : Nat) : s.fetch a =
    if a % 2 = 1 then .error .addressing
    else if s.allocatedAll .program a (ilenOf (s.getByte .program a)) .fetch = true then
      .ok (s.getBytes .program a (ilenOf (s.getByte .program a)))
    else .error .addressTranslation := by
  have hn : 2 ≤ ilenOf (s.getByte .program a) := by rcases ilenOf_range (s.getByte .program a) with h | h | h <;> omega
  unfold State.fetch
  dsimp only
  split
  · rfl
  · have := s.allocatedAll_split .program a (ilenOf (s.getByte .program a)) .fetch hn
    by_cases h1 : s.allocatedAll .program a 2 .fetch = true
    · rw [if_pos h1]
      by_cases h2 : s.allocatedAll .program (a + 2) (ilenOf (s.getByte .program a) - 2) .fetch = true
      · rw [if_pos h2, if_pos (this.2 ⟨h1, h2⟩)]
      · rw [if_neg h2, if_neg (fun h => h2 (this.1 h).2)]
    · rw [if_neg h1, if_neg (fun h => h1 (this.1 h).1)]

/-- Which interrupt bytes that are no instruction raise (R103, R104). -/
theorem State.opcodeError_eq (s : State) (bs : List Byte) : s.opcodeError bs =
    if ∃ p ∈ s.cpu.privilegedOpcodes, p ≠ [] ∧ p <+: bs then .privilegedOperation else .operationCode := by
  unfold State.opcodeError
  have : (s.cpu.privilegedOpcodes.any fun p => !p.isEmpty && p.isPrefixOf bs) = true ↔
      ∃ p ∈ s.cpu.privilegedOpcodes, p ≠ [] ∧ p <+: bs := by
    simp
  by_cases h : ∃ p ∈ s.cpu.privilegedOpcodes, p ≠ [] ∧ p <+: bs
  · rw [if_pos h, if_pos (this.2 h)]
  · rw [if_neg h, if_neg (fun hc => h (this.1 hc))]

/-- The target of EX has the meaning it has by itself (R206). -/
theorem execTarget_eq (i : Instr) (s : State) (h : ∀ r1 x2 b2 d2, i ≠ .ex r1 x2 b2 d2) : execTarget i s = exec i s := by
  cases i <;> first | rfl | exact absurd rfl (h _ _ _ _)

end Machine

end Sys2Proof
end

