-- ==== Sys2Proof/Laws/Keeps.lean ====
section
/-! SUPPORT. What every instruction keeps: each has a next state, which differs from the one before only where the instruction may
write (60_exceptions.md R610, R616, R620). -/

namespace Sys2Proof.Machine

/-- What nearly every instruction keeps; the condition code only if `k`. -/
structure Keeps (k : Bool) (s t : State) : Prop where
  alloc : t.alloc = s.alloc
  accessList : t.accessList = s.accessList
  stxit : t.stxit = s.stxit
  cpu : t.cpu = s.cpu
  underEx : t.underEx = s.underEx
  amode : t.amode = s.amode
  asc : t.asc = s.asc
  pm : t.pm = s.pm
  ar : t.ar = s.ar
  mem : Memory.wf s.mem → Memory.wf t.mem
  ia : t.ia = s.ia ∨ t.ia.toNat < 2 ^ s.amode.width
  cc : k = true → t.cc = s.cc
  tod : s.tod ≤ t.tod

variable {k : Bool} {s t : State}
theorem Keeps.refl : Keeps k s s := ⟨rfl, rfl, rfl, rfl, rfl, rfl, rfl, rfl, rfl, id, .inl rfl, fun _ => rfl, BitVec.le_refl _⟩
theorem Keeps.weaken (h : Keeps true s t) : Keeps k s t := { h with cc := fun _ => h.cc rfl }
theorem Keeps.setGr (h : Keeps k s t) {r v} : Keeps k s (t.setGr r v) := { h with }
theorem Keeps.setFr (h : Keeps k s t) {r v} : Keeps k s (t.setFr r v) := { h with }
theorem Keeps.setFrs (h : Keeps k s t) {r v} : Keeps k s (t.setFrs r v) := { h with }
theorem Keeps.setPair (h : Keeps k s t) {r v} : Keeps k s (t.setPair r v) := h.setGr.setGr
theorem Keeps.draw (h : Keeps k s t) {n} : Keeps k s (t.draw n) := { h with }
theorem Keeps.takeInterrupt (h : Keeps k s t) {w} : Keeps k s (t.takeInterrupt w) := { h with }
theorem Keeps.takeIf (h : Keeps k s t) {w} : Keeps k s (t.takeIf w) := by cases w; exact h; exact h.takeInterrupt
theorem Keeps.setCc (h : Keeps false s t) {c} : Keeps false s (t.setCc c) := { h with cc := fun h => nomatch h }
theorem Keeps.codeIf (h : Keeps false s t) {b c} : Keeps false s (t.codeIf b c) := by
  unfold State.codeIf; split; exact h.setCc; exact h
theorem Keeps.codeIf' (h : Keeps k s t) {c : CondCode} : Keeps k s (t.codeIf false c) := h
theorem Keeps.setIa (h : Keeps k s t) {a} (ha : a < 2 ^ s.amode.width) : Keeps k s (t.setIa a) :=
  { h with ia := .inr (by rw [t.setIa_toNat]; exact ha; exact Nat.lt_of_lt_of_le ha (Nat.pow_le_pow_right (by omega) s.amode.width_le.2)) }
theorem Keeps.advance (h : Keeps k s t) {n} : Keeps k s (t.advance n) := h.setIa (by rw [← h.amode]; exact t.nextIa_lt _)
theorem Keeps.putBytes (h : Keeps k s t) {sp a bs} : Keeps k s (t.putBytes sp a bs) := { h with mem := fun hm => t.putBytes_wf _ _ _ (h.mem hm) }
theorem Keeps.withMem (h : Keeps k s t) {m} (hm : Memory.wf t.mem → Memory.wf m) : Keeps k s { t with mem := m } := { h with mem := fun x => hm (h.mem x) }
theorem Keeps.withControl (h : Keeps k s t) {c} : Keeps k s { t with control := c } := { h with }
theorem Keeps.withTod (h : Keeps k s t) {c} (hc : s.tod ≤ c) : Keeps k s { t with tod := c } := { h with tod := hc }
theorem Keeps.trans {u} (h : Keeps k s t) (h2 : Keeps k t u) : Keeps k s u :=
  ⟨h2.alloc.trans h.alloc, h2.accessList.trans h.accessList, h2.stxit.trans h.stxit, h2.cpu.trans h.cpu, h2.underEx.trans h.underEx,
   h2.amode.trans h.amode, h2.asc.trans h.asc, h2.pm.trans h.pm, h2.ar.trans h.ar, fun x => h2.mem (h.mem x),
   by rcases h2.ia with h2i | h2i
      · rw [h2i]; exact h.ia
      · exact .inr (h.amode ▸ h2i), fun hk => (h2.cc hk).trans (h.cc hk), BitVec.le_trans h.tod h2.tod⟩
theorem Keeps.setGrs (ws : List Word) : ∀ {t r}, Keeps k s t → Keeps k s (t.setGrs r ws) := by
  induction ws with
  | nil => intro t r h; exact h
  | cons w ws ih => intro t r h; exact ih h.setGr
theorem Keeps.storeFp (h : Keeps k s t) {p r x} : Keeps k s (t.storeFp p r x) := by
  cases p; exact h.setFrs; exact h.setFr; exact h.setFr.setFr
theorem Keeps.storeZero (h : Keeps k s t) {p r} : Keeps k s (t.storeZero p r) := by
  cases p; exact h.setFrs; exact h.setFr; exact h.setFr.setFr

/-- What holds of the next state, which there is. -/
def Runs (P : State → Prop) (o : Outcome) : Prop := ∃ t, o = .next t ∧ P t
def OkP {α} (P : α → Prop) (r : Except Interrupt α) : Prop := ∀ a, r = .ok a → P a
theorem runs_next {P : State → Prop} (h : P t) : Runs P (.next t) := ⟨t, rfl, h⟩
theorem runs_attempt {r} (h : OkP (Keeps k s) r) : Runs (Keeps k s) (s.attempt r) := by
  cases r with
  | ok t => exact ⟨t, rfl, h t rfl⟩
  | error w => exact ⟨_, rfl, Keeps.refl.takeInterrupt⟩
theorem runs_esa {r} (h : OkP (Keeps k s) r) : Runs (Keeps k s) (s.esa r) := by
  unfold State.esa; split; exact runs_attempt h; exact runs_next Keeps.refl.takeInterrupt
theorem ok_bind {α β} {P : β → Prop} (Q : α → Prop) {x : Except Interrupt α} {f : α → Except Interrupt β} (hx : OkP Q x) (h : ∀ a, Q a → OkP P (f a)) : OkP P (x >>= f) := by
  intro b hb
  cases x with
  | error w => cases hb
  | ok a => exact h a (hx a rfl) b hb
theorem ok_any {α β} {P : β → Prop} {x : Except Interrupt α} {f : α → Except Interrupt β} (h : ∀ a, OkP P (f a)) : OkP P (x >>= f) :=
  ok_bind (fun _ => True) (fun _ _ => trivial) fun a _ => h a
theorem ok_pure {α} {P : α → Prop} {a : α} (h : P a) : OkP P (pure a) := by
  intro b hb; cases hb; exact h
theorem ok_ok {α} {P : α → Prop} {a : α} (h : P a) : OkP P (.ok a) := by
  intro b hb; cases hb; exact h
theorem ok_error {α} {P : α → Prop} {w} : OkP P (.error w) := by
  intro b hb; cases hb
theorem store_keeps {b a bs} : OkP (Keeps k s) (s.store b a bs) := by
  intro t h; obtain ⟨sp, -, rfl⟩ := (s.store_ok b a bs t).1 h; exact Keeps.refl.putBytes
theorem storeOperand_keeps {x b d al bs} : OkP (Keeps k s) (s.storeOperand x b d al bs) :=
  ok_any fun _ => store_keeps
theorem mapBytes_wf (f : Byte → Byte → Byte) (k1 k2 : Nat → Nat) : ∀ n i (m : List Host.Cell) nz, Memory.wf m → Memory.wf (mapBytes f k1 k2 n i m nz).1 := by
  intro n; induction n with
  | zero => intro i m nz h; exact h
  | succ n ih => intro i m nz h; exact ih _ _ _ (Memory.wf_write _ _ _ h)
theorem mapOperands_keeps {f ks n b1 a1 b2 a2} : OkP (fun r => Keeps k s r.1) (s.mapOperands f ks n b1 a1 b2 a2) :=
  ok_any fun p => by obtain ⟨sp1, sp2⟩ := p; exact ok_pure (Keeps.refl.withMem (mapBytes_wf _ _ _ _ _ _ _))
theorem mvoBytes_wf (kd ks : Nat → Nat) (l2) : ∀ n j p (m : List Host.Cell), Memory.wf m → Memory.wf (mvoBytes kd ks l2 n j p m) := by
  intro n; induction n with
  | zero => intro i m nz h; exact h
  | succ n ih => intro i p m h; exact ih _ _ _ (Memory.wf_write _ _ _ h)
theorem packBytes_wf (kd ks : Nat → Nat) (l2) : ∀ n j (m : List Host.Cell), Memory.wf m → Memory.wf (packBytes kd ks l2 n j m) := by
  intro n; induction n with
  | zero => intro i m h; exact h
  | succ n ih => intro i m h; exact ih _ _ (Memory.wf_write _ _ _ h)
theorem unpkBytes_wf (kd ks : Nat → Nat) (l2) : ∀ n j p (m : List Host.Cell), Memory.wf m → Memory.wf (unpkBytes kd ks l2 n j p m) := by
  intro n; induction n with
  | zero => intro i p m h; exact h
  | succ n ih =>
    intro i p m h
    rw [unpkBytes]; split
    · exact ih _ _ _ (Memory.wf_write _ _ _ h)
    · exact ih _ _ _ (Memory.wf_write _ _ _ h)
theorem translate_wf (sp1 a1 sp2 a2) : ∀ n i (m : List Host.Cell), Memory.wf m → Memory.wf (s.translate sp1 a1 sp2 a2 n i m).1 := by
  intro n; induction n with
  | zero => intro i m h; exact h
  | succ n ih =>
    intro i m h
    rw [State.translate]; split
    · exact ih _ _ (Memory.wf_write _ _ _ h)
    · exact h
theorem moveLong_wf (sp1 sp2 pad) : ∀ n (m : List Host.Cell) o1 o2, Memory.wf m → Memory.wf (s.moveLong sp1 sp2 pad n m o1 o2).1 := by
  intro n; induction n with
  | zero => intro m _ _ h; exact h
  | succ n ih =>
    intro m o1 o2 h
    rw [State.moveLong]; split
    · exact h
    · split
      · exact h
      · exact ih _ _ _ (Memory.wf_write _ _ _ h)
theorem editByte_wf {f fill i} {e e' : EditState} (h : Memory.wf e.mem) (he : s.editByte f fill i e = .ok e') : Memory.wf e'.mem := by
  have hd : ∀ d plus e', s.editDigit f e = .ok (d, plus, e') → e'.mem = e.mem := by
    intro d plus e' hd
    unfold State.editDigit at hd
    split at hd
    · cases hd; rfl
    · split at hd
      · cases hd
      · split at hd
        · cases hd
        · split at hd
          · cases hd
          · dsimp only at hd
            split at hd
            · cases hd
            · split at hd <;> (cases hd; rfl)
  unfold State.editByte at he
  dsimp only at he
  split at he
  · cases he; exact Memory.wf_write _ _ _ h
  · split at he
    · split at he
      · rename_i heq
        cases he; exact Memory.wf_write _ _ _ (by rw [show (_ : EditState).mem = _ from rfl, hd _ _ _ heq]; exact h)
      · cases he
    · cases he; exact Memory.wf_write _ _ _ h
theorem editLoop_wf (f fill) : ∀ n i (e : EditState), Memory.wf e.mem → Memory.wf (s.editLoop f fill n i e).1.mem := by
  intro n; induction n with
  | zero => intro m _ h; exact h
  | succ n ih =>
    intro i e h
    rw [State.editLoop]; split
    · exact ih _ _ (editByte_wf h ‹_›)
    · exact h
theorem setMark_keeps (h : Keeps k s t) {m} : Keeps k s (t.setMark m) := by
  unfold State.setMark; split; exact h; exact h.setGr; exact h.setGr
theorem edit_keeps {l b1 d1 b2 d2} : OkP (fun r => Memory.wf s.mem → Memory.wf r.2.1.mem) (s.edit l b1 d1 b2 d2) :=
  ok_any fun _ => ok_pure fun h => editLoop_wf _ _ _ _ _ h
theorem finishFp_keeps {p r x} {c} : Keeps false s (s.finishFp p r x c).1 := by
  unfold State.finishFp; dsimp only; split
  · exact Keeps.refl.storeFp.codeIf
  · split
    · split
      · exact Keeps.refl.storeFp.codeIf
      · exact Keeps.refl.storeZero.codeIf
    · exact Keeps.refl.storeFp.codeIf
theorem finishFp_keeps' {p r x} : Keeps k s (s.finishFp p r x false).1 := by
  unfold State.finishFp; dsimp only; split
  · exact Keeps.refl.storeFp.codeIf' (c := 0)
  · split
    · split
      · exact Keeps.refl.storeFp.codeIf' (c := 0)
      · exact Keeps.refl.storeZero.codeIf' (c := 0)
    · exact Keeps.refl.storeFp.codeIf' (c := 0)
theorem fpDone_keeps {res : State × Option Interrupt} {n} (h : Keeps k s res.1) : Keeps k s (State.fpDone res n) := h.advance.takeIf
theorem addFp_keeps {p r x y a b} : Keeps false s (s.addFp p r x y a b).1 := by
  unfold State.addFp; dsimp only; split
  · split
    · exact Keeps.refl.storeFp.setCc
    · exact Keeps.refl.storeZero.setCc
  · exact finishFp_keeps
theorem mulFp_keeps {p q r x y} : Keeps k s (s.mulFp p q r x y).1 := by
  unfold State.mulFp; split; exact Keeps.refl.storeZero; exact finishFp_keeps'
theorem halveFp_keeps {p r x} : Keeps k s (s.halveFp p r x).1 := by
  unfold State.halveFp; split; exact Keeps.refl.storeZero; exact finishFp_keeps'
theorem divFp_keeps {p r x y} : OkP (fun res => Keeps k s res.1) (s.divFp p r x y) := by
  unfold State.divFp; split; exact ok_error; split; exact ok_ok Keeps.refl.storeZero; exact ok_ok finishFp_keeps'
theorem loadShort_keeps {r1 r2 f c} : OkP (Keeps false s) (s.loadShort r1 r2 f c) := ok_any fun _ => ok_any fun _ => ok_pure Keeps.refl.setFrs.codeIf.advance
theorem loadLong_keeps {r1 r2 f c} : OkP (Keeps false s) (s.loadLong r1 r2 f c) := ok_any fun _ => ok_any fun _ => ok_pure Keeps.refl.setFr.codeIf.advance
theorem loadShort_keeps' {r1 r2 f} : OkP (Keeps k s) (s.loadShort r1 r2 f fun _ => none) := ok_any fun _ => ok_any fun _ => ok_pure Keeps.refl.setFrs.codeIf'.advance
theorem loadLong_keeps' {r1 r2 f} : OkP (Keeps k s) (s.loadLong r1 r2 f fun _ => none) := ok_any fun _ => ok_any fun _ => ok_pure Keeps.refl.setFr.codeIf'.advance
theorem Keeps.branch (h : Keeps k s t) {b a n} (ha : a < 2 ^ s.amode.width) : Keeps k s (t.branch b a n) := by
  unfold State.branch; split; exact h.setIa ha; exact h.advance
theorem Keeps.arith (h : Keeps false s t) {r v n} : Keeps false s (t.arith r v n) := h.setGr.setCc.advance.takeIf
theorem divide_keeps {r w n} : OkP (Keeps k s) (s.divide r w n) := by
  unfold State.divide; dsimp only; split; exact ok_error; exact ok_ok Keeps.refl.setGr.setGr.advance
theorem setLongs_keeps (h : Keeps k s t) {a b c d} : Keeps k s (t.setLongs a b c d) := h.setGr.setGr.setGr.setGr
theorem storeDecimal_keeps {sp a n v} : Keeps false s (s.storeDecimal sp a n v) := Keeps.refl.putBytes.setCc.advance.takeIf


theorem logicByte_keeps {b1 d1 f} : OkP (Keeps false s) (s.logicByte b1 d1 f) := ok_any fun _ => ok_pure Keeps.refl.putBytes.setCc.advance
theorem logicBytes_keeps {l b1 d1 b2 d2 f} : OkP (Keeps false s) (s.logicBytes f l b1 d1 b2 d2) :=
  ok_bind _ mapOperands_keeps fun _ h => ok_pure h.setCc.advance
theorem Keeps.logicReg {r v n} : Keeps false s (s.logicReg r v n) := Keeps.refl.setGr.setCc.advance
theorem Keeps.loadSigned {r v o n} : Keeps false s (s.loadSigned r v o n) := Keeps.refl.setGr.setCc.advance.takeIf
theorem Keeps.multiply {r v n} : Keeps k s (s.multiply r v n) := Keeps.refl.setPair.advance
theorem Keeps.logical {r v n} : Keeps false s (s.logical r v n) := Keeps.refl.setGr.setCc.advance
theorem Keeps.compare {r v n} : Keeps false s (s.compare r v n) := Keeps.refl.setCc.advance
theorem Keeps.compareFp {r v} : Keeps false s (s.compareFp r v) := Keeps.refl.setCc
theorem Keeps.storeRounded {p r v} : Keeps k s (s.storeRounded p r v).1 := Keeps.refl.storeFp
theorem moveRight_keeps {f k1 l1 l2 b1 d1 b2 d2} (hf : ∀ kd ks a b m, Memory.wf m → Memory.wf (f kd ks a b m)) : OkP (Keeps k s) (s.moveRight f k1 l1 l2 b1 d1 b2 d2) :=
  ok_any fun _ => ok_pure (Keeps.refl.withMem (hf _ _ _ _ _)).advance

theorem ok_ite {α} {P : α → Prop} {c : Prop} [Decidable c] {x y : Except Interrupt α} (h1 : OkP P x) (h2 : OkP P y) : OkP P (if c then x else y) := by
  split; exact h1; exact h2
theorem runs_ite {P : State → Prop} {c : Prop} [Decidable c] {x y : Outcome} (h1 : Runs P x) (h2 : Runs P y) : Runs P (if c then x else y) := by
  split; exact h1; exact h2
theorem runs_interrupt {w} : Runs (Keeps k s) (.next (s.takeInterrupt w)) := runs_next Keeps.refl.takeInterrupt
theorem clcl_keeps {r1 r2} : Runs (Keeps false s) (execClcl r1 r2 s) := by
  refine runs_ite ?_ runs_interrupt
  dsimp only
  split
  · exact runs_next (setLongs_keeps Keeps.refl).setCc.advance
  · exact runs_next Keeps.refl.setGr.setGr.setGr.setGr.setCc.draw.takeInterrupt
theorem mvcl_keeps {r1 r2} : Runs (Keeps false s) (execMvcl r1 r2 s) := by
  refine runs_ite (runs_ite (runs_next Keeps.refl.setCc.advance) ?_) runs_interrupt
  exact runs_ite (runs_next ((setLongs_keeps Keeps.refl).withMem (moveLong_wf _ _ _ _ _ _ _)).setCc.advance)
    (runs_next ((setLongs_keeps Keeps.refl).withMem (moveLong_wf _ _ _ _ _ _ _)).takeInterrupt)
theorem execBalr_keeps {r1 r2} : Runs (Keeps true s) (execBalr r1 r2 s) :=
  runs_next (Keeps.refl.setGr.branch (s.trunc_lt _))
theorem execBctr_keeps {r1 r2} : Runs (Keeps true s) (execBctr r1 r2 s) :=
  runs_next (Keeps.refl.setGr.branch (s.trunc_lt _))
theorem execBcr_keeps {m1 r2} : Runs (Keeps true s) (execBcr m1 r2 s) :=
  runs_next (Keeps.refl.branch (s.trunc_lt _))
theorem execSvc_keeps {imm} : Runs (Keeps true s) (execSvc imm s) :=
  runs_next Keeps.refl.advance.withControl
theorem execBasr_keeps {r1 r2} : Runs (Keeps true s) (execBasr r1 r2 s) :=
  runs_next (Keeps.refl.setGr.branch (s.trunc_lt _))
theorem execMvcl_keeps {r1 r2} : Runs (Keeps false s) (execMvcl r1 r2 s) :=
  mvcl_keeps
theorem execClcl_keeps {r1 r2} : Runs (Keeps false s) (execClcl r1 r2 s) :=
  clcl_keeps
theorem execLpr_keeps {r1 r2} : Runs (Keeps false s) (execLpr r1 r2 s) :=
  runs_next Keeps.loadSigned
theorem execLnr_keeps {r1 r2} : Runs (Keeps false s) (execLnr r1 r2 s) :=
  runs_next Keeps.refl.setGr.setCc.advance
theorem execLtr_keeps {r1 r2} : Runs (Keeps false s) (execLtr r1 r2 s) :=
  runs_next Keeps.refl.setGr.setCc.advance
theorem execLcr_keeps {r1 r2} : Runs (Keeps false s) (execLcr r1 r2 s) :=
  runs_next Keeps.loadSigned
theorem execNr_keeps {r1 r2} : Runs (Keeps false s) (execNr r1 r2 s) :=
  runs_next Keeps.logicReg
theorem execClr_keeps {r1 r2} : Runs (Keeps false s) (execClr r1 r2 s) :=
  runs_next Keeps.compare
theorem execOr_keeps {r1 r2} : Runs (Keeps false s) (execOr r1 r2 s) :=
  runs_next Keeps.logicReg
theorem execXr_keeps {r1 r2} : Runs (Keeps false s) (execXr r1 r2 s) :=
  runs_next Keeps.logicReg
theorem execLr_keeps {r1 r2} : Runs (Keeps true s) (execLr r1 r2 s) :=
  runs_next Keeps.refl.setGr.advance
theorem execCr_keeps {r1 r2} : Runs (Keeps false s) (execCr r1 r2 s) :=
  runs_next Keeps.compare
theorem execAr_keeps {r1 r2} : Runs (Keeps false s) (execAr r1 r2 s) :=
  runs_next Keeps.refl.arith
theorem execSr_keeps {r1 r2} : Runs (Keeps false s) (execSr r1 r2 s) :=
  runs_next Keeps.refl.arith
theorem execMr_keeps {r1 r2} : Runs (Keeps true s) (execMr r1 r2 s) :=
  runs_attempt (ok_any fun _ => ok_pure Keeps.multiply)
theorem execDr_keeps {r1 r2} : Runs (Keeps true s) (execDr r1 r2 s) :=
  runs_attempt (ok_any fun _ => ok_ite ok_error divide_keeps)
theorem execAlr_keeps {r1 r2} : Runs (Keeps false s) (execAlr r1 r2 s) :=
  runs_next Keeps.logical
theorem execSlr_keeps {r1 r2} : Runs (Keeps false s) (execSlr r1 r2 s) :=
  runs_next Keeps.logical
theorem execLpdr_keeps {r1 r2} : Runs (Keeps false s) (execLpdr r1 r2 s) :=
  runs_attempt loadLong_keeps
theorem execLndr_keeps {r1 r2} : Runs (Keeps false s) (execLndr r1 r2 s) :=
  runs_attempt loadLong_keeps
theorem execLtdr_keeps {r1 r2} : Runs (Keeps false s) (execLtdr r1 r2 s) :=
  runs_attempt loadLong_keeps
theorem execLcdr_keeps {r1 r2} : Runs (Keeps false s) (execLcdr r1 r2 s) :=
  runs_attempt loadLong_keeps
theorem execHdr_keeps {r1 r2} : Runs (Keeps true s) (execHdr r1 r2 s) :=
  runs_attempt (ok_any fun _ => ok_any fun _ => ok_pure (fpDone_keeps halveFp_keeps))
theorem execLrdr_keeps {r1 r2} : Runs (Keeps true s) (execLrdr r1 r2 s) :=
  runs_attempt (ok_any fun _ => ok_any fun _ => ok_pure (fpDone_keeps Keeps.storeRounded))
theorem execMxr_keeps {r1 r2} : Runs (Keeps true s) (execMxr r1 r2 s) :=
  runs_attempt (ok_any fun _ => ok_any fun _ => ok_pure (fpDone_keeps mulFp_keeps))
theorem execMxdr_keeps {r1 r2} : Runs (Keeps true s) (execMxdr r1 r2 s) :=
  runs_attempt (ok_any fun _ => ok_any fun _ => ok_pure (fpDone_keeps mulFp_keeps))
theorem execLdr_keeps {r1 r2} : Runs (Keeps true s) (execLdr r1 r2 s) :=
  runs_attempt loadLong_keeps'
theorem execCdr_keeps {r1 r2} : Runs (Keeps false s) (execCdr r1 r2 s) :=
  runs_attempt (ok_any fun _ => ok_any fun _ => ok_pure (fpDone_keeps Keeps.compareFp))
theorem execAdr_keeps {r1 r2} : Runs (Keeps false s) (execAdr r1 r2 s) :=
  runs_attempt (ok_any fun _ => ok_any fun _ => ok_pure (fpDone_keeps addFp_keeps))
theorem execSdr_keeps {r1 r2} : Runs (Keeps false s) (execSdr r1 r2 s) :=
  runs_attempt (ok_any fun _ => ok_any fun _ => ok_pure (fpDone_keeps addFp_keeps))
theorem execMdr_keeps {r1 r2} : Runs (Keeps true s) (execMdr r1 r2 s) :=
  runs_attempt (ok_any fun _ => ok_any fun _ => ok_pure (fpDone_keeps mulFp_keeps))
theorem execDdr_keeps {r1 r2} : Runs (Keeps true s) (execDdr r1 r2 s) :=
  runs_attempt (ok_any fun _ => ok_any fun _ => ok_bind _ divFp_keeps fun _ h => ok_pure (fpDone_keeps h))
theorem execAwr_keeps {r1 r2} : Runs (Keeps false s) (execAwr r1 r2 s) :=
  runs_attempt (ok_any fun _ => ok_any fun _ => ok_pure (fpDone_keeps addFp_keeps))
theorem execSwr_keeps {r1 r2} : Runs (Keeps false s) (execSwr r1 r2 s) :=
  runs_attempt (ok_any fun _ => ok_any fun _ => ok_pure (fpDone_keeps addFp_keeps))
theorem execLper_keeps {r1 r2} : Runs (Keeps false s) (execLper r1 r2 s) :=
  runs_attempt loadShort_keeps
theorem execLner_keeps {r1 r2} : Runs (Keeps false s) (execLner r1 r2 s) :=
  runs_attempt loadShort_keeps
theorem execLter_keeps {r1 r2} : Runs (Keeps false s) (execLter r1 r2 s) :=
  runs_attempt loadShort_keeps
theorem execLcer_keeps {r1 r2} : Runs (Keeps false s) (execLcer r1 r2 s) :=
  runs_attempt loadShort_keeps
theorem execHer_keeps {r1 r2} : Runs (Keeps true s) (execHer r1 r2 s) :=
  runs_attempt (ok_any fun _ => ok_any fun _ => ok_pure (fpDone_keeps halveFp_keeps))
theorem execLrer_keeps {r1 r2} : Runs (Keeps true s) (execLrer r1 r2 s) :=
  runs_attempt (ok_any fun _ => ok_any fun _ => ok_pure (fpDone_keeps Keeps.storeRounded))
theorem execAxr_keeps {r1 r2} : Runs (Keeps false s) (execAxr r1 r2 s) :=
  runs_attempt (ok_any fun _ => ok_any fun _ => ok_pure (fpDone_keeps addFp_keeps))
theorem execSxr_keeps {r1 r2} : Runs (Keeps false s) (execSxr r1 r2 s) :=
  runs_attempt (ok_any fun _ => ok_any fun _ => ok_pure (fpDone_keeps addFp_keeps))
theorem execLer_keeps {r1 r2} : Runs (Keeps true s) (execLer r1 r2 s) :=
  runs_attempt loadShort_keeps'
theorem execCer_keeps {r1 r2} : Runs (Keeps false s) (execCer r1 r2 s) :=
  runs_attempt (ok_any fun _ => ok_any fun _ => ok_pure (fpDone_keeps Keeps.compareFp))
theorem execAer_keeps {r1 r2} : Runs (Keeps false s) (execAer r1 r2 s) :=
  runs_attempt (ok_any fun _ => ok_any fun _ => ok_pure (fpDone_keeps addFp_keeps))
theorem execSer_keeps {r1 r2} : Runs (Keeps false s) (execSer r1 r2 s) :=
  runs_attempt (ok_any fun _ => ok_any fun _ => ok_pure (fpDone_keeps addFp_keeps))
theorem execMer_keeps {r1 r2} : Runs (Keeps true s) (execMer r1 r2 s) :=
  runs_attempt (ok_any fun _ => ok_any fun _ => ok_pure (fpDone_keeps mulFp_keeps))
theorem execDer_keeps {r1 r2} : Runs (Keeps true s) (execDer r1 r2 s) :=
  runs_attempt (ok_any fun _ => ok_any fun _ => ok_bind _ divFp_keeps fun _ h => ok_pure (fpDone_keeps h))
theorem execAur_keeps {r1 r2} : Runs (Keeps false s) (execAur r1 r2 s) :=
  runs_attempt (ok_any fun _ => ok_any fun _ => ok_pure (fpDone_keeps addFp_keeps))
theorem execSur_keeps {r1 r2} : Runs (Keeps false s) (execSur r1 r2 s) :=
  runs_attempt (ok_any fun _ => ok_any fun _ => ok_pure (fpDone_keeps addFp_keeps))
theorem execSth_keeps {r1 x2 b2 d2} : Runs (Keeps true s) (execSth r1 x2 b2 d2 s) :=
  runs_attempt (ok_bind _ storeOperand_keeps fun _ h => ok_pure h.advance)
theorem execLa_keeps {r1 x2 b2 d2} : Runs (Keeps true s) (execLa r1 x2 b2 d2 s) :=
  runs_next Keeps.refl.setGr.advance
theorem execStc_keeps {r1 x2 b2 d2} : Runs (Keeps true s) (execStc r1 x2 b2 d2 s) :=
  runs_attempt (ok_bind _ storeOperand_keeps fun _ h => ok_pure h.advance)
theorem execIc_keeps {r1 x2 b2 d2} : Runs (Keeps true s) (execIc r1 x2 b2 d2 s) :=
  runs_attempt (ok_any fun _ => ok_pure Keeps.refl.setGr.advance)
theorem execBal_keeps {r1 x2 b2 d2} : Runs (Keeps true s) (execBal r1 x2 b2 d2 s) :=
  runs_next (Keeps.refl.setGr.setIa (s.trunc_lt _))
theorem execBct_keeps {r1 x2 b2 d2} : Runs (Keeps true s) (execBct r1 x2 b2 d2 s) :=
  runs_next (Keeps.refl.setGr.branch (s.trunc_lt _))
theorem execBc_keeps {m1 x2 b2 d2} : Runs (Keeps true s) (execBc m1 x2 b2 d2 s) :=
  runs_next (Keeps.refl.branch (s.trunc_lt _))
theorem execLh_keeps {r1 x2 b2 d2} : Runs (Keeps true s) (execLh r1 x2 b2 d2 s) :=
  runs_attempt (ok_any fun _ => ok_pure Keeps.refl.setGr.advance)
theorem execCh_keeps {r1 x2 b2 d2} : Runs (Keeps false s) (execCh r1 x2 b2 d2 s) :=
  runs_attempt (ok_any fun _ => ok_pure Keeps.compare)
theorem execAh_keeps {r1 x2 b2 d2} : Runs (Keeps false s) (execAh r1 x2 b2 d2 s) :=
  runs_attempt (ok_any fun _ => ok_pure Keeps.refl.arith)
theorem execSh_keeps {r1 x2 b2 d2} : Runs (Keeps false s) (execSh r1 x2 b2 d2 s) :=
  runs_attempt (ok_any fun _ => ok_pure Keeps.refl.arith)
theorem execMh_keeps {r1 x2 b2 d2} : Runs (Keeps true s) (execMh r1 x2 b2 d2 s) :=
  runs_attempt (ok_any fun _ => ok_pure Keeps.refl.setGr.advance)
theorem execBas_keeps {r1 x2 b2 d2} : Runs (Keeps true s) (execBas r1 x2 b2 d2 s) :=
  runs_next (Keeps.refl.setGr.setIa (s.trunc_lt _))
theorem execCvd_keeps {r1 x2 b2 d2} : Runs (Keeps true s) (execCvd r1 x2 b2 d2 s) :=
  runs_attempt (ok_bind _ storeOperand_keeps fun _ h => ok_pure h.advance)
theorem execCvb_keeps {r1 x2 b2 d2} : Runs (Keeps true s) (execCvb r1 x2 b2 d2 s) :=
  runs_attempt (ok_any fun _ => ok_any fun _ => ok_ite (ok_pure Keeps.refl.setGr.advance.takeIf) ok_error)
theorem execSt_keeps {r1 x2 b2 d2} : Runs (Keeps true s) (execSt r1 x2 b2 d2 s) :=
  runs_attempt (ok_bind _ storeOperand_keeps fun _ h => ok_pure h.advance)
theorem execN_keeps {r1 x2 b2 d2} : Runs (Keeps false s) (execN r1 x2 b2 d2 s) :=
  runs_attempt (ok_any fun _ => ok_pure Keeps.logicReg)
theorem execCl_keeps {r1 x2 b2 d2} : Runs (Keeps false s) (execCl r1 x2 b2 d2 s) :=
  runs_attempt (ok_any fun _ => ok_pure Keeps.compare)
theorem execO_keeps {r1 x2 b2 d2} : Runs (Keeps false s) (execO r1 x2 b2 d2 s) :=
  runs_attempt (ok_any fun _ => ok_pure Keeps.logicReg)
theorem execX_keeps {r1 x2 b2 d2} : Runs (Keeps false s) (execX r1 x2 b2 d2 s) :=
  runs_attempt (ok_any fun _ => ok_pure Keeps.logicReg)
theorem execL_keeps {r1 x2 b2 d2} : Runs (Keeps true s) (execL r1 x2 b2 d2 s) :=
  runs_attempt (ok_any fun _ => ok_pure Keeps.refl.setGr.advance)
theorem execC_keeps {r1 x2 b2 d2} : Runs (Keeps false s) (execC r1 x2 b2 d2 s) :=
  runs_attempt (ok_any fun _ => ok_pure Keeps.compare)
theorem execA_keeps {r1 x2 b2 d2} : Runs (Keeps false s) (execA r1 x2 b2 d2 s) :=
  runs_attempt (ok_any fun _ => ok_pure Keeps.refl.arith)
theorem execS_keeps {r1 x2 b2 d2} : Runs (Keeps false s) (execS r1 x2 b2 d2 s) :=
  runs_attempt (ok_any fun _ => ok_pure Keeps.refl.arith)
theorem execM_keeps {r1 x2 b2 d2} : Runs (Keeps true s) (execM r1 x2 b2 d2 s) :=
  runs_attempt (ok_any fun _ => ok_any fun _ => ok_pure Keeps.multiply)
theorem execD_keeps {r1 x2 b2 d2} : Runs (Keeps true s) (execD r1 x2 b2 d2 s) :=
  runs_attempt (ok_any fun _ => ok_any fun _ => divide_keeps)
theorem execAl_keeps {r1 x2 b2 d2} : Runs (Keeps false s) (execAl r1 x2 b2 d2 s) :=
  runs_attempt (ok_any fun _ => ok_pure Keeps.logical)
theorem execSl_keeps {r1 x2 b2 d2} : Runs (Keeps false s) (execSl r1 x2 b2 d2 s) :=
  runs_attempt (ok_any fun _ => ok_pure Keeps.logical)
theorem execStd_keeps {r1 x2 b2 d2} : Runs (Keeps true s) (execStd r1 x2 b2 d2 s) :=
  runs_attempt (ok_any fun _ => ok_bind _ storeOperand_keeps fun _ h => ok_pure h.advance)
theorem execMxd_keeps {r1 x2 b2 d2} : Runs (Keeps true s) (execMxd r1 x2 b2 d2 s) :=
  runs_attempt (ok_any fun _ => ok_any fun _ => ok_pure (fpDone_keeps mulFp_keeps))
theorem execLd_keeps {r1 x2 b2 d2} : Runs (Keeps true s) (execLd r1 x2 b2 d2 s) :=
  runs_attempt (ok_any fun _ => ok_any fun _ => ok_pure Keeps.refl.setFr.advance)
theorem execCd_keeps {r1 x2 b2 d2} : Runs (Keeps false s) (execCd r1 x2 b2 d2 s) :=
  runs_attempt (ok_any fun _ => ok_any fun _ => ok_pure (fpDone_keeps Keeps.compareFp))
theorem execAd_keeps {r1 x2 b2 d2} : Runs (Keeps false s) (execAd r1 x2 b2 d2 s) :=
  runs_attempt (ok_any fun _ => ok_any fun _ => ok_pure (fpDone_keeps addFp_keeps))
theorem execSd_keeps {r1 x2 b2 d2} : Runs (Keeps false s) (execSd r1 x2 b2 d2 s) :=
  runs_attempt (ok_any fun _ => ok_any fun _ => ok_pure (fpDone_keeps addFp_keeps))
theorem execMd_keeps {r1 x2 b2 d2} : Runs (Keeps true s) (execMd r1 x2 b2 d2 s) :=
  runs_attempt (ok_any fun _ => ok_any fun _ => ok_pure (fpDone_keeps mulFp_keeps))
theorem execDd_keeps {r1 x2 b2 d2} : Runs (Keeps true s) (execDd r1 x2 b2 d2 s) :=
  runs_attempt (ok_any fun _ => ok_any fun _ => ok_bind _ divFp_keeps fun _ h => ok_pure (fpDone_keeps h))
theorem execAw_keeps {r1 x2 b2 d2} : Runs (Keeps false s) (execAw r1 x2 b2 d2 s) :=
  runs_attempt (ok_any fun _ => ok_any fun _ => ok_pure (fpDone_keeps addFp_keeps))
theorem execSw_keeps {r1 x2 b2 d2} : Runs (Keeps false s) (execSw r1 x2 b2 d2 s) :=
  runs_attempt (ok_any fun _ => ok_any fun _ => ok_pure (fpDone_keeps addFp_keeps))
theorem execSte_keeps {r1 x2 b2 d2} : Runs (Keeps true s) (execSte r1 x2 b2 d2 s) :=
  runs_attempt (ok_any fun _ => ok_bind _ storeOperand_keeps fun _ h => ok_pure h.advance)
theorem execLe_keeps {r1 x2 b2 d2} : Runs (Keeps true s) (execLe r1 x2 b2 d2 s) :=
  runs_attempt (ok_any fun _ => ok_any fun _ => ok_pure Keeps.refl.setFrs.advance)
theorem execCe_keeps {r1 x2 b2 d2} : Runs (Keeps false s) (execCe r1 x2 b2 d2 s) :=
  runs_attempt (ok_any fun _ => ok_any fun _ => ok_pure (fpDone_keeps Keeps.compareFp))
theorem execAe_keeps {r1 x2 b2 d2} : Runs (Keeps false s) (execAe r1 x2 b2 d2 s) :=
  runs_attempt (ok_any fun _ => ok_any fun _ => ok_pure (fpDone_keeps addFp_keeps))
theorem execSe_keeps {r1 x2 b2 d2} : Runs (Keeps false s) (execSe r1 x2 b2 d2 s) :=
  runs_attempt (ok_any fun _ => ok_any fun _ => ok_pure (fpDone_keeps addFp_keeps))
theorem execMe_keeps {r1 x2 b2 d2} : Runs (Keeps true s) (execMe r1 x2 b2 d2 s) :=
  runs_attempt (ok_any fun _ => ok_any fun _ => ok_pure (fpDone_keeps mulFp_keeps))
theorem execDe_keeps {r1 x2 b2 d2} : Runs (Keeps true s) (execDe r1 x2 b2 d2 s) :=
  runs_attempt (ok_any fun _ => ok_any fun _ => ok_bind _ divFp_keeps fun _ h => ok_pure (fpDone_keeps h))
theorem execAu_keeps {r1 x2 b2 d2} : Runs (Keeps false s) (execAu r1 x2 b2 d2 s) :=
  runs_attempt (ok_any fun _ => ok_any fun _ => ok_pure (fpDone_keeps addFp_keeps))
theorem execSu_keeps {r1 x2 b2 d2} : Runs (Keeps false s) (execSu r1 x2 b2 d2 s) :=
  runs_attempt (ok_any fun _ => ok_any fun _ => ok_pure (fpDone_keeps addFp_keeps))
theorem execBxh_keeps {r1 r3 b2 d2} : Runs (Keeps true s) (execBxh r1 r3 b2 d2 s) :=
  runs_next (Keeps.refl.setGr.branch (s.trunc_lt _))
theorem execBxle_keeps {r1 r3 b2 d2} : Runs (Keeps true s) (execBxle r1 r3 b2 d2 s) :=
  runs_next (Keeps.refl.setGr.branch (s.trunc_lt _))
theorem execSrl_keeps {r1 b2 d2} : Runs (Keeps true s) (execSrl r1 b2 d2 s) :=
  runs_next Keeps.refl.setGr.advance
theorem execSll_keeps {r1 b2 d2} : Runs (Keeps true s) (execSll r1 b2 d2 s) :=
  runs_next Keeps.refl.setGr.advance
theorem execSra_keeps {r1 b2 d2} : Runs (Keeps false s) (execSra r1 b2 d2 s) :=
  runs_next Keeps.refl.setGr.setCc.advance
theorem execSla_keeps {r1 b2 d2} : Runs (Keeps false s) (execSla r1 b2 d2 s) :=
  runs_next Keeps.refl.setGr.setCc.advance.takeIf
theorem execSrdl_keeps {r1 b2 d2} : Runs (Keeps true s) (execSrdl r1 b2 d2 s) :=
  runs_ite (runs_next Keeps.refl.setPair.advance) runs_interrupt
theorem execSldl_keeps {r1 b2 d2} : Runs (Keeps true s) (execSldl r1 b2 d2 s) :=
  runs_ite (runs_next Keeps.refl.setPair.advance) runs_interrupt
theorem execSrda_keeps {r1 b2 d2} : Runs (Keeps false s) (execSrda r1 b2 d2 s) :=
  runs_ite (runs_next Keeps.refl.setPair.setCc.advance) runs_interrupt
theorem execSlda_keeps {r1 b2 d2} : Runs (Keeps false s) (execSlda r1 b2 d2 s) :=
  runs_ite (runs_next Keeps.refl.setPair.setCc.advance.takeIf) runs_interrupt
theorem execStm_keeps {r1 r3 b2 d2} : Runs (Keeps true s) (execStm r1 r3 b2 d2 s) :=
  runs_attempt (ok_bind _ storeOperand_keeps fun _ h => ok_pure h.advance)
theorem execTm_keeps {b1 d1 i2} : Runs (Keeps false s) (execTm b1 d1 i2 s) :=
  runs_attempt (ok_any fun _ => ok_pure Keeps.refl.setCc.advance)
theorem execMvi_keeps {b1 d1 i2} : Runs (Keeps true s) (execMvi b1 d1 i2 s) :=
  runs_attempt (ok_bind _ storeOperand_keeps fun _ h => ok_pure h.advance)
theorem execTs_keeps {b2 d2} : Runs (Keeps false s) (execTs b2 d2 s) :=
  runs_attempt (ok_any fun _ => ok_pure Keeps.refl.putBytes.setCc.advance)
theorem execNi_keeps {b1 d1 i2} : Runs (Keeps false s) (execNi b1 d1 i2 s) :=
  runs_attempt logicByte_keeps
theorem execCli_keeps {b1 d1 i2} : Runs (Keeps false s) (execCli b1 d1 i2 s) :=
  runs_attempt (ok_any fun _ => ok_pure Keeps.refl.setCc.advance)
theorem execOi_keeps {b1 d1 i2} : Runs (Keeps false s) (execOi b1 d1 i2 s) :=
  runs_attempt logicByte_keeps
theorem execXi_keeps {b1 d1 i2} : Runs (Keeps false s) (execXi b1 d1 i2 s) :=
  runs_attempt logicByte_keeps
theorem execLm_keeps {r1 r3 b2 d2} : Runs (Keeps true s) (execLm r1 r3 b2 d2 s) :=
  runs_attempt (ok_any fun _ => ok_any fun _ => ok_pure (Keeps.refl.setGrs _).advance)
theorem execStam_keeps {r1 r3 b2 d2} : Runs (Keeps true s) (execStam r1 r3 b2 d2 s) :=
  runs_esa (ok_any fun _ => ok_bind _ store_keeps fun _ h => ok_pure h.advance)
theorem execMc_keeps {b1 d1 i2} : Runs (Keeps true s) (execMc b1 d1 i2 s) :=
  runs_ite runs_interrupt (runs_next Keeps.refl.advance)
theorem execStck_keeps {b2 d2} : Runs (Keeps false s) (execStck b2 d2 s) :=
  runs_attempt (ok_bind _ storeOperand_keeps fun _ h => ok_pure (h.withTod s.readClock_ge).draw.setCc.advance)
theorem execIpm_keeps {r1} : Runs (Keeps true s) (execIpm r1 s) :=
  runs_next Keeps.refl.setGr.advance
theorem execIac_keeps {r1} : Runs (Keeps false s) (execIac r1 s) :=
  runs_esa (ok_ok Keeps.refl.setGr.setCc.advance)
theorem execDxr_keeps {r1 r2} : Runs (Keeps true s) (execDxr r1 r2 s) :=
  runs_attempt (ok_ite (ok_any fun _ => ok_any fun _ => ok_bind _ divFp_keeps fun _ h => ok_pure (fpDone_keeps h)) ok_error)
theorem execTar_keeps {r1 r2} : Runs (Keeps false s) (execTar r1 r2 s) :=
  runs_ite (runs_next Keeps.refl.setCc.advance) runs_interrupt
theorem execEar_keeps {r1 r2} : Runs (Keeps true s) (execEar r1 r2 s) :=
  runs_esa (ok_ok Keeps.refl.setGr.advance)
theorem execCs_keeps {r1 r3 b2 d2} : Runs (Keeps false s) (execCs r1 r3 b2 d2 s) :=
  runs_attempt (ok_any fun _ => ok_any fun _ => ok_ite (ok_pure Keeps.refl.putBytes.setCc.advance) (ok_pure Keeps.refl.setGr.setCc.advance))
theorem execCds_keeps {r1 r3 b2 d2} : Runs (Keeps false s) (execCds r1 r3 b2 d2 s) :=
  runs_attempt (ok_ite (ok_any fun _ => ok_any fun _ => ok_ite (ok_pure Keeps.refl.putBytes.setCc.advance) (ok_pure Keeps.refl.setPair.setCc.advance)) ok_error)
theorem execClm_keeps {r1 m3 b2 d2} : Runs (Keeps false s) (execClm r1 m3 b2 d2 s) :=
  runs_attempt (ok_any fun _ => ok_pure Keeps.refl.setCc.advance)
theorem execStcm_keeps {r1 m3 b2 d2} : Runs (Keeps true s) (execStcm r1 m3 b2 d2 s) :=
  runs_attempt (ok_ite (ok_pure Keeps.refl.advance) (ok_bind _ store_keeps fun _ h => ok_pure h.advance))
theorem execIcm_keeps {r1 m3 b2 d2} : Runs (Keeps false s) (execIcm r1 m3 b2 d2 s) :=
  runs_attempt (ok_any fun _ => ok_any fun _ => ok_pure Keeps.refl.setGr.setCc.advance)
theorem execMvn_keeps {l b1 d1 b2 d2} : Runs (Keeps true s) (execMvn l b1 d1 b2 d2 s) :=
  runs_attempt (ok_bind _ mapOperands_keeps fun _ h => ok_pure h.advance)
theorem execMvc_keeps {l b1 d1 b2 d2} : Runs (Keeps true s) (execMvc l b1 d1 b2 d2 s) :=
  runs_attempt (ok_bind _ mapOperands_keeps fun _ h => ok_pure h.advance)
theorem execMvz_keeps {l b1 d1 b2 d2} : Runs (Keeps true s) (execMvz l b1 d1 b2 d2 s) :=
  runs_attempt (ok_bind _ mapOperands_keeps fun _ h => ok_pure h.advance)
theorem execNc_keeps {l b1 d1 b2 d2} : Runs (Keeps false s) (execNc l b1 d1 b2 d2 s) :=
  runs_attempt logicBytes_keeps
theorem execClc_keeps {l b1 d1 b2 d2} : Runs (Keeps false s) (execClc l b1 d1 b2 d2 s) :=
  runs_attempt (ok_any fun _ => ok_pure Keeps.refl.setCc.advance)
theorem execOc_keeps {l b1 d1 b2 d2} : Runs (Keeps false s) (execOc l b1 d1 b2 d2 s) :=
  runs_attempt logicBytes_keeps
theorem execXc_keeps {l b1 d1 b2 d2} : Runs (Keeps false s) (execXc l b1 d1 b2 d2 s) :=
  runs_attempt logicBytes_keeps
theorem execTr_keeps {l b1 d1 b2 d2} : Runs (Keeps true s) (execTr l b1 d1 b2 d2 s) :=
  runs_attempt (ok_any fun _ => ok_ite (ok_pure (Keeps.refl.withMem (translate_wf _ _ _ _ _ _ _)).advance) (ok_pure (Keeps.refl.withMem (translate_wf _ _ _ _ _ _ _)).takeInterrupt))
theorem execTrt_keeps {l b1 d1 b2 d2} : Runs (Keeps false s) (execTrt l b1 d1 b2 d2 s) :=
  runs_attempt (ok_any fun r => by rcases r with _ | ⟨i, f⟩; exact ok_pure Keeps.refl.setCc.advance; exact ok_pure Keeps.refl.setGr.setGr.setCc.advance)
theorem execEd_keeps {l b1 d1 b2 d2} : Runs (Keeps false s) (execEd l b1 d1 b2 d2 s) :=
  runs_attempt (ok_bind _ edit_keeps fun r h => by rcases r with ⟨f, e, _ | _ | w⟩; exact ok_pure (Keeps.refl.withMem h).setCc.advance; exact ok_pure Keeps.refl.putBytes.setCc.draw.advance; exact ok_pure (Keeps.refl.withMem h).takeInterrupt)
theorem execEdmk_keeps {l b1 d1 b2 d2} : Runs (Keeps false s) (execEdmk l b1 d1 b2 d2 s) :=
  runs_attempt (ok_bind _ edit_keeps fun r h => by rcases r with ⟨f, e, _ | _ | w⟩; exact ok_pure (setMark_keeps (Keeps.refl.withMem h)).setCc.advance; exact ok_pure Keeps.refl.putBytes.setCc.draw.setGr.draw.advance; exact ok_pure (setMark_keeps (Keeps.refl.withMem h)).takeInterrupt)
theorem execSrp_keeps {l1 i3 b1 d1 b2 d2} : Runs (Keeps false s) (execSrp l1 i3 b1 d1 b2 d2 s) :=
  runs_attempt (ok_any fun _ => ok_ite (ok_pure Keeps.refl.putBytes.setCc.advance.takeIf) ok_error)
theorem execMvo_keeps {l1 l2 b1 d1 b2 d2} : Runs (Keeps true s) (execMvo l1 l2 b1 d1 b2 d2 s) :=
  runs_attempt (moveRight_keeps fun _ _ _ _ _ h => mvoBytes_wf _ _ _ _ _ _ _ (Memory.wf_write _ _ _ h))
theorem execPack_keeps {l1 l2 b1 d1 b2 d2} : Runs (Keeps true s) (execPack l1 l2 b1 d1 b2 d2 s) :=
  runs_attempt (moveRight_keeps fun _ _ _ _ _ h => packBytes_wf _ _ _ _ _ _ (Memory.wf_write _ _ _ h))
theorem execUnpk_keeps {l1 l2 b1 d1 b2 d2} : Runs (Keeps true s) (execUnpk l1 l2 b1 d1 b2 d2 s) :=
  runs_attempt (moveRight_keeps fun _ _ _ _ _ h => unpkBytes_wf _ _ _ _ _ _ _ (Memory.wf_write _ _ _ h))
theorem execZap_keeps {l1 l2 b1 d1 b2 d2} : Runs (Keeps false s) (execZap l1 l2 b1 d1 b2 d2 s) :=
  runs_attempt (ok_any fun _ => ok_ite (ok_ite (ok_pure Keeps.refl.putBytes.setCc.draw.advance) (ok_pure storeDecimal_keeps)) ok_error)
theorem execCp_keeps {l1 l2 b1 d1 b2 d2} : Runs (Keeps false s) (execCp l1 l2 b1 d1 b2 d2 s) :=
  runs_attempt (ok_any fun _ => ok_pure Keeps.refl.setCc.advance)
theorem execAp_keeps {l1 l2 b1 d1 b2 d2} : Runs (Keeps false s) (execAp l1 l2 b1 d1 b2 d2 s) :=
  runs_attempt (ok_any fun _ => ok_pure storeDecimal_keeps)
theorem execSp_keeps {l1 l2 b1 d1 b2 d2} : Runs (Keeps false s) (execSp l1 l2 b1 d1 b2 d2 s) :=
  runs_attempt (ok_any fun _ => ok_pure storeDecimal_keeps)
theorem execMp_keeps {l1 l2 b1 d1 b2 d2} : Runs (Keeps true s) (execMp l1 l2 b1 d1 b2 d2 s) :=
  runs_attempt (ok_ite (ok_any fun _ => ok_ite (ok_pure Keeps.refl.putBytes.advance) ok_error) ok_error)
theorem execDp_keeps {l1 l2 b1 d1 b2 d2} : Runs (Keeps true s) (execDp l1 l2 b1 d1 b2 d2 s) :=
  runs_attempt (ok_ite (ok_any fun _ => ok_ite ok_error (ok_pure Keeps.refl.putBytes.advance)) ok_error)

/-! ### Every instruction -/

/-- What every instruction keeps. -/
structure Within (s t : State) : Prop where
  alloc : t.alloc = s.alloc
  accessList : t.accessList = s.accessList
  stxit : t.stxit = s.stxit
  cpu : t.cpu = s.cpu
  underEx : t.underEx = s.underEx ∨ t.underEx = false
  mem : Memory.wf s.mem → Memory.wf t.mem
  ia : s.ia.toNat < 2 ^ s.amode.width → t.ia.toNat < 2 ^ t.amode.width
  amode : s.cpu.has31Bit = false → t.amode = s.amode
  asc : s.cpu.hasEsa = false → t.asc = s.asc
  tod : s.tod ≤ t.tod

theorem Keeps.within (h : Keeps k s t) : Within s t :=
  { h with
    underEx := .inl h.underEx
    ia := fun hs => by rw [h.amode]; rcases h.ia with hi | hi; exact hi ▸ hs; exact hi
    amode := fun _ => h.amode
    asc := fun _ => h.asc }

theorem Within.interrupt {w} : Within s (s.takeInterrupt w) :=
  (Keeps.refl (k := true)).takeInterrupt.within

theorem Runs.imp {P Q : State → Prop} {o : Outcome} (h : Runs P o) (hi : ∀ t, P t → Q t) : Runs Q o :=
  let ⟨t, h1, h2⟩ := h
  ⟨t, h1, hi t h2⟩

theorem State.enterMode_within {w : Word} (h : Keeps true s t) (h31 : s.cpu.has31Bit = true) : Within s (t.enterMode w) :=
  { h with
    underEx := .inl h.underEx
    ia := fun _ => by
      show (BitVec.ofNat 31 (modeTarget w)).toNat < 2 ^ (modeOf w).width
      have h1 : modeTarget w < 2 ^ (modeOf w).width := Nat.mod_lt _ (Nat.two_pow_pos _)
      rw [BitVec.toNat_ofNat, Nat.mod_eq_of_lt]
      · exact h1
      · exact Nat.lt_of_lt_of_le h1 (Nat.pow_le_pow_right (by omega) (modeOf w).width_le.2)
    amode := fun hs => absurd (hs.symm.trans h31) (by decide)
    asc := fun _ => h.asc }

theorem execBassm_within {r1 r2} : Runs (Within s) (execBassm r1 r2 s) := by
  unfold execBassm
  split
  · refine runs_next ?_
    split
    · exact (Keeps.refl (k := true)).setGr.advance.within
    · exact State.enterMode_within Keeps.refl.setGr ‹_›
  · exact runs_next Within.interrupt

theorem execBsm_within {r1 r2} : Runs (Within s) (execBsm r1 r2 s) := by
  unfold execBsm
  have hk : Keeps true s (if r1 = 0 then s else s.setGr r1 (s.amode.bit ++ bits (s.getGr r1) 1 31)) := by
    split
    · exact Keeps.refl
    · exact Keeps.refl.setGr
  split
  · refine runs_next ?_
    split
    · exact hk.advance.within
    · exact State.enterMode_within hk ‹_›
  · exact runs_next Within.interrupt

theorem execSpm_within {r1} : Runs (Within s) (execSpm r1 s) :=
  runs_next { (Keeps.refl (k := true) (s := s)).advance (n := 2) |>.within with }

/-- What the writers of access registers and of the address-space-control mode keep besides. -/
structure KeepsEsa (s t : State) : Prop where
  within : Within s t
  pm : t.pm = s.pm
  amode : t.amode = s.amode
  cc : t.cc = s.cc

theorem Keeps.esa (h : Keeps true s t) : KeepsEsa s t := ⟨h.within, h.pm, h.amode, h.cc rfl⟩

theorem KeepsEsa.setAr (h : KeepsEsa s t) {r v} : KeepsEsa s (t.setAr r v) := ⟨{ h.within with }, h.pm, h.amode, h.cc⟩

theorem KeepsEsa.setGr (h : KeepsEsa s t) {r v} : KeepsEsa s (t.setGr r v) := ⟨{ h.within with }, h.pm, h.amode, h.cc⟩

theorem KeepsEsa.draw (h : KeepsEsa s t) {n} : KeepsEsa s (t.draw n) := ⟨{ h.within with }, h.pm, h.amode, h.cc⟩

theorem KeepsEsa.advance (h : KeepsEsa s t) {n} : KeepsEsa s (t.advance n) :=
  ⟨{ h.within with ia := fun _ => by rw [State.advance_ia]; exact t.nextIa_lt n }, h.pm, h.amode, h.cc⟩

theorem KeepsEsa.setArs (ws : List Word) : ∀ {t r}, KeepsEsa s t → KeepsEsa s (t.setArs r ws) := by
  induction ws with
  | nil => intro t r h; exact h
  | cons w ws ih => intro t r h; exact ih h.setAr

theorem runs_esa' {r} (h : s.cpu.hasEsa = true → OkP (KeepsEsa s) r) : Runs (KeepsEsa s) (s.esa r) := by
  unfold State.esa
  split
  · cases r with
    | ok t => exact ⟨t, rfl, h ‹_› t rfl⟩
    | error w => exact ⟨_, rfl, (Keeps.refl.takeInterrupt).esa⟩
  · exact runs_next (Keeps.refl.takeInterrupt).esa

theorem execCpya_keeps {r1 r2} : Runs (fun t => KeepsEsa s t ∧ t.asc = s.asc) (execCpya r1 r2 s) := by
  unfold execCpya State.esa
  split
  · exact runs_next ⟨Keeps.refl.esa.setAr.advance, rfl⟩
  · exact runs_next ⟨(Keeps.refl.takeInterrupt).esa, rfl⟩

theorem execSar_keeps {r1 r2} : Runs (fun t => KeepsEsa s t ∧ t.asc = s.asc) (execSar r1 r2 s) := by
  unfold execSar State.esa
  split
  · exact runs_next ⟨Keeps.refl.esa.setAr.advance, rfl⟩
  · exact runs_next ⟨(Keeps.refl.takeInterrupt).esa, rfl⟩

theorem execLae_keeps {r1 x2 b2 d2} : Runs (fun t => KeepsEsa s t ∧ t.asc = s.asc) (execLae r1 x2 b2 d2 s) := by
  unfold execLae State.esa
  split
  · refine runs_next ?_
    split
    · exact ⟨Keeps.refl.esa.setGr.setAr.draw.advance, rfl⟩
    · exact ⟨Keeps.refl.esa.setGr.setAr.advance, rfl⟩
  · exact runs_next ⟨(Keeps.refl.takeInterrupt).esa, rfl⟩

theorem State.setArs_asc (ws : List Word) : ∀ (t : State) (r : Reg), (t.setArs r ws).asc = t.asc := by
  induction ws with
  | nil => intro t r; rfl
  | cons w ws ih => intro t r; exact ih _ _

theorem execLam_keeps {r1 r3 b2 d2} : Runs (fun t => KeepsEsa s t ∧ t.asc = s.asc) (execLam r1 r3 b2 d2 s) := by
  unfold execLam State.esa
  have h : OkP (fun t => KeepsEsa s t ∧ t.asc = s.asc) (do
      alignedAlways (s.ea d2 0 b2) 4
      let block ← s.load b2 (s.ea d2 0 b2) (4 * regCount r1 r3)
      return (s.setArs r1 (wordsOf block)).advance 4) :=
    ok_any fun _ => ok_any fun _ => ok_pure ⟨(Keeps.refl.esa.setArs _).advance, State.setArs_asc _ _ _⟩
  split
  · revert h
    generalize (do
      alignedAlways (s.ea d2 0 b2) 4
      let block ← s.load b2 (s.ea d2 0 b2) (4 * regCount r1 r3)
      return (s.setArs r1 (wordsOf block)).advance 4) = r
    intro h
    cases r with
    | ok t => exact ⟨t, rfl, h t rfl⟩
    | error w => exact ⟨_, rfl, (Keeps.refl.takeInterrupt).esa, rfl⟩
  · exact runs_next ⟨(Keeps.refl.takeInterrupt).esa, rfl⟩

theorem execSac_keeps {b2 d2} : Runs (fun t => KeepsEsa s t ∧ t.ar = s.ar) (execSac b2 d2 s) := by
  unfold execSac State.esa
  split
  · rename_i hesa
    have ha : ∀ (u : State) (m : Asc), Keeps true s u → KeepsEsa s { u with asc := m } ∧ { u with asc := m }.ar = s.ar :=
      fun u m h => ⟨⟨{ h.within with asc := fun hs => absurd (hs.symm.trans hesa) (by decide) }, h.pm, h.amode, h.cc rfl⟩, h.ar⟩
    refine runs_next ?_
    split
    · exact ⟨(ha s .primary Keeps.refl).1.advance, rfl⟩
    · split
      · exact ⟨(ha s .ar Keeps.refl).1.advance, rfl⟩
      · exact ⟨(ha (s.draw 1) _ Keeps.refl.draw).1.advance, rfl⟩
  · exact runs_next ⟨(Keeps.refl.takeInterrupt).esa, rfl⟩

/-- Every instruction but EX has a next state, within what an instruction may write. -/
theorem within_target (i : Instr) (s : State) (h : ∀ r1 x2 b2 d2, i ≠ .ex r1 x2 b2 d2) : Runs (Within s) (exec i s) := by
  cases i with
  | ex r1 x2 b2 d2 => exact absurd rfl (h _ _ _ _)
  | spm r1 => exact execSpm_within
  | bassm r1 r2 => exact execBassm_within
  | bsm r1 r2 => exact execBsm_within
  | cpya r1 r2 => exact execCpya_keeps.imp fun _ h => h.1.within
  | sar r1 r2 => exact execSar_keeps.imp fun _ h => h.1.within
  | lae r1 x2 b2 d2 => exact execLae_keeps.imp fun _ h => h.1.within
  | lam r1 r3 b2 d2 => exact execLam_keeps.imp fun _ h => h.1.within
  | sac b2 d2 => exact execSac_keeps.imp fun _ h => h.1.within
  | balr r1 r2 => exact execBalr_keeps.imp fun _ h => h.within
  | bctr r1 r2 => exact execBctr_keeps.imp fun _ h => h.within
  | bcr m1 r2 => exact execBcr_keeps.imp fun _ h => h.within
  | svc imm => exact execSvc_keeps.imp fun _ h => h.within
  | basr r1 r2 => exact execBasr_keeps.imp fun _ h => h.within
  | mvcl r1 r2 => exact execMvcl_keeps.imp fun _ h => h.within
  | clcl r1 r2 => exact execClcl_keeps.imp fun _ h => h.within
  | lpr r1 r2 => exact execLpr_keeps.imp fun _ h => h.within
  | lnr r1 r2 => exact execLnr_keeps.imp fun _ h => h.within
  | ltr r1 r2 => exact execLtr_keeps.imp fun _ h => h.within
  | lcr r1 r2 => exact execLcr_keeps.imp fun _ h => h.within
  | nr r1 r2 => exact execNr_keeps.imp fun _ h => h.within
  | clr r1 r2 => exact execClr_keeps.imp fun _ h => h.within
  | or r1 r2 => exact execOr_keeps.imp fun _ h => h.within
  | xr r1 r2 => exact execXr_keeps.imp fun _ h => h.within
  | lr r1 r2 => exact execLr_keeps.imp fun _ h => h.within
  | cr r1 r2 => exact execCr_keeps.imp fun _ h => h.within
  | ar r1 r2 => exact execAr_keeps.imp fun _ h => h.within
  | sr r1 r2 => exact execSr_keeps.imp fun _ h => h.within
  | mr r1 r2 => exact execMr_keeps.imp fun _ h => h.within
  | dr r1 r2 => exact execDr_keeps.imp fun _ h => h.within
  | alr r1 r2 => exact execAlr_keeps.imp fun _ h => h.within
  | slr r1 r2 => exact execSlr_keeps.imp fun _ h => h.within
  | lpdr r1 r2 => exact execLpdr_keeps.imp fun _ h => h.within
  | lndr r1 r2 => exact execLndr_keeps.imp fun _ h => h.within
  | ltdr r1 r2 => exact execLtdr_keeps.imp fun _ h => h.within
  | lcdr r1 r2 => exact execLcdr_keeps.imp fun _ h => h.within
  | hdr r1 r2 => exact execHdr_keeps.imp fun _ h => h.within
  | lrdr r1 r2 => exact execLrdr_keeps.imp fun _ h => h.within
  | mxr r1 r2 => exact execMxr_keeps.imp fun _ h => h.within
  | mxdr r1 r2 => exact execMxdr_keeps.imp fun _ h => h.within
  | ldr r1 r2 => exact execLdr_keeps.imp fun _ h => h.within
  | cdr r1 r2 => exact execCdr_keeps.imp fun _ h => h.within
  | adr r1 r2 => exact execAdr_keeps.imp fun _ h => h.within
  | sdr r1 r2 => exact execSdr_keeps.imp fun _ h => h.within
  | mdr r1 r2 => exact execMdr_keeps.imp fun _ h => h.within
  | ddr r1 r2 => exact execDdr_keeps.imp fun _ h => h.within
  | awr r1 r2 => exact execAwr_keeps.imp fun _ h => h.within
  | swr r1 r2 => exact execSwr_keeps.imp fun _ h => h.within
  | lper r1 r2 => exact execLper_keeps.imp fun _ h => h.within
  | lner r1 r2 => exact execLner_keeps.imp fun _ h => h.within
  | lter r1 r2 => exact execLter_keeps.imp fun _ h => h.within
  | lcer r1 r2 => exact execLcer_keeps.imp fun _ h => h.within
  | her r1 r2 => exact execHer_keeps.imp fun _ h => h.within
  | lrer r1 r2 => exact execLrer_keeps.imp fun _ h => h.within
  | axr r1 r2 => exact execAxr_keeps.imp fun _ h => h.within
  | sxr r1 r2 => exact execSxr_keeps.imp fun _ h => h.within
  | ler r1 r2 => exact execLer_keeps.imp fun _ h => h.within
  | cer r1 r2 => exact execCer_keeps.imp fun _ h => h.within
  | aer r1 r2 => exact execAer_keeps.imp fun _ h => h.within
  | ser r1 r2 => exact execSer_keeps.imp fun _ h => h.within
  | mer r1 r2 => exact execMer_keeps.imp fun _ h => h.within
  | der r1 r2 => exact execDer_keeps.imp fun _ h => h.within
  | aur r1 r2 => exact execAur_keeps.imp fun _ h => h.within
  | sur r1 r2 => exact execSur_keeps.imp fun _ h => h.within
  | sth r1 x2 b2 d2 => exact execSth_keeps.imp fun _ h => h.within
  | la r1 x2 b2 d2 => exact execLa_keeps.imp fun _ h => h.within
  | stc r1 x2 b2 d2 => exact execStc_keeps.imp fun _ h => h.within
  | ic r1 x2 b2 d2 => exact execIc_keeps.imp fun _ h => h.within
  | bal r1 x2 b2 d2 => exact execBal_keeps.imp fun _ h => h.within
  | bct r1 x2 b2 d2 => exact execBct_keeps.imp fun _ h => h.within
  | bc m1 x2 b2 d2 => exact execBc_keeps.imp fun _ h => h.within
  | lh r1 x2 b2 d2 => exact execLh_keeps.imp fun _ h => h.within
  | ch r1 x2 b2 d2 => exact execCh_keeps.imp fun _ h => h.within
  | ah r1 x2 b2 d2 => exact execAh_keeps.imp fun _ h => h.within
  | sh r1 x2 b2 d2 => exact execSh_keeps.imp fun _ h => h.within
  | mh r1 x2 b2 d2 => exact execMh_keeps.imp fun _ h => h.within
  | bas r1 x2 b2 d2 => exact execBas_keeps.imp fun _ h => h.within
  | cvd r1 x2 b2 d2 => exact execCvd_keeps.imp fun _ h => h.within
  | cvb r1 x2 b2 d2 => exact execCvb_keeps.imp fun _ h => h.within
  | st r1 x2 b2 d2 => exact execSt_keeps.imp fun _ h => h.within
  | n r1 x2 b2 d2 => exact execN_keeps.imp fun _ h => h.within
  | cl r1 x2 b2 d2 => exact execCl_keeps.imp fun _ h => h.within
  | o r1 x2 b2 d2 => exact execO_keeps.imp fun _ h => h.within
  | x r1 x2 b2 d2 => exact execX_keeps.imp fun _ h => h.within
  | l r1 x2 b2 d2 => exact execL_keeps.imp fun _ h => h.within
  | c r1 x2 b2 d2 => exact execC_keeps.imp fun _ h => h.within
  | a r1 x2 b2 d2 => exact execA_keeps.imp fun _ h => h.within
  | s r1 x2 b2 d2 => exact execS_keeps.imp fun _ h => h.within
  | m r1 x2 b2 d2 => exact execM_keeps.imp fun _ h => h.within
  | d r1 x2 b2 d2 => exact execD_keeps.imp fun _ h => h.within
  | al r1 x2 b2 d2 => exact execAl_keeps.imp fun _ h => h.within
  | sl r1 x2 b2 d2 => exact execSl_keeps.imp fun _ h => h.within
  | std r1 x2 b2 d2 => exact execStd_keeps.imp fun _ h => h.within
  | mxd r1 x2 b2 d2 => exact execMxd_keeps.imp fun _ h => h.within
  | ld r1 x2 b2 d2 => exact execLd_keeps.imp fun _ h => h.within
  | cd r1 x2 b2 d2 => exact execCd_keeps.imp fun _ h => h.within
  | ad r1 x2 b2 d2 => exact execAd_keeps.imp fun _ h => h.within
  | sd r1 x2 b2 d2 => exact execSd_keeps.imp fun _ h => h.within
  | md r1 x2 b2 d2 => exact execMd_keeps.imp fun _ h => h.within
  | dd r1 x2 b2 d2 => exact execDd_keeps.imp fun _ h => h.within
  | aw r1 x2 b2 d2 => exact execAw_keeps.imp fun _ h => h.within
  | sw r1 x2 b2 d2 => exact execSw_keeps.imp fun _ h => h.within
  | ste r1 x2 b2 d2 => exact execSte_keeps.imp fun _ h => h.within
  | le r1 x2 b2 d2 => exact execLe_keeps.imp fun _ h => h.within
  | ce r1 x2 b2 d2 => exact execCe_keeps.imp fun _ h => h.within
  | ae r1 x2 b2 d2 => exact execAe_keeps.imp fun _ h => h.within
  | se r1 x2 b2 d2 => exact execSe_keeps.imp fun _ h => h.within
  | me r1 x2 b2 d2 => exact execMe_keeps.imp fun _ h => h.within
  | de r1 x2 b2 d2 => exact execDe_keeps.imp fun _ h => h.within
  | au r1 x2 b2 d2 => exact execAu_keeps.imp fun _ h => h.within
  | su r1 x2 b2 d2 => exact execSu_keeps.imp fun _ h => h.within
  | bxh r1 r3 b2 d2 => exact execBxh_keeps.imp fun _ h => h.within
  | bxle r1 r3 b2 d2 => exact execBxle_keeps.imp fun _ h => h.within
  | srl r1 b2 d2 => exact execSrl_keeps.imp fun _ h => h.within
  | sll r1 b2 d2 => exact execSll_keeps.imp fun _ h => h.within
  | sra r1 b2 d2 => exact execSra_keeps.imp fun _ h => h.within
  | sla r1 b2 d2 => exact execSla_keeps.imp fun _ h => h.within
  | srdl r1 b2 d2 => exact execSrdl_keeps.imp fun _ h => h.within
  | sldl r1 b2 d2 => exact execSldl_keeps.imp fun _ h => h.within
  | srda r1 b2 d2 => exact execSrda_keeps.imp fun _ h => h.within
  | slda r1 b2 d2 => exact execSlda_keeps.imp fun _ h => h.within
  | stm r1 r3 b2 d2 => exact execStm_keeps.imp fun _ h => h.within
  | tm b1 d1 i2 => exact execTm_keeps.imp fun _ h => h.within
  | mvi b1 d1 i2 => exact execMvi_keeps.imp fun _ h => h.within
  | ts b2 d2 => exact execTs_keeps.imp fun _ h => h.within
  | ni b1 d1 i2 => exact execNi_keeps.imp fun _ h => h.within
  | cli b1 d1 i2 => exact execCli_keeps.imp fun _ h => h.within
  | oi b1 d1 i2 => exact execOi_keeps.imp fun _ h => h.within
  | xi b1 d1 i2 => exact execXi_keeps.imp fun _ h => h.within
  | lm r1 r3 b2 d2 => exact execLm_keeps.imp fun _ h => h.within
  | stam r1 r3 b2 d2 => exact execStam_keeps.imp fun _ h => h.within
  | mc b1 d1 i2 => exact (execMc_keeps (b1 := b1) (d1 := d1) (i2 := i2)).imp fun _ h => h.within
  | stck b2 d2 => exact execStck_keeps.imp fun _ h => h.within
  | ipm r1 => exact execIpm_keeps.imp fun _ h => h.within
  | iac r1 => exact execIac_keeps.imp fun _ h => h.within
  | dxr r1 r2 => exact execDxr_keeps.imp fun _ h => h.within
  | tar r1 r2 => exact (execTar_keeps (r1 := r1) (r2 := r2)).imp fun _ h => h.within
  | ear r1 r2 => exact execEar_keeps.imp fun _ h => h.within
  | cs r1 r3 b2 d2 => exact execCs_keeps.imp fun _ h => h.within
  | cds r1 r3 b2 d2 => exact execCds_keeps.imp fun _ h => h.within
  | clm r1 m3 b2 d2 => exact execClm_keeps.imp fun _ h => h.within
  | stcm r1 m3 b2 d2 => exact execStcm_keeps.imp fun _ h => h.within
  | icm r1 m3 b2 d2 => exact execIcm_keeps.imp fun _ h => h.within
  | mvn l b1 d1 b2 d2 => exact execMvn_keeps.imp fun _ h => h.within
  | mvc l b1 d1 b2 d2 => exact execMvc_keeps.imp fun _ h => h.within
  | mvz l b1 d1 b2 d2 => exact execMvz_keeps.imp fun _ h => h.within
  | nc l b1 d1 b2 d2 => exact execNc_keeps.imp fun _ h => h.within
  | clc l b1 d1 b2 d2 => exact execClc_keeps.imp fun _ h => h.within
  | oc l b1 d1 b2 d2 => exact execOc_keeps.imp fun _ h => h.within
  | xc l b1 d1 b2 d2 => exact execXc_keeps.imp fun _ h => h.within
  | tr l b1 d1 b2 d2 => exact execTr_keeps.imp fun _ h => h.within
  | trt l b1 d1 b2 d2 => exact execTrt_keeps.imp fun _ h => h.within
  | ed l b1 d1 b2 d2 => exact execEd_keeps.imp fun _ h => h.within
  | edmk l b1 d1 b2 d2 => exact execEdmk_keeps.imp fun _ h => h.within
  | srp l1 i3 b1 d1 b2 d2 => exact execSrp_keeps.imp fun _ h => h.within
  | mvo l1 l2 b1 d1 b2 d2 => exact execMvo_keeps.imp fun _ h => h.within
  | pack l1 l2 b1 d1 b2 d2 => exact execPack_keeps.imp fun _ h => h.within
  | unpk l1 l2 b1 d1 b2 d2 => exact execUnpk_keeps.imp fun _ h => h.within
  | zap l1 l2 b1 d1 b2 d2 => exact execZap_keeps.imp fun _ h => h.within
  | cp l1 l2 b1 d1 b2 d2 => exact execCp_keeps.imp fun _ h => h.within
  | ap l1 l2 b1 d1 b2 d2 => exact execAp_keeps.imp fun _ h => h.within
  | sp l1 l2 b1 d1 b2 d2 => exact execSp_keeps.imp fun _ h => h.within
  | mp l1 l2 b1 d1 b2 d2 => exact execMp_keeps.imp fun _ h => h.within
  | dp l1 l2 b1 d1 b2 d2 => exact execDp_keeps.imp fun _ h => h.within

/-- EX, too. -/
theorem within_ex (r1 x2 b2 : Reg) (d2 : Disp) (s : State) : Runs (Within s) (exec (.ex r1 x2 b2 d2) s) := by
  show Runs (Within s) (execEx r1 x2 b2 d2 s)
  unfold execEx
  split
  · exact runs_next Within.interrupt
  · rename_i bs _
    split
    · exact runs_next Within.interrupt
    · rename_i hop
      split
      · rename_i i hd
        have hne : ∀ q1 q2 q3 q4, i ≠ .ex q1 q2 q3 q4 := by
          rintro q1 q2 q3 q4 rfl
          apply hop
          cases bs with
          | nil => exact absurd hd (by simp [State.exBytes, decode])
          | cons op bs =>
            cases bs with
            | nil => exact decode_ex _ _ _ _ _ _ hd
            | cons b1 bs => exact decode_ex _ _ _ _ _ _ hd
        obtain ⟨t, ht, hw⟩ := within_target i { s with underEx := true } hne
        rw [execTarget_eq i _ hne, ht]
        exact runs_next { hw with underEx := .inr rfl }
      · exact runs_next Within.interrupt

/-- Every instruction has a next state, within what an instruction may write. -/
theorem within_exec (i : Instr) (s : State) : Runs (Within s) (exec i s) := by
  by_cases h : ∃ r1 x2 b2 d2, i = .ex r1 x2 b2 d2
  · obtain ⟨r1, x2, b2, d2, rfl⟩ := h
    exact within_ex r1 x2 b2 d2 s
  · exact within_target i s fun r1 x2 b2 d2 he => h ⟨r1, x2, b2, d2, he⟩

end Sys2Proof.Machine
end

