-- ==== Sys2Proof/Laws/LoadStore.lean ====
section
/-! SUPPORT. Words in storage areas, and registers loaded and stored one after the other. -/

namespace Sys2Proof.Machine

/-! ### Bytes and words -/

theorem wordOf_four (a b c d : Byte) : wordOf [a, b, c, d] = a ++ b ++ c ++ d := by
  apply BitVec.eq_of_toNat_eq
  rw [wordOf_toNat _ rfl]
  have := a.isLt; have := b.isLt; have := c.isLt; have := d.isLt
  simp only [BitVec.toNat_append, beNat_cons, beNat_nil, List.length_cons, List.length_nil]
  rw [← Nat.shiftLeft_add_eq_or_of_lt (by omega), ← Nat.shiftLeft_add_eq_or_of_lt (by omega), ← Nat.shiftLeft_add_eq_or_of_lt (by omega)]
  simp only [Nat.shiftLeft_eq]
  omega

theorem State.getBytes_two (s : State) (sp : Space) (a : Nat) : s.getBytes sp a 2 = [s.getByte sp a, s.getByte sp (a + 1)] := rfl
theorem State.getBytes_four (s : State) (sp : Space) (a : Nat) : s.getBytes sp a 4 = [s.getByte sp a, s.getByte sp (a + 1), s.getByte sp (a + 2), s.getByte sp (a + 3)] := rfl

/-! ### Several registers -/

/-- The register that is `k` registers after R1, counted from R1. -/
theorem reg_add_sub (r1 r3 : Reg) (k : Nat) (hk : k ≤ (r3 - r1).toNat) : ((r1 + BitVec.ofNat 4 k) - r1).toNat = k := by
  have := (r3 - r1).isLt
  rw [show (r1 + BitVec.ofNat 4 k) - r1 = BitVec.ofNat 4 k by ring, BitVec.toNat_ofNat]
  omega

/-- A register that is not among those from R1 through R3. -/
theorem not_registersThrough (r1 r3 q : Reg) (hq : q ∉ registersThrough r1 r3) : ¬ ((q - r1).toNat < regCount r1 r3) := by
  intro h
  apply hq
  simp only [registersThrough, List.mem_map, List.mem_range]
  refine ⟨(q - r1).toNat, h, ?_⟩
  rw [BitVec.ofNat_toNat, BitVec.setWidth_eq]
  ring

/-- Registers loaded one after the other, wrapping from 15 to 0 (R215). -/
theorem State.getGr_setGrs (ws : List Word) (s : State) (r q : Reg) (hl : ws.length ≤ 16) :
    (s.setGrs r ws).getGr q = if h : (q - r).toNat < ws.length then ws[(q - r).toNat] else s.getGr q := by
  induction ws generalizing s r with
  | nil => simp [State.setGrs]
  | cons w ws ih =>
    rw [State.setGrs, ih _ _ (by simp at hl; omega)]
    simp only [List.length_cons] at hl ⊢
    by_cases hq : q = r
    · subst hq
      have h1 : (q - (q + 1)).toNat = 15 := by clear ih; revert q; decide
      have h2 : (q - q).toNat = 0 := by clear ih h1; revert q; decide
      simp only [h1, h2, dif_neg (show ¬ 15 < ws.length by omega)]
      simp
    · have h1 : (q - r).toNat = (q - (r + 1)).toNat + 1 := by
        clear ih
        have hne : q - r ≠ 0 := fun h => hq (by revert q r; decide)
        have : q - (r + 1) = q - r - 1 := by clear hne hq; revert q r; decide
        rw [this]
        clear this
        generalize q - r = x at *
        clear hq
        revert x; decide
      simp only [h1, List.getElem_cons_succ, add_lt_add_iff_right]
      congr 1
      simp [hq]
/-- Loading general-purpose registers changes nothing else. -/
theorem State.setGrs_eq (s : State) (r : Reg) (ws : List Word) : s.setGrs r ws = { s with gr := (s.setGrs r ws).gr } := by
  induction ws generalizing s r with
  | nil => rfl
  | cons w ws ih => rw [State.setGrs, ih]; rfl

theorem regCount_le (r1 r3 : Reg) : regCount r1 r3 ≤ 16 := by
  have := (r3 - r1).isLt
  simp [regCount]; omega

/-- Words loaded from a storage area. -/
theorem wordsOf_getBytes (s : State) (sp : Space) (a n : Nat) :
    wordsOf (s.getBytes sp a (4 * n)) = (List.range n).map fun k => wordOf (s.getBytes sp (a + 4 * k) 4) := by
  induction n generalizing a with
  | zero => rfl
  | succ n ih =>
    have e : ∀ b m, s.getBytes sp b (m + 1) = s.getByte sp b :: s.getBytes sp (b + 1) m := by
      intro b m
      simp only [State.getBytes, List.range_succ_eq_map, List.map_cons, List.map_map]
      congr 1
      apply List.map_congr_left
      intro i _
      simp only [Function.comp, Nat.succ_eq_add_one]
      congr 1
      omega
    rw [show 4 * (n + 1) = 4 * n + 1 + 1 + 1 + 1 by omega, e, e, e, e, wordsOf, ih, List.range_succ_eq_map, List.map_cons,
      List.map_map]
    have h4 : [s.getByte sp a, s.getByte sp (a + 1), s.getByte sp (a + 1 + 1), s.getByte sp (a + 1 + 1 + 1)] = s.getBytes sp a 4 := rfl
    rw [h4, Nat.mul_zero, Nat.add_zero]
    refine congrArg _ (List.map_congr_left fun k _ => ?_)
    simp only [Function.comp, Nat.succ_eq_add_one, show a + 4 * (k + 1) = a + 1 + 1 + 1 + 1 + 4 * k by omega]

theorem bytesOf_length (ws : List Word) : (bytesOf ws).length = 4 * ws.length := by
  induction ws with
  | nil => rfl
  | cons w ws ih => simp only [bytesOf, List.flatMap_cons, List.length_append, List.length_cons, beBytes_length] at ih ⊢; omega

/-- Words stored in a storage area are read back. -/
theorem wordOf_bytesOf (s : State) (sp : Space) (a : Nat) (ws : List Word) (hl : ws.length ≤ 16) (k : Nat) (hk : k < ws.length) :
    wordOf ((s.putBytes sp a (bytesOf ws)).getBytes sp (a + 4 * k) 4) = ws[k] := by
  have key : ∀ (ws : List Word) (k : Nat) (hk : k < ws.length), ((bytesOf ws).drop (4 * k)).take 4 = beBytes 4 (ws[k]).toNat := by
    intro ws
    induction ws with
    | nil => intro k hk; simp at hk
    | cons w ws ih =>
      intro k hk
      cases k with
      | zero => simp only [bytesOf, List.flatMap_cons, Nat.mul_zero, List.drop_zero]; rw [List.take_append_of_le_length (by simp)]; simp
      | succ k =>
        have := ih k (by simpa using hk)
        simp only [List.getElem_cons_succ]
        rw [← this]
        simp only [bytesOf, List.flatMap_cons]
        rw [List.drop_append, show 4 * (k + 1) - (beBytes 4 w.toNat).length = 4 * k by simp only [beBytes_length]; omega]
        rw [List.drop_eq_nil_of_le (by simp)]; rfl
  have hb : (s.putBytes sp a (bytesOf ws)).getBytes sp (a + 4 * k) 4 = ((bytesOf ws).drop (4 * k)).take 4 := by
    apply List.ext_getElem
    · simp [bytesOf_length]; omega
    · intro i h1 h2
      rw [State.getBytes_getElem, List.getElem_take, List.getElem_drop]
      simp only [State.getBytes_length] at h1
      rw [Nat.add_assoc, State.putBytes_same _ _ _ _ (by rw [bytesOf_length]; omega) _ (by rw [bytesOf_length]; omega)]
  rw [hb, key ws k hk, wordOf_beBytes]

/-- Registers loaded one after the other, wrapping from 15 to 0 (R558). -/
theorem State.getAr_setArs (ws : List Word) (s : State) (r q : Reg) (hl : ws.length ≤ 16) :
    (s.setArs r ws).getAr q = if h : (q - r).toNat < ws.length then ws[(q - r).toNat] else s.getAr q := by
  induction ws generalizing s r with
  | nil => simp [State.setArs]
  | cons w ws ih =>
    rw [State.setArs, ih _ _ (by simp at hl; omega)]
    simp only [List.length_cons] at hl ⊢
    by_cases hq : q = r
    · subst hq
      have h1 : (q - (q + 1)).toNat = 15 := by clear ih; revert q; decide
      have h2 : (q - q).toNat = 0 := by clear ih h1; revert q; decide
      simp only [h1, h2, dif_neg (show ¬ 15 < ws.length by omega)]
      simp
    · have h1 : (q - r).toNat = (q - (r + 1)).toNat + 1 := by
        clear ih
        have hne : q - r ≠ 0 := fun h => hq (by revert q r; decide)
        have : q - (r + 1) = q - r - 1 := by clear hne hq; revert q r; decide
        rw [this]
        clear this
        generalize q - r = x at *
        clear hq
        revert x; decide
      simp only [h1, List.getElem_cons_succ, add_lt_add_iff_right]
      congr 1
      simp [hq]
/-- Loading access registers changes nothing else. -/
theorem State.setArs_eq (s : State) (r : Reg) (ws : List Word) : s.setArs r ws = { s with ar := (s.setArs r ws).ar } := by
  induction ws generalizing s r with
  | nil => rfl
  | cons w ws ih => rw [State.setArs, ih]; rfl


/-! ### Bytes that a mask selects -/

/-- The bytes of a word made of four bytes. -/
theorem byteOf_wordOf (x : Nat → Byte) (j : Nat) (hj : j < 4) : byteOf (wordOf [x 0, x 1, x 2, x 3]) j = x j := by
  apply BitVec.eq_of_toNat_eq
  rw [byteOf, bits_toNat, wordOf_toNat _ rfl]
  simp only [beNat_cons, beNat_nil, List.length_cons, List.length_nil]
  have h0 := (x 0).isLt; have h1 := (x 1).isLt; have h2 := (x 2).isLt; have h3 := (x 3).isLt
  interval_cases j <;> omega

/-- Byte `j` of a word whose byte `k` was replaced. -/
theorem byteOf_withByte (w : Word) (k : Nat) (b : Byte) (j : Nat) (hj : j < 4) :
    byteOf (withByte w k b) j = if j = k then b else byteOf w j :=
  byteOf_wordOf (fun j => if j = k then b else byteOf w j) j hj

/-- The bytes of a word after bytes were inserted at the places `ks`, which differ (R208). -/
theorem byteOf_insertBytes (w : Word) (ks : List Nat) (bs : List Byte) (hl : ks.length = bs.length) (hd : ks.Nodup) (j : Nat)
    (hj : j < 4) : byteOf (insertBytes w ks bs) j = if h : ks.idxOf j < bs.length then bs[ks.idxOf j] else byteOf w j := by
  induction ks generalizing w bs with
  | nil =>
    have : bs = [] := by simpa using hl.symm
    subst this; rfl
  | cons k ks ih =>
    cases bs with
    | nil => simp at hl
    | cons b bs =>
      rw [insertBytes, ih _ _ (by simpa using hl) (List.nodup_cons.1 hd).2]
      by_cases hk : k = j
      · subst hk
        have hni : ks.idxOf k = ks.length := List.idxOf_eq_length (List.nodup_cons.1 hd).1
        have : ¬ ks.idxOf k < bs.length := by rw [hni]; simp at hl; omega
        rw [dif_neg this, byteOf_withByte _ _ _ _ hj]
        simp
      · rw [byteOf_withByte _ _ _ _ hj]
        simp [hk, Ne.symm hk]

/-- The place of a selected byte among the selected ones. -/
theorem idxOf_maskBytes : ∀ (m : Mask) (k : Fin 4), m.getMsbD k = true →
    (maskBytes m).idxOf k.val = ((List.range k).filter fun j => m.getMsbD j).length := by decide

theorem idxOf_maskBytes_not : ∀ (m : Mask) (k : Fin 4), m.getMsbD k = false → (maskBytes m).idxOf k.val = maskCount m := by decide

theorem maskCount_le : ∀ m : Mask, maskCount m ≤ 4 := by decide

theorem maskBytes_nodup : ∀ m : Mask, (maskBytes m).Nodup := by decide

theorem idx_lt : ∀ (m : Mask) (k : Fin 4), m.getMsbD k = true → ((List.range k).filter fun j => m.getMsbD j).length < maskCount m := by decide

theorem icmCc_eq (bs : List Byte) : icmCc bs = if ∀ j (h : j < bs.length), bs[j] = 0 then 0 else if (bs.headD 0).msb = true then 1 else 2 := by
  have : bs.all (· == 0) = true ↔ ∀ j (h : j < bs.length), bs[j] = 0 := by
    rw [List.all_eq_true]
    constructor
    · intro h j hj; simpa using h _ (List.getElem_mem hj)
    · intro h x hx; obtain ⟨i, hi, rfl⟩ := List.getElem_of_mem hx; simpa using h i hi
  simp only [icmCc, this, BitVec.msb]

theorem maskBytes_get : ∀ (m : Mask) (k : Fin 4), m.getMsbD k = true → (maskBytes m)[((List.range k).filter fun j => m.getMsbD j).length]? = some k.val := by decide
theorem maskBytes_inv : ∀ (m : Mask) (j : Fin 4), j.val < maskCount m → ∃ k : Fin 4, m.getMsbD k = true ∧ ((List.range k).filter fun j => m.getMsbD j).length = j := by decide

theorem byteOf_beBytes4 (w : Word) (k : Nat) (hk : k < 4) : (beBytes 4 w.toNat)[k]'(by simpa using hk) = byteOf w k := by
  rw [beBytes_getElem]
  apply BitVec.eq_of_toNat_eq
  rw [byteOf, bits_toNat, BitVec.toNat_ofNat]
  interval_cases k <;> rfl

theorem byteOf_beBytes2 (w : Word) (k : Nat) (hk : k < 2) : (beBytes 2 w.toNat)[k]'(by simpa using hk) = byteOf w (2 + k) := by
  rw [beBytes_getElem]
  apply BitVec.eq_of_toNat_eq
  rw [byteOf, bits_toNat, BitVec.toNat_ofNat]
  interval_cases k <;> rfl

end Sys2Proof.Machine
end

