-- ==== Sys2Proof/Laws/Logic.lean ====
section
/-! SUPPORT. The logic instructions and single bytes. -/

namespace Sys2Proof.Machine

/-- A logic result in a register, and its code (R270). -/
theorem State.logicReg_spec (s : State) (r1 : Reg) (v : Word) (len : Nat) :
    (s.logicReg r1 v len).getGr r1 = v ∧ (s.logicReg r1 v len).cc = (if v = 0 then 0 else 1) ∧ Ended s (s.logicReg r1 v len) len [r1] [] [] := by
  refine ⟨by simp [State.logicReg], ?_, ?_⟩
  · by_cases h : v = 0 <;> simp [State.logicReg, nonzeroCc, h]
  · simp +contextual [State.logicReg, Ended, Frame, SameRegistersBut, SameModes, SameSystem, SameOracles, SameMemory]

/-- A single stored byte is read back. -/
theorem State.getByte_put (s : State) (sp : Space) (a : Nat) (b : Byte) : (s.putBytes sp a [b]).getByte sp a = b := by
  have := s.putBytes_same sp a [b] (by simp) 0 (by simp)
  simpa using this

/-- What the bits tested by TM are (R341). -/
theorem and_mask (b m : Byte) : (b &&& m = 0 ↔ ∀ k < 8, m.getLsbD k = true → b.getLsbD k = false) ∧ (b &&& m = m ↔ ∀ k < 8, m.getLsbD k = true → b.getLsbD k = true) := by
  constructor
  · constructor
    · intro h k hk hm
      have := congrArg (fun x => x.getLsbD k) h
      simpa [hm] using this
    · intro h
      apply BitVec.eq_of_getLsbD_eq
      intro k hk
      have := h k hk
      cases hm : m.getLsbD k <;> simp_all
  · constructor
    · intro h k hk hm
      have := congrArg (fun x => x.getLsbD k) h
      simpa [hm] using this
    · intro h
      apply BitVec.eq_of_getLsbD_eq
      intro k hk
      have := h k hk
      cases hm : m.getLsbD k <;> simp_all

end Sys2Proof.Machine
end

