-- ==== Sys2Proof/Laws/Long.lean ====
section
/-! SUPPORT. The long operands of CLCL and MVCL: how far each loop comes, and what the register pairs then show. -/

namespace Sys2Proof.Machine

/-! ### Long operands -/

/-- The long operand of `n` bytes at `a` when `k` rounds have been made (R158). -/
def State.longAt (s : State) (a n k : Nat) : Long :=
  { addr := s.trunc (a + min k n), left := n - min k n }

theorem State.long_eq (s : State) (r : Reg) :
    s.long r = s.longAt ((s.getGr r).toNat % 2 ^ s.amode.width) (bits (s.getGr (r + 1)) 8 24).toNat 0 := by
  simp [State.long, State.longAt, State.trunc]

theorem State.longAt_left (s : State) (a n k : Nat) : (s.longAt a n k).left = n - min k n := rfl

theorem State.longNext_longAt (s : State) (a n k : Nat) : s.longNext (s.longAt a n k) = s.longAt a n (k + 1) := by
  unfold State.longNext
  by_cases h : (s.longAt a n k).left = 0
  · rw [if_pos h]
    rw [State.longAt_left] at h
    simp only [State.longAt, show min (k + 1) n = min k n by omega]
  · rw [if_neg h]
    rw [State.longAt_left] at h
    simp only [State.longAt, State.trunc_trunc_add, show min (k + 1) n = min k n + 1 by omega, Long.mk.injEq]
    exact ⟨by rw [Nat.add_assoc], by omega⟩

theorem State.longAt_min (s : State) (a n k : Nat) : s.longAt a n (min k n) = s.longAt a n k := by
  simp [State.longAt]

/-- The byte that a round compares, where it is accessible: the operand's, or the slack byte at its end (R158). -/
theorem State.longByte_longAt (s : State) (b : Reg) (sp : Space) (pad : Byte) (a n k : Nat)
    (h : k < n → s.ByteAccessible b sp (a + k) .read) :
    s.longByte (s.space b) pad (s.longAt a n k) = some (if k < n then s.getByte sp (a + k) else pad) := by
  unfold State.longByte
  by_cases hk : k < n
  · rw [if_neg (by rw [State.longAt_left]; omega), if_pos hk, (h hk).1]
    simp only [State.longAt, show min k n = k by omega, State.tryByte, State.trunc_trunc, (h hk).2, if_true, State.key_trunc]
    rfl
  · rw [if_pos (by rw [State.longAt_left]; omega), if_neg hk]

/-- A byte that is not accessible is not read. -/
theorem State.tryByte_none (s : State) (b : Reg) (sp : Space) (m : List Host.Cell) (a : Nat) (hb : s.IsSpace b sp)
    (h : ¬ s.ByteAccessible b sp a .read) : s.tryByte (s.space b) m a = none := by
  unfold State.tryByte
  split
  · rename_i sp' hs
    obtain rfl := hb _ hs
    exact if_neg fun hc => h ⟨hs, hc⟩
  · rfl

/-- A byte that is not accessible is not stored. -/
theorem State.tryStore_none (s : State) (b : Reg) (sp : Space) (a : Nat) (hb : s.IsSpace b sp)
    (h : ¬ s.ByteAccessible b sp a .write) : s.tryStore (s.space b) a = none := by
  unfold State.tryStore
  split
  · rename_i sp' hs
    obtain rfl := hb _ hs
    exact if_neg fun hc => h ⟨hs, hc⟩
  · rfl

theorem State.byteAccessible_trunc (s : State) (b : Reg) (sp : Space) (a : Nat) (k : Access) :
    s.ByteAccessible b sp (s.trunc a) k ↔ s.ByteAccessible b sp a k := by
  unfold State.ByteAccessible
  rw [State.trunc_trunc]

theorem State.longByte_none (s : State) (b : Reg) (sp : Space) (pad : Byte) (a n k : Nat) (hk : k < n) (hb : s.IsSpace b sp)
    (h : ¬ s.ByteAccessible b sp (a + k) .read) : s.longByte (s.space b) pad (s.longAt a n k) = none := by
  unfold State.longByte
  rw [if_neg (by rw [State.longAt_left]; omega)]
  refine s.tryByte_none b sp _ _ hb fun hc => h ?_
  rwa [State.longAt, show min k n = k by omega, State.byteAccessible_trunc] at hc

/-- CLCL goes on over accessible bytes that are equal (R158). -/
theorem State.compareLong_run (s : State) (b1 b2 : Reg) (sp1 sp2 : Space) (pad : Byte) (a1 n1 a2 n2 n i m : Nat) (hm : m ≤ n)
    (h : ∀ k, i ≤ k → k < i + m → (k < n1 → s.ByteAccessible b1 sp1 (a1 + k) .read) ∧
      (k < n2 → s.ByteAccessible b2 sp2 (a2 + k) .read) ∧
      (if k < n1 then s.getByte sp1 (a1 + k) else pad) = (if k < n2 then s.getByte sp2 (a2 + k) else pad)) :
    s.compareLong (s.space b1) (s.space b2) pad n (s.longAt a1 n1 i) (s.longAt a2 n2 i) =
      s.compareLong (s.space b1) (s.space b2) pad (n - m) (s.longAt a1 n1 (i + m)) (s.longAt a2 n2 (i + m)) := by
  induction m generalizing n i with
  | zero => simp
  | succ m ih =>
    obtain ⟨n, rfl⟩ : ∃ n', n = n' + 1 := ⟨n - 1, by omega⟩
    obtain ⟨h1, h2, h3⟩ := h i (by omega) (by omega)
    rw [State.compareLong, s.longByte_longAt b1 sp1 pad a1 n1 i h1, s.longByte_longAt b2 sp2 pad a2 n2 i h2]
    simp only [h3, if_true, State.longNext_longAt]
    rw [ih n (i + 1) (by omega) fun k hk hk' => h k (by omega) (by omega)]
    congr 1
    · omega
    · rw [show i + 1 + m = i + (m + 1) by omega]
    · rw [show i + 1 + m = i + (m + 1) by omega]

theorem even_ne_succ (r q : Reg) (hr : r.toNat % 2 = 0) (hq : q.toNat % 2 = 0) : r ≠ q + 1 ∧ q ≠ r + 1 ∧ r + 1 ≠ q ∧ q + 1 ≠ r := by
  revert r q; decide

/-- Both pairs after they were written back: each shows how far its operand has come (R158, R268). -/
theorem State.setLongs_spec (s : State) (r1 r2 : Reg) (a1 n1 k1 a2 n2 k2 : Nat) (he1 : r1.toNat % 2 = 0) (he2 : r2.toNat % 2 = 0)
    (hn1 : n1 < 2 ^ 24) (hn2 : n2 < 2 ^ 24) (hk1 : k1 ≤ n1) (hk2 : k2 ≤ n2)
    (hs : r1 = r2 → s.longAt a1 n1 k1 = s.longAt a2 n2 k2) :
    let t := s.setLongs r1 r2 (s.longAt a1 n1 k1) (s.longAt a2 n2 k2)
    (t.getGr r1).toNat = (a1 + k1) % 2 ^ s.amode.width ∧ (t.getGr r2).toNat = (a2 + k2) % 2 ^ s.amode.width ∧
      bits (t.getGr (r1 + 1)) 0 8 = bits (s.getGr (r1 + 1)) 0 8 ∧ (bits (t.getGr (r1 + 1)) 8 24).toNat = n1 - k1 ∧
      bits (t.getGr (r2 + 1)) 0 8 = bits (s.getGr (r2 + 1)) 0 8 ∧ (bits (t.getGr (r2 + 1)) 8 24).toNat = n2 - k2 ∧
      Frame s t [r1, r1 + 1, r2, r2 + 1] [] [] := by
  have key : ∀ q, (s.setLongs r1 r2 (s.longAt a1 n1 k1) (s.longAt a2 n2 k2)).getGr q =
      if q = r2 + 1 then s.slack r2 ++ BitVec.ofNat 24 (s.longAt a2 n2 k2).left
      else if q = r2 then BitVec.ofNat 32 (s.longAt a2 n2 k2).addr
      else if q = r1 + 1 then bits (s.getGr (r1 + 1)) 0 8 ++ BitVec.ofNat 24 (s.longAt a1 n1 k1).left
      else if q = r1 then BitVec.ofNat 32 (s.longAt a1 n1 k1).addr else s.getGr q := by
    intro q; simp only [State.setLongs, State.setLong, State.getGr_setGr]
  intro t
  obtain ⟨h1, h2, h3, h4⟩ := even_ne_succ r1 r2 he1 he2
  have addr : ∀ a n k : Nat, k ≤ n → (BitVec.ofNat 32 (s.longAt a n k).addr).toNat = (a + k) % 2 ^ s.amode.width := by
    intro a n k hk
    have := s.trunc_lt_31 (a + k)
    simp only [State.longAt, show min k n = k by omega, BitVec.toNat_ofNat]
    rw [Nat.mod_eq_of_lt (by omega)]; rfl
  have left : ∀ (b : Byte) (a n k : Nat), n < 2 ^ 24 → k ≤ n → bits (b ++ BitVec.ofNat 24 (s.longAt a n k).left) 0 8 = b ∧
      (bits (b ++ BitVec.ofNat 24 (s.longAt a n k).left) 8 24).toNat = n - k := by
    intro b a n k hn hk
    refine ⟨bits_append_left _ _, ?_⟩
    rw [show bits (b ++ BitVec.ofNat 24 (s.longAt a n k).left) 8 24 = _ from bits_append_right _ _]
    simp only [State.longAt, show min k n = k by omega, BitVec.toNat_ofNat]
    exact Nat.mod_eq_of_lt (by omega)
  have hr2 : t.getGr r2 = BitVec.ofNat 32 (s.longAt a2 n2 k2).addr := by
    rw [key, if_neg (reg_succ_ne r2).2, if_pos rfl]
  have hr2' : t.getGr (r2 + 1) = s.slack r2 ++ BitVec.ofNat 24 (s.longAt a2 n2 k2).left := by rw [key, if_pos rfl]
  have hr1 : t.getGr r1 = BitVec.ofNat 32 (s.longAt a1 n1 k1).addr := by
    rw [key, if_neg h1]
    by_cases h : r1 = r2
    · rw [if_pos h, hs h]
    · rw [if_neg h, if_neg (reg_succ_ne r1).2, if_pos rfl]
  have hr1' : t.getGr (r1 + 1) = bits (s.getGr (r1 + 1)) 0 8 ++ BitVec.ofNat 24 (s.longAt a1 n1 k1).left := by
    rw [key]
    by_cases h : r1 = r2
    · rw [if_pos (by rw [h]), hs h, h]; rfl
    · rw [if_neg (fun hc => h (by simpa using hc)), if_neg h3, if_pos rfl]
  refine ⟨by rw [hr1, addr _ _ _ hk1], by rw [hr2, addr _ _ _ hk2], ?_, ?_, ?_, ?_, ?_⟩
  · rw [hr1']; exact (left _ _ _ _ hn1 hk1).1
  · rw [hr1']; exact (left _ _ _ _ hn1 hk1).2
  · rw [hr2']; exact (left _ _ _ _ hn2 hk2).1
  · rw [hr2']; exact (left _ _ _ _ hn2 hk2).2
  · refine ⟨⟨fun q hq => ?_, fun _ _ => rfl, fun _ _ _ => rfl⟩, ⟨rfl, rfl, rfl⟩, ⟨rfl, rfl, rfl, rfl, rfl⟩, rfl, rfl⟩
    simp only [List.mem_cons, List.not_mem_nil, or_false, not_or] at hq
    rw [key, if_neg hq.2.2.2, if_neg hq.2.2.1, if_neg hq.2.1, if_neg hq.1]

/-! ### MVCL -/

/-- The byte that MVCL stores at place `j` (R268). -/
def mvclByte (s : State) (sp2 : Space) (pad : Byte) (a2 n2 j : Nat) (_q p : List Host.Cell) : Byte :=
  if j < n2 then Memory.read p (s.key sp2 (a2 + j)) else pad

/-- The byte that MVCL stores next, where it is accessible. -/
theorem State.moveLong_byte (s : State) (b2 : Reg) (sp2 : Space) (pad : Byte) (a2 n2 i : Nat) (q M : List Host.Cell)
    (h : i < n2 → s.ByteAccessible b2 sp2 (a2 + i) .read) :
    (if (s.longAt a2 n2 i).left = 0 then some pad else s.tryByte (s.space b2) M (s.longAt a2 n2 i).addr) =
      some (mvclByte s sp2 pad a2 n2 i q M) := by
  by_cases hk : i < n2
  · rw [if_neg (by rw [State.longAt_left]; omega), (h hk).1]
    simp only [State.longAt, show min i n2 = i by omega, State.tryByte, State.trunc_trunc, (h hk).2, if_true, State.key_trunc,
      mvclByte, hk]
  · rw [if_pos (by rw [State.longAt_left]; omega)]
    simp only [mvclByte, hk, if_false]

/-- MVCL comes as far as the first byte that is not accessible; a source byte counts before its store is tested (R268). -/
theorem State.moveLong_chain (s : State) (b1 b2 : Reg) (sp1 sp2 : Space) (pad : Byte) (a1 n1 a2 n2 n i m : Nat) (hn : i + n = n1)
    (hm : m ≤ n) (h : ∀ k, i ≤ k → k < i + m → (k < n2 → s.ByteAccessible b2 sp2 (a2 + k) .read) ∧
      s.ByteAccessible b1 sp1 (a1 + k) .write) :
    let k1 := fun j => s.key sp1 (a1 + j)
    let v := mvclByte s sp2 pad a2 n2
    s.moveLong (s.space b1) (s.space b2) pad n (chain k1 v s.mem i) (s.longAt a1 n1 i) (s.longAt a2 n2 i) =
      s.moveLong (s.space b1) (s.space b2) pad (n - m) (chain k1 v s.mem (i + m)) (s.longAt a1 n1 (i + m))
        (s.longAt a2 n2 (i + m)) := by
  intro k1 v
  induction m generalizing n i with
  | zero => simp
  | succ m ih =>
    obtain ⟨n, rfl⟩ : ∃ n', n = n' + 1 := ⟨n - 1, by omega⟩
    obtain ⟨h1, h2⟩ := h i (by omega) (by omega)
    have hst : s.tryStore (s.space b1) (s.longAt a1 n1 i).addr = some (k1 i) := by
      rw [h2.1]
      simp only [State.longAt, show min i n1 = i by omega, State.tryStore, State.trunc_trunc, h2.2, if_true, State.key_trunc, k1]
    rw [State.moveLong, s.moveLong_byte b2 sp2 pad a2 n2 i (chain k1 v s.mem (i - 1)) _ h1]
    dsimp only
    rw [hst]
    dsimp only
    rw [← chain_succ, State.longNext_longAt, State.longNext_longAt,
      ih n (i + 1) (by omega) (by omega) fun k hk hk' => h k (by omega) (by omega)]
    rw [show n + 1 - (m + 1) = n - m by omega, show i + 1 + m = i + (m + 1) by omega]

open Classical in
/-- MVCL where byte `i` is not accessible. -/
theorem State.moveLong_stop (s : State) (b1 b2 : Reg) (sp1 sp2 : Space) (pad : Byte) (a1 n1 a2 n2 n i : Nat) (hi : i < n1)
    (M : List Host.Cell) (hb1 : s.IsSpace b1 sp1) (hb2 : s.IsSpace b2 sp2)
    (h : ¬ ((i < n2 → s.ByteAccessible b2 sp2 (a2 + i) .read) ∧ s.ByteAccessible b1 sp1 (a1 + i) .write)) :
    s.moveLong (s.space b1) (s.space b2) pad (n + 1) M (s.longAt a1 n1 i) (s.longAt a2 n2 i) =
      (M, s.longAt a1 n1 i, s.longAt a2 n2 (if i < n2 → s.ByteAccessible b2 sp2 (a2 + i) .read then i + 1 else i), false) := by
  rw [State.moveLong]
  by_cases hr : i < n2 → s.ByteAccessible b2 sp2 (a2 + i) .read
  · rw [if_pos hr, s.moveLong_byte b2 sp2 pad a2 n2 i M M hr]
    dsimp only
    rw [s.tryStore_none b1 sp1 _ hb1, State.longNext_longAt]
    rw [State.longAt, show min i n1 = i by omega, State.byteAccessible_trunc]
    exact fun hc => h ⟨hr, hc⟩
  · rw [if_neg hr]
    rw [Classical.not_imp] at hr
    rw [if_neg (by rw [State.longAt_left]; omega), s.tryByte_none b2 sp2 _ _ hb2]
    rw [State.longAt, show min i n2 = i by omega, State.byteAccessible_trunc]
    exact hr.2

end Sys2Proof.Machine
end

