-- ==== Sys2Proof/Laws/PerInstr.lean ====
section
/-! SUPPORT. The per-instruction family `EncodeLength`: an encoding is as long as bits 0 and 1 of its first byte say
(30_encoding.md R90), one lemma per constructor. -/

namespace Sys2Proof.Laws.EncodeLength

open Sys2Proof

/-- The length of the encoding of `i` is the one that its first byte tells. -/
def Statement (i : Instr) : Prop :=
  (encode i).length =
    if (encode i).headD 0 < 0x40 then 2 else if (encode i).headD 0 < 0xC0 then 4 else 6

theorem spm (r1 : Reg) : Statement (.spm r1) := rfl
theorem balr (r1 : Reg) (r2 : Reg) : Statement (.balr r1 r2) := rfl
theorem bctr (r1 : Reg) (r2 : Reg) : Statement (.bctr r1 r2) := rfl
theorem bcr (m1 : Mask) (r2 : Reg) : Statement (.bcr m1 r2) := rfl
theorem svc (imm : Byte) : Statement (.svc imm) := rfl
theorem bsm (r1 : Reg) (r2 : Reg) : Statement (.bsm r1 r2) := rfl
theorem bassm (r1 : Reg) (r2 : Reg) : Statement (.bassm r1 r2) := rfl
theorem basr (r1 : Reg) (r2 : Reg) : Statement (.basr r1 r2) := rfl
theorem mvcl (r1 : Reg) (r2 : Reg) : Statement (.mvcl r1 r2) := rfl
theorem clcl (r1 : Reg) (r2 : Reg) : Statement (.clcl r1 r2) := rfl
theorem lpr (r1 : Reg) (r2 : Reg) : Statement (.lpr r1 r2) := rfl
theorem lnr (r1 : Reg) (r2 : Reg) : Statement (.lnr r1 r2) := rfl
theorem ltr (r1 : Reg) (r2 : Reg) : Statement (.ltr r1 r2) := rfl
theorem lcr (r1 : Reg) (r2 : Reg) : Statement (.lcr r1 r2) := rfl
theorem nr (r1 : Reg) (r2 : Reg) : Statement (.nr r1 r2) := rfl
theorem clr (r1 : Reg) (r2 : Reg) : Statement (.clr r1 r2) := rfl
theorem or (r1 : Reg) (r2 : Reg) : Statement (.or r1 r2) := rfl
theorem xr (r1 : Reg) (r2 : Reg) : Statement (.xr r1 r2) := rfl
theorem lr (r1 : Reg) (r2 : Reg) : Statement (.lr r1 r2) := rfl
theorem cr (r1 : Reg) (r2 : Reg) : Statement (.cr r1 r2) := rfl
theorem ar (r1 : Reg) (r2 : Reg) : Statement (.ar r1 r2) := rfl
theorem sr (r1 : Reg) (r2 : Reg) : Statement (.sr r1 r2) := rfl
theorem mr (r1 : Reg) (r2 : Reg) : Statement (.mr r1 r2) := rfl
theorem dr (r1 : Reg) (r2 : Reg) : Statement (.dr r1 r2) := rfl
theorem alr (r1 : Reg) (r2 : Reg) : Statement (.alr r1 r2) := rfl
theorem slr (r1 : Reg) (r2 : Reg) : Statement (.slr r1 r2) := rfl
theorem lpdr (r1 : Reg) (r2 : Reg) : Statement (.lpdr r1 r2) := rfl
theorem lndr (r1 : Reg) (r2 : Reg) : Statement (.lndr r1 r2) := rfl
theorem ltdr (r1 : Reg) (r2 : Reg) : Statement (.ltdr r1 r2) := rfl
theorem lcdr (r1 : Reg) (r2 : Reg) : Statement (.lcdr r1 r2) := rfl
theorem hdr (r1 : Reg) (r2 : Reg) : Statement (.hdr r1 r2) := rfl
theorem lrdr (r1 : Reg) (r2 : Reg) : Statement (.lrdr r1 r2) := rfl
theorem mxr (r1 : Reg) (r2 : Reg) : Statement (.mxr r1 r2) := rfl
theorem mxdr (r1 : Reg) (r2 : Reg) : Statement (.mxdr r1 r2) := rfl
theorem ldr (r1 : Reg) (r2 : Reg) : Statement (.ldr r1 r2) := rfl
theorem cdr (r1 : Reg) (r2 : Reg) : Statement (.cdr r1 r2) := rfl
theorem adr (r1 : Reg) (r2 : Reg) : Statement (.adr r1 r2) := rfl
theorem sdr (r1 : Reg) (r2 : Reg) : Statement (.sdr r1 r2) := rfl
theorem mdr (r1 : Reg) (r2 : Reg) : Statement (.mdr r1 r2) := rfl
theorem ddr (r1 : Reg) (r2 : Reg) : Statement (.ddr r1 r2) := rfl
theorem awr (r1 : Reg) (r2 : Reg) : Statement (.awr r1 r2) := rfl
theorem swr (r1 : Reg) (r2 : Reg) : Statement (.swr r1 r2) := rfl
theorem lper (r1 : Reg) (r2 : Reg) : Statement (.lper r1 r2) := rfl
theorem lner (r1 : Reg) (r2 : Reg) : Statement (.lner r1 r2) := rfl
theorem lter (r1 : Reg) (r2 : Reg) : Statement (.lter r1 r2) := rfl
theorem lcer (r1 : Reg) (r2 : Reg) : Statement (.lcer r1 r2) := rfl
theorem her (r1 : Reg) (r2 : Reg) : Statement (.her r1 r2) := rfl
theorem lrer (r1 : Reg) (r2 : Reg) : Statement (.lrer r1 r2) := rfl
theorem axr (r1 : Reg) (r2 : Reg) : Statement (.axr r1 r2) := rfl
theorem sxr (r1 : Reg) (r2 : Reg) : Statement (.sxr r1 r2) := rfl
theorem ler (r1 : Reg) (r2 : Reg) : Statement (.ler r1 r2) := rfl
theorem cer (r1 : Reg) (r2 : Reg) : Statement (.cer r1 r2) := rfl
theorem aer (r1 : Reg) (r2 : Reg) : Statement (.aer r1 r2) := rfl
theorem ser (r1 : Reg) (r2 : Reg) : Statement (.ser r1 r2) := rfl
theorem mer (r1 : Reg) (r2 : Reg) : Statement (.mer r1 r2) := rfl
theorem der (r1 : Reg) (r2 : Reg) : Statement (.der r1 r2) := rfl
theorem aur (r1 : Reg) (r2 : Reg) : Statement (.aur r1 r2) := rfl
theorem sur (r1 : Reg) (r2 : Reg) : Statement (.sur r1 r2) := rfl
theorem sth (r1 : Reg) (x2 : Reg) (b2 : Reg) (d2 : Disp) : Statement (.sth r1 x2 b2 d2) := rfl
theorem la (r1 : Reg) (x2 : Reg) (b2 : Reg) (d2 : Disp) : Statement (.la r1 x2 b2 d2) := rfl
theorem stc (r1 : Reg) (x2 : Reg) (b2 : Reg) (d2 : Disp) : Statement (.stc r1 x2 b2 d2) := rfl
theorem ic (r1 : Reg) (x2 : Reg) (b2 : Reg) (d2 : Disp) : Statement (.ic r1 x2 b2 d2) := rfl
theorem ex (r1 : Reg) (x2 : Reg) (b2 : Reg) (d2 : Disp) : Statement (.ex r1 x2 b2 d2) := rfl
theorem bal (r1 : Reg) (x2 : Reg) (b2 : Reg) (d2 : Disp) : Statement (.bal r1 x2 b2 d2) := rfl
theorem bct (r1 : Reg) (x2 : Reg) (b2 : Reg) (d2 : Disp) : Statement (.bct r1 x2 b2 d2) := rfl
theorem bc (m1 : Mask) (x2 : Reg) (b2 : Reg) (d2 : Disp) : Statement (.bc m1 x2 b2 d2) := rfl
theorem lh (r1 : Reg) (x2 : Reg) (b2 : Reg) (d2 : Disp) : Statement (.lh r1 x2 b2 d2) := rfl
theorem ch (r1 : Reg) (x2 : Reg) (b2 : Reg) (d2 : Disp) : Statement (.ch r1 x2 b2 d2) := rfl
theorem ah (r1 : Reg) (x2 : Reg) (b2 : Reg) (d2 : Disp) : Statement (.ah r1 x2 b2 d2) := rfl
theorem sh (r1 : Reg) (x2 : Reg) (b2 : Reg) (d2 : Disp) : Statement (.sh r1 x2 b2 d2) := rfl
theorem mh (r1 : Reg) (x2 : Reg) (b2 : Reg) (d2 : Disp) : Statement (.mh r1 x2 b2 d2) := rfl
theorem bas (r1 : Reg) (x2 : Reg) (b2 : Reg) (d2 : Disp) : Statement (.bas r1 x2 b2 d2) := rfl
theorem cvd (r1 : Reg) (x2 : Reg) (b2 : Reg) (d2 : Disp) : Statement (.cvd r1 x2 b2 d2) := rfl
theorem cvb (r1 : Reg) (x2 : Reg) (b2 : Reg) (d2 : Disp) : Statement (.cvb r1 x2 b2 d2) := rfl
theorem st (r1 : Reg) (x2 : Reg) (b2 : Reg) (d2 : Disp) : Statement (.st r1 x2 b2 d2) := rfl
theorem lae (r1 : Reg) (x2 : Reg) (b2 : Reg) (d2 : Disp) : Statement (.lae r1 x2 b2 d2) := rfl
theorem n (r1 : Reg) (x2 : Reg) (b2 : Reg) (d2 : Disp) : Statement (.n r1 x2 b2 d2) := rfl
theorem cl (r1 : Reg) (x2 : Reg) (b2 : Reg) (d2 : Disp) : Statement (.cl r1 x2 b2 d2) := rfl
theorem o (r1 : Reg) (x2 : Reg) (b2 : Reg) (d2 : Disp) : Statement (.o r1 x2 b2 d2) := rfl
theorem x (r1 : Reg) (x2 : Reg) (b2 : Reg) (d2 : Disp) : Statement (.x r1 x2 b2 d2) := rfl
theorem l (r1 : Reg) (x2 : Reg) (b2 : Reg) (d2 : Disp) : Statement (.l r1 x2 b2 d2) := rfl
theorem c (r1 : Reg) (x2 : Reg) (b2 : Reg) (d2 : Disp) : Statement (.c r1 x2 b2 d2) := rfl
theorem a (r1 : Reg) (x2 : Reg) (b2 : Reg) (d2 : Disp) : Statement (.a r1 x2 b2 d2) := rfl
theorem s (r1 : Reg) (x2 : Reg) (b2 : Reg) (d2 : Disp) : Statement (.s r1 x2 b2 d2) := rfl
theorem m (r1 : Reg) (x2 : Reg) (b2 : Reg) (d2 : Disp) : Statement (.m r1 x2 b2 d2) := rfl
theorem d (r1 : Reg) (x2 : Reg) (b2 : Reg) (d2 : Disp) : Statement (.d r1 x2 b2 d2) := rfl
theorem al (r1 : Reg) (x2 : Reg) (b2 : Reg) (d2 : Disp) : Statement (.al r1 x2 b2 d2) := rfl
theorem sl (r1 : Reg) (x2 : Reg) (b2 : Reg) (d2 : Disp) : Statement (.sl r1 x2 b2 d2) := rfl
theorem std (r1 : Reg) (x2 : Reg) (b2 : Reg) (d2 : Disp) : Statement (.std r1 x2 b2 d2) := rfl
theorem mxd (r1 : Reg) (x2 : Reg) (b2 : Reg) (d2 : Disp) : Statement (.mxd r1 x2 b2 d2) := rfl
theorem ld (r1 : Reg) (x2 : Reg) (b2 : Reg) (d2 : Disp) : Statement (.ld r1 x2 b2 d2) := rfl
theorem cd (r1 : Reg) (x2 : Reg) (b2 : Reg) (d2 : Disp) : Statement (.cd r1 x2 b2 d2) := rfl
theorem ad (r1 : Reg) (x2 : Reg) (b2 : Reg) (d2 : Disp) : Statement (.ad r1 x2 b2 d2) := rfl
theorem sd (r1 : Reg) (x2 : Reg) (b2 : Reg) (d2 : Disp) : Statement (.sd r1 x2 b2 d2) := rfl
theorem md (r1 : Reg) (x2 : Reg) (b2 : Reg) (d2 : Disp) : Statement (.md r1 x2 b2 d2) := rfl
theorem dd (r1 : Reg) (x2 : Reg) (b2 : Reg) (d2 : Disp) : Statement (.dd r1 x2 b2 d2) := rfl
theorem aw (r1 : Reg) (x2 : Reg) (b2 : Reg) (d2 : Disp) : Statement (.aw r1 x2 b2 d2) := rfl
theorem sw (r1 : Reg) (x2 : Reg) (b2 : Reg) (d2 : Disp) : Statement (.sw r1 x2 b2 d2) := rfl
theorem ste (r1 : Reg) (x2 : Reg) (b2 : Reg) (d2 : Disp) : Statement (.ste r1 x2 b2 d2) := rfl
theorem le (r1 : Reg) (x2 : Reg) (b2 : Reg) (d2 : Disp) : Statement (.le r1 x2 b2 d2) := rfl
theorem ce (r1 : Reg) (x2 : Reg) (b2 : Reg) (d2 : Disp) : Statement (.ce r1 x2 b2 d2) := rfl
theorem ae (r1 : Reg) (x2 : Reg) (b2 : Reg) (d2 : Disp) : Statement (.ae r1 x2 b2 d2) := rfl
theorem se (r1 : Reg) (x2 : Reg) (b2 : Reg) (d2 : Disp) : Statement (.se r1 x2 b2 d2) := rfl
theorem me (r1 : Reg) (x2 : Reg) (b2 : Reg) (d2 : Disp) : Statement (.me r1 x2 b2 d2) := rfl
theorem de (r1 : Reg) (x2 : Reg) (b2 : Reg) (d2 : Disp) : Statement (.de r1 x2 b2 d2) := rfl
theorem au (r1 : Reg) (x2 : Reg) (b2 : Reg) (d2 : Disp) : Statement (.au r1 x2 b2 d2) := rfl
theorem su (r1 : Reg) (x2 : Reg) (b2 : Reg) (d2 : Disp) : Statement (.su r1 x2 b2 d2) := rfl
theorem bxh (r1 : Reg) (r3 : Reg) (b2 : Reg) (d2 : Disp) : Statement (.bxh r1 r3 b2 d2) := rfl
theorem bxle (r1 : Reg) (r3 : Reg) (b2 : Reg) (d2 : Disp) : Statement (.bxle r1 r3 b2 d2) := rfl
theorem srl (r1 : Reg) (b2 : Reg) (d2 : Disp) : Statement (.srl r1 b2 d2) := rfl
theorem sll (r1 : Reg) (b2 : Reg) (d2 : Disp) : Statement (.sll r1 b2 d2) := rfl
theorem sra (r1 : Reg) (b2 : Reg) (d2 : Disp) : Statement (.sra r1 b2 d2) := rfl
theorem sla (r1 : Reg) (b2 : Reg) (d2 : Disp) : Statement (.sla r1 b2 d2) := rfl
theorem srdl (r1 : Reg) (b2 : Reg) (d2 : Disp) : Statement (.srdl r1 b2 d2) := rfl
theorem sldl (r1 : Reg) (b2 : Reg) (d2 : Disp) : Statement (.sldl r1 b2 d2) := rfl
theorem srda (r1 : Reg) (b2 : Reg) (d2 : Disp) : Statement (.srda r1 b2 d2) := rfl
theorem slda (r1 : Reg) (b2 : Reg) (d2 : Disp) : Statement (.slda r1 b2 d2) := rfl
theorem stm (r1 : Reg) (r3 : Reg) (b2 : Reg) (d2 : Disp) : Statement (.stm r1 r3 b2 d2) := rfl
theorem tm (b1 : Reg) (d1 : Disp) (i2 : Byte) : Statement (.tm b1 d1 i2) := rfl
theorem mvi (b1 : Reg) (d1 : Disp) (i2 : Byte) : Statement (.mvi b1 d1 i2) := rfl
theorem ts (b2 : Reg) (d2 : Disp) : Statement (.ts b2 d2) := rfl
theorem ni (b1 : Reg) (d1 : Disp) (i2 : Byte) : Statement (.ni b1 d1 i2) := rfl
theorem cli (b1 : Reg) (d1 : Disp) (i2 : Byte) : Statement (.cli b1 d1 i2) := rfl
theorem oi (b1 : Reg) (d1 : Disp) (i2 : Byte) : Statement (.oi b1 d1 i2) := rfl
theorem xi (b1 : Reg) (d1 : Disp) (i2 : Byte) : Statement (.xi b1 d1 i2) := rfl
theorem lm (r1 : Reg) (r3 : Reg) (b2 : Reg) (d2 : Disp) : Statement (.lm r1 r3 b2 d2) := rfl
theorem lam (r1 : Reg) (r3 : Reg) (b2 : Reg) (d2 : Disp) : Statement (.lam r1 r3 b2 d2) := rfl
theorem stam (r1 : Reg) (r3 : Reg) (b2 : Reg) (d2 : Disp) : Statement (.stam r1 r3 b2 d2) := rfl
theorem mc (b1 : Reg) (d1 : Disp) (i2 : Byte) : Statement (.mc b1 d1 i2) := rfl
theorem stck (b2 : Reg) (d2 : Disp) : Statement (.stck b2 d2) := rfl
theorem sac (b2 : Reg) (d2 : Disp) : Statement (.sac b2 d2) := rfl
theorem ipm (r1 : Reg) : Statement (.ipm r1) := rfl
theorem iac (r1 : Reg) : Statement (.iac r1) := rfl
theorem dxr (r1 : Reg) (r2 : Reg) : Statement (.dxr r1 r2) := rfl
theorem tar (r1 : Reg) (r2 : Reg) : Statement (.tar r1 r2) := rfl
theorem cpya (r1 : Reg) (r2 : Reg) : Statement (.cpya r1 r2) := rfl
theorem sar (r1 : Reg) (r2 : Reg) : Statement (.sar r1 r2) := rfl
theorem ear (r1 : Reg) (r2 : Reg) : Statement (.ear r1 r2) := rfl
theorem cs (r1 : Reg) (r3 : Reg) (b2 : Reg) (d2 : Disp) : Statement (.cs r1 r3 b2 d2) := rfl
theorem cds (r1 : Reg) (r3 : Reg) (b2 : Reg) (d2 : Disp) : Statement (.cds r1 r3 b2 d2) := rfl
theorem clm (r1 : Reg) (m3 : Mask) (b2 : Reg) (d2 : Disp) : Statement (.clm r1 m3 b2 d2) := rfl
theorem stcm (r1 : Reg) (m3 : Mask) (b2 : Reg) (d2 : Disp) : Statement (.stcm r1 m3 b2 d2) := rfl
theorem icm (r1 : Reg) (m3 : Mask) (b2 : Reg) (d2 : Disp) : Statement (.icm r1 m3 b2 d2) := rfl
theorem mvn (l : Byte) (b1 : Reg) (d1 : Disp) (b2 : Reg) (d2 : Disp) : Statement (.mvn l b1 d1 b2 d2) := rfl
theorem mvc (l : Byte) (b1 : Reg) (d1 : Disp) (b2 : Reg) (d2 : Disp) : Statement (.mvc l b1 d1 b2 d2) := rfl
theorem mvz (l : Byte) (b1 : Reg) (d1 : Disp) (b2 : Reg) (d2 : Disp) : Statement (.mvz l b1 d1 b2 d2) := rfl
theorem nc (l : Byte) (b1 : Reg) (d1 : Disp) (b2 : Reg) (d2 : Disp) : Statement (.nc l b1 d1 b2 d2) := rfl
theorem clc (l : Byte) (b1 : Reg) (d1 : Disp) (b2 : Reg) (d2 : Disp) : Statement (.clc l b1 d1 b2 d2) := rfl
theorem oc (l : Byte) (b1 : Reg) (d1 : Disp) (b2 : Reg) (d2 : Disp) : Statement (.oc l b1 d1 b2 d2) := rfl
theorem xc (l : Byte) (b1 : Reg) (d1 : Disp) (b2 : Reg) (d2 : Disp) : Statement (.xc l b1 d1 b2 d2) := rfl
theorem tr (l : Byte) (b1 : Reg) (d1 : Disp) (b2 : Reg) (d2 : Disp) : Statement (.tr l b1 d1 b2 d2) := rfl
theorem trt (l : Byte) (b1 : Reg) (d1 : Disp) (b2 : Reg) (d2 : Disp) : Statement (.trt l b1 d1 b2 d2) := rfl
theorem ed (l : Byte) (b1 : Reg) (d1 : Disp) (b2 : Reg) (d2 : Disp) : Statement (.ed l b1 d1 b2 d2) := rfl
theorem edmk (l : Byte) (b1 : Reg) (d1 : Disp) (b2 : Reg) (d2 : Disp) : Statement (.edmk l b1 d1 b2 d2) := rfl
theorem srp (l1 : Nibble) (i3 : Nibble) (b1 : Reg) (d1 : Disp) (b2 : Reg) (d2 : Disp) : Statement (.srp l1 i3 b1 d1 b2 d2) := rfl
theorem mvo (l1 : Nibble) (l2 : Nibble) (b1 : Reg) (d1 : Disp) (b2 : Reg) (d2 : Disp) : Statement (.mvo l1 l2 b1 d1 b2 d2) := rfl
theorem pack (l1 : Nibble) (l2 : Nibble) (b1 : Reg) (d1 : Disp) (b2 : Reg) (d2 : Disp) : Statement (.pack l1 l2 b1 d1 b2 d2) := rfl
theorem unpk (l1 : Nibble) (l2 : Nibble) (b1 : Reg) (d1 : Disp) (b2 : Reg) (d2 : Disp) : Statement (.unpk l1 l2 b1 d1 b2 d2) := rfl
theorem zap (l1 : Nibble) (l2 : Nibble) (b1 : Reg) (d1 : Disp) (b2 : Reg) (d2 : Disp) : Statement (.zap l1 l2 b1 d1 b2 d2) := rfl
theorem cp (l1 : Nibble) (l2 : Nibble) (b1 : Reg) (d1 : Disp) (b2 : Reg) (d2 : Disp) : Statement (.cp l1 l2 b1 d1 b2 d2) := rfl
theorem ap (l1 : Nibble) (l2 : Nibble) (b1 : Reg) (d1 : Disp) (b2 : Reg) (d2 : Disp) : Statement (.ap l1 l2 b1 d1 b2 d2) := rfl
theorem sp (l1 : Nibble) (l2 : Nibble) (b1 : Reg) (d1 : Disp) (b2 : Reg) (d2 : Disp) : Statement (.sp l1 l2 b1 d1 b2 d2) := rfl
theorem mp (l1 : Nibble) (l2 : Nibble) (b1 : Reg) (d1 : Disp) (b2 : Reg) (d2 : Disp) : Statement (.mp l1 l2 b1 d1 b2 d2) := rfl
theorem dp (l1 : Nibble) (l2 : Nibble) (b1 : Reg) (d1 : Disp) (b2 : Reg) (d2 : Disp) : Statement (.dp l1 l2 b1 d1 b2 d2) := rfl

end Sys2Proof.Laws.EncodeLength
end

