-- ==== Sys2Proof/Tests/Slice0.lean ====
section
/-! SUPPORT. Tests of one step or one definition each, with the expected results of spec/95_test_vectors.md (worked examples S1 to
S157 of its part 1, vector tables 2.1 to 2.19 of its part 2), and for every statement with hypotheses a state and operands that
meet them. -/

namespace Sys2Proof.Tests

open Machine

/-! ### Ill-formed instructions (30_encoding.md R105, R106) -/

/-- A well-formed neighbour of every ill-formed term below. -/
theorem test_wellFormed_accepts :
    ([.mvcl 2 4, .clcl 14 0, .mr 0 3, .dr 14 15, .lpdr 0 6, .lrdr 2 4, .mxr 0 4, .mxdr 4 6, .axr 4 4, .dxr 0 4, .m 2 0 0 0,
      .d 4 0 0 0, .std 6 0 0 0, .mxd 4 0 0 0, .ste 2 0 0 0, .srdl 2 0 0, .sldl 0 0 0, .srda 4 0 0, .slda 6 0 0, .mc 0 0 15,
      .cds 2 4 0 0, .srp 0 9 0 0 0 0, .mp 8 7 0 0 0 0, .dp 1 0 0 0 0 0] : List Instr).all Instr.wf = true := by decide

/-- An even register number is needed: every position of every instruction that asks for it. -/
theorem test_illFormed_register_pairs :
    ([.mvcl 3 4, .mvcl 4 3, .clcl 3 4, .clcl 4 3, .mr 1 2, .dr 15 2, .m 1 0 0 0, .d 7 0 0 0, .srdl 1 0 0, .sldl 3 0 0,
      .srda 5 0 0, .slda 7 0 0, .cds 5 8 0 0, .cds 6 9 0 0] : List Instr).all (fun i => !i.wf) = true := by decide

/-- A floating-point register number is 0, 2, 4 or 6: R1, and R2 of the register forms. -/
theorem test_illFormed_float_registers :
    ([.lpdr 1 0, .lpdr 0 8, .lndr 3 0, .lndr 0 5, .ltdr 8 0, .ltdr 0 7, .lcdr 5 0, .lcdr 0 1, .hdr 7 0, .hdr 0 9, .ldr 9 0,
      .ldr 0 3, .cdr 1 2, .cdr 2 1, .adr 3 2, .adr 2 3, .sdr 8 2, .sdr 2 8, .mdr 5 2, .mdr 2 5, .ddr 7 2, .ddr 2 7, .awr 9 2,
      .awr 2 9, .swr 11 2, .swr 2 11, .lper 1 0, .lper 0 8, .lner 3 0, .lner 0 5, .lter 8 0, .lter 0 7, .lcer 5 0, .lcer 0 1,
      .her 7 0, .her 0 9, .lrer 1 0, .lrer 0 3, .ler 9 0, .ler 0 3, .cer 1 2, .cer 2 1, .aer 3 2, .aer 2 3, .ser 8 2, .ser 2 8,
      .mer 5 2, .mer 2 5, .der 7 2, .der 2 7, .aur 9 2, .aur 2 9, .sur 11 2, .sur 2 11, .lrdr 1 0, .mxdr 0 1] :
      List Instr).all (fun i => !i.wf) = true := by decide

/-- The same for the RX forms. -/
theorem test_illFormed_float_registers_rx :
    ([.std 1 0 0 0, .ld 3 0 0 0, .cd 5 0 0 0, .ad 7 0 0 0, .sd 8 0 0 0, .md 9 0 0 0, .dd 10 0 0 0, .aw 11 0 0 0, .sw 12 0 0 0,
      .ste 13 0 0 0, .le 14 0 0 0, .ce 15 0 0 0, .ae 1 0 0 0, .se 3 0 0 0, .me 5 0 0 0, .de 7 0 0 0, .au 8 0 0 0,
      .su 9 0 0 0] : List Instr).all (fun i => !i.wf) = true := by decide

/-- An extended operand is in register 0 or 4. -/
theorem test_illFormed_extended_registers :
    ([.lrdr 0 2, .mxr 2 0, .mxr 0 6, .mxdr 6 0, .axr 2 0, .axr 0 2, .sxr 6 0, .sxr 0 6, .mxd 2 0 0 0, .dxr 2 0, .dxr 0 6] :
      List Instr).all (fun i => !i.wf) = true := by decide

/-- The monitor class is at most 15, a rounding digit at most 9, and the second operand of MP and DP at most 8 bytes long and
shorter than the first. -/
theorem test_illFormed_fields :
    ([.mc 0 0 16, .srp 0 10 0 0 0 0, .mp 15 8 0 0 0 0, .mp 3 3 0 0 0 0, .dp 15 8 0 0 0 0, .dp 3 3 0 0 0 0, .mp 0 1 0 0 0 0,
      .dp 0 7 0 0 0 0] : List Instr).all (fun i => !i.wf) = true := by decide

/-! ### Decoding: every instruction's bytes, written out from the encodings of 30_encoding.md R91 to R103, with every ignored bit
set -/

/-- All the rows decode to the instructions beside them. -/
def decodesTo (rows : List (List Byte × Instr)) : Bool :=
  rows.all fun r => (decode r.1).toOption == some r.2

theorem test_decode_rr_1 : decodesTo
    [([0x04, 0x7F], .spm 7), ([0x05, 0xE4], .balr 0xE 4), ([0x06, 0x5C], .bctr 5 0xC), ([0x07, 0xD3], .bcr 0xD 3),
      ([0x0A, 0xA4], .svc 0xA4), ([0x0B, 0xB1], .bsm 0xB 1), ([0x0C, 0x29], .bassm 2 9), ([0x0D, 0xA0], .basr 0xA 0),
      ([0x0E, 0x17], .mvcl 1 7), ([0x0F, 0x8E], .clcl 8 0xE), ([0x10, 0xF6], .lpr 0xF 6), ([0x11, 0x7D], .lnr 7 0xD),
      ([0x12, 0xE4], .ltr 0xE 4), ([0x13, 0x5B], .lcr 5 0xB), ([0x14, 0xC3], .nr 0xC 3), ([0x15, 0x4A], .clr 4 0xA)] = true :=
  by decide

theorem test_decode_rr_2 : decodesTo
    [([0x16, 0xB1], .or 0xB 1), ([0x17, 0x28], .xr 2 8), ([0x18, 0x90], .lr 9 0), ([0x19, 0x17], .cr 1 7),
      ([0x1A, 0x8E], .ar 8 0xE), ([0x1B, 0xF5], .sr 0xF 5), ([0x1C, 0x6D], .mr 6 0xD), ([0x1D, 0xE4], .dr 0xE 4),
      ([0x1E, 0x5B], .alr 5 0xB), ([0x1F, 0xC2], .slr 0xC 2), ([0x20, 0x3A], .lpdr 3 0xA), ([0x21, 0xB1], .lndr 0xB 1),
      ([0x22, 0x28], .ltdr 2 8), ([0x23, 0x9F], .lcdr 9 0xF), ([0x24, 0x07], .hdr 0 7), ([0x25, 0x8E], .lrdr 8 0xE)] = true :=
  by decide

theorem test_decode_rr_3 : decodesTo
    [([0x26, 0xF5], .mxr 0xF 5), ([0x27, 0x6C], .mxdr 6 0xC), ([0x28, 0xD4], .ldr 0xD 4), ([0x29, 0x5B], .cdr 5 0xB),
      ([0x2A, 0xC2], .adr 0xC 2), ([0x2B, 0x39], .sdr 3 9), ([0x2C, 0xA1], .mdr 0xA 1), ([0x2D, 0x28], .ddr 2 8),
      ([0x2E, 0x9F], .awr 9 0xF), ([0x2F, 0x06], .swr 0 6), ([0x30, 0x7E], .lper 7 0xE), ([0x31, 0xF5], .lner 0xF 5),
      ([0x32, 0x6C], .lter 6 0xC), ([0x33, 0xD3], .lcer 0xD 3), ([0x34, 0x4B], .her 4 0xB), ([0x35, 0xC2], .lrer 0xC 2)] = true :=
  by decide

theorem test_decode_rr_4 : decodesTo
    [([0x36, 0x39], .axr 3 9), ([0x37, 0xA0], .sxr 0xA 0), ([0x38, 0x18], .ler 1 8), ([0x39, 0x9F], .cer 9 0xF),
      ([0x3A, 0x06], .aer 0 6), ([0x3B, 0x7D], .ser 7 0xD), ([0x3C, 0xE5], .mer 0xE 5), ([0x3D, 0x6C], .der 6 0xC),
      ([0x3E, 0xD3], .aur 0xD 3), ([0x3F, 0x4A], .sur 4 0xA)] = true :=
  by decide

theorem test_decode_rx_1 : decodesTo
    [([0x40, 0xB2, 0x8F, 0xEE], .sth 0xB 2 8 0xFEE), ([0x41, 0x39, 0xFB, 0x75], .la 3 9 0xF 0xB75),
      ([0x42, 0xA0, 0x66, 0xFD], .stc 0xA 0 6 0x6FD), ([0x43, 0x17, 0xE2, 0x84], .ic 1 7 0xE 0x284),
      ([0x44, 0x8F, 0x5E, 0x0B], .ex 8 0xF 5 0xE0B), ([0x45, 0x06, 0xC9, 0x92], .bal 0 6 0xC 0x992),
      ([0x46, 0x7D, 0x35, 0x1A], .bct 7 0xD 3 0x51A), ([0x47, 0xE4, 0xB0, 0xA1], .bc 0xE 4 0xB 0xA1),
      ([0x48, 0x5C, 0x2C, 0x28], .lh 5 0xC 2 0xC28), ([0x49, 0xD3, 0x97, 0xAF], .ch 0xD 3 9 0x7AF),
      ([0x4A, 0x4A, 0x03, 0x37], .ah 4 0xA 0 0x337), ([0x4B, 0xB1, 0x8E, 0xBE], .sh 0xB 1 8 0xEBE),
      ([0x4C, 0x29, 0xFA, 0x45], .mh 2 9 0xF 0xA45), ([0x4D, 0xA0, 0x65, 0xCC], .bas 0xA 0 6 0x5CC),
      ([0x4E, 0x17, 0xD1, 0x54], .cvd 1 7 0xD 0x154), ([0x4F, 0x8E, 0x5C, 0xDB], .cvb 8 0xE 5 0xCDB)] = true :=
  by decide

theorem test_decode_rx_2 : decodesTo
    [([0x50, 0xF6, 0xC8, 0x62], .st 0xF 6 0xC 0x862), ([0x51, 0x7D, 0x33, 0xE9], .lae 7 0xD 3 0x3E9),
      ([0x54, 0xE4, 0xAF, 0x71], .n 0xE 4 0xA 0xF71), ([0x55, 0x5B, 0x2A, 0xF8], .cl 5 0xB 2 0xAF8),
      ([0x56, 0xC3, 0x96, 0x7F], .o 0xC 3 9 0x67F), ([0x57, 0x4A, 0x02, 0x06], .x 4 0xA 0 0x206),
      ([0x58, 0xB1, 0x7D, 0x8E], .l 0xB 1 7 0xD8E), ([0x59, 0x28, 0xF9, 0x15], .c 2 8 0xF 0x915),
      ([0x5A, 0x90, 0x64, 0x9C], .a 9 0 6 0x49C), ([0x5B, 0x17, 0xD0, 0x23], .s 1 7 0xD 0x23),
      ([0x5C, 0x8E, 0x4B, 0xAB], .m 8 0xE 4 0xBAB), ([0x5D, 0xF5, 0xC7, 0x32], .d 0xF 5 0xC 0x732),
      ([0x5E, 0x6D, 0x32, 0xB9], .al 6 0xD 3 0x2B9), ([0x5F, 0xE4, 0xAE, 0x40], .sl 0xE 4 0xA 0xE40),
      ([0x60, 0x5B, 0x19, 0xC8], .std 5 0xB 1 0x9C8), ([0x67, 0xC2, 0x95, 0x4F], .mxd 0xC 2 9 0x54F)] = true :=
  by decide

theorem test_decode_rx_3 : decodesTo
    [([0x68, 0x3A, 0x00, 0xD6], .ld 3 0xA 0 0xD6), ([0x69, 0xB1, 0x7C, 0x5D], .cd 0xB 1 7 0xC5D),
      ([0x6A, 0x28, 0xE7, 0xE5], .ad 2 8 0xE 0x7E5), ([0x6B, 0x9F, 0x63, 0x6C], .sd 9 0xF 6 0x36C),
      ([0x6C, 0x07, 0xDE, 0xF3], .md 0 7 0xD 0xEF3), ([0x6D, 0x8E, 0x4A, 0x7A], .dd 8 0xE 4 0xA7A),
      ([0x6E, 0xF5, 0xB6, 0x02], .aw 0xF 5 0xB 0x602), ([0x6F, 0x6C, 0x31, 0x89], .sw 6 0xC 3 0x189),
      ([0x70, 0xD4, 0xAD, 0x10], .ste 0xD 4 0xA 0xD10), ([0x78, 0x5B, 0x18, 0x97], .le 5 0xB 1 0x897),
      ([0x79, 0xC2, 0x84, 0x1F], .ce 0xC 2 8 0x41F), ([0x7A, 0x39, 0x0F, 0xA6], .ae 3 9 0 0xFA6),
      ([0x7B, 0xA1, 0x7B, 0x2D], .se 0xA 1 7 0xB2D), ([0x7C, 0x28, 0xE6, 0xB4], .me 2 8 0xE 0x6B4),
      ([0x7D, 0x9F, 0x52, 0x3C], .de 9 0xF 5 0x23C), ([0x7E, 0x06, 0xDD, 0xC3], .au 0 6 0xD 0xDC3)] = true :=
  by decide

theorem test_decode_rx_4 : decodesTo
    [([0x7F, 0x7E, 0x49, 0x4A], .su 7 0xE 4 0x94A)] = true :=
  by decide

theorem test_decode_rs_1 : decodesTo
    [([0x86, 0xF5, 0xB4, 0xD1], .bxh 0xF 5 0xB 0x4D1), ([0x87, 0x6C, 0x20, 0x59], .bxle 6 0xC 2 0x59),
      ([0x88, 0xDF, 0x39, 0x4A], .srl 0xD 3 0x94A), ([0x89, 0x4F, 0xB4, 0xD1], .sll 4 0xB 0x4D1),
      ([0x8A, 0xCF, 0x20, 0x58], .sra 0xC 2 0x58), ([0x8B, 0x3F, 0x9B, 0xDF], .sla 3 9 0xBDF),
      ([0x8C, 0xAF, 0x07, 0x67], .srdl 0xA 0 0x767), ([0x8D, 0x1F, 0x82, 0xEE], .sldl 1 8 0x2EE),
      ([0x8E, 0x9F, 0xFE, 0x75], .srda 9 0xF 0xE75), ([0x8F, 0x0F, 0x69, 0xFC], .slda 0 6 0x9FC),
      ([0x90, 0x7D, 0x48, 0x1A], .stm 7 0xD 4 0x81A), ([0x98, 0x17, 0xE4, 0x54], .lm 1 7 0xE 0x454),
      ([0x9A, 0x8F, 0x5F, 0xDB], .lam 8 0xF 5 0xFDB), ([0x9B, 0x06, 0xCB, 0x62], .stam 0 6 0xC 0xB62),
      ([0xBA, 0xF6, 0xCA, 0x32], .cs 0xF 6 0xC 0xA32), ([0xBB, 0x7D, 0x35, 0xB9], .cds 7 0xD 3 0x5B9)] = true :=
  by decide

theorem test_decode_rs_2 : decodesTo
    [([0xBD, 0xE4, 0xA1, 0x41], .clm 0xE 4 0xA 0x141), ([0xBE, 0x5B, 0x2C, 0xC8], .stcm 5 0xB 2 0xCC8),
      ([0xBF, 0xC3, 0x98, 0x4F], .icm 0xC 3 9 0x84F)] = true :=
  by decide

theorem test_decode_si : decodesTo
    [([0x91, 0xDE, 0x51, 0x0B], .tm 5 0x10B 0xDE), ([0x92, 0x66, 0xCC, 0x92], .mvi 0xC 0xC92 0x66),
      ([0x94, 0x74, 0xA3, 0xA1], .ni 0xA 0x3A1 0x74), ([0x95, 0xFB, 0x2F, 0x28], .cli 2 0xF28 0xFB),
      ([0x96, 0x83, 0x9A, 0xAF], .oi 9 0xAAF 0x83), ([0x97, 0x0A, 0x06, 0x36], .xi 0 0x636 0xA),
      ([0xAF, 0x27, 0xD4, 0x53], .mc 0xD 0x453 0x27)] = true :=
  by decide

theorem test_decode_s : decodesTo
    [([0x93, 0xFF, 0xD5, 0x83], .ts 0xD 0x583), ([0xB2, 0x05, 0xED, 0x44], .stck 0xE 0xD44),
      ([0xB2, 0x19, 0x58, 0xCC], .sac 5 0x8CC)] = true :=
  by decide

theorem test_decode_rre : decodesTo
    [([0xB2, 0x22, 0xFF, 0xDF], .ipm 0xD), ([0xB2, 0x24, 0xFF, 0x4F], .iac 4), ([0xB2, 0x2D, 0xFF, 0xB1], .dxr 0xB 1),
      ([0xB2, 0x4C, 0xFF, 0x29], .tar 2 9), ([0xB2, 0x4D, 0xFF, 0xA0], .cpya 0xA 0),
      ([0xB2, 0x4E, 0xFF, 0x17], .sar 1 7), ([0xB2, 0x4F, 0xFF, 0x8E], .ear 8 0xE)] = true :=
  by decide

theorem test_decode_ss_1 : decodesTo
    [([0xD1, 0x14, 0xA1, 0x40, 0x66, 0x6D], .mvn 0x14 0xA 0x140 6 0x66D),
      ([0xD2, 0x9B, 0x1C, 0xC7, 0xE1, 0xF4], .mvc 0x9B 1 0xCC7 0xE 0x1F4),
      ([0xD3, 0x22, 0x88, 0x4F, 0x5D, 0x7B], .mvz 0x22 8 0x84F 5 0xD7B),
      ([0xD4, 0xA9, 0x03, 0xD6, 0xC9, 0x02], .nc 0xA9 0 0x3D6 0xC 0x902),
      ([0xD5, 0x31, 0x7F, 0x5D, 0x34, 0x8A], .clc 0x31 7 0xF5D 3 0x48A),
      ([0xD6, 0xB8, 0xEA, 0xE4, 0xB0, 0x11], .oc 0xB8 0xE 0xAE4 0xB 0x11),
      ([0xD7, 0x3F, 0x56, 0x6C, 0x2B, 0x98], .xc 0x3F 5 0x66C 2 0xB98),
      ([0xDC, 0xC6, 0xD1, 0xF3, 0x97, 0x1F], .tr 0xC6 0xD 0x1F3 9 0x71F),
      ([0xDD, 0x4E, 0x4D, 0x7A, 0x02, 0xA7], .trt 0x4E 4 0xD7A 0 0x2A7),
      ([0xDE, 0xD5, 0xB9, 0x01, 0x8E, 0x2E], .ed 0xD5 0xB 0x901 8 0xE2E),
      ([0xDF, 0x5C, 0x24, 0x89, 0xF9, 0xB5], .edmk 0x5C 2 0x489 0xF 0x9B5),
      ([0xF0, 0x3A, 0x02, 0xA6, 0xC7, 0xD3], .srp 3 0xA 0 0x2A6 0xC 0x7D3),
      ([0xF1, 0xB1, 0x7E, 0x2D, 0x43, 0x5A], .mvo 0xB 1 7 0xE2D 4 0x35A),
      ([0xF2, 0x28, 0xE9, 0xB5, 0xBE, 0xE1], .pack 2 8 0xE 0x9B5 0xB 0xEE1),
      ([0xF3, 0x9F, 0x65, 0x3C, 0x2A, 0x68], .unpk 9 0xF 6 0x53C 2 0xA68),
      ([0xF8, 0x07, 0xD0, 0xC3, 0x95, 0xF0], .zap 0 7 0xD 0xC3 9 0x5F0)] = true :=
  by decide

theorem test_decode_ss_2 : decodesTo
    [([0xF9, 0x8E, 0x4C, 0x4A, 0x11, 0x77], .cp 8 0xE 4 0xC4A 1 0x177),
      ([0xFA, 0xF5, 0xB7, 0xD2, 0x8C, 0xFE], .ap 0xF 5 0xB 0x7D2 8 0xCFE),
      ([0xFB, 0x6C, 0x33, 0x59, 0xF8, 0x85], .sp 6 0xC 3 0x359 0xF 0x885),
      ([0xFC, 0xD4, 0xAE, 0xE0, 0x64, 0x0D], .mp 0xD 4 0xA 0xEE0 6 0x40D),
      ([0xFD, 0x5B, 0x1A, 0x67, 0xEF, 0x94], .dp 5 0xB 1 0xA67 0xE 0xF94)] = true :=
  by decide

/-- Bytes that begin no instruction are rejected by their operation code, and an instruction cut short is rejected. -/
theorem test_decode_rejects :
    [[0x00, 0x00], [0x3F], [0x44, 0x00, 0x00], [0x52, 0x00, 0x00, 0x00], [0xB2, 0xFF, 0x00, 0x00], [0xB2], [0xD2, 0, 0, 0, 0],
      [0xE0, 0, 0, 0, 0, 0], []].all (fun bs => (decode bs).toOption.isNone) = true := by decide

/-- The decoder on a row of spec/opcode_table.json: IPM with R1 = 11, and a code that is none. -/
theorem test_decodeTableWord :
    decodeTableWord 32 0xB22200B0 = some (.ipm 11) ∧ decodeTableWord 16 0x1A34 = some (.ar 3 4) ∧
      decodeTableWord 48 0xD2FF20014003 = some (.mvc 0xFF 2 1 4 3) ∧ decodeTableWord 32 0xB2000000 = none := by decide

/-! ### One step on a small state -/

/-- One page that may be read, and written and executed if `w`. -/
def page (sp : Space) (p : Nat) (w : Bool) : PageEntry :=
  { space := sp, page := p, read := true, write := w, fetch := w }

/-- The machine at program start with three pages, the third of which may only be read, and condition code 1. -/
def start : State :=
  { State.reset with
    ia := 0x1000
    cc := 1
    alloc := [page .program 0 true, page .program 1 true, page .program 2 false] }

/-- The same with an access list: ALET X'00010003' stands for a data space that has one page. -/
def startEsa (tarCc2 : Bool) : State :=
  { start with
    alloc := page (.data 5) 0 true :: start.alloc
    accessList := [{ alet := 0x10003, space := .data 5, tarCc2 := tarCc2 }] }

/-- The state after one step, with the bytes of an instruction stored at the instruction address. -/
def ran (code : List Byte) (s : State) : State :=
  match step (s.putBytes .program s.ia.toNat code) with
  | .next t => t
  | _ => s

/-- The host's placing of an instruction: AR 3,4 right after reset. -/
theorem test_withFetchWord :
    step (State.reset.withFetchWord 16 0x1A34) =
      exec (.ar 3 4) (State.reset.withFetchWord 16 0x1A34) := by rfl

/-- Vector table 2.1. -/
theorem test_ar_overflow :
    let t := ran [0x1A, 0x34] ((start.setGr 3 0x7FFFFFFF).setGr 4 1)
    t.getGr 3 = 0x80000000 ∧ t.cc = 3 ∧ t.control = .interrupt .fixedPointOverflow ∧ t.ia = 0x1002 := by decide

/-- Vector table 2.1. -/
theorem test_a_overflow_masked :
    let t := ran [0x5A, 0x30, 8, 0] { (start.setGr 3 0x7FFFFFFF).putBytes .program 0x800 [0, 0, 0, 1] with pm := 7 }
    t.getGr 3 = 0x80000000 ∧ t.cc = 3 ∧ t.ia = 0x1004 := by decide

/-- Vector table 2.1. -/
theorem test_ah_overflow :
    let t := ran [0x4A, 0x30, 8, 0] ((start.setGr 3 0x7FFFFFFF).putBytes .program 0x800 [0x7F, 0xFF])
    t.getGr 3 = 0x80007FFE ∧ t.cc = 3 ∧ t.control = .interrupt .fixedPointOverflow := by decide

/-- Vector table 2.1. -/
theorem test_sr_overflow :
    let t := ran [0x1B, 0x34] ((start.setGr 3 0).setGr 4 0x80000000)
    t.getGr 3 = 0x80000000 ∧ t.cc = 3 ∧ t.control = .interrupt .fixedPointOverflow ∧ t.ia = 0x1002 := by decide

/-- Vector table 2.1. -/
theorem test_sh_negative :
    let t := ran [0x4B, 0x30, 8, 0] ((start.setGr 3 0x80000000).putBytes .program 0x800 [0x80, 0])
    t.getGr 3 = 0x80008000 ∧ t.cc = 1 ∧ t.control = .program := by decide

/-- Vector table 2.2. -/
theorem test_alr_carry :
    let t := ran [0x1E, 0x34] ((start.setGr 3 0xFFFFFFFF).setGr 4 0xFFFFFFFF)
    t.getGr 3 = 0xFFFFFFFE ∧ t.cc = 3 ∧ t.ia = 0x1002 := by decide

/-- Vector table 2.2. -/
theorem test_sl_borrow :
    let t := ran [0x5F, 0x30, 8, 0] ((start.setGr 3 0).putBytes .program 0x800 [0, 0, 0, 1])
    t.getGr 3 = 0xFFFFFFFF ∧ t.cc = 1 ∧ t.ia = 0x1004 := by decide

/-- Vector table 2.2. -/
theorem test_slr_zero :
    let t := ran [0x1F, 0x34] ((start.setGr 3 5).setGr 4 5)
    t.getGr 3 = 0 ∧ t.cc = 2 ∧ t.ia = 0x1002 := by decide

/-- Vector table 2.3. -/
theorem test_cr_signed :
    let t := ran [0x19, 0x12] ((start.setGr 1 0x80000000).setGr 2 0x7FFFFFFF)
    t.cc = 1 ∧ t.control = .program := by decide

/-- Vector table 2.3. -/
theorem test_clr_unsigned :
    let t := ran [0x15, 0x12] ((start.setGr 1 0x80000000).setGr 2 0x7FFFFFFF)
    t.cc = 2 ∧ t.control = .program := by decide

/-- Vector table 2.3. -/
theorem test_clm_mask :
    let t := ran [0xBD, 0x36, 8, 0] ((start.setGr 3 0x11223344).putBytes .program 0x800 [0x22, 0x34])
    t.cc = 1 ∧ t.control = .program := by decide

/-- Example S12. -/
theorem test_clc_high :
    let t := ran [0xD5, 1, 8, 0, 8, 0x10] ((start.putBytes .program 0x800 [0xC1, 0xC3]).putBytes .program 0x810 [0xC1,
      0xC2])
    t.cc = 2 ∧ t.control = .program := by decide

/-- Vector table 2.3. -/
theorem test_clcl_pad :
    let t := ran [0xF, 0x24] (((((start.setGr 2 0xFF000800).setGr 3 2).setGr 4 0x900).setGr 5 0xC2000000).putBytes
      .program 0x800 [0xC1, 0xC2])
    t.getGr 2 = 0x800 ∧ t.getGr 4 = 0x900 ∧ t.cc = 1 ∧ t.control = .program := by decide

/-- Vector table 2.4. -/
theorem test_lcr_overflow :
    let t := ran [0x13, 0x65] ((start.setGr 5 0x80000000).setGr 6 0x63)
    t.getGr 6 = 0x80000000 ∧ t.cc = 3 ∧ t.control = .interrupt .fixedPointOverflow := by decide

/-- Example S26. -/
theorem test_lpr_complement :
    let t := ran [0x10, 0x65] ((start.setGr 5 0xFFFFFFFF).setGr 6 0x63)
    t.getGr 6 = 1 ∧ t.cc = 2 ∧ t.control = .program := by decide

/-- Vector table 2.4. -/
theorem test_lnr :
    let t := ran [0x11, 0x65] ((start.setGr 5 0x7FFFFFFF).setGr 6 0x63)
    t.getGr 6 = 0x80000001 ∧ t.cc = 1 ∧ t.control = .program := by decide

/-- Vector table 2.4. -/
theorem test_lh_sign :
    let t := ran [0x48, 0x10, 8, 0] (start.putBytes .program 0x800 [0x80, 0])
    t.getGr 1 = 0xFFFF8000 ∧ t.cc = 1 ∧ t.control = .program := by decide

/-- Vector table 2.4. -/
theorem test_la_wraps :
    let t := ran [0x41, 0x12, 0x30, 0] (((start.setGr 1 5).setGr 2 0xFF000001).setGr 3 0xFFFFFF)
    t.getGr 1 = 0 ∧ t.cc = 1 ∧ t.control = .program := by decide

/-- Vector table 2.4. -/
theorem test_lm_wraps :
    let t := ran [0x98, 0xE1, 8, 0] (start.putBytes .program 0x800 [0, 0, 0, 0x11, 0, 0, 0, 0x22, 0, 0, 0, 0x33, 0, 0,
      0, 0x44])
    t.getGr 14 = 0x11 ∧ t.getGr 15 = 0x22 ∧ t.getGr 0 = 0x33 ∧ t.getGr 1 = 0x44 ∧ t.cc = 1 ∧ t.control = .program :=
  by decide

/-- Vector table 2.4. -/
theorem test_icm_two_bytes :
    let t := ran [0xBF, 0x5A, 8, 0] ((start.setGr 5 0x11223344).putBytes .program 0x800 [0xAA, 0xBB])
    t.getGr 5 = 0xAA22BB44 ∧ t.cc = 1 ∧ t.control = .program := by decide

/-- Vector table 2.4. -/
theorem test_icm_zero_mask :
    let t := ran [0xBF, 0x50, 8, 0] (start.setGr 5 0x11223344)
    t.cc = 0 ∧ t.control = .program := by decide

/-- Vector table 2.5. -/
theorem test_sla_lost_zero :
    let t := ran [0x8B, 0, 0, 0x20] (start.setGr 0 0xFFFFFFFF)
    t.getGr 0 = 0x80000000 ∧ t.cc = 3 ∧ t.control = .interrupt .fixedPointOverflow := by decide

/-- Example S70. -/
theorem test_sla_sign_kept :
    let t := ran [0x8B, 0, 0, 1] (start.setGr 0 0x80000000)
    t.getGr 0 = 0x80000000 ∧ t.cc = 3 ∧ t.control = .interrupt .fixedPointOverflow := by decide

/-- Vector table 2.5. -/
theorem test_sra_rounds_down :
    let t := ran [0x8A, 0, 0, 1] (start.setGr 0 0xFFFFFFF9)
    t.getGr 0 = 0xFFFFFFFC ∧ t.cc = 1 ∧ t.control = .program := by decide

/-- Vector table 2.5. -/
theorem test_slda_overflow :
    let t := ran [0x8F, 0, 0, 1] ((start.setGr 0 0xBFFFFFFF).setGr 1 0xFFFFFFFF)
    t.getGr 0 = 0xFFFFFFFF ∧ t.getGr 1 = 0xFFFFFFFE ∧ t.cc = 3 ∧ t.control = .interrupt .fixedPointOverflow := by decide

/-- Vector table 2.5. -/
theorem test_srda_sign :
    let t := ran [0x8E, 0, 0, 0x20] ((start.setGr 0 0x80000000).setGr 1 0)
    t.getGr 0 = 0xFFFFFFFF ∧ t.getGr 1 = 0x80000000 ∧ t.cc = 1 ∧ t.control = .program := by decide

/-- Vector table 2.5. -/
theorem test_sll_amount_mod_64 :
    let t := ran [0x89, 0x10, 0x20, 0] ((start.setGr 1 1).setGr 2 0x44)
    t.getGr 1 = 0x10 ∧ t.cc = 1 ∧ t.control = .program := by decide

/-- Example S84. -/
theorem test_srl :
    let t := ran [0x88, 0, 0, 2] (start.setGr 0 0xFFFFFFFB)
    t.getGr 0 = 0x3FFFFFFE ∧ t.cc = 1 ∧ t.control = .program := by decide

/-- Example S76. -/
theorem test_sldl :
    let t := ran [0x8D, 0, 0, 0x1F] ((start.setGr 0 0).setGr 1 0xFFFFFFFF)
    t.getGr 0 = 0x7FFFFFFF ∧ t.getGr 1 = 0x80000000 ∧ t.cc = 1 ∧ t.control = .program := by decide

/-- Example S82. -/
theorem test_srdl :
    let t := ran [0x8C, 0, 0, 2] ((start.setGr 0 0xFFFFFFFF).setGr 1 0xFFFFFFFB)
    t.getGr 0 = 0x3FFFFFFF ∧ t.getGr 1 = 0xFFFFFFFE ∧ t.cc = 1 ∧ t.control = .program := by decide

/-- Vector table 2.6. -/
theorem test_mr_source_is_destination :
    let t := ran [0x1C, 0] ((start.setGr 0 5).setGr 1 3)
    t.getGr 0 = 0 ∧ t.getGr 1 = 0xF ∧ t.cc = 1 ∧ t.control = .program := by decide

/-- Example S31. -/
theorem test_m_limits :
    let t := ran [0x5C, 0, 8, 0] (((start.setGr 0 0x4D).setGr 1 0x7FFFFFFF).putBytes .program 0x800 [0x80, 0, 0, 0])
    t.getGr 0 = 0xC0000000 ∧ t.getGr 1 = 0x80000000 ∧ t.cc = 1 ∧ t.control = .program := by decide

/-- Vector table 2.6. -/
theorem test_mh_truncates :
    let t := ran [0x4C, 0x30, 8, 0] ((start.setGr 3 0x10003).putBytes .program 0x800 [0x7F, 0xFF])
    t.getGr 3 = 0x80007FFD ∧ t.cc = 1 ∧ t.control = .program := by decide

/-- Vector table 2.6. -/
theorem test_dr_truncates :
    let t := ran [0x1D, 0x24] (((start.setGr 2 0xFFFFFFFF).setGr 3 0xFFFFFFF9).setGr 4 2)
    t.getGr 2 = 0xFFFFFFFF ∧ t.getGr 3 = 0xFFFFFFFD ∧ t.cc = 1 ∧ t.control = .program := by decide

/-- Vector table 2.6; and R202's sentence on R1 = R2, for operands whose quotient would be 1. -/
theorem test_dr_quotient_too_large :
    let t := ran [0x1D, 0x24] (((start.setGr 2 0).setGr 3 0x80000000).setGr 4 1)
    let u := ran [0x1D, 0x22] ((start.setGr 2 0xFFFFFFFF).setGr 3 0xFFFFFFFF)
    (t.getGr 2 = 0 ∧ t.getGr 3 = 0x80000000 ∧ t.cc = 1 ∧ t.control = .interrupt .division ∧ t.ia = 0x1000) ∧
      u.getGr 2 = 0xFFFFFFFF ∧ u.getGr 3 = 0xFFFFFFFF ∧ u.control = .interrupt .division ∧ u.ia = 0x1000 := by decide

/-- Vector table 2.6. -/
theorem test_d_limits :
    let t := ran [0x5D, 0x20, 8, 0] (((start.setGr 2 0x3FFFFFFF).setGr 3 0x7FFFFFFF).putBytes .program 0x800 [0x7F,
      0xFF, 0xFF, 0xFF])
    t.getGr 2 = 0x7FFFFFFE ∧ t.getGr 3 = 0x7FFFFFFF ∧ t.cc = 1 ∧ t.control = .program := by decide

/-- Example S42. -/
theorem test_cvd_negative :
    let t := ran [0x4E, 0x30, 8, 0] (start.setGr 3 0xFFFFFF01)
    t.getBytes .program 0x800 8 = [0, 0, 0, 0, 0, 0, 0x25, 0x5D] ∧ t.cc = 1 ∧ t.control = .program := by decide

/-- Vector table 2.7. -/
theorem test_cvb_too_large :
    let t := ran [0x4F, 0x30, 8, 0] ((start.setGr 3 0x4D).putBytes .program 0x800 [0, 0, 2, 0x14, 0x74, 0x83, 0x64,
      0x8C])
    t.getGr 3 = 0x80000000 ∧ t.cc = 1 ∧ t.control = .interrupt .division ∧ t.ia = 0x1004 := by decide

/-- Vector table 2.7. -/
theorem test_cvb_digit :
    let t := ran [0x4F, 0x30, 8, 0] ((start.setGr 3 0x4D).putBytes .program 0x800 [0, 0, 0, 0, 0, 0, 0x12, 0xAC])
    t.cc = 1 ∧ t.control = .interrupt .data ∧ t.ia = 0x1000 := by decide

/-- Example S27. -/
theorem test_stcm_bytes :
    let t := ran [0xBE, 0x15, 8, 1] ((start.setGr 1 0x12345678).putBytes .program 0x800 [0xFF, 0xFF, 0xFF, 0xFF, 0xFF,
      0xFF])
    t.getBytes .program 0x800 6 = [0xFF, 0x34, 0x78, 0xFF, 0xFF, 0xFF] ∧ t.cc = 1 ∧ t.control = .program := by decide

/-- Vector table 2.8. -/
theorem test_stm_wraps :
    let t := ran [0x90, 0xE1, 8, 0] ((((start.setGr 14 1).setGr 15 2).setGr 0 3).setGr 1 4)
    t.getBytes .program 0x800 16 = [0, 0, 0, 1, 0, 0, 0, 2, 0, 0, 0, 3, 0, 0, 0, 4] ∧ t.cc = 1 ∧ t.control = .program :=
  by decide

/-- Vector table 2.8. -/
theorem test_sth :
    let t := ran [0x40, 0x10, 8, 0] ((start.setGr 1 0x12345678).putBytes .program 0x800 [0xFF, 0xFF, 0xFF])
    t.getBytes .program 0x800 3 = [0x56, 0x78, 0xFF] ∧ t.cc = 1 ∧ t.control = .program := by decide

/-- Vector table 2.8. -/
theorem test_tm_mixed :
    let t := ran [0x91, 0xFF, 8, 0] (start.putBytes .program 0x800 [1])
    t.cc = 1 ∧ t.control = .program := by decide

/-- Vector table 2.8. -/
theorem test_ts :
    let t := ran [0x93, 0xAB, 8, 0] (start.putBytes .program 0x800 [0x80])
    t.getBytes .program 0x800 1 = [0xFF] ∧ t.cc = 1 ∧ t.control = .program := by decide

/-- Example S20. -/
theorem test_spm :
    let t := ran [4, 0x21] (start.setGr 2 0x3C000000)
    t.cc = 3 ∧ t.pm = 0xC ∧ t.control = .program := by decide

/-- Vector table 2.8. -/
theorem test_ipm :
    let t := ran [0xB2, 0x22, 0xFF, 0x2F] { start.setGr 2 0xFFFFFFFF with pm := 0xA }
    t.getGr 2 = 0x1AFFFFFF ∧ t.cc = 1 ∧ t.control = .program := by decide

/-- Vector table 2.8. -/
theorem test_mc_class :
    let t := ran [0xAF, 0x10, 8, 0] start
    t.cc = 1 ∧ t.control = .interrupt .addressing ∧ t.ia = 0x1000 := by decide

/-- Vector table 2.8. -/
theorem test_svc :
    let t := ran [0xA, 5] start
    t.cc = 1 ∧ t.control = .supervisor 5 ∧ t.ia = 0x1002 := by decide

/-- Vector table 2.9. -/
theorem test_mvc_propagates :
    let t := ran [0xD2, 2, 8, 1, 8, 0] (start.putBytes .program 0x800 [0x11, 0x22, 0x33, 0x44])
    t.getBytes .program 0x800 4 = [0x11, 0x11, 0x11, 0x11] ∧ t.cc = 1 ∧ t.control = .program := by decide

/-- Vector table 2.9. -/
theorem test_mvn :
    let t := ran [0xD1, 1, 8, 0, 9, 0] ((start.putBytes .program 0x800 [0xAB, 0xCD]).putBytes .program 0x900 [0x12,
      0x34])
    t.getBytes .program 0x800 2 = [0xA2, 0xC4] ∧ t.cc = 1 ∧ t.control = .program := by decide

/-- Vector table 2.9. -/
theorem test_mvz :
    let t := ran [0xD3, 1, 8, 0, 9, 0] ((start.putBytes .program 0x800 [0xAB, 0xCD]).putBytes .program 0x900 [0x12,
      0x34])
    t.getBytes .program 0x800 2 = [0x1B, 0x3D] ∧ t.cc = 1 ∧ t.control = .program := by decide

/-- Vector table 2.9. -/
theorem test_xc_overlap :
    let t := ran [0xD7, 1, 8, 1, 8, 0] (start.putBytes .program 0x800 [0xF, 0xF0, 0x55])
    t.getBytes .program 0x800 3 = [0xF, 0xFF, 0xAA] ∧ t.cc = 1 ∧ t.control = .program := by decide

/-- Vector table 2.9. -/
theorem test_xi :
    let t := ran [0x97, 0xFF, 8, 0] (start.putBytes .program 0x800 [0xA5])
    t.getBytes .program 0x800 1 = [0x5A] ∧ t.cc = 1 ∧ t.control = .program := by decide

/-- Vector table 2.9. -/
theorem test_mvo :
    let t := ran [0xF1, 0x31, 8, 0, 9, 0] ((start.putBytes .program 0x800 [0x12, 0x34, 0x56, 0x7C]).putBytes .program
      0x900 [0x98, 0x76])
    t.getBytes .program 0x800 4 = [0, 9, 0x87, 0x6C] ∧ t.cc = 1 ∧ t.control = .program := by decide

/-- Example S103. -/
theorem test_pack_overlap :
    let t := ran [0xF2, 0x13, 8, 0, 8, 0] (start.putBytes .program 0x800 [0x23, 0x45, 0x67, 0x89])
    t.getBytes .program 0x800 4 = [0x87, 0x98, 0x67, 0x89] ∧ t.cc = 1 ∧ t.control = .program := by decide

/-- Example S105. -/
theorem test_unpk_overlap :
    let t := ran [0xF3, 0x33, 8, 0, 8, 0] (start.putBytes .program 0x800 [0x23, 0x45, 0x67, 0x89])
    t.getBytes .program 0x800 4 = [0xF6, 0xF6, 0xF7, 0x98] ∧ t.cc = 1 ∧ t.control = .program := by decide

/-- Vector table 2.9. -/
theorem test_tr_overlap :
    let t := ran [0xDC, 1, 8, 0, 8, 0] (start.putBytes .program 0x800 [1, 0])
    t.getBytes .program 0x800 2 = [0, 0] ∧ t.cc = 1 ∧ t.control = .program := by decide

/-- Vector table 2.9. -/
theorem test_trt_hit :
    let t := ran [0xDD, 2, 8, 0, 9, 0] ((((start.setGr 1 0xAB000000).setGr 2 0x11223344).putBytes .program 0x800 [5,
      6, 7]).putBytes .program 0x905 [0, 9, 4])
    t.getGr 1 = 0xAB000801 ∧ t.getGr 2 = 0x11223309 ∧ t.cc = 1 ∧ t.control = .program := by decide

/-- Vector table 2.9. -/
theorem test_mvcl_pads :
    let t := ran [0xE, 0x24] (((((start.setGr 2 0x800).setGr 3 4).setGr 4 0x900).setGr 5 0x40000002).putBytes .program
      0x900 [0xC1, 0xC2])
    t.getGr 2 = 0x804 ∧ t.getGr 3 = 0 ∧ t.getGr 4 = 0x902 ∧ t.getGr 5 = 0x40000000 ∧
      t.getBytes .program 0x800 4 = [0xC1, 0xC2, 0x40, 0x40] ∧ t.cc = 2 ∧ t.control = .program := by decide

/-- Vector table 2.9. -/
theorem test_mvcl_overlap :
    let t := ran [0xE, 0x24] (((((start.setGr 2 0x801).setGr 3 4).setGr 4 0x800).setGr 5 4).putBytes .program 0x800
      [0xC1, 0xC2])
    t.cc = 3 ∧ t.control = .program := by decide

/-- Vector table 2.10. -/
theorem test_balr_24 :
    let s := start.setGr 15 0xFF002000
    let t := ran [5, 0xEF] { s with cc := 2, pm := 8 }
    t.getGr 14 = 0x68001002 ∧ t.cc = 2 ∧ t.ia = 0x2000 := by decide

/-- Vector table 2.10. -/
theorem test_bas_31 :
    let s := start.setGr 12 0x3000
    let t := ran [0x4D, 0xE0, 0xC1, 0] { s with amode := .a31, ia := 0x7F001000, alloc := page .program 0x7F001 true
      :: start.alloc }
    t.getGr 14 = 0xFF001004 ∧ t.cc = 1 ∧ t.ia = 0x3100 := by decide

/-- Vector table 2.10. -/
theorem test_bassm_leaves_31 :
    let s := start.setGr 15 0x7F123456
    let t := ran [0xC, 0xEF] { s with amode := .a31, ia := 0x1001000, alloc := page .program 0x1001 true ::
      start.alloc }
    t.getGr 14 = 0x81001002 ∧ t.cc = 1 ∧ t.amode = .a24 ∧ t.ia = 0x123456 := by decide

/-- Vector table 2.10. -/
theorem test_bsm_saves_mode :
    let t := ran [0xB, 0x5E] { (start.setGr 5 0x77).setGr 14 0x1002 with amode := .a31 }
    t.getGr 5 = 0x80000077 ∧ t.cc = 1 ∧ t.amode = .a24 ∧ t.ia = 0x1002 := by decide

/-- Vector table 2.10. -/
theorem test_bc_mask :
    let t := ran [0x47, 0x20, 0x20, 0] { start.setGr 2 0x2000 with cc := 3 }
    t.cc = 3 ∧ t.ia = 0x1004 := by decide

/-- Vector table 2.10. -/
theorem test_bctr_wraps :
    let t := ran [6, 0x56] ((start.setGr 5 0).setGr 6 0x2000)
    t.getGr 5 = 0xFFFFFFFF ∧ t.cc = 1 ∧ t.ia = 0x2000 := by decide

/-- Vector table 2.10. -/
theorem test_bxh_odd :
    let t := ran [0x86, 0x39, 8, 0] ((start.setGr 3 0).setGr 9 0xFFFFFFFF)
    t.getGr 3 = 0xFFFFFFFF ∧ t.cc = 1 ∧ t.ia = 0x1004 := by decide

/-- Vector table 2.10. -/
theorem test_bxle_signed :
    let t := ran [0x87, 0x12, 8, 0] (((start.setGr 1 0x7FFFFFFF).setGr 2 1).setGr 3 0)
    t.getGr 1 = 0x80000000 ∧ t.cc = 1 ∧ t.ia = 0x800 := by decide

/-- Vector table 2.10. -/
theorem test_ex_modifies :
    let t := ran [0x44, 0x10, 8, 0] (((start.setGr 1 0x23).setGr 3 0x63).putBytes .program 0x800 [0x18, 0])
    t.getGr 2 = 0x63 ∧ t.getBytes .program 0x800 2 = [0x18, 0] ∧ t.cc = 1 ∧ t.ia = 0x1004 := by decide

/-- Vector table 2.10. -/
theorem test_ex_length_code :
    let t := ran [0x44, 0, 8, 0] { start.putBytes .program 0x800 [5, 0x30] with cc := 0 }
    t.getGr 3 = 0x8F001004 ∧ t.cc = 0 ∧ t.ia = 0x1004 := by decide

/-- Vector table 2.10. -/
theorem test_ex_decodes_after_or :
    let t := ran [0x44, 0x10, 8, 0] ((start.setGr 1 5).putBytes .program 0x800 [0xB2, 0, 9, 0])
    t.cc = 0 ∧ t.ia = 0x1004 := by decide

/-- Vector table 2.11. -/
theorem test_cs_unequal :
    let t := ran [0xBA, 0x13, 8, 0] (((start.setGr 1 5).setGr 3 6).putBytes .program 0x800 [0, 0, 0, 7])
    t.getGr 1 = 7 ∧ t.getBytes .program 0x800 4 = [0, 0, 0, 7] ∧ t.cc = 1 ∧ t.control = .program := by decide

/-- Vector table 2.11. -/
theorem test_cs_tests_store :
    let s := (((start.setGr 1 5).setGr 3 6).setGr 9 0x5000).putBytes .program 0x5000 [0, 0, 0, 7]
    let t := ran [0xBA, 0x13, 0x90, 0] { s with alloc := page .program 5 false :: start.alloc }
    t.cc = 1 ∧ t.control = .interrupt .addressTranslation ∧ t.ia = 0x1000 := by decide

/-- Vector table 2.11. -/
theorem test_cds_equal :
    let t := ran [0xBB, 0x68, 8, 0] (((((start.setGr 6 1).setGr 7 2).setGr 8 3).setGr 9 4).putBytes .program 0x800 [0,
      0, 0, 1, 0, 0, 0, 2])
    t.getBytes .program 0x800 8 = [0, 0, 0, 3, 0, 0, 0, 4] ∧ t.cc = 0 ∧ t.control = .program := by decide

/-- Vector table 2.12. -/
theorem test_ap_overflow_sign :
    let t := ran [0xFA, 0x10, 8, 0, 9, 0] ((start.putBytes .program 0x800 [0x99, 0x9D]).putBytes .program 0x900
      [0x1D])
    t.getBytes .program 0x800 2 = [0, 0xD] ∧ t.cc = 3 ∧ t.control = .interrupt .decimalOverflow ∧ t.ia = 0x1006 := by decide

/-- Vector table 2.12. -/
theorem test_sp_signs :
    let t := ran [0xFB, 0, 8, 0, 9, 0] ((start.putBytes .program 0x800 [0x1B]).putBytes .program 0x900 [0x2E])
    t.getBytes .program 0x800 1 = [0x3D] ∧ t.cc = 1 ∧ t.ia = 0x1006 := by decide

/-- Vector table 2.12. -/
theorem test_zap_truncates :
    let t := ran [0xF8, 0x12, 8, 0, 9, 0] ((start.putBytes .program 0x800 [0xFF, 0xFF]).putBytes .program 0x900 [0x99,
      0x99, 0x9D])
    t.getBytes .program 0x800 2 = [0x99, 0x9D] ∧ t.cc = 3 ∧ t.control = .interrupt .decimalOverflow ∧ t.ia = 0x1006 :=
  by decide

/-- Example S112. -/
theorem test_cp_lengths :
    let t := ran [0xF9, 1, 8, 0, 9, 0] ((start.putBytes .program 0x800 [0x1B]).putBytes .program 0x900 [0, 0x1D])
    t.getBytes .program 0x800 1 = [0x1B] ∧ t.cc = 0 ∧ t.ia = 0x1006 := by decide

/-- Example S116. -/
theorem test_mp :
    let t := ran [0xFC, 0x10, 8, 0, 9, 0] ((start.putBytes .program 0x800 [0, 0x9D]).putBytes .program 0x900 [0x2C])
    t.getBytes .program 0x800 2 = [1, 0x8D] ∧ t.cc = 1 ∧ t.ia = 0x1006 := by decide

/-- Vector table 2.12. -/
theorem test_dp_signs :
    let t := ran [0xFD, 0x20, 8, 0, 9, 0] ((start.putBytes .program 0x800 [0, 0x10, 0xD]).putBytes .program 0x900
      [0x3C])
    t.getBytes .program 0x800 3 = [3, 0x3D, 0x1D] ∧ t.cc = 1 ∧ t.ia = 0x1006 := by decide

/-- Vector table 2.12. -/
theorem test_dp_quotient_too_long :
    let t := ran [0xFD, 0x20, 8, 0, 9, 0] ((start.putBytes .program 0x800 [1, 0, 0xC]).putBytes .program 0x900 [0x1C])
    t.getBytes .program 0x800 3 = [1, 0, 0xC] ∧ t.cc = 1 ∧ t.control = .interrupt .division ∧ t.ia = 0x1000 := by decide

/-- Vector table 2.12. -/
theorem test_srp_right :
    let t := ran [0xF0, 0x25, 8, 0, 0, 0x3E] (start.putBytes .program 0x800 [0x12, 0x34, 0x5C])
    t.getBytes .program 0x800 3 = [0, 0x12, 0x3C] ∧ t.cc = 2 ∧ t.ia = 0x1006 := by decide

/-- Vector table 2.12. -/
theorem test_srp_left :
    let t := ran [0xF0, 0x20, 8, 0, 0, 1] (start.putBytes .program 0x800 [0x12, 0x34, 0x5F])
    t.getBytes .program 0x800 3 = [0x23, 0x45, 0xF] ∧ t.cc = 3 ∧ t.control = .interrupt .decimalOverflow ∧
      t.ia = 0x1006 := by decide

/-- Vector table 2.13. -/
theorem test_ed_minus :
    let t := ran [0xDE, 6, 8, 0, 9, 0] (((start.setGr 1 0xAB000000).putBytes .program 0x800 [0x40, 0x20, 0x20, 0x6B,
      0x20, 0x21, 0x20]).putBytes .program 0x900 [1, 0x23, 0x4D])
    t.getBytes .program 0x800 7 = [0x40, 0x40, 0xF1, 0x6B, 0xF2, 0xF3, 0xF4] ∧ t.cc = 1 ∧ t.control = .program := by decide

/-- Vector table 2.13. -/
theorem test_edmk_two_numbers :
    let t := ran [0xDF, 7, 8, 0, 9, 0] (((start.setGr 1 0xAB000000).putBytes .program 0x800 [0x40, 0x20, 0x20, 0x20,
      0x20, 0x22, 0x20, 0x20]).putBytes .program 0x900 [1, 0x2C, 3, 0x4D])
    t.getGr 1 = 0xAB000806 ∧ t.getBytes .program 0x800 8 = [0x40, 0x40, 0xF1, 0xF2, 0x40, 0x40, 0xF3, 0xF4] ∧
      t.cc = 1 ∧ t.control = .program := by decide

/-- Vector table 2.14. -/
theorem test_aer_overflow :
    let t := ran [0x3A, 0x24] ((start.setFr 2 0x7FF00000DEADBEEF).setFr 4 0x7F10000012345678)
    t.getFr 2 = 0x100000DEADBEEF ∧ t.cc = 2 ∧ t.control = .interrupt .exponentOverflow ∧ t.ia = 0x1002 := by decide

/-- Vector table 2.14. -/
theorem test_aer_underflow_masked :
    let t := ran [0x3A, 0x24] { (start.setFr 2 0x100000DEADBEEF).setFr 4 0x800FFFFF12345678 with pm := 0xD }
    t.getFr 2 = 0xDEADBEEF ∧ t.cc = 0 ∧ t.ia = 0x1002 := by decide

/-- Vector table 2.14. -/
theorem test_aur_significance :
    let t := ran [0x3E, 0x24] ((start.setFr 2 0x42100000DEADBEEF).setFr 4 0xC1FFFFFF12345678)
    t.getFr 2 = 0x42000000DEADBEEF ∧ t.cc = 0 ∧ t.control = .interrupt .significance ∧ t.ia = 0x1002 := by decide

/-- Example S136. -/
theorem test_ser_guard :
    let t := ran [0x3B, 0x24] ((start.setFr 2 0x46100000DEADBEEF).setFr 4 0x4020000012345678)
    t.getFr 2 = 0x45FFFFFEDEADBEEF ∧ t.cc = 2 ∧ t.ia = 0x1002 := by decide

/-- Example S130. -/
theorem test_ad_guard :
    let t := ran [0x6A, 0x20, 8, 0] ((start.setFr 2 0x3F11111111111111).putBytes .program 0x800 [0xC0, 1, 0x11, 0x11,
      0x11, 0x11, 0x11, 0x11])
    t.getFr 2 = 0x3210000000000000 ∧ t.cc = 2 ∧ t.control = .program := by decide

/-- Vector table 2.17. -/
theorem test_aw_negative :
    let t := ran [0x6E, 0x20, 8, 0] ((start.setFr 2 0xC880000001000000).putBytes .program 0x800 [0x4E, 0, 0, 0, 0x80,
      0, 0, 0])
    t.getFr 2 = 0xCE00000000000001 ∧ t.cc = 1 ∧ t.control = .program := by decide

/-- Vector table 2.14. -/
theorem test_axr_underflow :
    let t := ran [0x36, 4] ((((start.setFr 0 0xD10000000000000).setFr 2 0).setFr 4 0x8D0FFFFFFFFFFFFF).setFr 6
      0xFFFFFFFFFFFFFFFF)
    t.getFr 0 = 0x7210000000000000 ∧ t.getFr 2 = 0x6400000000000000 ∧ t.cc = 2 ∧
      t.control = .interrupt .exponentUnderflow := by decide

/-- Vector table 2.14. -/
theorem test_sxr_significance :
    let t := ran [0x37, 4] ((((start.setFr 0 0x4110000000000000).setFr 2 0).setFr 4 0x4110000000000000).setFr 6
      0xFF00000000000000)
    t.getFr 0 = 0x4100000000000000 ∧ t.getFr 2 = 0x3300000000000000 ∧ t.cc = 0 ∧ t.control = .interrupt .significance :=
  by decide

/-- Example S131. -/
theorem test_ce_guard :
    let t := ran [0x79, 0x20, 8, 0] ((start.setFr 2 0x48001000DEADBEEF).putBytes .program 0x800 [0x47, 1, 0, 1])
    t.getFr 2 = 0x48001000DEADBEEF ∧ t.cc = 1 ∧ t.ia = 0x1004 := by decide

/-- Vector table 2.15. -/
theorem test_mer_long_product :
    let t := ran [0x3C, 0x24] ((start.setFr 2 0x41FFFFFFDEADBEEF).setFr 4 0x41FFFFFF12345678)
    t.getFr 2 = 0x42FFFFFE00000100 ∧ t.cc = 1 ∧ t.control = .program := by decide

/-- Vector table 2.15. -/
theorem test_mxd :
    let t := ran [0x67, 0, 8, 0] ((start.setFr 0 0x41FFFFFFFFFFFFFF).putBytes .program 0x800 [0x41, 0xFF, 0xFF, 0xFF,
      0xFF, 0xFF, 0xFF, 0xFF])
    t.getFr 0 = 0x42FFFFFFFFFFFFFE ∧ t.getFr 2 = 0x3400000000000001 ∧ t.cc = 1 ∧ t.control = .program := by decide

/-- Vector table 2.15. -/
theorem test_mxr :
    let t := ran [0x26, 4] ((((start.setFr 0 0x41FFFFFFFFFFFFFF).setFr 2 0x33FFFFFFFFFFFFFF).setFr 4
      0x41FFFFFFFFFFFFFF).setFr 6 0x33FFFFFFFFFFFFFF)
    t.getFr 0 = 0x42FFFFFFFFFFFFFF ∧ t.getFr 2 = 0x34FFFFFFFFFFFFFE ∧ t.cc = 1 ∧ t.control = .program := by decide

/-- Vector table 2.15. -/
theorem test_de_by_zero :
    let t := ran [0x7D, 0x20, 8, 0] ((start.setFr 2 0x41100000DEADBEEF).putBytes .program 0x800 [0, 0, 0, 0])
    t.getFr 2 = 0x41100000DEADBEEF ∧ t.cc = 1 ∧ t.control = .interrupt .division ∧ t.ia = 0x1000 := by decide

/-- Vector table 2.15. -/
theorem test_dxr :
    let t := ran [0xB2, 0x2D, 0xFF, 4] ((((start.setFr 0 0x4110000000000000).setFr 2 0).setFr 4
      0x4130000000000000).setFr 6 0)
    t.getFr 0 = 0x4055555555555555 ∧ t.getFr 2 = 0x3255555555555555 ∧ t.cc = 1 ∧ t.control = .program := by decide

/-- Example S132. -/
theorem test_dd_prenormalizes :
    let t := ran [0x6D, 0x20, 8, 0] ((start.setFr 2 0x10000080000000).putBytes .program 0x800 [0x80, 2, 0, 0, 0x10, 0,
      0, 0])
    t.getFr 2 = 0xC180000000000000 ∧ t.cc = 1 ∧ t.control = .program := by decide

/-- Vector table 2.15. -/
theorem test_her_truncates :
    let t := ran [0x34, 0x24] ((start.setFr 2 0x11111111DEADBEEF).setFr 4 0x41FFFFFF12345678)
    t.getFr 2 = 0x417FFFFFDEADBEEF ∧ t.cc = 1 ∧ t.ia = 0x1002 := by decide

/-- Vector table 2.15. -/
theorem test_lrer_carry :
    let t := ran [0x35, 0x24] ((start.setFr 2 0x11111111DEADBEEF).setFr 4 0x41FFFFFF80000000)
    t.getFr 2 = 0x42100000DEADBEEF ∧ t.cc = 1 ∧ t.control = .program := by decide

/-- Vector table 2.15. -/
theorem test_lrdr_carry :
    let t := ran [0x25, 0x24] ((start.setFr 4 0x41FFFFFFFFFFFFFF).setFr 6 0xFF80000000000000)
    t.getFr 2 = 0x4210000000000000 ∧ t.cc = 1 ∧ t.control = .program := by decide

/-- Vector table 2.16. -/
theorem test_lcer_zero :
    let t := ran [0x33, 0x24] ((start.setFr 2 0x11111111DEADBEEF).setFr 4 0x12345678)
    t.getFr 2 = 0x80000000DEADBEEF ∧ t.cc = 0 ∧ t.control = .program := by decide

/-- Vector table 2.16. -/
theorem test_ltdr_zero :
    let t := ran [0x22, 0x24] ((start.setFr 2 0x11111111DEADBEEF).setFr 4 0xC500000000000000)
    t.getFr 2 = 0xC500000000000000 ∧ t.cc = 0 ∧ t.control = .program := by decide

/-- Vector table 2.16. -/
theorem test_ler_right_half :
    let t := ran [0x38, 0x24] ((start.setFr 4 0x4110000022222222).setFr 2 0x1111111133333333)
    t.getFr 2 = 0x4110000033333333 ∧ t.cc = 1 ∧ t.control = .program := by decide

/-- Vector table 2.16. -/
theorem test_ste :
    let t := ran [0x70, 0x20, 8, 0] ((start.setFr 2 0x1111111133333333).putBytes .program 0x800 [0xFF, 0xFF, 0xFF,
      0xFF, 0xFF, 0xFF, 0xFF, 0xFF])
    t.getBytes .program 0x800 8 = [0x11, 0x11, 0x11, 0x11, 0xFF, 0xFF, 0xFF, 0xFF] ∧ t.cc = 1 ∧ t.control = .program :=
  by decide

/-- Vector table 2.16. -/
theorem test_mxr_register_number :
    let t := ran [0x26, 2] start
    t.cc = 1 ∧ t.control = .interrupt .addressing ∧ t.ia = 0x1000 := by decide

/-- Vector table 2.18. -/
theorem test_sac_bits :
    let t := ran [0xB2, 0x19, 0x30, 0] (start.setGr 3 0xFFFFF2FF)
    t.cc = 1 ∧ t.asc = .ar ∧ t.control = .program := by decide

/-- Vector table 2.18. -/
theorem test_iac :
    let t := ran [0xB2, 0x24, 0, 0x50] { start.setGr 5 0xFFFFFFFF with asc := .ar }
    t.getGr 5 = 0xFFFF02FF ∧ t.cc = 2 ∧ t.control = .program := by decide

/-- Vector table 2.18. -/
theorem test_lae :
    let s := (((start.setGr 2 0x100).setGr 4 0x5000).setAr 4 0x10003).setAr 2 0x20004
    let t := ran [0x51, 0x32, 0x40, 0x10] { s with amode := .a31, asc := .ar }
    t.getGr 3 = 0x5110 ∧ t.getAr 3 = 0x10003 ∧ t.cc = 1 ∧ t.control = .program := by decide

/-- Vector table 2.18. -/
theorem test_lam_wraps :
    let s := (start.setGr 5 0x1000).putBytes .program 0x1100 [0, 0, 0, 1, 0, 0, 0, 2, 0, 0, 0, 3, 0, 0, 0, 4]
    let t := ran [0x9A, 0xE1, 0x51, 0] { s with ia := 0x1800 }
    t.getAr 14 = 1 ∧ t.getAr 15 = 2 ∧ t.getAr 0 = 3 ∧ t.getAr 1 = 4 ∧ t.cc = 1 ∧ t.control = .program := by decide

/-- Vector table 2.18. -/
theorem test_l_data_space :
    let s := ((((startEsa false).setGr 4 0x800).setAr 4 0x10003).putBytes .program 0x800 [0x11, 0x11, 0x11, 0x11]).putBytes
      (.data 5) 0x800 [0x22, 0x22, 0x22, 0x22]
    let t := ran [0x58, 0x10, 0x40, 0] { s with asc := .ar }
    t.getGr 1 = 0x22222222 ∧ t.cc = 1 ∧ t.control = .program := by decide

/-- Vector table 2.18. -/
theorem test_tar_register_0 :
    let t := ran [0xB2, 0x4C, 0, 0] ((startEsa true).setAr 0 0x10003)
    t.cc = 2 ∧ t.control = .program := by decide

/-- Vector table 2.18. -/
theorem test_tar_without_esa :
    let t := ran [0xB2, 0x4C, 0, 0x10] { start with cpu := { State.reset.cpu with hasEsa := false } }
    t.cc = 1 ∧ t.control = .interrupt .privilegedOperation ∧ t.ia = 0x1000 := by decide

/-- Vector table 2.19. -/
theorem test_l_misaligned :
    let t := ran [0x58, 0x10, 8, 2] start
    t.cc = 1 ∧ t.control = .interrupt .addressing ∧ t.ia = 0x1000 := by decide

/-- Vector table 2.19. -/
theorem test_alignment_before_access :
    let t := ran [0x78, 0, 0x90, 1] (start.setGr 9 0x9000)
    t.cc = 1 ∧ t.control = .interrupt .addressing ∧ t.ia = 0x1000 := by decide

/-- Vector table 2.19. -/
theorem test_unknown_operation_code :
    let t := ran [0xB2, 0, 0, 0] start
    t.cc = 1 ∧ t.control = .interrupt .operationCode ∧ t.ia = 0x1000 := by decide

/-- Vector table 2.19. -/
theorem test_mvc_last_byte :
    let t := ran [0xD2, 7, 0x9F, 0xFC, 8, 0] ((start.setGr 9 0x1000).putBytes .program 0x800 [0x11, 0x22, 0x33, 0x44,
      0x55, 0x66, 0x77, 0x88])
    t.getBytes .program 0x1FFC 4 = [0, 0, 0, 0] ∧ t.cc = 1 ∧ t.control = .interrupt .addressTranslation ∧
      t.ia = 0x1000 := by decide
/-! ### Witnesses: for each statement with hypotheses, a state and operands that meet them, clause by clause, at the ends of the
ranges -/

/-- Registers 7, 8 and 9 address a page that may be written, one that may only be read, and one that is not allocated. -/
def bases : State :=
  ((start.setGr 7 0x1000).setGr 8 0x2000).setGr 9 0x3000

/-- An operand that is accessible but misaligned. -/
def Misaligned (s : State) (b : Reg) (a n al : Nat) (ks : List Access) : Prop :=
  ¬ s.AlignedTo a al ∧ ∃ sp, s.Accessible b sp a n ks

/-- An operand that is aligned but not accessible. -/
def Missing (s : State) (b : Reg) (a n al : Nat) (ks : List Access) : Prop :=
  s.AlignedTo a al ∧ ∀ sp, ¬ s.Accessible b sp a n ks

/-- An operand that is aligned and accessible. -/
def Reached (s : State) (b : Reg) (sp : Space) (a n al : Nat) (ks : List Access) : Prop :=
  s.AlignedTo a al ∧ s.Accessible b sp a n ks

theorem accessible_of {s : State} {b : Reg} {sp : Space} {a n : Nat} {ks : List Access}
    (h : (s.reach b a n ks).toOption = some sp) : s.Accessible b sp a n ks := by
  rw [← s.reach_ok]
  cases hr : s.reach b a n ks with
  | ok x => rw [hr] at h; exact congrArg Except.ok (Option.some.inj h)
  | error w => rw [hr] at h; cases h

theorem not_accessible_of {s : State} {b : Reg} {a n : Nat} {ks : List Access}
    (h : (s.reach b a n ks).toOption = none) (sp : Space) : ¬ s.Accessible b sp a n ks := by
  intro hx
  rw [(s.reach_ok b a n ks sp).2 hx] at h
  cases h

theorem misaligned_of {s : State} {b : Reg} {a n al : Nat} {ks : List Access} (sp : Space)
    (h : s.cpu.alignCheck = true ∧ a % al ≠ 0 ∧ (s.reach b a n ks).toOption = some sp) : Misaligned s b a n al ks :=
  ⟨fun ha => h.2.1 (ha h.1), sp, accessible_of h.2.2⟩

theorem missing_of {s : State} {b : Reg} {a n al : Nat} {ks : List Access}
    (h : a % al = 0 ∧ (s.reach b a n ks).toOption = none) : Missing s b a n al ks :=
  ⟨fun _ => h.1, not_accessible_of h.2⟩

theorem reached_of {s : State} {b : Reg} {sp : Space} {a n al : Nat} {ks : List Access}
    (h : a % al = 0 ∧ (s.reach b a n ks).toOption = some sp) : Reached s b sp a n al ks :=
  ⟨fun _ => h.1, accessible_of h.2⟩

/-- The operand of `n` bytes that is to be read: misaligned, in the page that is not allocated, and the last one that can be
read. -/
def ReadCases (n al : Nat) : Prop :=
  Misaligned bases 8 (bases.ea 1 0 8) n al [.read] ∧ Missing bases 9 (bases.ea 0 0 9) n al [.read] ∧
    Reached bases 8 .program (bases.ea (BitVec.ofNat 12 (0x1000 - n)) 0 8) n al [.read]

/-- The operand of `n` bytes that is to be stored: misaligned, in the page that may only be read, and the last one that can be
stored. -/
def StoreCases (n al : Nat) (ks : List Access) : Prop :=
  Misaligned bases 7 (bases.ea 1 0 7) n al ks ∧ Missing bases 8 (bases.ea 0 0 8) n al ks ∧
    Reached bases 7 .program (bases.ea (BitVec.ofNat 12 (0x1000 - n)) 0 7) n al ks

/-- The operand of `n` bytes without alignment condition: one byte of it in the page that may not be accessed, and the last one
that may. -/
def ByteCases (n : Nat) (ks : List Access) : Prop :=
  Missing bases (if .write ∈ ks then 7 else 8) (if .write ∈ ks then 0x2001 - n else 0x3001 - n) n 1 ks ∧
    Reached bases (if .write ∈ ks then 7 else 8) .program (if .write ∈ ks then 0x2000 - n else 0x3000 - n) n 1 ks

theorem readCases_2 : ReadCases 2 2 :=
  ⟨misaligned_of .program (by decide), missing_of (by decide), reached_of (by decide)⟩

theorem readCases_4 : ReadCases 4 4 :=
  ⟨misaligned_of .program (by decide), missing_of (by decide), reached_of (by decide)⟩

theorem readCases_8 : ReadCases 8 8 :=
  ⟨misaligned_of .program (by decide), missing_of (by decide), reached_of (by decide)⟩

theorem storeCases_2 : StoreCases 2 2 [.write] :=
  ⟨misaligned_of .program (by decide), missing_of (by decide), reached_of (by decide)⟩

theorem storeCases_4 : StoreCases 4 4 [.write] :=
  ⟨misaligned_of .program (by decide), missing_of (by decide), reached_of (by decide)⟩

theorem storeCases_8 : StoreCases 8 8 [.write] :=
  ⟨misaligned_of .program (by decide), missing_of (by decide), reached_of (by decide)⟩

theorem byteCases_read : ByteCases 1 [.read] :=
  ⟨missing_of (by decide), reached_of (by decide)⟩

theorem byteCases_write : ByteCases 1 [.write] :=
  ⟨missing_of (by decide), reached_of (by decide)⟩

theorem byteCases_update : ByteCases 1 [.read, .write] :=
  ⟨missing_of (by decide), reached_of (by decide)⟩

theorem isSpace_of {s : State} {b : Reg} {sp : Space} (h : s.space b = .ok sp) : s.IsSpace b sp := by
  intro sp' h'
  rw [h] at h'
  exact (Except.ok.inj h').symm

/-- Where the ALET does not translate, any space will do. -/
theorem isSpace_of_error {s : State} {b : Reg} {sp : Space} (h : s.space b = .error .addressTranslation) : s.IsSpace b sp := by
  intro sp' h'
  rw [h] at h'
  cases h'

/-- The state in AR mode, with an ALET that does not translate in access register 4. -/
def untranslated (s : State) : State :=
  { s.setAr 4 0x7FFFF with asc := .ar }

/-- The state that runs AR 3,4 right after reset. -/
def loaded : State :=
  State.reset.withFetchWord 16 0x1A34

theorem test_witness_StepKeepsWellFormed : loaded.wf ∧ step loaded = .next (loaded.advance 2) := by
  refine ⟨by decide, ?_⟩
  rfl

theorem test_witness_DefinedOperationCodes :
    (∃ i, decode [0xB2, 0x05, 0, 0, 0, 0] = .ok i) ∧ (∃ i, decode [0xFD, 0, 0, 0, 0, 0] = .ok i) ∧
      ∃ i, decode [0x04, 0, 0, 0, 0, 0] = .ok i :=
  ⟨⟨_, rfl⟩, ⟨_, rfl⟩, ⟨_, rfl⟩⟩

theorem test_witness_StepRunsInstruction :
    loaded.control = .program ∧ loaded.ia.toNat % 2 = 0 ∧
      loaded.allocatedAll .program loaded.ia.toNat (encode (.ar 3 4)).length .fetch = true ∧
      loaded.getBytes .program loaded.ia.toNat (encode (.ar 3 4)).length = encode (.ar 3 4) ∧
      loaded.fetch loaded.ia.toNat = .ok [0x1A, 0x34] ∧ decode [0x1A, 0x34] = .ok (.ar 3 4) :=
  ⟨by decide, by decide, by decide, by decide, rfl, rfl⟩

theorem test_witness_StepInterruptsBeforeExecution :
    (let s := { start with ia := 0x1001 };
      s.control = .program ∧ s.ia.toNat % 2 = 1) ∧
      (let s := { start with ia := 0x2000 };
        s.control = .program ∧ s.ia.toNat % 2 = 0 ∧ s.allocatedAll .program s.ia.toNat 2 .fetch = false) ∧
      (let s := { start.putBytes .program 0x1FFE [0x58, 0] with ia := 0x1FFE };
        s.control = .program ∧ s.ia.toNat % 2 = 0 ∧ s.allocatedAll .program s.ia.toNat 2 .fetch = true ∧
          s.allocatedAll .program s.ia.toNat (ilenOf (s.getByte .program s.ia.toNat)) .fetch = false) ∧
      (start.ia.toNat % 2 = 0 ∧ start.allocatedAll .program start.ia.toNat 2 .fetch = true ∧
        decode (start.getBytes .program start.ia.toNat 2) = .error (.unknownOperationCode [0])) :=
  ⟨by decide, by decide, by decide, by decide, by decide, rfl⟩

theorem test_witness_InterruptDelivery :
    (let s := start.takeInterrupt .data;
      s.control = .interrupt .data ∧ s.stxit = false) ∧
      (let s := { start.takeInterrupt .data with stxit := true };
        s.control = .interrupt .data ∧ s.stxit = true) ∧
      { start with control := .terminated none }.control = .terminated none := by decide

theorem test_witness_ProgramCannotTouchSystem :
    exec (.ar 3 4) loaded = .next (loaded.advance 2) ∧ loaded.control = .program ∧ step loaded = .next (loaded.advance 2) :=
  ⟨rfl, rfl, rfl⟩

theorem test_witness_StateWrittenOnlyBy :
    exec (.ar 3 4) loaded = .next (loaded.advance 2) ∧ (encode (.ar 3 4)).headD 0 ≠ 0x44 ∧
      (encode (.ar 3 4)).headD 0 ∉ ([0x0B, 0x0C] : List Byte) ∧ (encode (.ar 3 4)).take 2 ≠ [0xB2, 0x19] ∧
      (encode (.ar 3 4)).headD 0 ≠ 0x04 ∧ (encode (.ar 3 4)).headD 0 ∉ ([0x51, 0x9A] : List Byte) ∧
      (encode (.lr 3 4)).headD 0 = 0x18 :=
  ⟨rfl, by decide⟩

theorem test_witness_IllFormedRaises :
    (Instr.mvcl 1 2).wf = false ∧ (∀ l1 i3 b1 d1 b2 d2, Instr.mvcl 1 2 ≠ .srp l1 i3 b1 d1 b2 d2) ∧
      (∀ r1 r2, Instr.mvcl 1 2 = .dxr r1 r2 → { start.cpu with has31Bit := false }.has31Bit = true) ∧
      (Instr.dxr 2 0).wf = false ∧ (∀ l1 i3 b1 d1 b2 d2, Instr.dxr 2 0 ≠ .srp l1 i3 b1 d1 b2 d2) ∧
      (∀ r1 r2, Instr.dxr 2 0 = .dxr r1 r2 → start.cpu.has31Bit = true) ∧ (Instr.srp 15 10 7 0xFF0 0 0).wf = false ∧
      bases.Accessible 7 .program (bases.ea 0xFF0 0 7) 16 [.read, .write] :=
  ⟨rfl, nofun, nofun, rfl, nofun, fun _ _ _ => rfl, rfl, accessible_of (by decide)⟩

theorem test_witness_AbsentFeatures :
    { start with cpu := { start.cpu with has31Bit := false } }.cpu.has31Bit = false ∧
      { start with cpu := { start.cpu with hasEsa := false } }.cpu.hasEsa = false := by decide

theorem test_witness_AddSubtractStorage : ReadCases 4 4 ∧ ReadCases 2 2 :=
  ⟨readCases_4, readCases_2⟩

theorem test_witness_AddSubtractLogical : ReadCases 4 4 :=
  readCases_4

theorem test_witness_CompareFixed : ReadCases 4 4 ∧ ReadCases 2 2 :=
  ⟨readCases_4, readCases_2⟩

theorem test_witness_Multiply :
    (15 : Reg).toNat % 2 = 1 ∧ (14 : Reg).toNat % 2 = 0 ∧ ReadCases 4 4 ∧ ReadCases 2 2 :=
  ⟨rfl, rfl, readCases_4, readCases_2⟩

/-- The least quotient, a quotient one above the largest, a zero divisor, and the remainder's sign; R1 = R2 and R2 = R1 + 1. -/
theorem test_witness_Divide :
    ((15 : Reg).toNat % 2 = 1 ∧ (2 : Reg).toNat % 2 = 0) ∧
      (let n := (((start.setGr 2 0xFFFFFFFF).setGr 3 0x80000000).getPair 2).toInt;
        (1 : Int) ≠ 0 ∧ n = -2 ^ 31 * 1 + 0 ∧ (0 : Int).natAbs < (1 : Int).natAbs ∧ 0 ≤ 0 * n) ∧
      (let n := (((start.setGr 2 0xFFFFFFFF).setGr 3 0xFFFFFFF9).getPair 2).toInt;
        n = -3 * 2 + -1 ∧ (-1 : Int).natAbs < (2 : Int).natAbs ∧ 0 ≤ -1 * n) ∧
      (let n := (((start.setGr 2 0).setGr 3 0x80000000).getPair 2).toInt;
        n = 2 ^ 31 * 1 + 0 ∧ 0 ≤ 0 * n ∧ ¬ (-2 ^ 31 ≤ (2 ^ 31 : Int) ∧ (2 ^ 31 : Int) < 2 ^ 31)) ∧
      (start.getGr 4).toInt = 0 ∧ ((2 : Reg) = 2 ∧ (2 : Reg) ≠ 3) ∧ ReadCases 4 4 :=
  ⟨by decide, by decide, by decide, by decide, by decide, by decide, readCases_4⟩

/-- The largest number that CVB converts, the next one, and a field that is not valid. -/
theorem test_witness_Convert :
    ReadCases 8 8 ∧ StoreCases 8 8 [.write] ∧
      (let p : List Byte := [0, 0, 0x02, 0x14, 0x74, 0x83, 0x64, 0x7C];
        packedValid p = true ∧ packedValue p = 2 ^ 31 - 1) ∧
      (let p : List Byte := [0, 0, 0x02, 0x14, 0x74, 0x83, 0x64, 0x8C];
        packedValid p = true ∧ packedValue p = 2 ^ 31) ∧
      packedValid [0, 0, 0, 0, 0, 0, 0, 0] = false :=
  ⟨readCases_8, storeCases_8, by decide, by decide, by decide⟩

theorem test_witness_Load : ReadCases 4 4 ∧ ReadCases 2 2 :=
  ⟨readCases_4, readCases_2⟩

/-- Sixteen registers from 1 through 0, and one register. -/
theorem test_witness_LoadStoreMultiple :
    4 * ((0 - 1 : Reg).toNat + 1) = 64 ∧ ReadCases 64 4 ∧ StoreCases 64 4 [.write] ∧ 4 * ((5 - 5 : Reg).toNat + 1) = 4 ∧
      ReadCases 4 4 ∧ StoreCases 4 4 [.write] :=
  ⟨rfl, ⟨misaligned_of .program (by decide), missing_of (by decide), reached_of (by decide)⟩,
    ⟨misaligned_of .program (by decide), missing_of (by decide), reached_of (by decide)⟩, rfl, readCases_4, storeCases_4⟩

/-- All four bytes and the zero mask; fields that are equal, that differ in the first byte, and in the last. -/
theorem test_witness_InsertCompareMask :
    let n := fun (m : Mask) => ((List.range 4).filter fun j => m.getMsbD j).length
    let differs := fun (s : State) (k : Nat) => (0xF : Mask).getMsbD k = true ∧
      bits (s.getGr 1) (8 * k) 8 ≠ s.getByte .program (0x800 + k)
    n 0xF = 4 ∧ n 0 = 0 ∧ ByteCases (max (n 0xF) 1) [.read] ∧ ByteCases (max (n 0) 1) [.read] ∧
      (∀ k < 4, ¬ differs start k) ∧ differs (start.setGr 1 0x01000000) 0 ∧
      (differs (start.setGr 1 1) 3 ∧ ∀ j < 3, ¬ differs (start.setGr 1 1) j) :=
  ⟨rfl, rfl, ⟨missing_of (by decide), reached_of (by decide)⟩, byteCases_read, by decide, by decide, by decide⟩

theorem test_witness_Store :
    StoreCases 4 4 [.write] ∧ StoreCases 2 2 [.write] ∧ ByteCases 1 [.write] ∧
      ((List.range 4).filter fun j => (0xF : Mask).getMsbD j).length = 4 ∧ ByteCases 4 [.write] ∧
      ((List.range 4).filter fun j => (0x1 : Mask).getMsbD j).length = 1 :=
  ⟨storeCases_4, storeCases_2, byteCases_write, rfl, ⟨missing_of (by decide), reached_of (by decide)⟩, rfl⟩

theorem test_witness_ShiftLogical : (15 : Reg).toNat % 2 = 1 ∧ (14 : Reg).toNat % 2 = 0 ∧ start.ea 63 0 0 % 64 = 63 := by
  decide

/-- The largest number that a shift by 1 does not overflow and the next one, and the same for the least. -/
theorem test_witness_ShiftArithmetic :
    ((15 : Reg).toNat % 2 = 1 ∧ (14 : Reg).toNat % 2 = 0 ∧ start.ea 1 0 0 % 64 = 1) ∧
      (∀ v ∈ [0x3FFFFFFF, -0x40000000], -2 ^ 31 ≤ (v : Int) * 2 ^ 1 ∧ v * 2 ^ 1 < 2 ^ 31) ∧
      (∀ v ∈ [0x40000000, -0x40000001], ¬ (-2 ^ 31 ≤ (v : Int) * 2 ^ 1 ∧ v * 2 ^ 1 < 2 ^ 31)) ∧
      (start.setGr 0 0xBFFFFFFF).getGr 0 = BitVec.ofInt 32 (-0x40000001) := by decide

theorem test_witness_BranchAndSetMode : start.cpu.has31Bit = true ∧ (0 : Reg) = 0 ∧ (1 : Reg) ≠ 0 := by decide

theorem test_witness_LogicRegister : ReadCases 4 4 :=
  readCases_4

theorem test_witness_LogicImmediate : ByteCases 1 [.read, .write] ∧ ByteCases 1 [.write] :=
  ⟨byteCases_update, byteCases_write⟩

/-- Bits all 0, all 1 and mixed under a mask, and the monitor classes 15 and 16. -/
theorem test_witness_TestImmediate :
    let tested := fun (i2 b : Byte) (v : Bool) => ∀ k < 8, i2.getLsbD k = true → b.getLsbD k = v
    ByteCases 1 [.read] ∧ tested 0xF0 0x0F false ∧ tested 0 0xFF false ∧
      (¬ tested 0xFF 0xFF false ∧ tested 0xFF 0xFF true) ∧ (¬ tested 0xFF 0x80 false ∧ ¬ tested 0xFF 0x80 true) ∧
      (15 : Byte).toNat ≤ 15 ∧ (16 : Byte).toNat > 15 :=
  ⟨byteCases_read, by decide, by decide, by decide, by decide, by decide, by decide⟩

theorem not_both_of {s : State} {b1 b2 : Reg} {a1 n1 a2 n2 : Nat} {ks : List Access}
    (h : (s.reach b1 a1 n1 ks).toOption = none ∨ (s.reach b2 a2 n2 [.read]).toOption = none) (sp1 sp2 : Space) :
    ¬ (s.Accessible b1 sp1 a1 n1 ks ∧ s.Accessible b2 sp2 a2 n2 [.read]) := by
  rintro ⟨h1, h2⟩
  rcases h with h | h
  · exact not_accessible_of h _ h1
  · exact not_accessible_of h _ h2

/-- Two operands of `n1` and `n2` bytes: the first, and the second, not accessible; and both as far to the right as they can be
accessed. -/
def PairCases (n1 n2 : Nat) (ks : List Access) : Prop :=
  (∀ sp1 sp2, ¬ (bases.Accessible 9 sp1 0x3000 n1 ks ∧ bases.Accessible 8 sp2 0x2000 n2 [.read])) ∧
    (∀ sp1 sp2, ¬ (bases.Accessible 7 sp1 0x1000 n1 ks ∧ bases.Accessible 9 sp2 0x3000 n2 [.read])) ∧
    bases.Accessible 7 .program (0x2000 - n1) n1 ks ∧ bases.Accessible 8 .program (0x3000 - n2) n2 [.read]

set_option maxRecDepth 4096 in
/-- Fields of 256 bytes and of one byte. -/
theorem test_witness_MapBytes :
    PairCases 256 256 [.write] ∧ PairCases 256 256 [.read, .write] ∧ PairCases 1 1 [.write] ∧
      PairCases 1 1 [.read, .write] :=
  ⟨⟨not_both_of (by decide), not_both_of (by decide), accessible_of (by decide), accessible_of (by decide)⟩,
    ⟨not_both_of (by decide), not_both_of (by decide), accessible_of (by decide), accessible_of (by decide)⟩,
    ⟨not_both_of (by decide), not_both_of (by decide), accessible_of (by decide), accessible_of (by decide)⟩,
    ⟨not_both_of (by decide), not_both_of (by decide), accessible_of (by decide), accessible_of (by decide)⟩⟩

/-- Fields of 16 and 1 bytes and of 1 and 16 bytes. -/
theorem test_witness_MoveFromRight :
    PairCases 16 1 [.read, .write] ∧ PairCases 1 16 [.read, .write] ∧ PairCases 16 1 [.write] ∧ PairCases 1 16 [.write] :=
  ⟨⟨not_both_of (by decide), not_both_of (by decide), accessible_of (by decide), accessible_of (by decide)⟩,
    ⟨not_both_of (by decide), not_both_of (by decide), accessible_of (by decide), accessible_of (by decide)⟩,
    ⟨not_both_of (by decide), not_both_of (by decide), accessible_of (by decide), accessible_of (by decide)⟩,
    ⟨not_both_of (by decide), not_both_of (by decide), accessible_of (by decide), accessible_of (by decide)⟩⟩

set_option maxRecDepth 4096 in
/-- Two argument bytes, of which the second selects the last byte that can be read or the first that cannot, and a base register
whose ALET does not translate. -/
theorem test_witness_Translate :
    let args := fun (v : Byte) => bases.putBytes .program 0x1000 [0, v]
    let entry := fun (s : State) (k : Nat) => s.ea 0xF01 0 8 + (s.getByte .program (0x1000 + k)).toNat
    ByteCases 256 [.read, .write] ∧ (args 0xFE).Accessible 7 .program ((args 0xFE).ea 0 0 7) 2 [.read, .write] ∧
      (args 0xFE).space 8 = .ok .program ∧
      (∀ k < 2, (args 0xFE).allocated .program ((args 0xFE).trunc (entry (args 0xFE) k)) .read = true) ∧
      ((args 0xFF).allocated .program ((args 0xFF).trunc (entry (args 0xFF) 0)) .read = true ∧
        (args 0xFF).allocated .program ((args 0xFF).trunc (entry (args 0xFF) 1)) .read = false) ∧
      (let s := { bases.setAr 8 5 with asc := .ar };
        s.Accessible 7 .program (s.ea 0 0 7) 256 [.read, .write] ∧ ∀ sp2, s.space 8 ≠ .ok sp2) :=
  ⟨⟨missing_of (by decide), reached_of (by decide)⟩, accessible_of (by decide), rfl, by decide, by decide,
    accessible_of (by decide), nofun⟩

/-- Two argument bytes: function bytes all 0, not 0 for the first or for the last, and a function byte that cannot be read. -/
theorem test_witness_TranslateAndTest :
    let s := (bases.putBytes .program 0x1000 [1, 2]).putBytes .program 0x1802 [9]
    let entry := fun (a2 k : Nat) => a2 + (s.getByte .program (0x1000 + k)).toNat
    let reached := fun (a2 k : Nat) => s.allocated .program (s.trunc (0x1000 + k)) .read = true ∧
      s.allocated .program (s.trunc (entry a2 k)) .read = true
    (let s := { bases.setAr 8 5 with asc := .ar };
      ∀ sp1 sp2, ¬ (s.space 7 = .ok sp1 ∧ s.space 8 = .ok sp2)) ∧
      s.space 7 = .ok .program ∧ s.space 8 = .ok .program ∧
      (∀ k < 2, reached 0x2000 k ∧ s.getByte .program (entry 0x2000 k) = 0) ∧
      (reached 0x1801 0 ∧ s.getByte .program (entry 0x1801 0) ≠ 0) ∧
      ((∀ k < 1, reached 0x1800 k ∧ s.getByte .program (entry 0x1800 k) = 0) ∧ reached 0x1800 1 ∧
        s.getByte .program (entry 0x1800 1) ≠ 0) ∧
      ((∀ k < 1, reached 0x2FFE k ∧ s.getByte .program (entry 0x2FFE k) = 0) ∧ ¬ reached 0x2FFE 1) :=
  ⟨(fun _ _ h => nomatch h.2), rfl, rfl, by decide, by decide, by decide, by decide⟩

set_option maxRecDepth 4096 in
/-- Two bytes: equal, and different in the second byte either way. -/
theorem test_witness_CompareCharacters :
    let s := bases.putBytes .program 0x1000 [1, 2, 1, 3]
    let x := fun (a k : Nat) => s.getByte .program (a + k)
    PairCases 256 256 [.read] ∧ (∀ k < 2, x 0x1000 k = x 0x1000 k) ∧
      ((∀ j < 1, x 0x1000 j = x 0x1002 j) ∧ x 0x1000 1 < x 0x1002 1) ∧
      ((∀ j < 1, x 0x1002 j = x 0x1000 j) ∧ x 0x1000 1 < x 0x1002 1) :=
  ⟨⟨not_both_of (by decide), not_both_of (by decide), accessible_of (by decide), accessible_of (by decide)⟩,
    by decide, by decide, by decide⟩

/-- Fields of 2 and 1 bytes with the slack byte 2: equal, different in the slack byte, and ending in a page that is not
allocated. An ALET that does not translate, for a field of 1 byte and for one of none. -/
theorem test_witness_CompareLong :
    let s := (((bases.putBytes .program 0x1000 [1, 2]).putBytes .program 0x2FFF [1]).setGr 3 2).setGr 5 0x02000001
    let n1 := (bits (s.getGr 3) 8 24).toNat
    let n2 := (bits (s.getGr 5) 8 24).toNat
    let x := fun (a k : Nat) => if k < n1 then s.getByte .program (a + k) else bits (s.getGr 5) 0 8
    let y := fun (k : Nat) => if k < n2 then s.getByte .program (0x2FFF + k) else bits (s.getGr 5) 0 8
    let reached := fun (a k : Nat) => (k < n1 → s.ByteAccessible 2 .program (a + k) .read) ∧
      (k < n2 → s.ByteAccessible 4 .program (0x2FFF + k) .read)
    ((3 : Reg).toNat % 2 = 1 ∧ (2 : Reg).toNat % 2 = 0 ∧ n1 = 2 ∧ n2 = 1) ∧
      (s.IsSpace 2 .program ∧ s.IsSpace 4 .program ∧ (untranslated s).IsSpace 2 .program ∧
        (untranslated s).IsSpace 4 .program) ∧
      (∀ k < max n1 n2, reached 0x1000 k ∧ x 0x1000 k = y k) ∧
      (reached 0x1001 0 ∧ x 0x1001 0 ≠ y 0) ∧
      ((∀ k < 1, reached 0x2FFF k ∧ x 0x2FFF k = y k) ∧ ¬ reached 0x2FFF 1) ∧
      (¬ (0 < n2 → (untranslated s).ByteAccessible 4 .program (0x2FFF + 0) .read) ∧
        ∀ k < max n1 0, (k < n1 → (untranslated s).ByteAccessible 2 .program (0x1000 + k) .read) ∧
          (k < 0 → (untranslated s).ByteAccessible 4 .program (0x2FFF + k) .read)) :=
  ⟨by decide, ⟨isSpace_of rfl, isSpace_of rfl, isSpace_of rfl, isSpace_of_error rfl⟩, by decide, by decide, by decide, by decide⟩

/-- Destructive overlap by one byte and none; a receive field that can be written and one whose second byte cannot; a source
byte that cannot be read. An ALET that does not translate, for a field of 1 byte and for one of none. -/
theorem test_witness_MoveLong :
    let s := start
    let writable := fun (a k : Nat) => s.ByteAccessible 2 .program (a + k) .write
    let readable := fun (a n2 k : Nat) => k < n2 → s.ByteAccessible 4 .program (a + k) .read
    ((15 : Reg).toNat % 2 = 1 ∧ (4 : Reg).toNat % 2 = 0 ∧ (2 : Reg) ≠ 4) ∧
      (let m := min 4 4;
        0x1000 < 0x1003 ∧ 0x1003 < 0x1000 + m) ∧
      (let m := min 4 4;
        0x1004 ≤ 0x1000 ∨ 0x1000 + m ≤ 0x1004) ∧
      (s.IsSpace 2 .program ∧ s.IsSpace 4 .program ∧ (untranslated s).IsSpace 2 .program ∧
        (untranslated s).IsSpace 4 .program) ∧
      (∀ k < 4, readable 0x2FFE 2 k ∧ writable 0x1FFC k) ∧
      ((∀ k < 1, readable 0x2000 4 k ∧ writable 0x1FFF k) ∧ ¬ (readable 0x2000 4 1 ∧ writable 0x1FFF 1)) ∧
      ((∀ k < 1, readable 0x2FFF 4 k ∧ writable 0x1000 k) ∧ ¬ readable 0x2FFF 4 1) ∧
      (¬ (0 < 1 → (untranslated s).ByteAccessible 4 .program (0x2FFE + 0) .read) ∧
        ∀ k < 4, (k < 0 → (untranslated s).ByteAccessible 4 .program (0x2FFE + k) .read) ∧
          (untranslated s).ByteAccessible 2 .program (0x1FFC + k) .write) :=
  ⟨by decide, by decide, by decide, ⟨isSpace_of rfl, isSpace_of rfl, isSpace_of rfl, isSpace_of_error rfl⟩, by decide,
    by decide, by decide, by decide⟩

/-- Operands that compare equal and unequal. -/
theorem test_witness_CompareAndSwap :
    StoreCases 4 4 [.read, .write] ∧ StoreCases 8 8 [.read, .write] ∧ ByteCases 1 [.read, .write] ∧
      ((15 : Reg).toNat % 2 = 1 ∧ (14 : Reg).toNat % 2 = 0 ∧ bases.ea 1 0 7 % 4 ≠ 0 ∧ bases.ea 4 0 7 % 8 ≠ 0 ∧
        bases.ea 4 0 7 % 4 = 0 ∧ bases.ea 8 0 7 % 8 = 0) ∧
      (wordOf (bases.getBytes .program 0x1000 4) = bases.getGr 1 ∧
        wordOf (bases.getBytes .program 0x1000 4) ≠ bases.getGr 7) ∧
      dwordOf (bases.getBytes .program 0x1000 8) = bases.getPair 2 ∧
      dwordOf (bases.getBytes .program 0x1000 8) ≠ bases.getPair 6 :=
  ⟨⟨misaligned_of .program (by decide), missing_of (by decide), reached_of (by decide)⟩,
    ⟨misaligned_of .program (by decide), missing_of (by decide), reached_of (by decide)⟩, byteCases_update,
    by decide, by decide, by decide, by decide⟩

theorem test_witness_ClockAndSupervisorCall : StoreCases 8 8 [.write] ∧ step loaded = .next (loaded.advance 2) :=
  ⟨storeCases_8, rfl⟩

/-- An odd address, an address that may not be executed, EX itself, bytes that are no instruction, and AR 3,4. -/
theorem test_witness_Execute :
    let target := fun (bs : List Byte) => start.putBytes .program 0x800 bs
    (start.ea 0x801 0 0 % 2 = 1 ∧ bases.ea 0 0 8 % 2 = 0 ∧
        bases.allocatedAll .program (bases.ea 0 0 8) (ilenOf (bases.getByte .program (bases.ea 0 0 8))) .fetch = false) ∧
      (target [0x44, 0, 0, 0]).fetch 0x800 = .ok [0x44, 0, 0, 0] ∧
      (target [0, 0]).fetch 0x800 = .ok [0, 0] ∧ decode [0, 0] = .error (.unknownOperationCode [0]) ∧
      (target [0x1A, 0x34]).fetch 0x800 = .ok [0x1A, 0x34] ∧ decode [0x1A, 0x34] = .ok (.ar 3 4) :=
  ⟨by decide, rfl, rfl, rfl, rfl, rfl⟩

/-- P'+1' at X'800', P'-2' at X'801' and the two-byte field P'+12' at X'802'. -/
def packed : State :=
  start.putBytes .program 0x800 [0x1C, 0x2D, 0x01, 0x2C]

theorem disjoint_of {s : State} {a1 n1 a2 n2 : Nat}
    (h : ∀ i < n1, ∀ j < n2, s.trunc (a1 + i) ≠ s.trunc (a2 + j)) : s.Disjoint .program a1 n1 .program a2 n2 :=
  fun i hi j hj hk => h i hi j hj ((s.key_eq_iff _ _ _ _).1 hk).2

theorem overlap_of {s : State} {a1 n1 a2 n2 : Nat} (i j : Nat)
    (h : i < n1 ∧ j < n2 ∧ s.trunc (a1 + i) = s.trunc (a2 + j)) : ¬ s.Disjoint .program a1 n1 .program a2 n2 :=
  fun hd => hd i h.1 j h.2.1 ((s.key_eq_iff _ _ _ _).2 ⟨rfl, h.2.2⟩)

/-- Separate fields, a field with itself, and for ZAP a source that begins to the left and one that ends to the right of the
receive field. -/
theorem test_witness_DecimalAdd :
    packed.Accessible 0 .program (packed.ea 0x801 0 0) 1 [.read] ∧ packedValid (packed.getBytes .program 0x801 1) = true ∧
      packed.Accessible 0 .program (packed.ea 0x800 0 0) 1 [.read, .write] ∧
      packedValid (packed.getBytes .program 0x800 1) = true ∧ packed.Disjoint .program 0x800 1 .program 0x801 1 ∧
      packed.trunc (0x801 + 1 - 1) = packed.trunc (0x801 + 1 - 1) ∧
      packed.Accessible 0 .program (packed.ea 0x802 0 0) 2 [.write] ∧
      (packedValid (packed.getBytes .program 0x802 2) = true ∧ packed.rightOf (0x802 + 2 - 1) (0x803 + 1 - 1) = false) ∧
      (¬ packed.Disjoint .program 0x800 3 .program 0x802 2 ∧ packed.rightOf (0x802 + 2 - 1) (0x800 + 3 - 1) = true) :=
  ⟨accessible_of (by decide), by decide, accessible_of (by decide), by decide, disjoint_of (by decide), rfl,
    accessible_of (by decide), by decide, overlap_of 2 0 (by decide), by decide⟩

theorem test_witness_DecimalCompare :
    packed.Accessible 0 .program (packed.ea 0x800 0 0) 1 [.read] ∧
      packed.Accessible 0 .program (packed.ea 0x802 0 0) 2 [.read] ∧
      packedValid (packed.getBytes .program 0x800 1) = true ∧ packedValid (packed.getBytes .program 0x802 2) = true ∧
      packed.Disjoint .program 0x800 1 .program 0x802 2 :=
  ⟨accessible_of (by decide), accessible_of (by decide), by decide, by decide, disjoint_of (by decide)⟩

/-- 99999999 times 99999999 in 16 and 8 bytes, and 9 divided by 9 in 2 and 1 bytes, and the largest quotient. -/
theorem test_witness_DecimalMultiplyDivide :
    let nines : List Byte := [0x99, 0x99, 0x99, 0x99, 0x99, 0x99, 0x99, 0x9C]
    let s := (start.putBytes .program 0x808 nines).putBytes .program 0x900 nines
    s.Accessible 0 .program (s.ea 0x800 0 0) 16 [.read, .write] ∧ s.Accessible 0 .program (s.ea 0x900 0 0) 8 [.read] ∧
      (packedValid (s.getBytes .program 0x800 16) = true ∧ packedValid (s.getBytes .program 0x900 8) = true ∧
        ∀ k < 8, s.getByte .program (0x800 + k) = 0) ∧
      s.Disjoint .program 0x800 16 .program 0x900 8 ∧
      (let x : List Byte := [0x00, 0x99, 0x9C];
        packedMag [0x1C] ≠ 0 ∧ packedMag x / packedMag [0x1C] = 10 ^ (2 * (3 - 1) - 1) - 1) :=
  ⟨accessible_of (by decide), accessible_of (by decide), by decide, disjoint_of (by decide), by decide⟩

/-- Left by 31 with and without a lost digit, and right by 32. -/
theorem test_witness_DecimalShift :
    packed.Accessible 0 .program (packed.ea 0x802 0 0) 2 [.read, .write] ∧
      (packedValid (packed.getBytes .program 0x802 2) = true ∧ (9 : Nibble).toNat ≤ 9) ∧
      (packed.ea 31 0 0 % 64 = 31 ∧ 10 ^ 3 ≤ packedMag (packed.getBytes .program 0x802 2) * 10 ^ 31) ∧
      packedMag (packed.getBytes .program 0x802 2) * 10 ^ 1 < 10 ^ 3 ∧ packedMag [0x0C] * 10 ^ 31 < 10 ^ 1 ∧
      31 < packed.ea 32 0 0 % 64 :=
  ⟨accessible_of (by decide), by decide, by decide, by decide, by decide, by decide⟩

/-- Lengths 16 and 8; an operand that is not accessible, one that is no packed number, an overlap that is not allowed, a
multiplicand without leading zeros, a zero divisor and the least quotient that is too long. -/
theorem test_witness_DecimalTraps :
    PairCases 16 8 [.read, .write] ∧ PairCases 16 8 [.read] ∧ PairCases 16 8 [.write] ∧
      packedValid (start.getBytes .program 0x800 1) = false ∧
      (¬ packed.Disjoint .program 0x802 2 .program 0x802 1 ∧
        packed.trunc (0x802 + 2 - 1) ≠ packed.trunc (0x802 + 1 - 1)) ∧
      (packedValid (packed.getBytes .program 0x802 2) = true ∧ packed.getByte .program 0x802 ≠ 0) ∧
      packedMag [0x0C] = 0 ∧ 10 ^ (2 * (3 - 1) - 1) ≤ packedMag [0x01, 0x00, 0x0C] / packedMag [0x1C] :=
  ⟨⟨not_both_of (by decide), not_both_of (by decide), accessible_of (by decide), accessible_of (by decide)⟩,
    ⟨not_both_of (by decide), not_both_of (by decide), accessible_of (by decide), accessible_of (by decide)⟩,
    ⟨not_both_of (by decide), not_both_of (by decide), accessible_of (by decide), accessible_of (by decide)⟩,
    by decide, ⟨overlap_of 0 0 (by decide), by decide⟩, by decide, by decide, by decide⟩

set_option maxRecDepth 4096 in
/-- The mask X'40202120' with the source P'1235', and a mask without selectors with no source. The same mask with the source
bytes X'01', whose next byte has the left halfbyte A, lies in a page that is not allocated, is a byte of the mask, or is looked
for through an ALET that does not translate. -/
theorem test_witness_Edit :
    let s := (start.putBytes .program 0x800 [0x40, 0x20, 0x21, 0x20]).putBytes .program 0x900 [0x01, 0x23, 0x5D]
    let mask := s.getBytes .program 0x800 4
    let short := fun (t : State) (a2 : Nat) =>
      (∀ k < 1, t.ByteAccessible 0 .program (a2 + k) .read ∧ hiNib (t.getByte .program (a2 + k)) ≤ 9) ∧
        t.Disjoint .program 0x800 4 .program a2 1 ∧ (sourceDigits (t.getBytes .program a2 1)).length < selectors mask
    ByteCases 256 [.read, .write] ∧ s.Accessible 0 .program (s.ea 0x800 0 0) 4 [.read, .write] ∧
      (s.IsSpace 0 .program ∧ (untranslated s).IsSpace 4 .program) ∧
      (∀ k < 3, s.ByteAccessible 0 .program (0x900 + k) .read ∧ hiNib (s.getByte .program (0x900 + k)) ≤ 9) ∧
      s.Disjoint .program 0x800 4 .program 0x900 3 ∧ selectors mask ≤ (sourceDigits (s.getBytes .program 0x900 3)).length ∧
      (s.Disjoint .program 0x800 4 .program 0x900 0 ∧ selectors [0x40, 0x22] ≤ (sourceDigits []).length) ∧
      (let t := s.putBytes .program 0x901 [0xA3];
        short t 0x900 ∧ t.ByteAccessible 0 .program 0x901 .read ∧ 9 < hiNib (t.getByte .program 0x901) ∧
          t.Disjoint .program 0x800 4 .program 0x901 1) ∧
      (short s 0x2FFF ∧ ¬ s.ByteAccessible 0 .program 0x3000 .read ∧ s.Disjoint .program 0x800 4 .program 0x3000 1) ∧
      (short s 0x7FF ∧ s.space 0 = .ok .program ∧ ∃ j < 4, s.key .program (0x800 + j) = s.key .program 0x800) ∧
      (let t := untranslated s;
        ¬ t.ByteAccessible 4 .program 0x900 .read ∧ t.space 4 ≠ .ok .program ∧
          (sourceDigits []).length < selectors (t.getBytes .program 0x800 4)) := by
  have none : ∀ {s : State} {a1 n1 a2 : Nat}, s.Disjoint .program a1 n1 .program a2 0 := fun _ _ _ h => absurd h (Nat.not_lt_zero _)
  exact ⟨⟨missing_of (by decide), reached_of (by decide)⟩, accessible_of (by decide), ⟨isSpace_of rfl, isSpace_of_error rfl⟩,
    by decide, disjoint_of (by decide), by decide, ⟨none, by decide⟩,
    ⟨⟨by decide, disjoint_of (by decide), by decide⟩, by decide, by decide, disjoint_of (by decide)⟩,
    ⟨⟨by decide, disjoint_of (by decide), by decide⟩, by decide, disjoint_of (by decide)⟩,
    ⟨⟨by decide, disjoint_of (by decide), by decide⟩, rfl, 0, by decide, rfl⟩, by decide⟩

/-- An operand that is not zero, a zero sum with the mask on and off; registers that are not valid. -/
theorem test_witness_FloatAddRegister :
    let one := unpackShort 0x41100000
    ((Instr.aer 1 2).wf = false ∧ (Instr.aer 2 4).wf = true ∧ (Instr.axr 0 4).wf = true ∧ (Instr.axr 2 0).wf = false) ∧
      fpSum one one true = 0 ∧ fpSum one one false ≠ 0 ∧ start.pm.getMsbD 3 = true ∧
      { start with pm := 0xE }.pm.getMsbD 3 = false := by decide

theorem test_witness_FloatAddStorageAndCompare :
    (Instr.ae 6 0 0 0).wf = true ∧ (Instr.cd 6 0 0 0).wf = true ∧ (Instr.cer 0 6).wf = true ∧ ReadCases 4 4 ∧
      ReadCases 8 8 :=
  ⟨rfl, rfl, rfl, readCases_4, readCases_8⟩

/-- Zero and nonzero factors. -/
theorem test_witness_FloatMultiply :
    ((Instr.mer 0 6).wf = true ∧ (Instr.mxr 0 4).wf = true ∧ (Instr.mxd 4 0 0 0).wf = true) ∧
      ((start.readFp .short 2).frac = 0 ∧ ((start.setFr 2 0x4110000000000000).readFp .short 2).frac ≠ 0) ∧ ReadCases 4 4 ∧
      ReadCases 8 8 :=
  ⟨by decide, by decide, readCases_4, readCases_8⟩

theorem test_witness_FloatDivideHalve :
    ((Instr.der 0 6).wf = true ∧ (Instr.der 0 6 = .dxr 0 6 → { start.cpu with has31Bit := false }.has31Bit = true) ∧
        (Instr.dxr 0 4).wf = true ∧ (Instr.hdr 4 6).wf = true ∧ start.cpu.has31Bit = true) ∧
      ((start.readFp .ext 4).frac = 0 ∧ ((start.setFr 4 0x4110000000000000).readFp .ext 4).frac ≠ 0) ∧ ReadCases 4 4 ∧
      ReadCases 8 8 :=
  ⟨by decide, by decide, readCases_4, readCases_8⟩

theorem test_witness_FloatLoadStore :
    isFpr 0 = true ∧ isFpr 6 = true ∧ ReadCases 4 4 ∧ ReadCases 8 8 ∧ StoreCases 4 4 [.write] ∧
      StoreCases 8 8 [.write] :=
  ⟨rfl, rfl, readCases_4, readCases_8, storeCases_4, storeCases_8⟩

theorem test_witness_FloatSignAndRound :
    (Instr.lcer 0 6).wf = true ∧ (Instr.ltdr 6 0).wf = true ∧ (Instr.lrer 2 4).wf = true ∧ (Instr.lrdr 2 4).wf = true := by
  decide

/-- An ALET that is 0, one that is in no entry, one that is; LAE through a defined and an undefined ALET; the codes 0 and 2. -/
theorem test_witness_AccessRegisters :
    let s := { (startEsa false).setAr 4 0x02000000 with asc := .ar }
    (s.cpu.hasEsa = true ∧ s.getAr 1 = 0) ∧ (s.getAr 4 ≠ 0 ∧ ∀ e ∈ s.accessList, e.alet ≠ s.getAr 4) ∧
      (let s := (startEsa false).setAr 4 0x10003;
        s.getAr 4 ≠ 0 ∧ ∃ e ∈ s.accessList, e.alet = s.getAr 4) ∧
      (s.asc = .ar ∧ (4 : Reg) ≠ 0 ∧ bits (s.getAr 4) 0 7 ≠ 0) ∧
      (¬ (s.asc = .ar ∧ (1 : Reg) ≠ 0 ∧ bits (s.getAr 1) 0 7 ≠ 0)) ∧
      (0 + (0 : Disp).toNat) / 256 % 16 = 0 ∧ (0 + (512 : Disp).toNat) / 256 % 16 = 2 := by decide

theorem test_witness_AccessMultiple :
    start.cpu.hasEsa = true ∧ 4 * ((0 - 1 : Reg).toNat + 1) = 64 ∧ (bases.ea 1 0 8 % 4 ≠ 0) ∧
      Missing bases 9 (bases.ea 0 0 9) 64 4 [.read] ∧ Missing bases 8 (bases.ea 0 0 8) 64 4 [.write] ∧
      Reached bases 8 .program (bases.ea 0xFC0 0 8) 64 4 [.read] ∧
      Reached bases 7 .program (bases.ea 0xFC0 0 7) 64 4 [.write] :=
  ⟨rfl, rfl, by decide, missing_of (by decide), missing_of (by decide), reached_of (by decide), reached_of (by decide)⟩

end Sys2Proof.Tests
end

section
/-! SUPPORT. Instructions told by what they do with their operand: a word or halfword operand tested and then given to a total
function, and a branch with or without a register written before it. -/

namespace Sys2Proof.Machine

/-! ### A tested operand, then a state -/

section Operand

variable {i : Instr} {s : State} {x b : Reg} {d : Disp} {f : Word → State}

/-- Whatever `f` achieves for every word, an instruction that reads its word operand and goes on to `f` of it achieves; where the
operand cannot be read it traps. -/
theorem word_traps_or_result (P : Word → State → Prop) (hP : ∀ w, P w (f w))
    (h : exec i s = s.attempt (s.wordOperand x b d >>= fun w => pure (f w))) :
    OperandTraps i s b (s.ea d x b) 4 4 [.read] ∧
      ∀ sp, s.AlignedTo (s.ea d x b) 4 → s.Accessible b sp (s.ea d x b) 4 [.read] →
        ∃ t, exec i s = .next t ∧ P (wordOf (s.getBytes sp (s.ea d x b) 4)) t :=
  ⟨traps_word _ h, fun sp ha hs => ⟨_, exec_word_next f h sp ha hs, hP _⟩⟩

/-- The same for a halfword operand, which reaches `f` sign-extended. -/
theorem half_traps_or_result (P : Int → State → Prop) (hP : ∀ w, P w.toInt (f w))
    (h : exec i s = s.attempt (s.halfOperand x b d >>= fun w => pure (f w))) :
    OperandTraps i s b (s.ea d x b) 2 2 [.read] ∧
      ∀ sp, s.AlignedTo (s.ea d x b) 2 → s.Accessible b sp (s.ea d x b) 2 [.read] →
        ∃ t, exec i s = .next t ∧ P (BitVec.ofNat 16 (beNat (s.getBytes sp (s.ea d x b) 2))).toInt t :=
  ⟨traps_half _ h, fun sp ha hs => ⟨_, exec_half_next f h sp ha hs, halfOf_toInt _ ▸ hP _⟩⟩

end Operand

/-! ### Signed sums and differences -/

/-- The sum that is stored, and its overflow, are those of the exact sum (R130). -/
theorem State.arith_addSigned_result (s : State) (r : Reg) (x y : Word) (len : Nat) :
    FixedResult s (s.arith r (addSigned x y) len) r (x.toInt + y.toInt) len :=
  s.arith_spec r _ len _ (by simp [addSigned, BitVec.ofInt_add]) rfl

/-- The difference that is stored, and its overflow, are those of the exact difference (R130). -/
theorem State.arith_subSigned_result (s : State) (r : Reg) (x y : Word) (len : Nat) :
    FixedResult s (s.arith r (subSigned x y) len) r (x.toInt - y.toInt) len :=
  s.arith_spec r _ len _ (by simp [subSigned, Int.sub_eq_add_neg, BitVec.ofInt_add, BitVec.ofInt_neg, BitVec.sub_eq_add_neg]) rfl

/-! ### Branch instructions -/

/-- An instruction that does nothing but branch (R21). -/
theorem branch_result {i : Instr} {s : State} {taken : Bool} {p : Prop} {target len : Nat}
    (h : exec i s = .next (s.branch taken target len)) (ht : target < 2 ^ 31) (hp : taken = true ↔ p) :
    ∃ t, exec i s = .next t ∧ Branched s t p target len ∧ Frame s t [] [] [] := by
  obtain ⟨hbranch, hframe⟩ := s.branch_spec taken target len ht
  exact ⟨_, h, hbranch.congr hp, hframe⟩

/-- An instruction that writes a register and then branches; a branch that is always taken is one with `taken` true (R21). -/
theorem write_branch_result {i : Instr} {s : State} {r : Reg} {v : Word} {taken : Bool} {p : Prop} {target len : Nat}
    (h : exec i s = .next ((s.setGr r v).branch taken target len)) (ht : target < 2 ^ 31) (hp : taken = true ↔ p) :
    ∃ t, exec i s = .next t ∧ t.getGr r = v ∧ Branched s t p target len ∧ Frame s t [r] [] [] := by
  obtain ⟨hbranch, hframe, hwritten⟩ := s.setGr_branch_spec r v taken target len ht
  exact ⟨_, h, hwritten, hbranch.congr hp, hframe⟩

theorem State.regTarget_lt (s : State) (r : Reg) : s.regTarget r < 2 ^ 31 :=
  s.trunc_lt_31 _

/-- The mask bit that belongs to the condition code, bit 0 leftmost (R143). -/
theorem State.selected_iff (s : State) (m : Mask) :
    s.selected m = true ↔ (s.cc = 0 ∧ m.toNat / 8 % 2 = 1) ∨ (s.cc = 1 ∧ m.toNat / 4 % 2 = 1) ∨
      (s.cc = 2 ∧ m.toNat / 2 % 2 = 1) ∨ (s.cc = 3 ∧ m.toNat % 2 = 1) := by
  unfold State.selected
  generalize s.cc = cc
  revert cc m
  decide

/-- Counting down, modulo 2^32 (R145). -/
theorem toNat_sub_one (w : Word) : (w - 1).toNat = (w.toNat + 2 ^ 32 - 1) % 2 ^ 32 := by
  bv_omega

/-- Counting down reaches 0 from 1 only (R145). -/
theorem sub_one_bne_zero (w : Word) : (w - 1 != 0) = true ↔ w.toNat ≠ 1 := by
  rw [bne_iff_ne]
  bv_omega

/-- The register that holds the comparand: the odd one of the pair that R3 belongs to (R150). -/
theorem reg_or_one_eq_odd (r : Reg) : r ||| 1 = if r.toNat % 2 = 0 then r + 1 else r := by
  revert r
  decide

end Sys2Proof.Machine
end

section
/-! The family of add, branch and compare: AR to SH, CR to CL, and the branches (40_general_add_to_compare.md R131 to R133,
R136 to R146, R150 to R156; 43_general_subtract_to_xor.md R320 to R322). -/

namespace Sys2Proof.Machine

/-- Settles O15: the two instructions of the list, each by what `arith` stores. -/
theorem addSubtractRegister : Obligations.AddSubtractRegister := by
  intro s r1 r2 i v hi
  simp only [List.mem_cons, Prod.mk.injEq, List.not_mem_nil, or_false] at hi
  obtain ⟨rfl, rfl⟩ | ⟨rfl, rfl⟩ := hi
  case inl => exact ⟨_, rfl, s.arith_addSigned_result r1 _ _ 2⟩
  case inr => exact ⟨_, rfl, s.arith_subSigned_result r1 _ _ 2⟩

/-- Settles O16: the four instructions of the list, each a tested operand and then `arith`. -/
theorem addSubtractStorage : Obligations.AddSubtractStorage := by
  intro s r1 x2 b2 d2 a i n v hi
  simp only [List.mem_cons, Prod.mk.injEq, List.not_mem_nil, or_false] at hi
  obtain ⟨rfl, rfl, rfl⟩ | ⟨rfl, rfl, rfl⟩ | ⟨rfl, rfl, rfl⟩ | ⟨rfl, rfl, rfl⟩ := hi
  case inl => -- A
    exact word_traps_or_result (fun w t => FixedResult s t r1 ((s.getGr r1).toInt + w.toInt) 4)
      (fun w => s.arith_addSigned_result r1 _ w 4) rfl
  case inr.inl => -- S
    exact word_traps_or_result (fun w t => FixedResult s t r1 ((s.getGr r1).toInt - w.toInt) 4)
      (fun w => s.arith_subSigned_result r1 _ w 4) rfl
  case inr.inr.inl => -- AH
    exact half_traps_or_result (fun y t => FixedResult s t r1 ((s.getGr r1).toInt + y) 4)
      (fun w => s.arith_addSigned_result r1 _ w 4) rfl
  case inr.inr.inr => -- SH
    exact half_traps_or_result (fun y t => FixedResult s t r1 ((s.getGr r1).toInt - y) 4)
      (fun w => s.arith_subSigned_result r1 _ w 4) rfl

/-- Settles O18: the register forms at once; the storage forms are a tested operand and then `compare`, CL with its operand
unsigned. -/
theorem compareFixed : Obligations.CompareFixed := by
  intro s r1 r2 x2 b2 d2 a
  refine ⟨⟨_, rfl, s.compare_ended _ _ 2⟩, ⟨_, rfl, s.compare_ended _ _ 2⟩, fun i n x y hi => ?_⟩
  simp only [List.mem_cons, Prod.mk.injEq, List.not_mem_nil, or_false] at hi
  obtain ⟨rfl, rfl, rfl, rfl⟩ | ⟨rfl, rfl, rfl, rfl⟩ | ⟨rfl, rfl, rfl, rfl⟩ := hi
  case inl => -- C
    exact word_traps_or_result (fun w t => t.cc = orderCc (s.getGr r1).toInt w.toInt ∧ Ended s t 4 [] [] [])
      (fun w => s.compare_ended _ w.toInt 4) rfl
  case inr.inl => -- CH
    exact half_traps_or_result (fun y t => t.cc = orderCc (s.getGr r1).toInt y ∧ Ended s t 4 [] [] [])
      (fun w => s.compare_ended _ w.toInt 4) rfl
  case inr.inr => -- CL
    have hvalue (sp : Space) : beNat (s.getBytes sp a 4) = (wordOf (s.getBytes sp a 4)).toNat :=
      (wordOf_toNat _ (s.getBytes_length sp a 4)).symm
    simp only [hvalue]
    exact word_traps_or_result (fun w t => t.cc = orderCc (s.getGr r1).toNat w.toNat ∧ Ended s t 4 [] [] [])
      (fun w => s.compare_ended _ w.toNat 4) rfl

/-- Settles O30: each of the four writes its link register and branches, BAL and BAS always. -/
theorem branchAndLink : Obligations.BranchAndLink := by
  intro s r1 r2 x2 b2 d2 target linked saved
  have hlinked (t : State) (len : Nat) (hlen : len = 2 ∨ len = 4) (ht : t.getGr r1 = s.linkInfo len) : linked t len := by
    simp only [linked, ht]
    exact s.linkInfo_spec len hlen
  have hsaved (t : State) (len : Nat) (ht : t.getGr r1 = s.saveInfo len) : saved t len := by
    simp only [saved, ht]
    exact s.saveInfo_spec len
  refine ⟨?balr, ?bal, ?basr, ?bas⟩
  case balr =>
    obtain ⟨t, hexec, hwritten, hrest⟩ :=
      write_branch_result (i := .balr r1 r2) (s := s) rfl (s.regTarget_lt r2) bne_iff_ne
    exact ⟨t, hexec, hlinked t 2 (.inl rfl) hwritten, hrest⟩
  case bal =>
    obtain ⟨t, hexec, hwritten, hrest⟩ :=
      write_branch_result (i := .bal r1 x2 b2 d2) (taken := true) rfl (s.ea_lt d2 x2 b2) (iff_true_intro rfl)
    exact ⟨t, hexec, hlinked t 4 (.inr rfl) hwritten, hrest⟩
  case basr =>
    obtain ⟨t, hexec, hwritten, hrest⟩ :=
      write_branch_result (i := .basr r1 r2) (s := s) rfl (s.regTarget_lt r2) bne_iff_ne
    exact ⟨t, hexec, hsaved t 2 hwritten, hrest⟩
  case bas =>
    obtain ⟨t, hexec, hwritten, hrest⟩ :=
      write_branch_result (i := .bas r1 x2 b2 d2) (taken := true) rfl (s.ea_lt d2 x2 b2) (iff_true_intro rfl)
    exact ⟨t, hexec, hsaved t 4 hwritten, hrest⟩

/-- Settles O32: the condition of each branch is the one that `selected_iff` or `sub_one_bne_zero` states. -/
theorem branchOnConditionAndCount : Obligations.BranchOnConditionAndCount := by
  intro s r1 r2 x2 b2 d2 m1 target selected
  refine ⟨?bcr, ?bc, ?bctr, ?bct⟩
  case bcr =>
    have htaken : (s.selected m1 && r2 != 0) = true ↔ selected ∧ r2 ≠ 0 := by
      rw [Bool.and_eq_true, s.selected_iff, bne_iff_ne]
    exact branch_result rfl (s.regTarget_lt r2) htaken
  case bc => exact branch_result rfl (s.ea_lt d2 x2 b2) (s.selected_iff m1)
  case bctr =>
    have htaken : (s.getGr r1 - 1 != 0 && r2 != 0) = true ↔ (s.getGr r1).toNat ≠ 1 ∧ r2 ≠ 0 := by
      rw [Bool.and_eq_true, sub_one_bne_zero, bne_iff_ne]
    obtain ⟨t, hexec, hwritten, hrest⟩ :=
      write_branch_result (i := .bctr r1 r2) (s := s) rfl (s.regTarget_lt r2) htaken
    exact ⟨t, hexec, hwritten ▸ toNat_sub_one _, hrest⟩
  case bct =>
    obtain ⟨t, hexec, hwritten, hrest⟩ :=
      write_branch_result (i := .bct r1 x2 b2 d2) (s := s) rfl (s.ea_lt d2 x2 b2) (sub_one_bne_zero _)
    exact ⟨t, hexec, hwritten ▸ toNat_sub_one _, hrest⟩

/-- Settles O33: the index is the sum modulo 2^32, and `R3 | 1` names the register of the comparand. -/
theorem branchOnIndex : Obligations.BranchOnIndex := by
  intro s r1 r3 b2 d2 sum comparand
  have hsum : sum = (s.index r1 r3).1 := (BitVec.add_def _ _).symm
  have hcomparand : comparand = s.getGr (r3 ||| 1) := congrArg s.getGr (reg_or_one_eq_odd r3).symm
  have hhigh : (s.index r1 r3).2 = true ↔ sum.toInt > comparand.toInt := by
    rw [hsum, hcomparand]
    exact decide_eq_true_iff
  have hlow : (!(s.index r1 r3).2) = true ↔ sum.toInt ≤ comparand.toInt := by
    rw [Bool.not_eq_true', ← Bool.not_eq_true, hhigh, gt_iff_lt, not_lt]
  rw [hsum] at hhigh hlow ⊢
  exact ⟨write_branch_result rfl (s.ea_lt d2 0 b2) hhigh, write_branch_result rfl (s.ea_lt d2 0 b2) hlow⟩

end Sys2Proof.Machine
end

section
/-! SUPPORT. What the loads of one register leave: the register written, the exact value with its sign, and the bytes of the
operand. -/

namespace Sys2Proof.Machine

/-! ### A register written, then the next instruction -/

/-- An instruction that does nothing but write a register and go on (R21). -/
theorem State.setGr_advance_ended (s : State) (r : Reg) (v : Word) (len : Nat) :
    ((s.setGr r v).advance len).getGr r = v ∧ ((s.setGr r v).advance len).cc = s.cc ∧
      Ended s ((s.setGr r v).advance len) len [r] [] [] := by
  simp +contextual [Ended, Frame, SameRegistersBut, SameModes, SameSystem, SameOracles, SameMemory]

/-- An address is stored whole: it has at most 31 bits (R58, R212). -/
theorem State.ofNat_ea_toNat (s : State) (d : Disp) (x b : Reg) : (BitVec.ofNat 32 (s.ea d x b)).toNat = s.ea d x b := by
  have := s.ea_lt d x b
  rw [BitVec.toNat_ofNat, Nat.mod_eq_of_lt (by omega)]

/-! ### Operands as their bytes -/

/-- The halfword of two bytes, highest first (R52). -/
theorem ofNat_beNat_two (a b : Byte) : BitVec.ofNat 16 (beNat [a, b]) = a ++ b := by
  apply BitVec.eq_of_toNat_eq
  have := a.isLt
  have := b.isLt
  simp only [BitVec.toNat_ofNat, BitVec.toNat_append, beNat_cons, beNat_nil, List.length_cons, List.length_nil]
  rw [← Nat.shiftLeft_add_eq_or_of_lt (by omega), Nat.shiftLeft_eq]
  omega

/-! ### Values and complements -/

theorem outOfRange_toInt (w : Word) : outOfRange 32 w.toInt = false := by
  rw [Bool.eq_false_iff, ne_eq, outOfRange_iff, not_not]
  exact ⟨w.le_toInt, w.toInt_lt⟩

/-- The complement of the least negative number, and no other, does not fit (R213). -/
theorem outOfRange_neg_toInt (w : Word) : outOfRange 32 (-w.toInt) = (w == 0x80000000) := by
  have hleast : (0x80000000 : Word).toInt = -2 ^ 31 := by decide
  have hle := w.le_toInt
  have hlt := w.toInt_lt
  rw [Bool.eq_iff_iff, outOfRange_iff, beq_iff_eq, ← BitVec.toInt_inj, hleast]
  omega

theorem beq_least_of_nonneg {w : Word} (h : ¬ w.toInt < 0) : (w == 0x80000000) = false := by
  rw [beq_eq_false_iff_ne]
  rintro rfl
  exact h (by decide)

/-- For a number that is not positive the code of its sign tells zero from not zero (R216). -/
theorem nonzeroCc_eq_signCc {w : Word} (h : w.toInt ≤ 0) : nonzeroCc (w != 0) = signCc w.toInt := by
  by_cases hzero : w = 0
  · subst hzero
    rfl
  · have hneg : w.toInt < 0 := lt_of_le_of_ne h (mt (BitVec.toInt_inj (y := 0)).1 hzero)
    rw [nonzeroCc, if_pos (bne_iff_ne.2 hzero), signCc, if_neg hneg.ne, if_pos hneg]

/-! ### Signed loads as exact results -/

/-- A result without overflow: store, code of the sign, go on (R130). -/
theorem State.arith_fits (s : State) (r : Reg) (w : Word) (len : Nat) :
    s.arith r (w, false) len = ((s.setGr r w).setCc (signCc w.toInt)).advance len := by
  simp [State.arith, State.fixedOverflow, signedCc]

/-- The value itself (R218). -/
theorem State.arith_self_result (s : State) (r : Reg) (w : Word) (len : Nat) :
    FixedResult s (s.arith r (w, false) len) r w.toInt len :=
  s.arith_spec r _ len _ (BitVec.ofInt_toInt).symm (outOfRange_toInt w).symm

/-- The complement, with its overflow (R213). -/
theorem State.arith_neg_result (s : State) (r : Reg) (w : Word) (len : Nat) :
    FixedResult s (s.arith r (-w, w == 0x80000000) len) r (-w.toInt) len :=
  s.arith_spec r _ len _ (by rw [BitVec.ofInt_neg, BitVec.ofInt_toInt]) (outOfRange_neg_toInt w).symm

/-- The magnitude: a negative number is complemented, and only that can overflow (R217). -/
theorem State.loadSigned_abs_result (s : State) (r : Reg) (w : Word) (len : Nat) :
    FixedResult s (s.loadSigned r (if w.toInt < 0 then -w else w) (w == 0x80000000) len) r w.toInt.natAbs len := by
  by_cases h : w.toInt < 0
  · rw [if_pos h, Int.ofNat_natAbs_of_nonpos h.le]
    exact s.arith_neg_result r w len
  · rw [if_neg h, beq_least_of_nonneg h, Int.natAbs_of_nonneg (not_lt.1 h)]
    exact s.arith_self_result r w len

/-- The negative of the magnitude always fits, and is never positive (R216). -/
theorem State.negAbs_result (s : State) (r : Reg) (w : Word) (len : Nat) :
    let z := if w.toInt < 0 then w else -w
    FixedResult s (((s.setGr r z).setCc (nonzeroCc (z != 0))).advance len) r (-(w.toInt.natAbs : Int)) len := by
  intro z
  have hexact : FixedResult s (s.arith r (z, false) len) r (-(w.toInt.natAbs : Int)) len ∧ z.toInt ≤ 0 := by
    by_cases h : w.toInt < 0
    · rw [show z = w from if_pos h, Int.ofNat_natAbs_of_nonpos h.le, neg_neg]
      exact ⟨s.arith_self_result r w len, h.le⟩
    · have hleast := beq_least_of_nonneg h
      have hneg := s.arith_neg_result r w len
      rw [hleast] at hneg
      rw [show z = -w from if_neg h, Int.natAbs_of_nonneg (not_lt.1 h)]
      refine ⟨hneg, ?_⟩
      rw [BitVec.toInt_neg_of_ne_intMin (beq_eq_false_iff_ne.1 hleast)]
      omega
  obtain ⟨hresult, hsign⟩ := hexact
  rwa [nonzeroCc_eq_signCc hsign, ← s.arith_fits]

end Sys2Proof.Machine
end

section
/-! The family of loads and the program mask: LR, L, LH and LA, LTR, LCR, LPR and LNR, IPM and SPM
(41_general_convert_to_load.md R209 to R214, R216 to R218; 43_general_subtract_to_xor.md R330). -/

namespace Sys2Proof.Machine

/-- Settles O22: each of the four writes one register; L and LH after the tests of their operand. -/
theorem load : Obligations.Load := by
  intro s r1 r2 x2 b2 d2 a
  obtain ⟨htrapsWord, hword⟩ := word_traps_or_result (i := .l r1 x2 b2 d2)
    (fun w t => t.getGr r1 = w ∧ t.cc = s.cc ∧ Ended s t 4 [r1] [] []) (fun w => s.setGr_advance_ended r1 w 4) rfl
  obtain ⟨htrapsHalf, hhalf⟩ := half_traps_or_result (i := .lh r1 x2 b2 d2)
    (fun y t => (t.getGr r1).toInt = y ∧ t.cc = s.cc ∧ Ended s t 4 [r1] [] [])
    (fun w => (s.setGr_advance_ended r1 w 4).imp_left (congrArg BitVec.toInt)) rfl
  simp only [State.getBytes_four, wordOf_four] at hword
  simp only [State.getBytes_two, ofNat_beNat_two] at hhalf
  refine ⟨⟨_, rfl, s.setGr_advance_ended r1 _ 2⟩, ?la, htrapsWord, htrapsHalf, hword, hhalf⟩
  case la =>
    obtain ⟨hwritten, hrest⟩ := s.setGr_advance_ended r1 (BitVec.ofNat 32 a) 4
    exact ⟨_, rfl, (congrArg BitVec.toNat hwritten).trans (s.ofNat_ea_toNat d2 x2 b2), hrest⟩

/-- Settles O23: LTR is a result that fits, LCR the complement; LPR and LNR are one or the other by the sign. -/
theorem loadSigned : Obligations.LoadSigned := by
  intro s r1 r2 i v y hi
  simp only [List.mem_cons, Prod.mk.injEq, List.not_mem_nil, or_false] at hi
  obtain ⟨rfl, rfl⟩ | ⟨rfl, rfl⟩ | ⟨rfl, rfl⟩ | ⟨rfl, rfl⟩ := hi
  case inl => exact ⟨_, rfl, s.arith_fits r1 _ 2 ▸ s.arith_self_result r1 _ 2⟩ -- LTR
  case inr.inl => exact ⟨_, rfl, s.arith_neg_result r1 _ 2⟩ -- LCR
  case inr.inr.inl => exact ⟨_, rfl, s.loadSigned_abs_result r1 _ 2⟩ -- LPR
  case inr.inr.inr => exact ⟨_, rfl, s.negAbs_result r1 _ 2⟩ -- LNR

/-- Settles O27: IPM writes four fields side by side; SPM goes on from a state with another code and mask. -/
theorem programMask : Obligations.ProgramMask := by
  intro s r1
  refine ⟨?ipm, ?spm⟩
  case ipm =>
    obtain ⟨hzeros, hcc, hpm, hright⟩ := bits_fields 0 s.cc s.pm (bits (s.getGr r1) 8 24)
    obtain ⟨hwritten, hrest⟩ := s.setGr_advance_ended r1 ((0 : BitVec 2) ++ s.cc ++ s.pm ++ bits (s.getGr r1) 8 24) 4
    rw [← hwritten] at hzeros hcc hpm hright
    exact ⟨_, rfl, hzeros, hcc, hpm, hright, hrest⟩
  case spm =>
    obtain ⟨hia, hcontrol, ⟨hregisters, ⟨-, hamode, hasc⟩, hsystem, horacles⟩, hmemory⟩ :=
      State.advance_ended { s with cc := bits (s.getGr r1) 2 2, pm := bits (s.getGr r1) 4 4 } 2
    exact ⟨_, rfl, rfl, rfl, hia, hcontrol, hregisters, hamode, hasc, hsystem, horacles, hmemory⟩

end Sys2Proof.Machine
end

section
/-! The family of the logic instructions with a result in a register: NR, OR, XR, N, O and X (42_general_multiply_to_pack.md
R271, R272, R275, R276; 43_general_subtract_to_xor.md R346, R347). -/

namespace Sys2Proof.Machine

/-- A value that is the function `op` of its two operands in every bit, stored by the scheme of R270: the register is that function
of them in every bit, and the code is that of what the register now holds. -/
theorem State.logicReg_bitwise (s : State) (r : Reg) (len : Nat) {op : Bool → Bool → Bool} {x y v : Word}
    (hv : ∀ {k}, v.getLsbD k = op (x.getLsbD k) (y.getLsbD k)) :
    (∀ k < 32, ((s.logicReg r v len).getGr r).getLsbD k = op (x.getLsbD k) (y.getLsbD k)) ∧
      (s.logicReg r v len).cc = (if (s.logicReg r v len).getGr r = 0 then 0 else 1) ∧
        Ended s (s.logicReg r v len) len [r] [] [] := by
  obtain ⟨hwritten, hcc, hended⟩ := s.logicReg_spec r v len
  rw [hwritten]
  exact ⟨fun _ _ => hv, hcc, hended⟩

/-- Settles O34: the register forms at once, the storage forms after the tests of their operand; each stores a function of single
bits. -/
theorem logicRegister : Obligations.LogicRegister := by
  intro s r1 r2 x2 b2 d2 a done
  refine ⟨fun i op hi => ?register, fun i op hi => ?storage⟩
  case register =>
    simp only [List.mem_cons, Prod.mk.injEq, List.not_mem_nil, or_false] at hi
    obtain ⟨rfl, rfl⟩ | ⟨rfl, rfl⟩ | ⟨rfl, rfl⟩ := hi
    case inl => exact ⟨_, rfl, s.logicReg_bitwise r1 2 BitVec.getLsbD_and⟩ -- NR
    case inr.inl => exact ⟨_, rfl, s.logicReg_bitwise r1 2 BitVec.getLsbD_or⟩ -- OR
    case inr.inr => exact ⟨_, rfl, s.logicReg_bitwise r1 2 BitVec.getLsbD_xor⟩ -- XR
  case storage =>
    simp only [List.mem_cons, Prod.mk.injEq, List.not_mem_nil, or_false] at hi
    obtain ⟨rfl, rfl⟩ | ⟨rfl, rfl⟩ | ⟨rfl, rfl⟩ := hi
    case inl => -- N
      exact word_traps_or_result (fun w t => done t and w 4) (fun _ => s.logicReg_bitwise r1 4 BitVec.getLsbD_and) rfl
    case inr.inl => -- O
      exact word_traps_or_result (fun w t => done t or w 4) (fun _ => s.logicReg_bitwise r1 4 BitVec.getLsbD_or) rfl
    case inr.inr => -- X
      exact word_traps_or_result (fun w t => done t xor w 4) (fun _ => s.logicReg_bitwise r1 4 BitVec.getLsbD_xor) rfl

end Sys2Proof.Machine
end

section
/-! The family of the shifts: SLL, SRL, SLDL and SRDL (43_general_subtract_to_xor.md R328, R329, R333, R334). -/

namespace Sys2Proof.Machine

/-! ### Unsigned results in a register or a pair -/

/-- An instruction that does nothing but write a register with an unsigned number and go on (R21). -/
theorem State.setGr_advance_unsigned (s : State) (r : Reg) {v : Word} {m : Nat} (hv : v.toNat = m) (len : Nat) :
    let t := (s.setGr r v).advance len
    (t.getGr r).toNat = m ∧ t.cc = s.cc ∧ Ended s t len [r] [] [] :=
  (s.setGr_advance_ended r v len).imp_left fun hwritten => (congrArg BitVec.toNat hwritten).trans hv

/-- The same for a register pair (R11, R21). -/
theorem State.setPair_advance_unsigned (s : State) (r : Reg) {v : Dword} {m : Nat} (hv : v.toNat = m) (len : Nat) :
    let t := (s.setPair r v).advance len
    (t.getPair r).toNat = m ∧ t.cc = s.cc ∧ Ended s t len [r, r + 1] [] [] := by
  refine ⟨(congrArg BitVec.toNat (s.getPair_setPair r v)).trans hv, rfl, ?_⟩
  simp +contextual [Ended, Frame, SameRegistersBut, SameModes, SameSystem, SameOracles, SameMemory]

/-- An instruction that writes the pair of an even R1 and refuses an odd one (R105). -/
theorem pair_traps_or_unsigned {i : Instr} {s : State} {r : Reg} {v : Dword} {m : Nat} (hv : v.toNat = m)
    (h : exec i s = if isEven r then .next ((s.setPair r v).advance 4) else .next (s.takeInterrupt .addressing)) :
    (r.toNat % 2 = 1 → exec i s = .next (s.takeInterrupt .addressing)) ∧
      (r.toNat % 2 = 0 →
        ∃ t, exec i s = .next t ∧ (t.getPair r).toNat = m ∧ t.cc = s.cc ∧ Ended s t 4 [r, r + 1] [] []) := by
  refine ⟨fun hodd => ?_, fun heven => ?_⟩
  · have hnotEven : ¬ isEven r = true := by
      rw [isEven_iff]
      omega
    rw [h, if_neg hnotEven]
  · rw [h, if_pos ((isEven_iff r).2 heven)]
    exact ⟨_, rfl, s.setPair_advance_unsigned r hv 4⟩

/-! ### The logical shifts -/

/-- The bits shifted out on the left are lost: the product is taken modulo 2^w (R328, R329). -/
theorem toNat_shiftLeft_eq_mul {w : Nat} (v : BitVec w) (n : Nat) : (v <<< n).toNat = v.toNat * 2 ^ n % 2 ^ w := by
  rw [BitVec.toNat_shiftLeft, Nat.shiftLeft_eq]

/-- The bits shifted out on the right are lost: the quotient is rounded down (R333, R334). -/
theorem toNat_ushiftRight_eq_div {w : Nat} (v : BitVec w) (n : Nat) : (v >>> n).toNat = v.toNat / 2 ^ n := by
  rw [BitVec.toNat_ushiftRight, Nat.shiftRight_eq_div_pow]

/-- Settles O28: SLL and SRL write one register; SLDL and SRDL write a pair or refuse an odd R1. -/
theorem shiftLogical : Obligations.ShiftLogical := by
  intro s r1 b2 d2 n
  obtain ⟨hleftOdd, hleftEven⟩ :=
    pair_traps_or_unsigned (i := .sldl r1 b2 d2) (toNat_shiftLeft_eq_mul (s.getPair r1) n) rfl
  obtain ⟨hrightOdd, hrightEven⟩ :=
    pair_traps_or_unsigned (i := .srdl r1 b2 d2) (toNat_ushiftRight_eq_div (s.getPair r1) n) rfl
  refine ⟨?sll, ?srl, fun hodd i hi => ?odd, fun heven => ⟨hleftEven heven, hrightEven heven⟩⟩
  case sll => exact ⟨_, rfl, s.setGr_advance_unsigned r1 (toNat_shiftLeft_eq_mul _ n) 4⟩
  case srl => exact ⟨_, rfl, s.setGr_advance_unsigned r1 (toNat_ushiftRight_eq_div _ n) 4⟩
  case odd =>
    simp only [List.mem_cons, List.not_mem_nil, or_false] at hi
    obtain rfl | rfl := hi
    · exact hleftOdd hodd
    · exact hrightOdd hodd

end Sys2Proof.Machine
end

section
/-! What a step can do, said once, and the statements about the machine as a whole that follow from it (60_exceptions.md R610,
R615, R620, R621; 20_memory.md R55). -/

namespace Sys2Proof.Machine

/-! ### One step -/

/-- A step of the running program has a next state, within what an instruction may write: it takes an interrupt or executes the
instruction fetched (R610). -/
theorem step_program_within {s : State} (h : s.control = .program) : Runs (Within s) (step s) := by
  unfold step
  rw [h]
  dsimp only
  split
  · exact runs_next Within.interrupt
  · split
    · exact within_exec _ s
    · exact runs_next Within.interrupt

theorem step_interrupt {s : State} {w : Interrupt} (h : s.control = .interrupt w) : step s = .next (s.deliver w) := by
  unfold step
  rw [h]

theorem step_supervisor {s : State} {code : Byte} (h : s.control = .supervisor code) : step s = .next (s.service code) := by
  unfold step
  rw [h]

theorem step_terminated {s : State} {cause : Option Interrupt} (h : s.control = .terminated cause) :
    step s = .fault .programEnded := by
  unfold step
  rw [h]

/-- All that a step can do: an instruction's work, or an answer of the operating system, which ends the program or is a state of
the operating system's choice but for the weight in general-purpose register 3 (R610, R615, R621). -/
theorem step_cases {s t : State} (h : step s = .next t) :
    (s.control = .program ∧ Within s t) ∨ (∃ c, t = { s with control := .terminated c }) ∨
      ∃ (r : HostReply s) (g : Vector Word 16), t = { r.val with gr := g, control := .program } := by
  cases hc : s.control with
  | program =>
    obtain ⟨u, hu, hwithin⟩ := step_program_within hc
    obtain rfl : u = t := Host.Outcome.next.inj (hu.symm.trans h)
    exact .inl ⟨rfl, hwithin⟩
  | interrupt w =>
    obtain rfl : s.deliver w = t := Host.Outcome.next.inj ((step_interrupt hc).symm.trans h)
    obtain hend | ⟨r, -, hon⟩ := s.deliver_cases w
    · exact .inr (.inl ⟨_, hend⟩)
    · exact .inr (.inr ⟨r, _, hon⟩)
  | supervisor code =>
    obtain rfl : s.service code = t := Host.Outcome.next.inj ((step_supervisor hc).symm.trans h)
    obtain hend | ⟨r, hon⟩ := s.service_cases code
    · exact .inr (.inl ⟨_, hend⟩)
    · exact .inr (.inr ⟨r, r.val.gr, hon⟩)
  | terminated cause => simp [step_terminated hc] at h

/-- What lies within an instruction's reach is well formed (R20, R26, R27). -/
theorem Within.wf {s t : State} (h : Within s t) (hs : s.wf) : t.wf := by
  obtain ⟨hmem, hia, hex, h31, hesa⟩ := hs
  refine ⟨h.mem hmem, h.ia hia, h.underEx.elim (·.trans hex) id, fun hno => ?_, fun hno => ?_⟩
  · rw [h.cpu] at hno
    exact (h.amode hno).trans (h31 hno)
  · rw [h.cpu] at hno
    exact (h.asc hno).trans (hesa hno)

/-- No step lets the clock go back (R622). -/
theorem step_tod_le {s t : State} (h : step s = .next t) : s.tod ≤ t.tod := by
  obtain ⟨-, hwithin⟩ | ⟨c, rfl⟩ | ⟨r, g, rfl⟩ := step_cases h
  · exact hwithin.tod
  · exact BitVec.le_refl _
  · exact r.property.2.2.1

/-- Settles O3: an instruction stays within its reach, and the operating system's answers are well formed. -/
theorem stepKeepsWellFormed : Obligations.StepKeepsWellFormed := by
  intro s t hs h
  obtain ⟨-, hwithin⟩ | ⟨c, rfl⟩ | ⟨r, g, rfl⟩ := step_cases h
  · exact hwithin.wf hs
  · exact hs
  · exact r.property.1

/-- Settles O10: by who executes next; only an ended program has no next state. -/
theorem everyInstructionHasNextState : Obligations.EveryInstructionHasNextState := by
  refine ⟨fun i s => ?instruction, fun s => ?step⟩
  case instruction =>
    obtain ⟨t, ht, -⟩ := within_exec i s
    exact ⟨t, ht⟩
  case step =>
    cases hc : s.control with
    | program =>
      obtain ⟨t, ht, -⟩ := step_program_within hc
      exact .inl ⟨t, ht⟩
    | interrupt w => exact .inl ⟨_, step_interrupt hc⟩
    | supervisor code => exact .inl ⟨_, step_supervisor hc⟩
    | terminated cause => exact .inr ⟨⟨cause, rfl⟩, step_terminated hc⟩

/-- Settles O11: what an instruction may write leaves out what the operating system keeps, and so does a step of the program. -/
theorem programCannotTouchSystem : Obligations.ProgramCannotTouchSystem := by
  refine ⟨fun i s t h => ?instruction, fun s t hc h => ?step⟩
  case instruction =>
    obtain ⟨u, hu, hwithin⟩ := within_exec i s
    obtain rfl : u = t := Host.Outcome.next.inj (hu.symm.trans h)
    exact ⟨hwithin.alloc, hwithin.accessList, hwithin.stxit, hwithin.cpu⟩
  case step =>
    obtain ⟨u, hu, hwithin⟩ := step_program_within hc
    obtain rfl : u = t := Host.Outcome.next.inj (hu.symm.trans h)
    exact ⟨hwithin.alloc, hwithin.accessList, hwithin.stxit, hwithin.cpu⟩

/-- Settles O9: by the two answers that the operating system may give. -/
theorem interruptDelivery : Obligations.InterruptDelivery := by
  refine ⟨fun s w hc hno => ?ended, fun s w => step_terminated, fun s w hc _ => ?delivered, rfl⟩
  case ended =>
    rw [step_interrupt hc]
    obtain hend | ⟨r, htask, -⟩ := s.deliver_cases w
    · rw [hend]
    · simp [hno] at htask
  case delivered =>
    refine ⟨_, step_interrupt hc, ?_⟩
    obtain hend | ⟨r, -, hon⟩ := s.deliver_cases w
    · rw [hend]
      exact .inl rfl
    · rw [hon]
      have hweight : ((r.val.setGr 3 (bits (r.val.getGr 3) 0 24 ++ w.weight)).getGr 3) =
          bits (r.val.getGr 3) 0 24 ++ w.weight := by simp
      exact .inr ⟨rfl, (congrArg (bits · 24 8) hweight).trans (bits_append_right _ _)⟩

/-- Settles O1: program start is a literal state. -/
theorem resetStatedValues : Obligations.ResetStatedValues := by
  refine ⟨rfl, fun r => ?_, rfl⟩
  simp [State.reset, State.getAr]

/-- Settles O2: nothing is stored at program start, and the entry address is in 24-bit mode. -/
theorem resetWellFormed : Obligations.ResetWellFormed :=
  ⟨Memory.wf_nil, by decide, rfl, fun _ => rfl, fun _ => rfl⟩

end Sys2Proof.Machine
end

section
/-! Decoding: every encoding decodes to its instruction, the defined operation codes are those of R101, and what a step fetches is
what it executes or refuses (30_encoding.md R90 to R104). -/

namespace Sys2Proof.Machine

/-! ### Formats -/

theorem decode_enc2 (op : Byte) (a b : BitVec 4) (rest : List Byte) (h : op < 0x40) :
    decode (enc2 op a b ++ rest) = orUnknown [op] (decode2 op.toNat (ofNibs a b)) :=
  decode_two op _ rest h

theorem decode_encRre (op2 : Byte) (a b : BitVec 4) (rest : List Byte) :
    decode (encRre op2 a b ++ rest) = orUnknown [0xB2, op2] (decodeB2 op2.toNat 0 (ofNibs a b)) :=
  decode_b2 op2 _ _ rest

theorem decode_encS (op2 : Byte) (b : Reg) (d : Disp) (rest : List Byte) :
    decode (encS op2 b d ++ rest) = orUnknown [0xB2, op2] (decodeB2 op2.toNat (baseByte b d) (dispByte d)) :=
  decode_b2 op2 _ _ rest

theorem decode_enc4 (op b1 : Byte) (b : Reg) (d : Disp) (rest : List Byte) (h : 0x40 ≤ op) (h' : op < 0xC0) (hb : op ≠ 0xB2) :
    decode (enc4 op b1 b d ++ rest) = orUnknown [op] (decode4 op.toNat b1 (baseByte b d) (dispByte d)) :=
  decode_four op b1 _ _ rest h h' hb

theorem decode_enc6 (op b1 : Byte) (b : Reg) (d : Disp) (b' : Reg) (d' : Disp) (rest : List Byte) (h : 0xC0 ≤ op) :
    decode (enc6 op b1 b d b' d' ++ rest) =
      orUnknown [op] (decode6 op.toNat b1 (baseByte b d) (dispByte d) (baseByte b' d') (dispByte d')) :=
  decode_six op b1 _ _ _ _ rest h


theorem orUnknown_eq {code : List Byte} {o : Option Instr} {i j : Instr} (ho : o = some i) (hij : i = j) :
    orUnknown code o = .ok j := by
  rw [ho, hij]
  rfl

/-- Settles O4: by the format of the encoding; each operation code decodes to its row, whose fields are those encoded. -/
theorem decodeEncode : Obligations.DecodeEncode := by
  intro i rest
  cases i
  case svc imm => exact decode_two 0x0A imm rest (by decide)
  case spm | balr | bctr | bcr | bsm | bassm | basr | mvcl | clcl | lpr | lnr | ltr | lcr | nr | clr | or | xr | lr |
      cr | ar | sr | mr | dr | alr | slr | lpdr | lndr | ltdr | lcdr | hdr | lrdr | mxr | mxdr | ldr | cdr | adr | sdr
      | mdr | ddr | awr | swr | lper | lner | lter | lcer | her | lrer | axr | sxr | ler | cer | aer | ser | mer | der
      | aur | sur =>
    exact (decode_enc2 _ _ _ _ (by decide)).trans (orUnknown_eq rfl (by simp))
  case ipm | iac | dxr | tar | cpya | sar | ear =>
    exact (decode_encRre _ _ _ _).trans (orUnknown_eq rfl (by simp))
  case stck | sac =>
    exact (decode_encS _ _ _ _).trans (orUnknown_eq rfl (by simp))
  case sth | la | stc | ic | ex | bal | bct | bc | lh | ch | ah | sh | mh | bas | cvd | cvb | st | lae | n | cl | o |
      x | l | c | a | s | m | d | al | sl | std | mxd | ld | cd | ad | sd | md | dd | aw | sw | ste | le | ce | ae |
      se | me | de | au | su | bxh | bxle | srl | sll | sra | sla | srdl | sldl | srda | slda | stm | tm | mvi | ts |
      ni | cli | oi | xi | lm | lam | stam | mc | cs | cds | clm | stcm | icm =>
    exact (decode_enc4 _ _ _ _ _ (by decide) (by decide) (by decide)).trans (orUnknown_eq rfl (by simp))
  case mvn | mvc | mvz | nc | clc | oc | xc | tr | trt | ed | edmk | srp | mvo | pack | unpk | zap | cp | ap | sp | mp
      | dp =>
    exact (decode_enc6 _ _ _ _ _ _ _ (by decide)).trans (orUnknown_eq rfl (by simp))

end Sys2Proof.Machine
end

section
/-! The operation codes that are defined, and what a step or EX makes of the bytes it fetches (30_encoding.md R101, R103, R104;
20_memory.md R55; 41_general_convert_to_load.md R206). -/

namespace Sys2Proof.Machine

/-! ### Defined operation codes -/

theorem exists_orUnknown_iff {code : List Byte} {o : Option Instr} : (∃ i, orUnknown code o = .ok i) ↔ o.isSome = true := by
  cases o <;> simp [orUnknown]

/-- Whether a row of the decoder exists depends on its operation code alone (R101). -/
theorem decode2_isSome (op : Nat) (b1 : Byte) : (decode2 op b1).isSome = (decode2 op 0).isSome := by
  unfold decode2
  split <;> rfl

theorem decodeB2_isSome (op : Nat) (b2 b3 : Byte) : (decodeB2 op b2 b3).isSome = (decodeB2 op 0 0).isSome := by
  unfold decodeB2
  split <;> rfl

theorem decode4_isSome (op : Nat) (b1 b2 b3 : Byte) : (decode4 op b1 b2 b3).isSome = (decode4 op 0 0 0).isSome := by
  unfold decode4
  split <;> rfl

theorem decode6_isSome (op : Nat) (b1 b2 b3 b4 b5 : Byte) :
    (decode6 op b1 b2 b3 b4 b5).isSome = (decode6 op 0 0 0 0 0).isSome := by
  unfold decode6
  split <;> rfl

/-- The defined values of a first byte (R101). -/
abbrev DefinedFirst (b0 : Byte) : Prop :=
  (0x04 ≤ b0 ∧ b0 ≤ 0x07) ∨ (0x0A ≤ b0 ∧ b0 ≤ 0x3F) ∨ (0x40 ≤ b0 ∧ b0 ≤ 0x51) ∨ (0x54 ≤ b0 ∧ b0 ≤ 0x60) ∨
    (0x67 ≤ b0 ∧ b0 ≤ 0x70) ∨ (0x78 ≤ b0 ∧ b0 ≤ 0x7F) ∨ (0x86 ≤ b0 ∧ b0 ≤ 0x98) ∨
    b0 ∈ ([0x9A, 0x9B, 0xAF, 0xB2, 0xBA, 0xBB, 0xBD, 0xBE, 0xBF] : List Byte) ∨ (0xD1 ≤ b0 ∧ b0 ≤ 0xD7) ∨
    (0xDC ≤ b0 ∧ b0 ≤ 0xDF) ∨ (0xF0 ≤ b0 ∧ b0 ≤ 0xF3) ∨ (0xF8 ≤ b0 ∧ b0 ≤ 0xFD)

theorem decode2_defined : ∀ b0 : Byte, b0 < 0x40 → ((decode2 b0.toNat 0).isSome = true ↔ DefinedFirst b0) := by decide

theorem decode4_defined :
    ∀ b0 : Byte, 0x40 ≤ b0 → b0 < 0xC0 → b0 ≠ 0xB2 → ((decode4 b0.toNat 0 0 0).isSome = true ↔ DefinedFirst b0) := by decide

theorem decode6_defined : ∀ b0 : Byte, 0xC0 ≤ b0 → ((decode6 b0.toNat 0 0 0 0 0).isSome = true ↔ DefinedFirst b0) := by decide

theorem decodeB2_defined : ∀ b1 : Byte, (decodeB2 b1.toNat 0 0).isSome = true ↔
    b1 ∈ ([0x05, 0x19, 0x22, 0x24, 0x2D, 0x4C, 0x4D, 0x4E, 0x4F] : List Byte) := by decide

/-- Settles O5: by the length that the first byte tells; in each of the three ranges the decoder's rows are the defined values. -/
theorem definedOperationCodes : Obligations.DefinedOperationCodes := by
  intro b0 b1 b2 b3 b4 b5
  change _ ↔ DefinedFirst b0 ∧ _
  by_cases hB2 : b0 = 0xB2
  · subst hB2
    have hfirst : DefinedFirst 0xB2 := by decide
    rw [decode_b2, exists_orUnknown_iff, decodeB2_isSome, decodeB2_defined, and_iff_right hfirst, forall_prop_of_true rfl]
  · have hsecond : ∀ p : Prop, (b0 = 0xB2 → p) := fun _ h => absurd h hB2
    rw [and_iff_left (hsecond _)]
    by_cases htwo : b0 < 0x40
    · rw [decode_two _ _ _ htwo, exists_orUnknown_iff, decode2_isSome, decode2_defined b0 htwo]
    · by_cases hsix : 0xC0 ≤ b0
      · rw [decode_six _ _ _ _ _ _ _ hsix, exists_orUnknown_iff, decode6_isSome, decode6_defined b0 hsix]
      · have hlow : 0x40 ≤ b0 := BitVec.not_lt.1 htwo
        have hhigh : b0 < 0xC0 := BitVec.not_le.1 hsix
        rw [decode_four _ _ _ _ _ hlow hhigh hB2, exists_orUnknown_iff, decode4_isSome, decode4_defined b0 hlow hhigh hB2]

/-- Settles O6: eight literal words. -/
theorem decodeWrittenWords : Obligations.DecodeWrittenWords :=
  ⟨rfl, rfl, rfl, rfl, rfl, rfl, rfl, rfl⟩

/-! ### Fetching -/

/-- What a step of the running program makes of its fetch (R610). -/
theorem step_fetch_error {s : State} {w : Interrupt} (hc : s.control = .program) (h : s.fetch s.ia.toNat = .error w) :
    step s = .next (s.takeInterrupt w) := by
  unfold step
  rw [hc]
  dsimp only
  rw [h]

theorem step_decode_error {s : State} {bs : List Byte} {e : DecodeError} (hc : s.control = .program)
    (h : s.fetch s.ia.toNat = .ok bs) (hd : decode bs = .error e) : step s = .next (s.takeInterrupt (s.opcodeError bs)) := by
  unfold step
  rw [hc]
  dsimp only
  rw [h]
  dsimp only
  rw [hd]

theorem step_exec {s : State} {bs : List Byte} {i : Instr} (hc : s.control = .program) (h : s.fetch s.ia.toNat = .ok bs)
    (hd : decode bs = .ok i) : step s = exec i s := by
  unfold step
  rw [hc]
  dsimp only
  rw [h]
  dsimp only
  rw [hd]

theorem State.fetch_odd {s : State} {a : Nat} (h : a % 2 = 1) : s.fetch a = .error .addressing := by
  rw [s.fetch_eq, if_pos h]

theorem State.fetch_missing {s : State} {a : Nat} (h : a % 2 = 0)
    (hn : s.allocatedAll .program a (ilenOf (s.getByte .program a)) .fetch = false) :
    s.fetch a = .error .addressTranslation := by
  rw [s.fetch_eq, if_neg (by omega), if_neg (by simp [hn])]

theorem State.fetch_bytes {s : State} {a : Nat} (h : a % 2 = 0)
    (hn : s.allocatedAll .program a (ilenOf (s.getByte .program a)) .fetch = true) :
    s.fetch a = .ok (s.getBytes .program a (ilenOf (s.getByte .program a))) := by
  rw [s.fetch_eq, if_neg (by omega), if_pos hn]

/-- The bytes of an instruction in memory tell its length (R90). -/
theorem State.ilenOf_of_encode {s : State} {a : Nat} {i : Instr} (h : s.getBytes .program a (encode i).length = encode i) :
    ilenOf (s.getByte .program a) = (encode i).length := by
  obtain ⟨hlen, hne⟩ := encode_len i
  have hpos : 0 < (encode i).length := List.length_pos_iff.2 hne
  have hfirst : (encode i).headD 0 = s.getByte .program a := by
    conv_lhs => rw [← h]
    obtain ⟨n, hn⟩ := Nat.exists_eq_add_of_lt hpos
    rw [hn, Nat.zero_add, s.getBytes_succ]
    rfl
  rw [hlen, hfirst]

/-- Settles O7: the bytes fetched are those of the encoding, which decode to the instruction. -/
theorem stepRunsInstruction : Obligations.StepRunsInstruction := by
  refine ⟨fun s i hc heven halloc hbytes => ?_, fun s bs i => step_exec⟩
  have hlen := s.ilenOf_of_encode hbytes
  have hfetch : s.fetch s.ia.toNat = .ok (encode i) := by
    rw [s.fetch_bytes heven (hlen ▸ halloc), hlen, hbytes]
  have hdecode : decode (encode i) = .ok i := by simpa using decodeEncode i []
  exact step_exec hc hfetch hdecode

/-- Settles O8: by the outcome of the fetch. -/
theorem stepInterruptsBeforeExecution : Obligations.StepInterruptsBeforeExecution := by
  intro s hc a n
  have hn : 2 ≤ n := by
    have := ilenOf_range (s.getByte .program a)
    omega
  refine ⟨fun hodd => ?odd, fun heven h2 => ?first, fun heven _ hrest => ?rest, fun e heven hall hd => ?noInstruction⟩
  case odd => exact step_fetch_error hc (s.fetch_odd hodd)
  case first =>
    have hmissing : s.allocatedAll .program a n .fetch = false := by
      rw [Bool.eq_false_iff, ne_eq, s.allocatedAll_split _ _ _ _ hn]
      simp [h2]
    exact step_fetch_error hc (s.fetch_missing heven hmissing)
  case rest => exact step_fetch_error hc (s.fetch_missing heven hrest)
  case noInstruction =>
    rw [← s.opcodeError_eq]
    exact step_decode_error hc (s.fetch_bytes heven hall) hd

/-! ### EX -/

/-- What EX makes of its fetch (R206). -/
theorem execEx_fetch_error {s : State} {r1 x2 b2 : Reg} {d2 : Disp} {w : Interrupt} (h : s.fetch (s.ea d2 x2 b2) = .error w) :
    exec (.ex r1 x2 b2 d2) s = .next (s.takeInterrupt w) := by
  change execEx r1 x2 b2 d2 s = _
  rw [execEx, h]

/-- What EX makes of the bytes fetched (R206). -/
theorem execEx_ex {s : State} {r1 x2 b2 : Reg} {d2 : Disp} {bs : List Byte} (h : s.fetch (s.ea d2 x2 b2) = .ok bs)
    (hop : bs.headD 0 = 0x44) : exec (.ex r1 x2 b2 d2) s = .next (s.takeInterrupt .addressing) := by
  change execEx r1 x2 b2 d2 s = _
  rw [execEx, h]
  exact if_pos hop

theorem execEx_decode_error {s : State} {r1 x2 b2 : Reg} {d2 : Disp} {bs : List Byte} {e : DecodeError}
    (h : s.fetch (s.ea d2 x2 b2) = .ok bs) (hop : bs.headD 0 ≠ 0x44) (hd : decode (s.exBytes r1 bs) = .error e) :
    exec (.ex r1 x2 b2 d2) s = .next (s.takeInterrupt (s.opcodeError (s.exBytes r1 bs))) := by
  change execEx r1 x2 b2 d2 s = _
  rw [execEx, h]
  dsimp only
  rw [if_neg hop, hd]

theorem execEx_target {s : State} {r1 x2 b2 : Reg} {d2 : Disp} {bs : List Byte} {i : Instr}
    (h : s.fetch (s.ea d2 x2 b2) = .ok bs) (hop : bs.headD 0 ≠ 0x44) (hd : decode (s.exBytes r1 bs) = .ok i) :
    exec (.ex r1 x2 b2 d2) s = leaveEx (execTarget i { s with underEx := true }) := by
  change execEx r1 x2 b2 d2 s = _
  rw [execEx, h]
  dsimp only
  rw [if_neg hop, hd]

/-- Settles O46: by the outcome of the fetch, then of the decoding; the target is no EX, so it runs as `exec` runs it. -/
theorem execute : Obligations.Execute := by
  intro s r1 x2 b2 d2 a linked
  refine ⟨fun hodd => ?odd, fun heven hmissing => ?missing, fun op second rest hfetch =>
    ⟨fun hop => ?ex, fun e hop hd => ?noInstruction, fun i hop hd => ?target⟩⟩
  case odd => exact execEx_fetch_error (s.fetch_odd hodd)
  case missing => exact execEx_fetch_error (s.fetch_missing heven hmissing)
  case ex => exact execEx_ex hfetch hop
  case noInstruction =>
    rw [← s.opcodeError_eq]
    exact execEx_decode_error hfetch hop hd
  case target =>
    have hne : ∀ q1 q2 q3 q4, i ≠ .ex q1 q2 q3 q4 := by
      rintro q1 q2 q3 q4 rfl
      exact hop (decode_ex _ _ _ _ _ _ hd)
    obtain ⟨t, ht, -⟩ := within_exec i { s with underEx := true }
    refine ⟨t, ht, ?_⟩
    rw [execEx_target hfetch hop hd, execTarget_eq i _ hne, ht]
    rfl

end Sys2Proof.Machine
end

section
/-! Which state each instruction writes, and instructions that only raise their interrupt: ill-formed ones and those of absent
features (10_state.md R23 to R27, R32; 30_encoding.md R103, R105, R106; 47_esa.md R551). -/

namespace Sys2Proof.Machine

variable {i : Instr} {s t : State}

/-! ### Writers of modes, mask, access registers and condition code -/

/-- The operation codes of one byte whose condition-code column in R24 is empty, and that of MC. -/
abbrev ccKeptFirst : List Byte :=
  [0x05, 0x06, 0x07, 0x0A, 0x0B, 0x0C, 0x0D, 0x18, 0x1C, 0x1D, 0x24, 0x25, 0x26, 0x27, 0x28, 0x2C, 0x2D, 0x34, 0x35, 0x38, 0x3C,
    0x3D, 0x40, 0x41, 0x42, 0x43, 0x45, 0x46, 0x47, 0x48, 0x4C, 0x4D, 0x4E, 0x4F, 0x50, 0x51, 0x58, 0x5C, 0x5D, 0x60, 0x67, 0x68,
    0x6C, 0x6D, 0x70, 0x78, 0x7C, 0x7D, 0x86, 0x87, 0x88, 0x89, 0x8C, 0x8D, 0x90, 0x92, 0x98, 0x9A, 0x9B, 0xAF, 0xBE, 0xD1, 0xD2,
    0xD3, 0xDC, 0xF1, 0xF2, 0xF3, 0xFC, 0xFD]

/-- The operation codes of two bytes whose condition-code column in R24 is empty. -/
abbrev ccKeptTwo : List (List Byte) :=
  [[0xB2, 0x19], [0xB2, 0x22], [0xB2, 0x2D], [0xB2, 0x4D], [0xB2, 0x4E], [0xB2, 0x4F]]

/-- The instructions that leave the condition code, by their operation codes (R24). -/
def CcKept (i : Instr) : Prop :=
  (encode i).headD 0 ∈ ccKeptFirst ∨ (encode i).take 2 ∈ ccKeptTwo

/-- Every operation code of two bytes begins with X'B2', so a first byte that is another one decides. -/
theorem not_ccKept_of_first {op : Byte} (h : (encode i).headD 0 = op) (hop : op ∉ 0xB2 :: ccKeptFirst) : ¬ CcKept i := by
  subst h
  rintro (hfirst | htwo)
  · exact hop (List.mem_cons_of_mem _ hfirst)
  · have hhead : ((encode i).take 2).headD 0 = (encode i).headD 0 := by
      cases encode i <;> rfl
    have hB2 : ∀ c ∈ ccKeptTwo, c.headD 0 = 0xB2 := by decide
    exact hop (List.mem_cons.2 (.inl (hhead.symm.trans (hB2 _ htwo))))

theorem not_ccKept_of_two {code : List Byte} (h : (encode i).take 2 = code)
    (hcode : code.headD 0 ∉ ccKeptFirst ∧ code ∉ ccKeptTwo) : ¬ CcKept i := by
  subst h
  have hhead : ((encode i).take 2).headD 0 = (encode i).headD 0 := by
    cases encode i <;> rfl
  rw [hhead] at hcode
  exact fun hkept => hkept.elim hcode.1 hcode.2

/-- What O12 asks of one instruction. -/
def WrittenOnlyBy (i : Instr) (s t : State) : Prop :=
  ((encode i).headD 0 ∉ ([0x0B, 0x0C] : List Byte) → t.amode = s.amode) ∧
    ((encode i).take 2 ≠ [0xB2, 0x19] → t.asc = s.asc) ∧
    ((encode i).headD 0 ≠ 0x04 → t.pm = s.pm) ∧
    ((encode i).headD 0 ∉ ([0x51, 0x9A] : List Byte) → (encode i).take 2 ∉ ([[0xB2, 0x4D], [0xB2, 0x4E]] : List (List Byte)) →
      t.ar = s.ar) ∧
    (CcKept i → t.cc = s.cc)

/-- An instruction that keeps all of it, whatever its operation code. -/
theorem Keeps.writtenOnlyBy (h : Keeps true s t) : WrittenOnlyBy i s t :=
  ⟨fun _ => h.amode, fun _ => h.asc, fun _ => h.pm, fun _ _ => h.ar, fun _ => h.cc rfl⟩

/-- An instruction that keeps all but the condition code. -/
theorem Keeps.writtenOnlyBy_of_not (hcc : ¬ CcKept i) (h : Keeps false s t) : WrittenOnlyBy i s t :=
  ⟨fun _ => h.amode, fun _ => h.asc, fun _ => h.pm, fun _ _ => h.ar, fun hkept => absurd hkept hcc⟩

/-- A writer of access registers (R32). -/
theorem KeepsEsa.writtenOnlyBy_ar (h : KeepsEsa s t) (hasc : t.asc = s.asc)
    (hcode : (encode i).headD 0 ∈ ([0x51, 0x9A] : List Byte) ∨
      (encode i).take 2 ∈ ([[0xB2, 0x4D], [0xB2, 0x4E]] : List (List Byte))) : WrittenOnlyBy i s t :=
  ⟨fun _ => h.amode, fun _ => hasc, fun _ => h.pm, fun hfirst htwo => (hcode.elim hfirst htwo).elim, fun _ => h.cc⟩

/-- A branch that may enter the other addressing mode (R26). -/
theorem Keeps.writtenOnlyBy_enterMode {c : Prop} [Decidable c] {w : Word} (h : Keeps true s t)
    (hcode : (encode i).headD 0 ∈ ([0x0B, 0x0C] : List Byte)) :
    WrittenOnlyBy i s (if c then t.advance 2 else t.enterMode w) := by
  split
  · exact h.advance.writtenOnlyBy
  · exact ⟨fun hno => absurd hcode hno, fun _ => h.asc, fun _ => h.pm, fun _ _ => h.ar, fun _ => h.cc rfl⟩

theorem execBassm_writtenOnlyBy {r1 r2 : Reg} : Runs (WrittenOnlyBy (.bassm r1 r2) s) (execBassm r1 r2 s) := by
  unfold execBassm
  split
  · exact runs_next (Keeps.refl.setGr.writtenOnlyBy_enterMode (.tail _ (.head _)))
  · exact runs_next Keeps.refl.takeInterrupt.writtenOnlyBy

theorem execBsm_writtenOnlyBy {r1 r2 : Reg} : Runs (WrittenOnlyBy (.bsm r1 r2) s) (execBsm r1 r2 s) := by
  have hsaved : Keeps true s (if r1 = 0 then s else s.setGr r1 (s.amode.bit ++ bits (s.getGr r1) 1 31)) := by
    split
    · exact Keeps.refl
    · exact Keeps.refl.setGr
  unfold execBsm
  split
  · exact runs_next (hsaved.writtenOnlyBy_enterMode (.head _))
  · exact runs_next Keeps.refl.takeInterrupt.writtenOnlyBy

/-- Every instruction but EX writes only what the table of O12 gives it. -/
theorem runs_writtenOnlyBy (i : Instr) (s : State) (h : (encode i).headD 0 ≠ 0x44) :
    Runs (WrittenOnlyBy i s) (exec i s) := by
  cases i with
  | ex r1 x2 b2 d2 => exact absurd rfl h
  | spm r1 => exact runs_next ⟨fun _ => rfl, fun _ => rfl, fun hno => absurd rfl hno, fun _ _ => rfl,
      fun hkept => absurd hkept (not_ccKept_of_first (op := 0x04) rfl (by decide))⟩
  | bassm r1 r2 => exact execBassm_writtenOnlyBy
  | bsm r1 r2 => exact execBsm_writtenOnlyBy
  | cpya r1 r2 => exact execCpya_keeps.imp fun _ h => h.1.writtenOnlyBy_ar h.2 (.inr (.head _))
  | sar r1 r2 => exact execSar_keeps.imp fun _ h => h.1.writtenOnlyBy_ar h.2 (.inr (.tail _ (.head _)))
  | lae r1 x2 b2 d2 => exact execLae_keeps.imp fun _ h => h.1.writtenOnlyBy_ar h.2 (.inl (.head _))
  | lam r1 r3 b2 d2 => exact execLam_keeps.imp fun _ h => h.1.writtenOnlyBy_ar h.2 (.inl (.tail _ (.head _)))
  | sac b2 d2 => exact execSac_keeps.imp fun _ ⟨h, har⟩ =>
      ⟨fun _ => h.amode, fun hno => absurd rfl hno, fun _ => h.pm, fun _ _ => har, fun _ => h.cc⟩
  | balr r1 r2 => exact execBalr_keeps.imp fun _ h => h.writtenOnlyBy
  | bctr r1 r2 => exact execBctr_keeps.imp fun _ h => h.writtenOnlyBy
  | bcr m1 r2 => exact execBcr_keeps.imp fun _ h => h.writtenOnlyBy
  | svc imm => exact execSvc_keeps.imp fun _ h => h.writtenOnlyBy
  | basr r1 r2 => exact execBasr_keeps.imp fun _ h => h.writtenOnlyBy
  | mvcl r1 r2 => exact execMvcl_keeps.imp fun _ h => h.writtenOnlyBy_of_not (not_ccKept_of_first (op := 0x0E) rfl (by decide))
  | clcl r1 r2 => exact execClcl_keeps.imp fun _ h => h.writtenOnlyBy_of_not (not_ccKept_of_first (op := 0x0F) rfl (by decide))
  | lpr r1 r2 => exact execLpr_keeps.imp fun _ h => h.writtenOnlyBy_of_not (not_ccKept_of_first (op := 0x10) rfl (by decide))
  | lnr r1 r2 => exact execLnr_keeps.imp fun _ h => h.writtenOnlyBy_of_not (not_ccKept_of_first (op := 0x11) rfl (by decide))
  | ltr r1 r2 => exact execLtr_keeps.imp fun _ h => h.writtenOnlyBy_of_not (not_ccKept_of_first (op := 0x12) rfl (by decide))
  | lcr r1 r2 => exact execLcr_keeps.imp fun _ h => h.writtenOnlyBy_of_not (not_ccKept_of_first (op := 0x13) rfl (by decide))
  | nr r1 r2 => exact execNr_keeps.imp fun _ h => h.writtenOnlyBy_of_not (not_ccKept_of_first (op := 0x14) rfl (by decide))
  | clr r1 r2 => exact execClr_keeps.imp fun _ h => h.writtenOnlyBy_of_not (not_ccKept_of_first (op := 0x15) rfl (by decide))
  | or r1 r2 => exact execOr_keeps.imp fun _ h => h.writtenOnlyBy_of_not (not_ccKept_of_first (op := 0x16) rfl (by decide))
  | xr r1 r2 => exact execXr_keeps.imp fun _ h => h.writtenOnlyBy_of_not (not_ccKept_of_first (op := 0x17) rfl (by decide))
  | lr r1 r2 => exact execLr_keeps.imp fun _ h => h.writtenOnlyBy
  | cr r1 r2 => exact execCr_keeps.imp fun _ h => h.writtenOnlyBy_of_not (not_ccKept_of_first (op := 0x19) rfl (by decide))
  | ar r1 r2 => exact execAr_keeps.imp fun _ h => h.writtenOnlyBy_of_not (not_ccKept_of_first (op := 0x1A) rfl (by decide))
  | sr r1 r2 => exact execSr_keeps.imp fun _ h => h.writtenOnlyBy_of_not (not_ccKept_of_first (op := 0x1B) rfl (by decide))
  | mr r1 r2 => exact execMr_keeps.imp fun _ h => h.writtenOnlyBy
  | dr r1 r2 => exact execDr_keeps.imp fun _ h => h.writtenOnlyBy
  | alr r1 r2 => exact execAlr_keeps.imp fun _ h => h.writtenOnlyBy_of_not (not_ccKept_of_first (op := 0x1E) rfl (by decide))
  | slr r1 r2 => exact execSlr_keeps.imp fun _ h => h.writtenOnlyBy_of_not (not_ccKept_of_first (op := 0x1F) rfl (by decide))
  | lpdr r1 r2 => exact execLpdr_keeps.imp fun _ h => h.writtenOnlyBy_of_not (not_ccKept_of_first (op := 0x20) rfl (by decide))
  | lndr r1 r2 => exact execLndr_keeps.imp fun _ h => h.writtenOnlyBy_of_not (not_ccKept_of_first (op := 0x21) rfl (by decide))
  | ltdr r1 r2 => exact execLtdr_keeps.imp fun _ h => h.writtenOnlyBy_of_not (not_ccKept_of_first (op := 0x22) rfl (by decide))
  | lcdr r1 r2 => exact execLcdr_keeps.imp fun _ h => h.writtenOnlyBy_of_not (not_ccKept_of_first (op := 0x23) rfl (by decide))
  | hdr r1 r2 => exact execHdr_keeps.imp fun _ h => h.writtenOnlyBy
  | lrdr r1 r2 => exact execLrdr_keeps.imp fun _ h => h.writtenOnlyBy
  | mxr r1 r2 => exact execMxr_keeps.imp fun _ h => h.writtenOnlyBy
  | mxdr r1 r2 => exact execMxdr_keeps.imp fun _ h => h.writtenOnlyBy
  | ldr r1 r2 => exact execLdr_keeps.imp fun _ h => h.writtenOnlyBy
  | cdr r1 r2 => exact execCdr_keeps.imp fun _ h => h.writtenOnlyBy_of_not (not_ccKept_of_first (op := 0x29) rfl (by decide))
  | adr r1 r2 => exact execAdr_keeps.imp fun _ h => h.writtenOnlyBy_of_not (not_ccKept_of_first (op := 0x2A) rfl (by decide))
  | sdr r1 r2 => exact execSdr_keeps.imp fun _ h => h.writtenOnlyBy_of_not (not_ccKept_of_first (op := 0x2B) rfl (by decide))
  | mdr r1 r2 => exact execMdr_keeps.imp fun _ h => h.writtenOnlyBy
  | ddr r1 r2 => exact execDdr_keeps.imp fun _ h => h.writtenOnlyBy
  | awr r1 r2 => exact execAwr_keeps.imp fun _ h => h.writtenOnlyBy_of_not (not_ccKept_of_first (op := 0x2E) rfl (by decide))
  | swr r1 r2 => exact execSwr_keeps.imp fun _ h => h.writtenOnlyBy_of_not (not_ccKept_of_first (op := 0x2F) rfl (by decide))
  | lper r1 r2 => exact execLper_keeps.imp fun _ h => h.writtenOnlyBy_of_not (not_ccKept_of_first (op := 0x30) rfl (by decide))
  | lner r1 r2 => exact execLner_keeps.imp fun _ h => h.writtenOnlyBy_of_not (not_ccKept_of_first (op := 0x31) rfl (by decide))
  | lter r1 r2 => exact execLter_keeps.imp fun _ h => h.writtenOnlyBy_of_not (not_ccKept_of_first (op := 0x32) rfl (by decide))
  | lcer r1 r2 => exact execLcer_keeps.imp fun _ h => h.writtenOnlyBy_of_not (not_ccKept_of_first (op := 0x33) rfl (by decide))
  | her r1 r2 => exact execHer_keeps.imp fun _ h => h.writtenOnlyBy
  | lrer r1 r2 => exact execLrer_keeps.imp fun _ h => h.writtenOnlyBy
  | axr r1 r2 => exact execAxr_keeps.imp fun _ h => h.writtenOnlyBy_of_not (not_ccKept_of_first (op := 0x36) rfl (by decide))
  | sxr r1 r2 => exact execSxr_keeps.imp fun _ h => h.writtenOnlyBy_of_not (not_ccKept_of_first (op := 0x37) rfl (by decide))
  | ler r1 r2 => exact execLer_keeps.imp fun _ h => h.writtenOnlyBy
  | cer r1 r2 => exact execCer_keeps.imp fun _ h => h.writtenOnlyBy_of_not (not_ccKept_of_first (op := 0x39) rfl (by decide))
  | aer r1 r2 => exact execAer_keeps.imp fun _ h => h.writtenOnlyBy_of_not (not_ccKept_of_first (op := 0x3A) rfl (by decide))
  | ser r1 r2 => exact execSer_keeps.imp fun _ h => h.writtenOnlyBy_of_not (not_ccKept_of_first (op := 0x3B) rfl (by decide))
  | mer r1 r2 => exact execMer_keeps.imp fun _ h => h.writtenOnlyBy
  | der r1 r2 => exact execDer_keeps.imp fun _ h => h.writtenOnlyBy
  | aur r1 r2 => exact execAur_keeps.imp fun _ h => h.writtenOnlyBy_of_not (not_ccKept_of_first (op := 0x3E) rfl (by decide))
  | sur r1 r2 => exact execSur_keeps.imp fun _ h => h.writtenOnlyBy_of_not (not_ccKept_of_first (op := 0x3F) rfl (by decide))
  | sth r1 x2 b2 d2 => exact execSth_keeps.imp fun _ h => h.writtenOnlyBy
  | la r1 x2 b2 d2 => exact execLa_keeps.imp fun _ h => h.writtenOnlyBy
  | stc r1 x2 b2 d2 => exact execStc_keeps.imp fun _ h => h.writtenOnlyBy
  | ic r1 x2 b2 d2 => exact execIc_keeps.imp fun _ h => h.writtenOnlyBy
  | bal r1 x2 b2 d2 => exact execBal_keeps.imp fun _ h => h.writtenOnlyBy
  | bct r1 x2 b2 d2 => exact execBct_keeps.imp fun _ h => h.writtenOnlyBy
  | bc m1 x2 b2 d2 => exact execBc_keeps.imp fun _ h => h.writtenOnlyBy
  | lh r1 x2 b2 d2 => exact execLh_keeps.imp fun _ h => h.writtenOnlyBy
  | ch r1 x2 b2 d2 => exact execCh_keeps.imp fun _ h => h.writtenOnlyBy_of_not (not_ccKept_of_first (op := 0x49) rfl (by decide))
  | ah r1 x2 b2 d2 => exact execAh_keeps.imp fun _ h => h.writtenOnlyBy_of_not (not_ccKept_of_first (op := 0x4A) rfl (by decide))
  | sh r1 x2 b2 d2 => exact execSh_keeps.imp fun _ h => h.writtenOnlyBy_of_not (not_ccKept_of_first (op := 0x4B) rfl (by decide))
  | mh r1 x2 b2 d2 => exact execMh_keeps.imp fun _ h => h.writtenOnlyBy
  | bas r1 x2 b2 d2 => exact execBas_keeps.imp fun _ h => h.writtenOnlyBy
  | cvd r1 x2 b2 d2 => exact execCvd_keeps.imp fun _ h => h.writtenOnlyBy
  | cvb r1 x2 b2 d2 => exact execCvb_keeps.imp fun _ h => h.writtenOnlyBy
  | st r1 x2 b2 d2 => exact execSt_keeps.imp fun _ h => h.writtenOnlyBy
  | n r1 x2 b2 d2 => exact execN_keeps.imp fun _ h => h.writtenOnlyBy_of_not (not_ccKept_of_first (op := 0x54) rfl (by decide))
  | cl r1 x2 b2 d2 => exact execCl_keeps.imp fun _ h => h.writtenOnlyBy_of_not (not_ccKept_of_first (op := 0x55) rfl (by decide))
  | o r1 x2 b2 d2 => exact execO_keeps.imp fun _ h => h.writtenOnlyBy_of_not (not_ccKept_of_first (op := 0x56) rfl (by decide))
  | x r1 x2 b2 d2 => exact execX_keeps.imp fun _ h => h.writtenOnlyBy_of_not (not_ccKept_of_first (op := 0x57) rfl (by decide))
  | l r1 x2 b2 d2 => exact execL_keeps.imp fun _ h => h.writtenOnlyBy
  | c r1 x2 b2 d2 => exact execC_keeps.imp fun _ h => h.writtenOnlyBy_of_not (not_ccKept_of_first (op := 0x59) rfl (by decide))
  | a r1 x2 b2 d2 => exact execA_keeps.imp fun _ h => h.writtenOnlyBy_of_not (not_ccKept_of_first (op := 0x5A) rfl (by decide))
  | s r1 x2 b2 d2 => exact execS_keeps.imp fun _ h => h.writtenOnlyBy_of_not (not_ccKept_of_first (op := 0x5B) rfl (by decide))
  | m r1 x2 b2 d2 => exact execM_keeps.imp fun _ h => h.writtenOnlyBy
  | d r1 x2 b2 d2 => exact execD_keeps.imp fun _ h => h.writtenOnlyBy
  | al r1 x2 b2 d2 => exact execAl_keeps.imp fun _ h => h.writtenOnlyBy_of_not (not_ccKept_of_first (op := 0x5E) rfl (by decide))
  | sl r1 x2 b2 d2 => exact execSl_keeps.imp fun _ h => h.writtenOnlyBy_of_not (not_ccKept_of_first (op := 0x5F) rfl (by decide))
  | std r1 x2 b2 d2 => exact execStd_keeps.imp fun _ h => h.writtenOnlyBy
  | mxd r1 x2 b2 d2 => exact execMxd_keeps.imp fun _ h => h.writtenOnlyBy
  | ld r1 x2 b2 d2 => exact execLd_keeps.imp fun _ h => h.writtenOnlyBy
  | cd r1 x2 b2 d2 => exact execCd_keeps.imp fun _ h => h.writtenOnlyBy_of_not (not_ccKept_of_first (op := 0x69) rfl (by decide))
  | ad r1 x2 b2 d2 => exact execAd_keeps.imp fun _ h => h.writtenOnlyBy_of_not (not_ccKept_of_first (op := 0x6A) rfl (by decide))
  | sd r1 x2 b2 d2 => exact execSd_keeps.imp fun _ h => h.writtenOnlyBy_of_not (not_ccKept_of_first (op := 0x6B) rfl (by decide))
  | md r1 x2 b2 d2 => exact execMd_keeps.imp fun _ h => h.writtenOnlyBy
  | dd r1 x2 b2 d2 => exact execDd_keeps.imp fun _ h => h.writtenOnlyBy
  | aw r1 x2 b2 d2 => exact execAw_keeps.imp fun _ h => h.writtenOnlyBy_of_not (not_ccKept_of_first (op := 0x6E) rfl (by decide))
  | sw r1 x2 b2 d2 => exact execSw_keeps.imp fun _ h => h.writtenOnlyBy_of_not (not_ccKept_of_first (op := 0x6F) rfl (by decide))
  | ste r1 x2 b2 d2 => exact execSte_keeps.imp fun _ h => h.writtenOnlyBy
  | le r1 x2 b2 d2 => exact execLe_keeps.imp fun _ h => h.writtenOnlyBy
  | ce r1 x2 b2 d2 => exact execCe_keeps.imp fun _ h => h.writtenOnlyBy_of_not (not_ccKept_of_first (op := 0x79) rfl (by decide))
  | ae r1 x2 b2 d2 => exact execAe_keeps.imp fun _ h => h.writtenOnlyBy_of_not (not_ccKept_of_first (op := 0x7A) rfl (by decide))
  | se r1 x2 b2 d2 => exact execSe_keeps.imp fun _ h => h.writtenOnlyBy_of_not (not_ccKept_of_first (op := 0x7B) rfl (by decide))
  | me r1 x2 b2 d2 => exact execMe_keeps.imp fun _ h => h.writtenOnlyBy
  | de r1 x2 b2 d2 => exact execDe_keeps.imp fun _ h => h.writtenOnlyBy
  | au r1 x2 b2 d2 => exact execAu_keeps.imp fun _ h => h.writtenOnlyBy_of_not (not_ccKept_of_first (op := 0x7E) rfl (by decide))
  | su r1 x2 b2 d2 => exact execSu_keeps.imp fun _ h => h.writtenOnlyBy_of_not (not_ccKept_of_first (op := 0x7F) rfl (by decide))
  | bxh r1 r3 b2 d2 => exact execBxh_keeps.imp fun _ h => h.writtenOnlyBy
  | bxle r1 r3 b2 d2 => exact execBxle_keeps.imp fun _ h => h.writtenOnlyBy
  | srl r1 b2 d2 => exact execSrl_keeps.imp fun _ h => h.writtenOnlyBy
  | sll r1 b2 d2 => exact execSll_keeps.imp fun _ h => h.writtenOnlyBy
  | sra r1 b2 d2 => exact execSra_keeps.imp fun _ h => h.writtenOnlyBy_of_not (not_ccKept_of_first (op := 0x8A) rfl (by decide))
  | sla r1 b2 d2 => exact execSla_keeps.imp fun _ h => h.writtenOnlyBy_of_not (not_ccKept_of_first (op := 0x8B) rfl (by decide))
  | srdl r1 b2 d2 => exact execSrdl_keeps.imp fun _ h => h.writtenOnlyBy
  | sldl r1 b2 d2 => exact execSldl_keeps.imp fun _ h => h.writtenOnlyBy
  | srda r1 b2 d2 => exact execSrda_keeps.imp fun _ h => h.writtenOnlyBy_of_not (not_ccKept_of_first (op := 0x8E) rfl (by decide))
  | slda r1 b2 d2 => exact execSlda_keeps.imp fun _ h => h.writtenOnlyBy_of_not (not_ccKept_of_first (op := 0x8F) rfl (by decide))
  | stm r1 r3 b2 d2 => exact execStm_keeps.imp fun _ h => h.writtenOnlyBy
  | tm b1 d1 i2 => exact execTm_keeps.imp fun _ h => h.writtenOnlyBy_of_not (not_ccKept_of_first (op := 0x91) rfl (by decide))
  | mvi b1 d1 i2 => exact execMvi_keeps.imp fun _ h => h.writtenOnlyBy
  | ts b2 d2 => exact execTs_keeps.imp fun _ h => h.writtenOnlyBy_of_not (not_ccKept_of_first (op := 0x93) rfl (by decide))
  | ni b1 d1 i2 => exact execNi_keeps.imp fun _ h => h.writtenOnlyBy_of_not (not_ccKept_of_first (op := 0x94) rfl (by decide))
  | cli b1 d1 i2 => exact execCli_keeps.imp fun _ h => h.writtenOnlyBy_of_not (not_ccKept_of_first (op := 0x95) rfl (by decide))
  | oi b1 d1 i2 => exact execOi_keeps.imp fun _ h => h.writtenOnlyBy_of_not (not_ccKept_of_first (op := 0x96) rfl (by decide))
  | xi b1 d1 i2 => exact execXi_keeps.imp fun _ h => h.writtenOnlyBy_of_not (not_ccKept_of_first (op := 0x97) rfl (by decide))
  | lm r1 r3 b2 d2 => exact execLm_keeps.imp fun _ h => h.writtenOnlyBy
  | stam r1 r3 b2 d2 => exact execStam_keeps.imp fun _ h => h.writtenOnlyBy
  | mc b1 d1 i2 => exact (execMc_keeps (b1 := b1) (d1 := d1) (i2 := i2)).imp fun _ h => h.writtenOnlyBy
  | stck b2 d2 => exact execStck_keeps.imp fun _ h => h.writtenOnlyBy_of_not (not_ccKept_of_two (code := [0xB2, 0x05]) rfl (by decide))
  | ipm r1 => exact execIpm_keeps.imp fun _ h => h.writtenOnlyBy
  | iac r1 => exact execIac_keeps.imp fun _ h => h.writtenOnlyBy_of_not (not_ccKept_of_two (code := [0xB2, 0x24]) rfl (by decide))
  | dxr r1 r2 => exact execDxr_keeps.imp fun _ h => h.writtenOnlyBy
  | tar r1 r2 => exact (execTar_keeps (r1 := r1) (r2 := r2)).imp fun _ h => h.writtenOnlyBy_of_not (not_ccKept_of_two (code := [0xB2, 0x4C]) rfl (by decide))
  | ear r1 r2 => exact execEar_keeps.imp fun _ h => h.writtenOnlyBy
  | cs r1 r3 b2 d2 => exact execCs_keeps.imp fun _ h => h.writtenOnlyBy_of_not (not_ccKept_of_first (op := 0xBA) rfl (by decide))
  | cds r1 r3 b2 d2 => exact execCds_keeps.imp fun _ h => h.writtenOnlyBy_of_not (not_ccKept_of_first (op := 0xBB) rfl (by decide))
  | clm r1 m3 b2 d2 => exact execClm_keeps.imp fun _ h => h.writtenOnlyBy_of_not (not_ccKept_of_first (op := 0xBD) rfl (by decide))
  | stcm r1 m3 b2 d2 => exact execStcm_keeps.imp fun _ h => h.writtenOnlyBy
  | icm r1 m3 b2 d2 => exact execIcm_keeps.imp fun _ h => h.writtenOnlyBy_of_not (not_ccKept_of_first (op := 0xBF) rfl (by decide))
  | mvn l b1 d1 b2 d2 => exact execMvn_keeps.imp fun _ h => h.writtenOnlyBy
  | mvc l b1 d1 b2 d2 => exact execMvc_keeps.imp fun _ h => h.writtenOnlyBy
  | mvz l b1 d1 b2 d2 => exact execMvz_keeps.imp fun _ h => h.writtenOnlyBy
  | nc l b1 d1 b2 d2 => exact execNc_keeps.imp fun _ h => h.writtenOnlyBy_of_not (not_ccKept_of_first (op := 0xD4) rfl (by decide))
  | clc l b1 d1 b2 d2 => exact execClc_keeps.imp fun _ h => h.writtenOnlyBy_of_not (not_ccKept_of_first (op := 0xD5) rfl (by decide))
  | oc l b1 d1 b2 d2 => exact execOc_keeps.imp fun _ h => h.writtenOnlyBy_of_not (not_ccKept_of_first (op := 0xD6) rfl (by decide))
  | xc l b1 d1 b2 d2 => exact execXc_keeps.imp fun _ h => h.writtenOnlyBy_of_not (not_ccKept_of_first (op := 0xD7) rfl (by decide))
  | tr l b1 d1 b2 d2 => exact execTr_keeps.imp fun _ h => h.writtenOnlyBy
  | trt l b1 d1 b2 d2 => exact execTrt_keeps.imp fun _ h => h.writtenOnlyBy_of_not (not_ccKept_of_first (op := 0xDD) rfl (by decide))
  | ed l b1 d1 b2 d2 => exact execEd_keeps.imp fun _ h => h.writtenOnlyBy_of_not (not_ccKept_of_first (op := 0xDE) rfl (by decide))
  | edmk l b1 d1 b2 d2 => exact execEdmk_keeps.imp fun _ h => h.writtenOnlyBy_of_not (not_ccKept_of_first (op := 0xDF) rfl (by decide))
  | srp l1 i3 b1 d1 b2 d2 => exact execSrp_keeps.imp fun _ h => h.writtenOnlyBy_of_not (not_ccKept_of_first (op := 0xF0) rfl (by decide))
  | mvo l1 l2 b1 d1 b2 d2 => exact execMvo_keeps.imp fun _ h => h.writtenOnlyBy
  | pack l1 l2 b1 d1 b2 d2 => exact execPack_keeps.imp fun _ h => h.writtenOnlyBy
  | unpk l1 l2 b1 d1 b2 d2 => exact execUnpk_keeps.imp fun _ h => h.writtenOnlyBy
  | zap l1 l2 b1 d1 b2 d2 => exact execZap_keeps.imp fun _ h => h.writtenOnlyBy_of_not (not_ccKept_of_first (op := 0xF8) rfl (by decide))
  | cp l1 l2 b1 d1 b2 d2 => exact execCp_keeps.imp fun _ h => h.writtenOnlyBy_of_not (not_ccKept_of_first (op := 0xF9) rfl (by decide))
  | ap l1 l2 b1 d1 b2 d2 => exact execAp_keeps.imp fun _ h => h.writtenOnlyBy_of_not (not_ccKept_of_first (op := 0xFA) rfl (by decide))
  | sp l1 l2 b1 d1 b2 d2 => exact execSp_keeps.imp fun _ h => h.writtenOnlyBy_of_not (not_ccKept_of_first (op := 0xFB) rfl (by decide))
  | mp l1 l2 b1 d1 b2 d2 => exact execMp_keeps.imp fun _ h => h.writtenOnlyBy
  | dp l1 l2 b1 d1 b2 d2 => exact execDp_keeps.imp fun _ h => h.writtenOnlyBy

/-- Settles O12: by the table of the instructions. -/
theorem stateWrittenOnlyBy : Obligations.StateWrittenOnlyBy := by
  intro i s t h hex
  obtain ⟨u, hu, hwritten⟩ := runs_writtenOnlyBy i s hex
  obtain rfl : u = t := Host.Outcome.next.inj (hu.symm.trans h)
  exact hwritten

/-! ### Ill-formed instructions -/

/-- A register field tested first that is not as its format needs (R452, R610). -/
theorem attempt_reg_error {p : Fmt} {r : Reg} {f : Unit → Except Interrupt State} (h : fmtReg p r = false) :
    s.attempt (needReg p r >>= f) = .next (s.takeInterrupt .addressing) := by
  rw [needReg_error h]
  rfl

/-- A pair tested first that does not begin at an even register (R105, R610). -/
theorem attempt_evenOnly_error {r : Reg} {f : Unit → Except Interrupt State} (h : isEven r = false) :
    s.attempt (evenOnly r >>= f) = .next (s.takeInterrupt .addressing) := by
  rw [evenOnly, h]
  rfl

theorem ite_of_eq_false {α : Type} {c : Bool} {x y : α} (h : c = false) : (if c = true then x else y) = y :=
  if_neg (ne_true_of_eq_false h)

/-- The lengths that MP and DP accept, by their length fields (R97, R106). -/
theorem lengthsOk_eq (l1 l2 : Nibble) :
    lengthsOk (l1.toNat + 1) (l2.toNat + 1) = (decide (l2.toNat ≤ 7) && decide (l2.toNat < l1.toNat)) := by
  rw [lengthsOk, Bool.eq_iff_iff]
  simp only [Bool.and_eq_true, decide_eq_true_iff]
  omega

/-- The tests of register numbers and fields, in the order of the constructors: each comes before everything else (R610). -/
theorem illFormed_raises (i : Instr) (s : State) (h : i.wf = false) (hsrp : ∀ l1 i3 b1 d1 b2 d2, i ≠ .srp l1 i3 b1 d1 b2 d2)
    (hdxr : ∀ r1 r2, i = .dxr r1 r2 → s.cpu.has31Bit = true) : exec i s = .next (s.takeInterrupt .addressing) := by
  cases i
  case spm | balr | bctr | bcr | svc | bsm | bassm | basr | lpr | lnr | ltr | lcr | nr | clr | or | xr | lr | cr | ar |
      sr | alr | slr | sth | la | stc | ic | ex | bal | bct | bc | lh | ch | ah | sh | mh | bas | cvd | cvb | st | lae |
      n | cl | o | x | l | c | a | s | al | sl | bxh | bxle | srl | sll | sra | sla | stm | tm | mvi | ts | ni | cli |
      oi | xi | lm | lam | stam | stck | sac | ipm | iac | tar | cpya | sar | ear | cs | clm | stcm | icm | mvn | mvc |
      mvz | nc | clc | oc | xc | tr | trt | ed | edmk | mvo | pack | unpk | zap | cp | ap | sp =>
    exact nomatch h
  case mvcl | clcl | srdl | sldl | srda | slda => exact ite_of_eq_false h
  case mr | dr | m | d => exact attempt_evenOnly_error h
  case lpdr | lndr | ltdr | lcdr | hdr | ldr | cdr | adr | sdr | mdr | ddr | awr | swr | lper | lner | lter | lcer | her | lrer |
      ler | cer | aer | ser | mer | der | aur | sur =>
    exact attempt_twoRegs_error (p := .long) (q := .long) h
  case lrdr => exact attempt_twoRegs_error (p := .long) (q := .ext) h
  case mxdr => exact attempt_twoRegs_error (p := .ext) (q := .long) h
  case mxr | axr | sxr => exact attempt_twoRegs_error (p := .ext) (q := .ext) h
  case dxr r1 r2 =>
    exact (congrArg s.attempt (if_pos (hdxr r1 r2 rfl))).trans (attempt_twoRegs_error (p := .ext) (q := .ext) h)
  case std | ld | cd | ad | sd | md | dd | aw | sw | ste | le | ce | ae | se | me | de | au | su =>
    exact attempt_reg_error (p := .long) h
  case mxd => exact attempt_reg_error (p := .ext) h
  case mc b1 d1 i2 => exact if_pos (not_le.1 (of_decide_eq_false h))
  case cds => exact congrArg s.attempt (ite_of_eq_false h)
  case mp l1 l2 _ _ _ _ | dp l1 l2 _ _ _ _ =>
    exact congrArg s.attempt (ite_of_eq_false ((lengthsOk_eq l1 l2).trans h))
  case srp => exact absurd rfl (hsrp _ _ _ _ _ _)

/-- Settles O13: SRP tests the access of its operand before its rounding digit. -/
theorem illFormedRaises : Obligations.IllFormedRaises := by
  refine ⟨illFormed_raises, fun s l1 i3 b1 d1 b2 d2 sp h haccess => ?_⟩
  have hdigit : (packedValid (s.getBytes sp (s.ea d1 0 b1) (l1.toNat + 1)) && decide (i3.toNat ≤ 9)) = false := by
    rw [show decide (i3.toNat ≤ 9) = false from h, Bool.and_false]
  change s.attempt (s.reach b1 (s.ea d1 0 b1) (l1.toNat + 1) [.read, .write] >>= _) = _
  rw [s.reach_access b1 sp _ _ _ haccess]
  exact congrArg s.attempt (ite_of_eq_false hdigit)

/-! ### Absent features -/

theorem State.esa_absent {r : Except Interrupt State} (h : s.cpu.hasEsa = false) :
    s.esa r = .next (s.takeInterrupt .operationCode) :=
  ite_of_eq_false h

/-- Settles O14: each instruction of an absent feature tests for the feature first. -/
theorem absentFeatures : Obligations.AbsentFeatures := by
  intro s r1 r2 r3 x2 b2 d2
  refine ⟨fun hno i hi => ?mode, fun hno => ⟨ite_of_eq_false hno, fun i hi => ?esa⟩⟩
  case mode =>
    simp only [List.mem_cons, List.not_mem_nil, or_false] at hi
    obtain rfl | rfl | rfl := hi
    case inl => exact ite_of_eq_false hno -- BASSM
    case inr.inl => exact ite_of_eq_false hno -- BSM
    case inr.inr => exact congrArg s.attempt (ite_of_eq_false hno) -- DXR
  case esa =>
    simp only [List.mem_cons, List.not_mem_nil, or_false] at hi
    obtain rfl | rfl | rfl | rfl | rfl | rfl | rfl | rfl := hi
    all_goals exact s.esa_absent hno

end Sys2Proof.Machine
end

section
/-! SUPPORT. Instructions told by the first test they make of a main-memory operand, or of a register number (R610). -/

namespace Sys2Proof.Machine

variable {i : Instr} {s : State} {b : Reg} {a n al : Nat} {ks : List Access}

/-! ### Access without alignment -/

/-- An instruction that reaches its operand first traps where it is not accessible, and goes on where it is (R602). -/
theorem reach_trap (f : Space → Except Interrupt State) (h : exec i s = s.attempt (s.reach b a n ks >>= f)) :
    AccessTrap i s b a n al ks := by
  intro _ hmissing
  rw [h, s.reach_missing _ _ _ _ hmissing]
  rfl

theorem exec_reach (f : Space → Except Interrupt State) (h : exec i s = s.attempt (s.reach b a n ks >>= f)) {sp : Space}
    (hs : s.Accessible b sp a n ks) : exec i s = s.attempt (f sp) := by
  rw [h, s.reach_access b sp a n ks hs]
  rfl

theorem byteOperand_trap {x : Reg} {d : Disp} (f : Byte → Except Interrupt State)
    (h : exec i s = s.attempt (s.byteOperand x b d >>= f)) : AccessTrap i s b (s.ea d x b) 1 al [.read] := by
  intro _ hmissing
  rw [h, s.byteOperand_missing _ _ _ hmissing]
  rfl

theorem exec_byteOperand {x : Reg} {d : Disp} (f : Byte → Except Interrupt State)
    (h : exec i s = s.attempt (s.byteOperand x b d >>= f)) {sp : Space} (hs : s.Accessible b sp (s.ea d x b) 1 [.read]) :
    exec i s = s.attempt (f (s.getByte sp (s.ea d x b))) := by
  rw [h, s.byteOperand_ok x b d sp hs]
  rfl

/-- Two operands tested one after the other: X'48' where either is not accessible (R66, R610). -/
theorem twoOperands_trap {b1 b2 : Reg} {a1 n1 a2 n2 : Nat} (f : Space × Space → Except Interrupt State)
    (h : exec i s = s.attempt (s.twoOperands b1 a1 n1 ks b2 a2 n2 >>= f))
    (hmissing : ∀ sp1 sp2, ¬ (s.Accessible b1 sp1 a1 n1 ks ∧ s.Accessible b2 sp2 a2 n2 [.read])) :
    exec i s = .next (s.takeInterrupt .addressTranslation) := by
  rw [h, s.twoOperands_missing _ _ _ _ _ _ _ hmissing]
  rfl

theorem exec_twoOperands {b1 b2 : Reg} {a1 n1 a2 n2 : Nat} (f : Space × Space → Except Interrupt State)
    (h : exec i s = s.attempt (s.twoOperands b1 a1 n1 ks b2 a2 n2 >>= f)) {sp1 sp2 : Space}
    (h1 : s.Accessible b1 sp1 a1 n1 ks) (h2 : s.Accessible b2 sp2 a2 n2 [.read]) :
    exec i s = s.attempt (f (sp1, sp2)) := by
  rw [h, (s.twoOperands_ok _ _ _ _ _ _ _ _ _).2 ⟨h1, h2⟩]
  rfl

/-! ### Alignment, then access -/

/-- A block that is read whole after its alignment test (R57, R65). -/
theorem load_traps (f : List Byte → Except Interrupt State)
    (h : exec i s = s.attempt (s.aligned a al >>= fun _ => s.load b a n >>= f)) : OperandTraps i s b a n al [.read] := by
  refine ⟨fun hmisaligned => ?_, fun haligned hmissing => ?_⟩
  · rw [h, s.aligned_missing _ _ hmisaligned]
    rfl
  · rw [h, (s.aligned_ok _ _).2 haligned, s.load_missing _ _ _ hmissing]
    rfl

theorem exec_load (f : List Byte → Except Interrupt State)
    (h : exec i s = s.attempt (s.aligned a al >>= fun _ => s.load b a n >>= f)) {sp : Space} (haligned : s.AlignedTo a al)
    (hs : s.Accessible b sp a n [.read]) : exec i s = s.attempt (f (s.getBytes sp a n)) := by
  rw [h, (s.aligned_ok _ _).2 haligned, (s.load_ok _ _ _ _).2 ⟨sp, hs, rfl⟩]
  rfl

/-- Every address is aligned to single bytes (R57). -/
theorem State.alignedTo_one (s : State) (a : Nat) : s.AlignedTo a 1 :=
  fun _ => Nat.mod_one a

/-- A store whose bytes are `n` in number (R65). -/
theorem storeOperand_traps {x : Reg} {d : Disp} {bs : List Byte} (f : State → Except Interrupt State) (hn : bs.length = n)
    (h : exec i s = s.attempt (s.storeOperand x b d al bs >>= f)) : OperandTraps i s b (s.ea d x b) n al [.write] :=
  hn ▸ store_traps al bs f h

theorem exec_storeOperand {x : Reg} {d : Disp} {bs : List Byte} (f : State → State) (hn : bs.length = n)
    (h : exec i s = s.attempt (s.storeOperand x b d al bs >>= fun t => pure (f t))) {sp : Space}
    (haligned : s.AlignedTo (s.ea d x b) al) (hs : s.Accessible b sp (s.ea d x b) n [.write]) :
    exec i s = .next (f (s.putBytes sp (s.ea d x b) bs)) :=
  store_next al bs f h sp haligned (hn ▸ hs)

/-- A store without an alignment condition. -/
theorem store_trap {bs : List Byte} (f : State → Except Interrupt State) (hn : bs.length = n)
    (h : exec i s = s.attempt (s.store b a bs >>= f)) : AccessTrap i s b a n al [.write] := by
  intro _ hmissing
  rw [h, s.store_missing b a bs (hn.symm ▸ hmissing)]
  rfl

theorem exec_store {bs : List Byte} (f : State → Except Interrupt State) (hn : bs.length = n)
    (h : exec i s = s.attempt (s.store b a bs >>= f)) {sp : Space} (hs : s.Accessible b sp a n [.write]) :
    exec i s = s.attempt (f (s.putBytes sp a bs)) := by
  rw [h, (s.store_ok b a bs _).2 ⟨sp, hn.symm ▸ hs, rfl⟩]
  rfl

/-! ### The alignment that every processor tests -/

/-- An instruction that tests the alignment on every processor, and then an access that answers X'48' where the operand is missing
(R57, R610). -/
theorem always_traps {α : Type} {x : Except Interrupt α} (f : α → Except Interrupt State)
    (h : exec i s = s.attempt (alignedAlways a al >>= fun _ => x >>= f))
    (hx : (∀ sp, ¬ s.Accessible b sp a n ks) → x = .error .addressTranslation) :
    (a % al ≠ 0 → exec i s = .next (s.takeInterrupt .addressing)) ∧
      (a % al = 0 → (∀ sp, ¬ s.Accessible b sp a n ks) → exec i s = .next (s.takeInterrupt .addressTranslation)) := by
  refine ⟨fun hmisaligned => ?_, fun haligned hmissing => ?_⟩
  · rw [h, show alignedAlways a al = .error .addressing from if_pos hmisaligned]
    rfl
  · rw [h, show alignedAlways a al = .ok () from if_neg (not_not.2 haligned), hx hmissing]
    rfl

theorem exec_always {α : Type} {x : Except Interrupt α} {v : α} (f : α → Except Interrupt State)
    (h : exec i s = s.attempt (alignedAlways a al >>= fun _ => x >>= f)) (haligned : a % al = 0) (hx : x = .ok v) :
    exec i s = s.attempt (f v) := by
  rw [h, show alignedAlways a al = .ok () from if_neg (not_not.2 haligned), hx]
  rfl

/-! ### Register numbers -/

/-- An even register number passes (R105). -/
theorem attempt_evenOnly_ok {r : Reg} {f : Unit → Except Interrupt State} (h : r.toNat % 2 = 0) :
    s.attempt (evenOnly r >>= f) = s.attempt (f ()) := by
  rw [evenOnly_ok r h]
  rfl

theorem isEven_eq_false {r : Reg} (h : r.toNat % 2 = 1) : isEven r = false := by
  rw [Bool.eq_false_iff, ne_eq, isEven_iff]
  omega

/-! ### What is stored -/

/-- Bytes stored, then the next instruction (R21, R53). -/
theorem State.store_advance_ended (s : State) (sp : Space) (a : Nat) {bs : List Byte} {n : Nat} (hn : bs.length = n)
    (hle : n ≤ 2 ^ 24) (len : Nat) :
    let t := (s.putBytes sp a bs).advance len
    t.getBytes sp a n = bs ∧ t.cc = s.cc ∧ EndedStoring s t len [] [] [] sp a n := by
  subst hn
  exact ⟨s.getBytes_putBytes sp a bs hle, rfl, s.put_advance_ended sp a bs len⟩

end Sys2Proof.Machine
end

section
/-! The fixed-point family beyond signed addition: the logical sums, multiplication, division, conversion and the arithmetic
shifts (40_general_add_to_compare.md R134, R135; 41_general_convert_to_load.md R200 to R203; 42_general_multiply_to_pack.md R260
to R262; 43_general_subtract_to_xor.md R323 to R327, R331, R332). -/

namespace Sys2Proof.Machine

/-! ### Logical sums and differences -/

/-- The sum modulo 2^32 with its code by zero and carry (R134). -/
theorem State.logical_add_result (s : State) (r : Reg) (y : Word) (len : Nat) :
    let x := s.getGr r
    let t := s.logical r (addLogical x y) len
    ((t.getGr r).toNat = (x.toNat + y.toNat) % 2 ^ 32 ∧
        t.cc = if x.toNat + y.toNat = 0 then 0 else if x.toNat + y.toNat < 2 ^ 32 then 1
          else if x.toNat + y.toNat = 2 ^ 32 then 2 else 3) ∧
      Ended s t len [r] [] [] := by
  intro x t
  obtain ⟨hwritten, hcc, hended⟩ := s.logical_ended r (addLogical x y) len
  exact ⟨⟨(congrArg BitVec.toNat hwritten).trans (BitVec.toNat_add _ _), hcc.trans (addLogical_cc x y)⟩, hended⟩

/-- The difference modulo 2^32 with its code by the order of the operands (R323). -/
theorem State.logical_sub_result (s : State) (r : Reg) (y : Word) (len : Nat) :
    let x := s.getGr r
    let t := s.logical r (subLogical x y) len
    ((t.getGr r).toNat = (x.toNat + 2 ^ 32 - y.toNat) % 2 ^ 32 ∧
        t.cc = if x.toNat < y.toNat then 1 else if x.toNat = y.toNat then 2 else 3) ∧
      Ended s t len [r] [] [] := by
  intro x t
  obtain ⟨hwritten, hcc, hended⟩ := s.logical_ended r (subLogical x y) len
  have hdifference : (x + ~~~y + 1).toNat = (x.toNat + 2 ^ 32 - y.toNat) % 2 ^ 32 := by
    have hy := y.isLt
    have hsub : x + ~~~y + 1 = x - y := by
      rw [BitVec.sub_eq_add_neg, BitVec.neg_eq_not_add, ← BitVec.add_assoc]
      rfl
    rw [hsub, BitVec.toNat_sub]
    omega
  exact ⟨⟨(congrArg BitVec.toNat hwritten).trans hdifference, hcc.trans (subLogical_cc x y)⟩, hended⟩

/-- Settles O17: the register forms at once, the storage forms after the tests of their operand. -/
theorem addSubtractLogical : Obligations.AddSubtractLogical := by
  intro s r1 r2 x2 b2 d2 a x sum difference
  refine ⟨fun i res hi => ?register, fun i res hi => ?storage⟩
  case register =>
    simp only [List.mem_cons, Prod.mk.injEq, List.not_mem_nil, or_false] at hi
    obtain ⟨rfl, rfl⟩ | ⟨rfl, rfl⟩ := hi
    case inl => exact ⟨_, rfl, s.logical_add_result r1 _ 2⟩ -- ALR
    case inr => exact ⟨_, rfl, s.logical_sub_result r1 _ 2⟩ -- SLR
  case storage =>
    simp only [List.mem_cons, Prod.mk.injEq, List.not_mem_nil, or_false] at hi
    obtain ⟨rfl, rfl⟩ | ⟨rfl, rfl⟩ := hi
    case inl => -- AL
      exact word_traps_or_result (fun w t => sum t w.toNat ∧ Ended s t 4 [r1] [] []) (fun w => s.logical_add_result r1 w 4) rfl
    case inr => -- SL
      exact word_traps_or_result (fun w t => difference t w.toNat ∧ Ended s t 4 [r1] [] [])
        (fun w => s.logical_sub_result r1 w 4) rfl

/-! ### Multiplication and division -/

/-- Settles O19: M is MR with a tested operand; MH writes one register. -/
theorem multiply : Obligations.Multiply := by
  intro s r1 r2 x2 b2 d2 a
  refine ⟨fun hodd i hi => ?odd, fun heven => ⟨⟨_, attempt_evenOnly_ok heven, s.multiply_spec r1 _ 2⟩, ?m⟩, ?mh⟩
  case odd =>
    simp only [List.mem_cons, List.not_mem_nil, or_false] at hi
    obtain rfl | rfl := hi
    all_goals exact attempt_evenOnly_error (isEven_eq_false hodd)
  case m =>
    exact word_traps_or_result (fun w t => (t.getPair r1).toInt = (s.getGr (r1 + 1)).toInt * w.toInt ∧ t.cc = s.cc ∧
      Ended s t 4 [r1, r1 + 1] [] []) (fun w => s.multiply_spec r1 w 4) (attempt_evenOnly_ok heven)
  case mh =>
    exact half_traps_or_result (fun y t => t.getGr r1 = BitVec.ofInt 32 ((s.getGr r1).toInt * y) ∧ t.cc = s.cc ∧
      Ended s t 4 [r1] [] []) (fun w => s.setGr_advance_ended r1 _ 4) rfl

/-- Settles O20: both instructions end in `divide`, DR where its registers differ and D after the tests of its operand. -/
theorem divide : Obligations.Divide := by
  intro s r1 r2 x2 b2 d2 a n divided
  have hdivided (i : Instr) (w : Word) (len : Nat) (h : exec i s = s.attempt (s.divide r1 w len)) : divided i w.toInt len := by
    refine ⟨fun q r hd hn hr hs hlow hhigh => ?fits, fun hd => ?zero, fun q r hd hn hr hs hbig => ?tooBig⟩
    case fits =>
      obtain ⟨t, ht, hresult⟩ := (s.divide_spec r1 w len q r hd hn hr hs).1 ⟨hlow, hhigh⟩
      exact ⟨t, by rw [h, ht]; rfl, hresult⟩
    case zero =>
      rw [h, s.divide_zero r1 w len hd]
      rfl
    case tooBig =>
      rw [h, (s.divide_spec r1 w len q r hd hn hr hs).2 hbig]
      rfl
  refine ⟨fun hodd i hi => ?odd, fun heven => ⟨fun hsame => ?same, fun hdiffer => ?dr, ?traps, fun sp ha hs => ?d⟩⟩
  case odd =>
    simp only [List.mem_cons, List.not_mem_nil, or_false] at hi
    obtain rfl | rfl := hi
    all_goals exact attempt_evenOnly_error (isEven_eq_false hodd)
  case same => exact (attempt_evenOnly_ok heven).trans (congrArg s.attempt (if_pos hsame))
  case dr => exact hdivided _ _ _ ((attempt_evenOnly_ok heven).trans (congrArg s.attempt (if_neg hdiffer)))
  case traps => exact traps_word (s.divide r1 · 4) (attempt_evenOnly_ok heven)
  case d => exact hdivided _ _ _ (exec_word (i := .d r1 x2 b2 d2) (s.divide r1 · 4) (attempt_evenOnly_ok heven) sp ha hs)

/-! ### Conversion -/

/-- Settles O21: CVB branches on the validity of its field, and takes its division error after the result; what CVD stores has at
most ten digits. -/
theorem convert : Obligations.Convert := by
  intro s r1 x2 b2 d2 a
  have hlength := packedEncode_length 8 (s.getGr r1).toInt.natAbs (decide ((s.getGr r1).toInt < 0)) (by decide)
  refine ⟨load_traps _ rfl, storeOperand_traps _ hlength rfl,
    fun sp ha hs => ⟨fun hbad => ?invalid, fun hgood => ?cvb⟩, fun sp ha hs => ?cvd⟩
  case invalid => exact (exec_load _ rfl ha hs).trans (congrArg s.attempt (ite_of_eq_false hbad))
  case cvb =>
    refine ⟨_, (exec_load _ rfl ha hs).trans (congrArg s.attempt (if_pos hgood)), ?_⟩
    generalize packedValue (s.getBytes sp a 8) = v
    obtain ⟨hwritten, hcc, hia, hcontrol, hframe, hmemory⟩ := s.setGr_advance_ended r1 (BitVec.ofInt 32 v) 4
    cases hov : outOfRange 32 v with
    | false =>
      have hfits : -2 ^ 31 ≤ v ∧ v < 2 ^ 31 := by
        rw [Bool.eq_false_iff, ne_eq, outOfRange_iff, not_not] at hov
        exact hov
      rw [if_pos hfits]
      exact ⟨hwritten, hcc, hcontrol, hia, hframe, hmemory⟩
    | true =>
      rw [if_neg ((outOfRange_iff v).1 hov)]
      exact ⟨hwritten, hcc, rfl, hia, hframe, hmemory⟩
  case cvd =>
    obtain ⟨hbytes, hrest⟩ := s.store_advance_ended sp a hlength (by decide) 4
    refine ⟨_, exec_storeOperand (·.advance 4) hlength rfl ha hs, ?_, hrest⟩
    have hdigits : (s.getGr r1).toInt.natAbs < 10 ^ (2 * 8 - 1) := by
      have hlow := (s.getGr r1).le_toInt
      have hhigh := (s.getGr r1).toInt_lt
      omega
    rw [hbytes]
    have hholds := packedHolds_packedEncode 8 (s.getGr r1).toInt.natAbs (decide ((s.getGr r1).toInt < 0)) (by decide) _
      decide_eq_true_iff
    rwa [Nat.mod_eq_of_lt hdigits] at hholds

/-! ### The arithmetic shifts -/

/-- The fixed-point overflow is taken where it is due and the mask enables it, and leaves all else as it was (R613). -/
theorem State.takeIf_fixedOverflow (s t : State) (ov : Bool) : (t.takeIf (s.fixedOverflow ov)).control =
    if ov = true ∧ s.pm.getMsbD 0 = true then .interrupt .fixedPointOverflow else t.control := by
  unfold State.fixedOverflow State.pmBit
  split <;> rfl

/-- The quotient by a power of two, rounded down (R331). -/
theorem toInt_sshiftRight_eq_div {w : Nat} (v : BitVec w) (n : Nat) : (v.sshiftRight n).toInt = v.toInt / 2 ^ n := by
  rw [BitVec.toInt_sshiftRight, Int.shiftRight_eq_div_pow]
  rfl

/-- Code and interrupt of an arithmetic left shift, whatever register `u` was written before (R326, R327). -/
theorem State.shiftLeft_outcome {w : Nat} (hw : 0 < w) (s u : State) (v : BitVec w) (n : Nat) (hu : u.control = s.control) :
    let ov := shiftLeftOverflow v n
    let t := ((u.setCc (shiftCc (shiftLeftArith v n) ov)).advance 4).takeIf (s.fixedOverflow ov)
    let fits := -2 ^ (w - 1) ≤ v.toInt * 2 ^ n ∧ v.toInt * 2 ^ n < 2 ^ (w - 1)
    (fits → t.cc = (if v.toInt * 2 ^ n = 0 then 0 else if v.toInt * 2 ^ n < 0 then 1 else 2) ∧ t.control = s.control) ∧
      (¬ fits → t.cc = 3 ∧ t.control = if s.pm.getMsbD 0 = true then .interrupt .fixedPointOverflow else s.control) := by
  intro ov t fits
  have hcc : t.cc = shiftCc (shiftLeftArith v n) ov := by simp [t]
  have hcontrol : t.control = if ov = true ∧ s.pm.getMsbD 0 = true then .interrupt .fixedPointOverflow else s.control :=
    (s.takeIf_fixedOverflow _ ov).trans (by rw [← hu]; rfl)
  refine ⟨fun hfits => ?_, fun hbig => ?_⟩
  · have hov : ov = false := by
      rw [Bool.eq_false_iff, ne_eq, shiftLeftOverflow_iff hw, not_not]
      exact hfits
    rw [hov, shiftCc, if_neg Bool.false_ne_true, shiftLeftArith_fits hw v n hfits] at hcc
    rw [hov, if_neg (fun h => Bool.false_ne_true h.1)] at hcontrol
    exact ⟨hcc, hcontrol⟩
  · have hov : ov = true := (shiftLeftOverflow_iff hw v n).2 hbig
    rw [hov] at hcc hcontrol
    exact ⟨hcc, by simpa using hcontrol⟩

/-- What an arithmetic left shift leaves: `u` is `s` but for the registers `rs` (R326, R327). -/
theorem State.shiftLeft_frame {s u : State} {rs : List Reg} (h : Ended s (u.advance 4) 4 rs [] []) (c : CondCode)
    (w : Option Interrupt) :
    let t := ((u.setCc c).advance 4).takeIf w
    t.ia.toNat = s.continuation 4 ∧ Frame s t rs [] [] ∧ SameMemory s t := by
  obtain ⟨hia, -, hframe, hmemory⟩ := h
  cases w <;> exact ⟨hia, hframe, hmemory⟩

/-- Settles O29: the four results are those of `shiftLeftArith` and `sshiftRight`, of a register or of a pair. -/
theorem shiftArithmetic : Obligations.ShiftArithmetic := by
  intro s r1 b2 d2 n code left right
  have hleft {w : Nat} (hw : 0 < w) (i : Instr) (v : BitVec w) (u : State) (result : State → Int) (rs : List Reg)
      (h : exec i s = .next (((u.setCc (shiftCc (shiftLeftArith v n) (shiftLeftOverflow v n))).advance 4).takeIf
        (s.fixedOverflow (shiftLeftOverflow v n))))
      (hresult : ∀ c o, result (((u.setCc c).advance 4).takeIf o) = (shiftLeftArith v n).toInt)
      (hended : Ended s (u.advance 4) 4 rs [] []) : left i w v.toInt result rs := by
    obtain ⟨hfits, hbig⟩ := s.shiftLeft_outcome hw u v n hended.2.1
    refine ⟨_, h, fun hf => ⟨(hresult _ _).trans (shiftLeftArith_fits hw v n hf), hfits hf⟩,
      fun hf => ⟨?sign, ?magnitude, hbig hf⟩, State.shiftLeft_frame hended _ _⟩
    case sign =>
      rw [hresult]
      exact shiftLeftArith_neg hw v n
    case magnitude =>
      rw [hresult]
      exact shiftLeftArith_mod hw v n
  have hcode {w : Nat} (v : BitVec w) : shiftCc (v.sshiftRight n) false = code (v.toInt / 2 ^ n) :=
    congrArg code (toInt_sshiftRight_eq_div v n)
  have hgr (v : Word) (c : CondCode) (o : Option Interrupt) :
      ((((s.setGr r1 v).setCc c).advance 4).takeIf o).getGr r1 = v := by simp
  have hpr (v : Dword) (c : CondCode) (o : Option Interrupt) :
      ((((s.setPair r1 v).setCc c).advance 4).takeIf o).getPair r1 = v := by cases o <;> simp
  have hregister (v : Word) := (s.setGr_advance_ended r1 v 4).2.2
  have hpair (v : Dword) := (s.setPair_advance_unsigned r1 (v := v) rfl 4).2.2
  refine ⟨?sla, ?sra, fun hodd i hi => ?odd, fun heven => ⟨?slda, ?srda⟩⟩
  case sla =>
    exact hleft (by decide) _ (s.getGr r1) (s.setGr r1 (shiftLeftArith (s.getGr r1) n)) _ _ rfl
      (fun c o => congrArg BitVec.toInt (hgr _ c o)) (hregister _)
  case sra =>
    exact ⟨_, rfl, (congrArg BitVec.toInt (hgr _ _ none)).trans (toInt_sshiftRight_eq_div _ n), hcode _, hregister _⟩
  case odd =>
    simp only [List.mem_cons, List.not_mem_nil, or_false] at hi
    obtain rfl | rfl := hi
    all_goals exact ite_of_eq_false (isEven_eq_false hodd)
  case slda =>
    exact hleft (by decide) _ (s.getPair r1) (s.setPair r1 (shiftLeftArith (s.getPair r1) n)) _ _
      (if_pos ((isEven_iff r1).2 heven)) (fun c o => congrArg BitVec.toInt (hpr _ c o)) (hpair _)
  case srda =>
    exact ⟨_, if_pos ((isEven_iff r1).2 heven), (congrArg BitVec.toInt (hpr _ _ none)).trans (toInt_sshiftRight_eq_div _ n),
      hcode _, hpair _⟩

end Sys2Proof.Machine
end

section
/-! Several registers at once: LM, STM, LAM and STAM (41_general_convert_to_load.md R215; 43_general_subtract_to_xor.md R339;
47_esa.md R558, R559). -/

namespace Sys2Proof.Machine

/-! ### Registers from a block, and a block from registers -/

/-- The words of a block for the registers from R1 through R3. -/
theorem wordsOf_block_length (s : State) (sp : Space) (a : Nat) (r1 r3 : Reg) :
    (wordsOf (s.getBytes sp a (4 * regCount r1 r3))).length = regCount r1 r3 := by
  rw [wordsOf_getBytes, List.length_map, List.length_range]

theorem wordsOf_block_getElem (s : State) (sp : Space) (a : Nat) (r1 r3 : Reg) (k : Nat)
    (h : k < (wordsOf (s.getBytes sp a (4 * regCount r1 r3))).length) :
    (wordsOf (s.getBytes sp a (4 * regCount r1 r3)))[k] = wordOf (s.getBytes sp (a + 4 * k) 4) := by
  simp only [wordsOf_getBytes, List.getElem_map, List.getElem_range]

/-- A register from R1 through R3 after all of them were loaded from a block, and any other register (R215). -/
theorem State.getGr_setGrs_block (s : State) (sp : Space) (a : Nat) (r1 r3 q : Reg) :
    (s.setGrs r1 (wordsOf (s.getBytes sp a (4 * regCount r1 r3)))).getGr q =
      if (q - r1).toNat < regCount r1 r3 then wordOf (s.getBytes sp (a + 4 * (q - r1).toNat) 4) else s.getGr q := by
  rw [s.getGr_setGrs _ _ _ ((wordsOf_block_length s sp a r1 r3).trans_le (regCount_le r1 r3))]
  simp only [wordsOf_block_length, wordsOf_block_getElem, dite_eq_ite]

theorem State.getAr_setArs_block (s : State) (sp : Space) (a : Nat) (r1 r3 q : Reg) :
    (s.setArs r1 (wordsOf (s.getBytes sp a (4 * regCount r1 r3)))).getAr q =
      if (q - r1).toNat < regCount r1 r3 then wordOf (s.getBytes sp (a + 4 * (q - r1).toNat) 4) else s.getAr q := by
  rw [s.getAr_setArs _ _ _ ((wordsOf_block_length s sp a r1 r3).trans_le (regCount_le r1 r3))]
  simp only [wordsOf_block_length, wordsOf_block_getElem, dite_eq_ite]

theorem lt_regCount {r1 r3 : Reg} {k : Nat} (h : k ≤ (r3 - r1).toNat) : k < regCount r1 r3 :=
  Nat.lt_succ_of_le h

/-- What LM leaves (R215). -/
theorem State.setGrs_block_ended (s : State) (sp : Space) (a : Nat) (r1 r3 : Reg) :
    let t := (s.setGrs r1 (wordsOf (s.getBytes sp a (4 * regCount r1 r3)))).advance 4
    (∀ k ≤ (r3 - r1).toNat, t.getGr (r1 + BitVec.ofNat 4 k) = wordOf (s.getBytes sp (a + 4 * k) 4)) ∧ t.cc = s.cc ∧
      Ended s t 4 (registersThrough r1 r3) [] [] := by
  intro t
  have hgr (q : Reg) : t.getGr q = _ := s.getGr_setGrs_block sp a r1 r3 q
  have ht : t = State.advance { s with gr := t.gr } 4 := congrArg (State.advance · 4) (s.setGrs_eq r1 _)
  obtain ⟨hia, hcontrol, ⟨⟨-, har, hfr⟩, hmodes, hsystem, horacles⟩, hmemory⟩ := State.advance_ended { s with gr := t.gr } 4
  rw [← ht] at hia hcontrol har hfr hmodes hsystem horacles hmemory
  refine ⟨fun k hk => ?_, (congrArg State.cc ht).trans rfl, hia, hcontrol,
    ⟨⟨fun q hq => ?_, har, hfr⟩, hmodes, hsystem, horacles⟩, hmemory⟩
  · rw [hgr, reg_add_sub r1 r3 k hk, if_pos (lt_regCount hk)]
  · rw [hgr, if_neg (not_registersThrough r1 r3 q hq)]

/-- What LAM leaves (R558). -/
theorem State.setArs_block_ended (s : State) (sp : Space) (a : Nat) (r1 r3 : Reg) :
    let t := (s.setArs r1 (wordsOf (s.getBytes sp a (4 * regCount r1 r3)))).advance 4
    (∀ k ≤ (r3 - r1).toNat, t.getAr (r1 + BitVec.ofNat 4 k) = wordOf (s.getBytes sp (a + 4 * k) 4)) ∧ t.cc = s.cc ∧
      Ended s t 4 [] (registersThrough r1 r3) [] := by
  intro t
  have har (q : Reg) : t.getAr q = _ := s.getAr_setArs_block sp a r1 r3 q
  have ht : t = State.advance { s with ar := t.ar } 4 := congrArg (State.advance · 4) (s.setArs_eq r1 _)
  obtain ⟨hia, hcontrol, ⟨⟨hgr, -, hfr⟩, hmodes, hsystem, horacles⟩, hmemory⟩ := State.advance_ended { s with ar := t.ar } 4
  rw [← ht] at hia hcontrol hgr hfr hmodes hsystem horacles hmemory
  refine ⟨fun k hk => ?_, (congrArg State.cc ht).trans rfl, hia, hcontrol,
    ⟨⟨hgr, fun q hq => ?_, hfr⟩, hmodes, hsystem, horacles⟩, hmemory⟩
  · rw [har, reg_add_sub r1 r3 k hk, if_pos (lt_regCount hk)]
  · rw [har, if_neg (not_registersThrough r1 r3 q hq)]

/-- What STM and STAM leave: `f k` is the content of the `k`-th register from R1 on (R339, R559). -/
theorem State.store_words_ended (s : State) (sp : Space) (a : Nat) (f : Nat → Word) {n : Nat} (hn : n ≤ 16) :
    let t := (s.putBytes sp a (bytesOf ((List.range n).map f))).advance 4
    (∀ k < n, wordOf (t.getBytes sp (a + 4 * k) 4) = f k) ∧ t.cc = s.cc ∧ EndedStoring s t 4 [] [] [] sp a (4 * n) := by
  intro t
  have hlength : (bytesOf ((List.range n).map f)).length = 4 * n := by simp [bytesOf_length]
  refine ⟨fun k hk => ?_, (s.store_advance_ended sp a hlength (by omega) 4).2⟩
  have hword := wordOf_bytesOf s sp a ((List.range n).map f) (by simpa using hn) k (by simpa using hk)
  exact hword.trans (by simp)

theorem bytesOf_getGrs_length (s : State) (r1 r3 : Reg) :
    (bytesOf (s.getGrs r1 (regCount r1 r3))).length = 4 * regCount r1 r3 := by
  simp [bytesOf_length, State.getGrs]

theorem bytesOf_getArs_length (s : State) (r1 r3 : Reg) :
    (bytesOf (s.getArs r1 (regCount r1 r3))).length = 4 * regCount r1 r3 := by
  simp [bytesOf_length, State.getArs]

/-! ### General-purpose registers -/

/-- Settles O24: one block after one test, to or from the registers from R1 through R3. -/
theorem loadStoreMultiple : Obligations.LoadStoreMultiple := by
  intro s r1 r3 b2 d2 a n
  refine ⟨load_traps _ rfl, storeOperand_traps _ (bytesOf_getGrs_length s r1 r3) rfl,
    fun sp ha hs => ?lm, fun sp ha hs => ?stm⟩
  case lm => exact ⟨_, exec_load (i := .lm r1 r3 b2 d2) _ rfl ha hs, s.setGrs_block_ended sp a r1 r3⟩
  case stm =>
    obtain ⟨hwords, hrest⟩ := s.store_words_ended sp a (fun k => s.getGr (r1 + BitVec.ofNat 4 k)) (regCount_le r1 r3)
    exact ⟨_, exec_storeOperand (·.advance 4) (bytesOf_getGrs_length s r1 r3) rfl ha hs,
      fun k hk => hwords k (lt_regCount hk), hrest⟩

/-! ### Access registers -/

theorem State.esa_present {s : State} {r : Except Interrupt State} (h : s.cpu.hasEsa = true) : s.esa r = s.attempt r :=
  if_pos h

/-- Settles O60: as LM and STM, but aligned on every processor. -/
theorem accessMultiple : Obligations.AccessMultiple := by
  intro s r1 r3 b2 d2 hesa a n
  have hlength := bytesOf_getArs_length s r1 r3
  refine ⟨fun i k hi => ?traps, fun sp ha hs => ?lam, fun sp ha hs => ?stam⟩
  case traps =>
    simp only [List.mem_cons, Prod.mk.injEq, List.not_mem_nil, or_false] at hi
    obtain ⟨rfl, rfl⟩ | ⟨rfl, rfl⟩ := hi
    case inl => exact always_traps _ (State.esa_present hesa) (s.load_missing b2 a n)
    case inr => exact always_traps _ (State.esa_present hesa) fun hmissing => s.store_missing b2 a _ (hlength.symm ▸ hmissing)
  case lam =>
    exact ⟨_, exec_always (i := .lam r1 r3 b2 d2) _ (State.esa_present hesa) ha
      ((s.load_ok _ _ _ _).2 ⟨sp, hs, rfl⟩), s.setArs_block_ended sp a r1 r3⟩
  case stam =>
    obtain ⟨hwords, hrest⟩ := s.store_words_ended sp a (fun k => s.getAr (r1 + BitVec.ofNat 4 k)) (regCount_le r1 r3)
    exact ⟨_, exec_always (i := .stam r1 r3 b2 d2) _ (State.esa_present hesa) ha
      ((s.store_ok _ _ _ _).2 ⟨sp, by rwa [hlength], rfl⟩),
      fun k hk => hwords k (lt_regCount hk), hrest⟩

end Sys2Proof.Machine
end

section
/-! Stores of one register and bytes that a mask selects: ST, STH, STC and STCM, IC, ICM and CLM; comparison of fields: CLC
(40_general_add_to_compare.md R157, R160; 41_general_convert_to_load.md R207, R208; 43_general_subtract_to_xor.md R335 to R338). -/

namespace Sys2Proof.Machine

/-! ### Stored bytes, one by one -/

/-- Each byte stored, then the next instruction (R21, R53). -/
theorem State.store_advance_bytes (s : State) (sp : Space) (a : Nat) {bs : List Byte} {n : Nat} (hn : bs.length = n)
    (hle : n ≤ 2 ^ 24) (len : Nat) :
    let t := (s.putBytes sp a bs).advance len
    (∀ k (hk : k < n), t.getByte sp (a + k) = bs[k]) ∧ t.cc = s.cc ∧ EndedStoring s t len [] [] [] sp a n := by
  subst hn
  exact ⟨fun k hk => s.putBytes_same sp a bs hle k hk, rfl, s.put_advance_ended sp a bs len⟩

/-- An ordinary store of `n` bytes of a register: its traps and its result (R335 to R337). -/
theorem storeBytes_traps_or_result {i : Instr} {s : State} {x b : Reg} {d : Disp} {n : Nat} {bs : List Byte} {f : Nat → Byte}
    (hn : bs.length = n) (hle : n ≤ 8) (hbytes : ∀ k (hk : k < n), bs[k] = f k)
    (h : exec i s = s.attempt (s.storeOperand x b d n bs >>= fun t => pure (t.advance 4))) :
    OperandTraps i s b (s.ea d x b) n n [.write] ∧
      ∀ sp, s.AlignedTo (s.ea d x b) n → s.Accessible b sp (s.ea d x b) n [.write] →
        ∃ t, exec i s = .next t ∧ (∀ k < n, t.getByte sp (s.ea d x b + k) = f k) ∧ t.cc = s.cc ∧
          EndedStoring s t 4 [] [] [] sp (s.ea d x b) n := by
  refine ⟨storeOperand_traps _ hn h, fun sp ha hs => ⟨_, exec_storeOperand (·.advance 4) hn h ha hs, ?_⟩⟩
  obtain ⟨hstored, hrest⟩ := s.store_advance_bytes sp (s.ea d x b) hn (by omega) 4
  exact ⟨fun k hk => (hstored k hk).trans (hbytes k hk), hrest⟩

/-! ### The bytes that a mask selects -/

/-- The number of ones in a mask to the left of bit `k`. -/
def onesBefore (m : Mask) (k : Nat) : Nat :=
  ((List.range k).filter fun j => m.getMsbD j).length

theorem onesBefore_lt {m : Mask} {k : Nat} (hk : k < 4) (hm : m.getMsbD k = true) : onesBefore m k < maskCount m :=
  idx_lt m ⟨k, hk⟩ hm

theorem onesBefore_mono (m : Mask) {j k : Nat} (h : j ≤ k) : onesBefore m j ≤ onesBefore m k :=
  ((List.range_sublist.2 h).filter _).length_le

/-- Each byte of the field stands against a one in the mask. -/
theorem exists_onesBefore_eq {m : Mask} {j : Nat} (hj : j < maskCount m) : ∃ k < 4, m.getMsbD k = true ∧ onesBefore m k = j := by
  obtain ⟨k, hm, hk⟩ := maskBytes_inv m ⟨j, hj.trans_le (maskCount_le m)⟩ hj
  exact ⟨k, k.isLt, hm, hk⟩

theorem selectBytes_length (w : Word) (m : Mask) : (selectBytes w m).length = maskCount m :=
  List.length_map ..

/-- The byte selected for a one in the mask (R160, R338). -/
theorem selectBytes_getElem {w : Word} {m : Mask} {k : Nat} (hk : k < 4) (hm : m.getMsbD k = true)
    (h : onesBefore m k < (selectBytes w m).length) : (selectBytes w m)[onesBefore m k] = byteOf w k := by
  have hget := maskBytes_get m ⟨k, hk⟩ hm
  obtain ⟨_, hget⟩ := List.getElem?_eq_some_iff.1 hget
  simp only [selectBytes, List.getElem_map]
  exact congrArg (byteOf w) hget

/-- Byte `k` after ICM: the next byte of the field for a one in the mask, else as before (R208). -/
theorem byteOf_insertBytes_mask {w : Word} {m : Mask} {bs : List Byte} (hl : bs.length = maskCount m) {k : Nat} (hk : k < 4) :
    byteOf (insertBytes w (maskBytes m) bs) k =
      if h : m.getMsbD k = true then bs[onesBefore m k]'(hl ▸ onesBefore_lt hk h) else byteOf w k := by
  rw [byteOf_insertBytes w (maskBytes m) bs hl.symm (maskBytes_nodup m) k hk]
  by_cases hm : m.getMsbD k = true
  · have hidx : (maskBytes m).idxOf k = onesBefore m k := idxOf_maskBytes m ⟨k, hk⟩ hm
    simp only [hidx, dif_pos hm]
    exact dif_pos (hl ▸ onesBefore_lt hk hm)
  · have hidx : (maskBytes m).idxOf k = maskCount m := idxOf_maskBytes_not m ⟨k, hk⟩ (Bool.eq_false_iff.2 hm)
    rw [dif_neg hm, dif_neg (by omega)]

/-! ### Comparison of fields -/

/-- Equal fields (R157). -/
theorem compareCc_beNat_eq {xs ys : List Byte} (h : xs = ys) : compareCc (beNat xs) (beNat ys) = 0 :=
  if_pos (congrArg _ (congrArg beNat h))

/-- The first byte that differs decides (R157). -/
theorem compareCc_beNat_first {xs ys : List Byte} (hl : xs.length = ys.length) {k : Nat} (hk : k < xs.length)
    (heq : ∀ j (hj : j < k), xs[j]'(by omega) = ys[j]'(by omega)) (hne : xs[k] ≠ ys[k]'(hl ▸ hk)) :
    compareCc (beNat xs) (beNat ys) = if xs[k] < ys[k]'(hl ▸ hk) then 1 else 2 := by
  unfold compareCc
  by_cases hlt : xs[k] < ys[k]'(hl ▸ hk)
  · have hlow := beNat_compare xs ys hl k hk heq hlt
    rw [if_pos hlt, if_neg (by omega), if_pos (by omega)]
  · have hhigh := beNat_compare ys xs hl.symm k (hl ▸ hk) (fun j hj => (heq j hj).symm)
      (BitVec.lt_of_le_ne (BitVec.not_lt.1 hlt) (Ne.symm hne))
    rw [if_neg hlt, if_neg (by omega), if_neg (by omega)]

/-! ### The instructions -/

/-- Settles O26: ST, STH and STC store the last bytes of the register, STCM those that the mask selects. -/
theorem store : Obligations.Store := by
  intro s r1 x2 b2 d2 m3 regByte before
  refine ⟨fun i n hi => ?ordinary, fun hzero => ⟨_, congrArg s.attempt (if_pos hzero), rfl, s.advance_ended 4⟩,
    fun hnonzero => ?masked⟩
  case ordinary =>
    simp only [List.mem_cons, Prod.mk.injEq, List.not_mem_nil, or_false] at hi
    have hst (k : Nat) (hk : k < 4) : (beBytes 4 (s.getGr r1).toNat)[k]'(by simpa using hk) = regByte (0 + k) := by
      rw [byteOf_beBytes4 _ k hk, Nat.zero_add]
      rfl
    have hstc (k : Nat) (hk : k < 1) : [byteOf (s.getGr r1) 3][k] = regByte (3 + k) := by
      obtain rfl : k = 0 := by omega
      rfl
    obtain ⟨rfl, rfl⟩ | ⟨rfl, rfl⟩ | ⟨rfl, rfl⟩ := hi
    case inl => -- ST
      obtain ⟨htraps, hresult⟩ := storeBytes_traps_or_result (i := .st r1 x2 b2 d2) (s := s) (f := fun k => regByte (0 + k))
        (beBytes_length 4 (s.getGr r1).toNat) (by decide) hst rfl
      exact ⟨fun hone => absurd hone (by decide), fun _ => htraps, hresult⟩
    case inr.inl => -- STH
      obtain ⟨htraps, hresult⟩ := storeBytes_traps_or_result (i := .sth r1 x2 b2 d2) (s := s) (f := fun k => regByte (2 + k))
        (beBytes_length 2 (s.getGr r1).toNat) (by decide) (byteOf_beBytes2 (s.getGr r1)) rfl
      exact ⟨fun hone => absurd hone (by decide), fun _ => htraps, hresult⟩
    case inr.inr => -- STC
      obtain ⟨htraps, hresult⟩ := storeBytes_traps_or_result (i := .stc r1 x2 b2 d2) (s := s) (f := fun k => regByte (3 + k))
        (n := 1) (bs := [byteOf (s.getGr r1) 3]) rfl (by decide) hstc rfl
      exact ⟨fun _ => htraps.2, fun hother => absurd rfl hother, hresult⟩
  case masked =>
    intro a
    have hlength := selectBytes_length (s.getGr r1) m3
    have hexec : exec (.stcm r1 m3 b2 d2) s =
        s.attempt (s.store b2 a (selectBytes (s.getGr r1) m3) >>= fun t => pure (t.advance 4)) :=
      congrArg s.attempt (if_neg hnonzero)
    refine ⟨store_trap _ hlength hexec, fun sp hs => ⟨_, exec_store _ hlength hexec hs, ?_⟩⟩
    obtain ⟨hstored, hrest⟩ := s.store_advance_bytes sp a hlength ((maskCount_le m3).trans (by decide)) 4
    exact ⟨fun k hk hm => (hstored _ (onesBefore_lt hk hm)).trans (selectBytes_getElem hk hm _), hrest⟩

/-- Settles O25: IC appends its byte; ICM and CLM pair the ones of the mask with the bytes of the field. -/
theorem insertCompareMask : Obligations.InsertCompareMask := by
  intro s r1 x2 b2 d2 m3 a before n regByte
  have hfield (sp : Space) (k : Nat) (h : k < (s.getBytes sp a n).length) : (s.getBytes sp a n)[k] = s.getByte sp (a + k) :=
    s.getBytes_getElem sp a n k h
  have hlength (sp : Space) : (s.getBytes sp a n).length = maskCount m3 := s.getBytes_length sp a n
  refine ⟨byteOperand_trap _ rfl, reach_trap _ rfl, reach_trap _ rfl,
    fun sp hs => ⟨_, exec_byteOperand (i := .ic r1 x2 b2 d2) _ rfl hs, s.setGr_advance_ended r1 _ 4⟩,
    fun sp hs => ?icm, fun sp hs => ?clm⟩
  case icm =>
    let u := s.setGr r1 (insertBytes (s.getGr r1) (maskBytes m3) (s.getBytes sp a n))
    have hload : s.load b2 (s.ea d2 0 b2) (maskCount m3) = .ok (s.getBytes sp a n) :=
      (s.load_ok b2 a n _).2 ⟨sp, s.accessible_le b2 sp a _ n _ hs (le_max_left n 1), rfl⟩
    have hexec : exec (.icm r1 m3 b2 d2) s = .next ((u.setCc (icmCc (s.getBytes sp a n))).advance 4) := by
      rw [exec_reach (i := .icm r1 m3 b2 d2) _ rfl hs, hload]
      rfl
    refine ⟨_, hexec, fun k hk => ?byte, ?code, (s.setGr_advance_ended r1 _ 4).2.2⟩
    case byte =>
      have hwritten : ((u.setCc (icmCc (s.getBytes sp a n))).advance 4).getGr r1 =
          insertBytes (s.getGr r1) (maskBytes m3) (s.getBytes sp a n) := by simp [u]
      refine (congrArg (byteOf · k) hwritten).trans ((byteOf_insertBytes_mask (hlength sp) hk).trans ?_)
      split
      · exact hfield sp _ _
      · rfl
    case code =>
      refine (icmCc_eq _).trans ?_
      by_cases hzero : ∀ j < n, s.getByte sp (a + j) = 0
      · rw [if_pos hzero, if_pos fun j hj => (hfield sp j hj).trans (hzero j (by simpa using hj))]
      · have hsome : n ≠ 0 := fun hn => hzero fun j hj => absurd hj (by omega)
        obtain ⟨n', hn'⟩ := Nat.exists_eq_succ_of_ne_zero hsome
        have hhead : (s.getBytes sp a n).headD 0 = s.getByte sp a := by rw [hn', s.getBytes_succ, List.headD_cons]
        rw [if_neg hzero, if_neg fun h => hzero fun j hj => (hfield sp j (by simpa using hj)).symm.trans (h j (by simpa using hj)),
          hhead]
  case clm =>
    intro differs
    refine ⟨_, exec_reach (i := .clm r1 m3 b2 d2) _ rfl hs, ?_⟩
    have hreg := selectBytes_length (s.getGr r1) m3
    have hl : (selectBytes (s.getGr r1) m3).length = (s.getBytes sp a n).length := hreg.trans (hlength sp).symm
    have hpair (j : Nat) (hj : j < (selectBytes (s.getGr r1) m3).length) :
        ∃ k < 4, onesBefore m3 k = j ∧
          ((selectBytes (s.getGr r1) m3)[j] = (s.getBytes sp a n)[j]'(hl ▸ hj) ↔ ¬ differs k) := by
      obtain ⟨k, hk, hm, rfl⟩ := exists_onesBefore_eq (hreg ▸ hj)
      refine ⟨k, hk, rfl, ?_⟩
      rw [selectBytes_getElem hk hm, hfield]
      exact ⟨fun heq hd => hd.2 heq, fun hno => not_not.1 fun hne => hno ⟨hm, hne⟩⟩
    refine ⟨fun hnone => compareCc_beNat_eq (List.ext_getElem hl fun j hj _ => ?equal), fun k hk hd hfirst => ?first,
      by simp [Ended, Frame, SameRegistersBut, SameModes, SameSystem, SameOracles, SameMemory]⟩
    case equal =>
      obtain ⟨k, hk, -, hiff⟩ := hpair j hj
      exact hiff.2 (hnone k hk)
    case first =>
      obtain ⟨hm, hne⟩ := hd
      have hlt : onesBefore m3 k < (selectBytes (s.getGr r1) m3).length := hreg ▸ onesBefore_lt hk hm
      refine (compareCc_beNat_first hl hlt (fun j hj => ?before) ?differ).trans ?code
      case before =>
        obtain ⟨k', -, rfl, hiff⟩ := hpair j (hj.trans hlt)
        exact hiff.2 (hfirst k' (not_le.1 fun hle => absurd hj (not_lt.2 (onesBefore_mono m3 hle))))
      case differ =>
        rw [selectBytes_getElem hk hm, hfield]
        exact hne
      case code =>
        rw [selectBytes_getElem hk hm, hfield]
        rfl

/-- Settles O41: the first byte that differs decides between the two numbers. -/
theorem compareCharacters : Obligations.CompareCharacters := by
  intro s l b1 d1 b2 d2 a1 a2 n
  refine ⟨twoOperands_trap _ rfl, fun sp1 sp2 h1 h2 => ?_⟩
  intro x y
  refine ⟨_, exec_twoOperands (i := .clc l b1 d1 b2 d2) _ rfl h1 h2, ?_⟩
  have hlength : (s.getBytes sp1 a1 n).length = (s.getBytes sp2 a2 n).length := by simp
  have hx (k : Nat) (h : k < (s.getBytes sp1 a1 n).length) : (s.getBytes sp1 a1 n)[k] = x k := s.getBytes_getElem sp1 a1 n k h
  have hy (k : Nat) (h : k < (s.getBytes sp2 a2 n).length) : (s.getBytes sp2 a2 n)[k] = y k := s.getBytes_getElem sp2 a2 n k h
  have hfirst (k : Nat) (hk : k < n) (heq : ∀ j < k, x j = y j) (hne : x k ≠ y k) :
      compareCc (beNat (s.getBytes sp1 a1 n)) (beNat (s.getBytes sp2 a2 n)) = if x k < y k then 1 else 2 := by
    have hk' : k < (s.getBytes sp1 a1 n).length := (s.getBytes_length sp1 a1 n).symm ▸ hk
    rw [compareCc_beNat_first hlength hk' (fun j hj => by rw [hx, hy, heq j hj]) (by rwa [hx, hy]), hx, hy]
  refine ⟨fun heq => compareCc_beNat_eq (List.ext_getElem hlength fun k hk1 hk2 => ?_), fun k hk heq hlt => ?_,
    fun k hk heq hlt => ?_, by simp [Ended, Frame, SameRegistersBut, SameModes, SameSystem, SameOracles, SameMemory]⟩
  · rw [hx, hy, heq k (s.getBytes_length sp1 a1 n ▸ hk1)]
  · exact (hfirst k hk heq (BitVec.ne_of_lt hlt)).trans (if_pos hlt)
  · exact (hfirst k hk heq (BitVec.ne_of_lt hlt).symm).trans (if_neg (BitVec.lt_asymm hlt))

end Sys2Proof.Machine
end

section
/-! Single bytes and swapped words: NI, OI, XI and MVI, CLI, TM and MC, CS, CDS and TS (40_general_add_to_compare.md R159, R161,
R162; 42_general_multiply_to_pack.md R263, R265, R273, R277; 43_general_subtract_to_xor.md R341, R344, R348). -/

namespace Sys2Proof.Machine

/-! ### Stored bytes with a condition code -/

/-- Bytes stored and the code set, then the next instruction (R21, R23, R53). -/
theorem State.store_code_ended (s : State) (sp : Space) (a : Nat) {bs : List Byte} {n : Nat} (hn : bs.length = n)
    (hle : n ≤ 2 ^ 24) (c : CondCode) (len : Nat) :
    let t := ((s.putBytes sp a bs).setCc c).advance len
    t.getBytes sp a n = bs ∧ t.cc = c ∧ EndedStoring s t len [] [] [] sp a n := by
  subst hn
  exact ⟨s.getBytes_putBytes sp a bs hle, rfl, s.put_advance_ended sp a bs len⟩

/-- One byte stored and the code set, then the next instruction. -/
theorem State.store_byte_ended (s : State) (sp : Space) (a : Nat) (b : Byte) (c : CondCode) (len : Nat) :
    let t := ((s.putBytes sp a [b]).setCc c).advance len
    t.getByte sp a = b ∧ t.cc = c ∧ EndedStoring s t len [] [] [] sp a 1 :=
  ⟨s.getByte_put sp a b, rfl, s.put_advance_ended sp a [b] len⟩

/-- `nonzeroCc` tells whether the result is not 0 (R270). -/
theorem nonzeroCc_eq (b : Byte) : nonzeroCc (b != 0) = if b = 0 then 0 else 1 := by
  by_cases h : b = 0 <;> simp [nonzeroCc, h]

/-! ### Immediate bytes -/

/-- Settles O35: the scheme of R270 on one byte, and a store of the immediate byte. -/
theorem logicImmediate : Obligations.LogicImmediate := by
  intro s b1 d1 i2 a
  have hlogic (i : Instr) (f : Byte → Byte) (op : Bool → Bool → Bool) (h : exec i s = s.attempt (s.logicByte b1 d1 f))
      (hop : ∀ b : Byte, ∀ k < 8, (f b).getLsbD k = op (b.getLsbD k) (i2.getLsbD k)) :
      AccessTrap i s b1 a 1 1 [.read, .write] ∧
        ∀ sp, s.Accessible b1 sp a 1 [.read, .write] →
          ∃ t, exec i s = .next t ∧
            (∀ k < 8, (t.getByte sp a).getLsbD k = op ((s.getByte sp a).getLsbD k) (i2.getLsbD k)) ∧
            t.cc = (if t.getByte sp a = 0 then 0 else 1) ∧ EndedStoring s t 4 [] [] [] sp a 1 := by
    refine ⟨reach_trap _ h, fun sp hs => ⟨_, exec_reach _ h hs, ?_⟩⟩
    obtain ⟨hbyte, hcc, hended⟩ := s.store_byte_ended sp a (f (s.getByte sp a)) (nonzeroCc (f (s.getByte sp a) != 0)) 4
    refine ⟨fun k hk => (congrArg (BitVec.getLsbD · k) hbyte).trans (hop _ k hk), ?_, hended⟩
    rw [hbyte]
    exact hcc.trans (nonzeroCc_eq _)
  refine ⟨fun i op hi => ?logic, (storeOperand_traps (n := 1) _ rfl rfl).2, fun sp hs => ?mvi⟩
  case logic =>
    simp only [List.mem_cons, Prod.mk.injEq, List.not_mem_nil, or_false] at hi
    obtain ⟨rfl, rfl⟩ | ⟨rfl, rfl⟩ | ⟨rfl, rfl⟩ := hi
    case inl => exact hlogic _ (· &&& i2) _ rfl fun b k _ => BitVec.getLsbD_and -- NI
    case inr.inl => exact hlogic _ (· ||| i2) _ rfl fun b k _ => BitVec.getLsbD_or -- OI
    case inr.inr => exact hlogic _ (· ^^^ i2) _ rfl fun b k _ => BitVec.getLsbD_xor -- XI
  case mvi =>
    exact ⟨_, exec_storeOperand (n := 1) (i := .mvi b1 d1 i2) (·.advance 4) rfl rfl (s.alignedTo_one a) hs,
      s.getByte_put sp a i2, rfl, s.put_advance_ended sp a [i2] 4⟩

/-- The code of TM by the bits tested (R341). -/
theorem testCc_cases (b m : Byte) :
    let tested := fun v : Bool => ∀ k < 8, m.getLsbD k = true → b.getLsbD k = v
    (tested false → testCc b m = 0) ∧ (¬ tested false → tested true → testCc b m = 3) ∧
      (¬ tested false → ¬ tested true → testCc b m = 1) := by
  obtain ⟨hzeros, hones⟩ := and_mask b m
  refine ⟨fun h0 => if_pos (hzeros.2 h0), fun h0 h1 => ?_, fun h0 h1 => ?_⟩
  · exact (if_neg (mt hzeros.1 h0)).trans (if_pos (hones.2 h1))
  · exact (if_neg (mt hzeros.1 h0)).trans (if_neg (mt hones.1 h1))

/-- Settles O36: CLI and TM end with a code, MC does nothing but to test its class. -/
theorem testImmediate : Obligations.TestImmediate := by
  intro s b1 d1 i2 a
  have hended (c : CondCode) : Ended s ((s.setCc c).advance 4) 4 [] [] [] :=
    (s.setCc c).advance_ended 4
  refine ⟨byteOperand_trap _ rfl, byteOperand_trap _ rfl, fun sp hs => ⟨?cli, ?tm⟩,
    fun hlow => ⟨_, if_neg (not_lt.2 hlow), rfl, s.advance_ended 4⟩, fun hhigh => if_pos hhigh⟩
  case cli => exact ⟨_, exec_byteOperand (i := .cli b1 d1 i2) _ rfl hs, rfl, hended _⟩
  case tm =>
    intro tested
    obtain ⟨hzeros, hones, hmixed⟩ := testCc_cases (s.getByte sp a) i2
    exact ⟨_, exec_byteOperand (i := .tm b1 d1 i2) _ rfl hs, hzeros, hones, hmixed, hended _⟩

/-! ### Compare and swap -/

/-- Two even register numbers pass their test (R105). -/
theorem isEven_and {r1 r2 : Reg} (h1 : r1.toNat % 2 = 0) (h2 : r2.toNat % 2 = 0) : (isEven r1 && isEven r2) = true := by
  rw [(isEven_iff r1).2 h1, (isEven_iff r2).2 h2]
  rfl

theorem isEven_and_ne {r1 r2 : Reg} (h : r1.toNat % 2 = 1 ∨ r2.toNat % 2 = 1) : ¬ (isEven r1 && isEven r2) = true := by
  rw [Bool.and_eq_true, isEven_iff, isEven_iff]
  omega

/-- Settles O44: CS and CDS differ in the size of their operands and in the registers' evenness; TS stores whatever it read. -/
theorem compareAndSwap : Obligations.CompareAndSwap := by
  intro s r1 r3 b2 d2 a traps
  refine ⟨always_traps _ rfl (s.reach_missing b2 a 4 _), reach_trap _ rfl, fun hodd => congrArg s.attempt (if_neg (isEven_and_ne hodd)),
    fun h1 h3 => always_traps _ (congrArg s.attempt (if_pos (isEven_and h1 h3))) (s.reach_missing b2 a 8 _),
    fun sp ha hs => ?cs, fun sp h1 h3 ha hs => ?cds, fun sp hs => ?ts⟩
  case cs =>
    have hexec := exec_always (i := .cs r1 r3 b2 d2) _ rfl ha (s.reach_access b2 sp a 4 _ hs)
    by_cases heq : wordOf (s.getBytes sp a 4) = s.getGr r1
    · obtain ⟨hbytes, hcc, hended⟩ := s.store_code_ended sp a (beBytes_length 4 (s.getGr r3).toNat) (by decide) 0 4
      refine ⟨_, hexec.trans (congrArg s.attempt (if_pos heq)), ?_⟩
      rw [if_pos heq]
      exact ⟨hcc, (congrArg wordOf hbytes).trans (wordOf_beBytes _), hended⟩
    · obtain ⟨hwritten, -, hended⟩ := s.setGr_advance_ended r1 (wordOf (s.getBytes sp a 4)) 4
      refine ⟨_, hexec.trans (congrArg s.attempt (if_neg heq)), ?_⟩
      rw [if_neg heq]
      exact ⟨rfl, hwritten, hended⟩
  case cds =>
    have hexec := exec_always (i := .cds r1 r3 b2 d2) _ (congrArg s.attempt (if_pos (isEven_and h1 h3))) ha
      (s.reach_access b2 sp a 8 _ hs)
    by_cases heq : dwordOf (s.getBytes sp a 8) = s.getPair r1
    · obtain ⟨hbytes, hcc, hended⟩ := s.store_code_ended sp a (beBytes_length 8 (s.getPair r3).toNat) (by decide) 0 4
      refine ⟨_, hexec.trans (congrArg s.attempt (if_pos heq)), ?_⟩
      rw [if_pos heq]
      exact ⟨hcc, (congrArg dwordOf hbytes).trans (dwordOf_beBytes _), hended⟩
    · obtain ⟨-, -, hended⟩ := s.setPair_advance_unsigned r1 (v := dwordOf (s.getBytes sp a 8)) rfl 4
      refine ⟨_, hexec.trans (congrArg s.attempt (if_neg heq)), ?_⟩
      rw [if_neg heq]
      exact ⟨rfl, by simp [a], hended⟩
  case ts =>
    obtain ⟨hbyte, hcc, hended⟩ := s.store_byte_ended sp a 0xFF (nonzeroCc ((s.getByte sp a).getMsbD 0)) 4
    refine ⟨_, exec_reach (i := .ts b2 d2) _ rfl hs, hbyte, hcc.trans ?_, hended⟩
    rw [BitVec.msb]
    rfl

end Sys2Proof.Machine
end

section
/-! The control of the machine: BASSM and BSM, STCK and SVC, and the clock (40_general_add_to_compare.md R141, R142;
43_general_subtract_to_xor.md R340, R366; 60_exceptions.md R621, R622). -/

namespace Sys2Proof.Machine

/-! ### Branch and set mode -/

/-- Bits 1 to 31 of a word, truncated to either mode, are an address of 31 bits (R141). -/
theorem modeTarget_lt (w : Word) : modeTarget w < 2 ^ 31 :=
  (Nat.mod_lt _ (Nat.two_pow_pos _)).trans_le (Nat.pow_le_pow_right (by decide) (modeOf w).width_le.2)

theorem State.enterMode_ia (s : State) (w : Word) : (s.enterMode w).ia.toNat = modeTarget w :=
  (BitVec.toNat_ofNat _ _).trans (Nat.mod_eq_of_lt (modeTarget_lt w))

/-- Go on, or enter the mode and go to the address that a word holds, after the registers `rs` were written (R141, R142). -/
theorem State.modeBranch_spec {s u : State} {rs : List Reg} (hu : Ended s (u.advance 2) 2 rs [] []) (hcc : u.cc = s.cc)
    (r : Reg) (w : Word) :
    let t := if r = 0 then u.advance 2 else u.enterMode w
    SameRegistersBut s t rs [] [] ∧ (∀ q, t.getGr q = u.getGr q) ∧ t.amode = (if r = 0 then s.amode else modeOf w) ∧
      Branched s t (r ≠ 0) (modeTarget w) 2 ∧ t.pm = s.pm ∧ t.asc = s.asc ∧ SameSystem s t ∧ SameOracles s t := by
  intro t
  obtain ⟨hia, hcontrol, ⟨hregisters, ⟨hpm, hamode, hasc⟩, hsystem, horacles⟩, hmemory⟩ := hu
  by_cases h : r = 0
  · have ht : t = u.advance 2 := if_pos h
    rw [ht, if_pos h]
    exact ⟨hregisters, fun _ => u.advance_getGr 2 _, hamode, ⟨fun hne => absurd h hne, fun _ => hia, hcontrol, hcc, hmemory⟩,
      hpm, hasc, hsystem, horacles⟩
  · have ht : t = u.enterMode w := if_neg h
    rw [ht, if_neg h]
    exact ⟨hregisters, fun _ => rfl, rfl, ⟨fun _ => u.enterMode_ia w, fun hno => absurd h hno, hcontrol, hcc, hmemory⟩,
      hpm, hasc, hsystem, horacles⟩

/-- Settles O31: both end in the branch of `modeBranch_spec`, BASSM with all of R1 written and BSM with bit 0 of it. -/
theorem branchAndSetMode : Obligations.BranchAndSetMode := by
  intro s r1 r2 h31 old mode bit went
  have hbit : s.amode.bit = bit := by
    unfold bit AMode.bit
    cases s.amode <;> rfl
  refine ⟨?bassm, ?bsm⟩
  case bassm =>
    obtain ⟨hwritten, hcc, hended⟩ := s.setGr_advance_ended r1 (s.saveInfo 2) 2
    obtain ⟨hregisters, hsame, hwent⟩ := State.modeBranch_spec hended hcc r2 old
    obtain ⟨hmode, hcontinuation⟩ := s.saveInfo_spec 2
    refine ⟨_, if_pos h31, ?_, ?_, hregisters, hwent⟩
    · exact (congrArg (bits · 0 1) ((hsame r1).trans hwritten)).trans hmode
    · exact (congrArg (fun v => (bits v 1 31).toNat) ((hsame r1).trans hwritten)).trans hcontinuation
  case bsm =>
    let v : Word := s.amode.bit ++ bits (s.getGr r1) 1 31
    have hexec (u : State) (hu : (if r1 = 0 then s else s.setGr r1 v) = u) :
        exec (.bsm r1 r2) s = .next (if r2 = 0 then u.advance 2 else u.enterMode old) := hu ▸ if_pos h31
    by_cases h : r1 = 0
    · obtain ⟨hregisters, -, hwent⟩ := State.modeBranch_spec (s.advance_ended 2) rfl r2 old
      exact ⟨_, hexec s (if_pos h), fun _ => hregisters, fun hne => absurd h hne, hwent⟩
    · obtain ⟨hwritten, hcc, hended⟩ := s.setGr_advance_ended r1 v 2
      obtain ⟨hregisters, hsame, hwent⟩ := State.modeBranch_spec hended hcc r2 old
      refine ⟨_, hexec _ (if_neg h), fun hzero => absurd hzero h, fun _ => ⟨?_, ?_, hregisters⟩, hwent⟩
      · exact (congrArg (bits · 0 1) ((hsame r1).trans hwritten)).trans ((bits_append_left _ _).trans hbit)
      · exact (congrArg (bits · 1 31) ((hsame r1).trans hwritten)).trans (bits_append_right _ _)

/-! ### The clock and the supervisor call -/

/-- The clock shows a new value, one free value was drawn for it, and the code is 0 (R366). -/
def State.clocked (s : State) (now : Dword) : State :=
  { s with tod := now, draws := s.draws + 1, cc := 0 }

/-- STCK as a store whose end sets the clock. -/
theorem exec_stck (s : State) (b2 : Reg) (d2 : Disp) : exec (.stck b2 d2) s =
    s.attempt (s.storeOperand 0 b2 d2 8 (beBytes 8 s.readClock.toNat) >>= fun t => pure ((t.advance 4).clocked s.readClock)) :=
  rfl

/-- What the clock's new value leaves of a store (R366). -/
theorem State.clocked_ended {s u : State} {bs : List Byte} {sp : Space} {a n : Nat} (now : Dword)
    (h : u.getBytes sp a n = bs ∧ u.cc = s.cc ∧ EndedStoring s u 4 [] [] [] sp a n) :
    let t := u.clocked now
    t.getBytes sp a n = bs ∧ t.tod = now ∧ t.cc = 0 ∧ t.ia.toNat = s.continuation 4 ∧ t.control = s.control ∧
      SameRegistersBut s t [] [] [] ∧ SameModes s t ∧ SameSystem s t ∧ SameMemoryBut s t sp a n := by
  obtain ⟨hbytes, -, hia, hcontrol, ⟨hregisters, hmodes, hsystem, -⟩, hmemory⟩ := h
  exact ⟨hbytes, rfl, rfl, hia, hcontrol, hregisters, hmodes, hsystem, hmemory⟩

/-- Settles O45: the clock never goes back when it is read, nor in any step. -/
theorem clockAndSupervisorCall : Obligations.ClockAndSupervisorCall := by
  intro s b2 d2 imm a
  have hexec := exec_stck s b2 d2
  have hclock := s.readClock_ge
  generalize s.readClock = now at hexec hclock
  have hlength := beBytes_length 8 now.toNat
  refine ⟨storeOperand_traps _ hlength hexec, fun sp ha hs => ?stck, ?svc, fun t => step_tod_le⟩
  case stck =>
    obtain ⟨hbytes, hnow, hrest⟩ := State.clocked_ended now (s.store_advance_ended sp a hlength (by decide) 4)
    refine ⟨_, exec_storeOperand (fun t => (t.advance 4).clocked now) hlength hexec ha hs, ?_, hnow.symm ▸ hclock, hrest⟩
    rw [hbytes, hnow]
    exact dwordOf_beBytes now
  case svc =>
    obtain ⟨hia, -, hframe, hmemory⟩ := s.advance_ended 2
    exact ⟨_, rfl, rfl, hia, rfl, hframe, hmemory⟩

end Sys2Proof.Machine
end

section
/-! Floating-point loads and stores, and the access registers: LER, LDR, LE, LD, STE and STD; CPYA, EAR, SAR, IAC, TAR, LAE and
SAC (46_floating_point_load_store.md R500 to R503, R514, R515; 47_esa.md R552 to R557, R560). -/

namespace Sys2Proof.Machine

/-! ### Loads and stores of floating-point registers -/

/-- A valid register number passes (R452). -/
theorem attempt_needFpr {s : State} {r : Reg} {f : Unit → Except Interrupt State} (h : isFpr r = true) :
    s.attempt (needFpr r >>= f) = s.attempt (f ()) := by
  rw [needFpr_ok h]
  rfl

/-- A short number loaded: the left half of its register, and nothing else (R500, R501). -/
theorem State.setFrs_advance_ended (s : State) {r : Reg} (hr : isFpr r = true) (v : Word) (len : Nat) :
    let t := (s.setFrs r v).advance len
    bits (t.getFr r) 0 32 = v ∧ bits (t.getFr r) 32 32 = bits (s.getFr r) 32 32 ∧ t.cc = s.cc ∧ Ended s t len [] [] [r] :=
  ⟨s.getFrs_setFrs r v, (s.setFrs_stored r v hr).right rfl, (s.setFrs_stored r v hr).ended Fmt.noConfusion⟩

/-- A long number loaded (R502, R503). -/
theorem State.setFr_advance_ended (s : State) {r : Reg} (hr : isFpr r = true) (v : Dword) (len : Nat) :
    let t := (s.setFr r v).advance len
    t.getFr r = v ∧ t.cc = s.cc ∧ Ended s t len [] [] [r] :=
  ⟨s.getFr_setFr_same r v, (s.setFr_stored r v hr).ended Fmt.noConfusion⟩

/-- Settles O57: after the tests of the register numbers, a load or a store of four or eight bytes. -/
theorem floatLoadStore : Obligations.FloatLoadStore := by
  intro s r1 r2 x2 b2 d2 a left right h1
  have hle : exec (.le r1 x2 b2 d2) s = s.attempt (s.wordOperand x2 b2 d2 >>= fun w => pure ((s.setFrs r1 w).advance 4)) :=
    attempt_needFpr h1
  have hld : exec (.ld r1 x2 b2 d2) s = s.attempt (s.dwordOperand x2 b2 d2 >>= fun w => pure ((s.setFr r1 w).advance 4)) :=
    attempt_needFpr h1
  have hste : exec (.ste r1 x2 b2 d2) s =
      s.attempt (s.storeOperand x2 b2 d2 4 (beBytes 4 (s.getFrs r1).toNat) >>= fun t => pure (t.advance 4)) := attempt_needFpr h1
  have hstd : exec (.std r1 x2 b2 d2) s =
      s.attempt (s.storeOperand x2 b2 d2 8 (beBytes 8 (s.getFr r1).toNat) >>= fun t => pure (t.advance 4)) := attempt_needFpr h1
  have hword := beBytes_length 4 (s.getFrs r1).toNat
  have hdword := beBytes_length 8 (s.getFr r1).toNat
  refine ⟨fun h2 => ⟨⟨_, ?ler, s.setFrs_advance_ended h1 _ 2⟩, _, ?ldr, s.setFr_advance_ended h1 _ 2⟩,
    ⟨traps_word _ hle, traps_dword _ hld, storeOperand_traps _ hword hste, storeOperand_traps _ hdword hstd⟩,
    fun sp ha hs => ⟨_, exec_word_next _ hle sp ha hs, s.setFrs_advance_ended h1 _ 4⟩,
    fun sp ha hs => ⟨_, exec_dword_next _ hld sp ha hs, s.setFr_advance_ended h1 _ 4⟩, fun sp ha hs => ?ste, fun sp ha hs => ?std⟩
  case ler => exact (attempt_needFpr h1).trans (attempt_needFpr h2)
  case ldr => exact (attempt_needFpr h1).trans (attempt_needFpr h2)
  case ste =>
    obtain ⟨hbytes, hcc, hended⟩ := s.store_advance_ended sp a hword (by decide) 4
    exact ⟨_, exec_storeOperand (·.advance 4) hword hste ha hs, (congrArg wordOf hbytes).trans (wordOf_beBytes _), hcc, hended⟩
  case std =>
    obtain ⟨hbytes, hcc, hended⟩ := s.store_advance_ended sp a hdword (by decide) 4
    exact ⟨_, exec_storeOperand (·.advance 4) hdword hstd ha hs, (congrArg dwordOf hbytes).trans (dwordOf_beBytes _), hcc, hended⟩

/-! ### The access registers -/

/-- An access register written, then the next instruction. -/
theorem State.setAr_advance_ended (s : State) (r : Reg) (v : Word) (len : Nat) :
    let t := (s.setAr r v).advance len
    t.getAr r = v ∧ t.cc = s.cc ∧ Ended s t len [] [r] [] := by
  simp [Ended, Frame, SameRegistersBut, SameModes, SameSystem, SameOracles, SameMemory]
  intro q hq
  simp [hq]

/-- The five fields that IAC writes (R555). -/
theorem bits_iac (x : BitVec 16) (y : BitVec 6) (p q : BitVec 1) (z : BitVec 8) :
    let w : Word := x ++ y ++ p ++ q ++ z
    bits w 0 16 = x ∧ bits w 16 8 = y ++ p ++ q ∧ bits w 24 8 = z := by
  intro w
  have hx := x.isLt; have hy := y.isLt; have hp := p.isLt; have hq := q.isLt; have hz := z.isLt
  have hw : w.toNat = (((x.toNat * 2 ^ 6 + y.toNat) * 2 + p.toNat) * 2 + q.toNat) * 2 ^ 8 + z.toNat := by
    simp only [w, BitVec.toNat_append]
    rw [← Nat.shiftLeft_add_eq_or_of_lt hz, ← Nat.shiftLeft_add_eq_or_of_lt hq, ← Nat.shiftLeft_add_eq_or_of_lt hp,
      ← Nat.shiftLeft_add_eq_or_of_lt hy]
    simp only [Nat.shiftLeft_eq, Nat.pow_one]
  have hmiddle : (y ++ p ++ q).toNat = (y.toNat * 2 + p.toNat) * 2 + q.toNat := by
    simp only [BitVec.toNat_append]
    rw [← Nat.shiftLeft_add_eq_or_of_lt hq, ← Nat.shiftLeft_add_eq_or_of_lt hp]
    simp only [Nat.shiftLeft_eq, Nat.pow_one]
  refine ⟨BitVec.eq_of_toNat_eq ?_, BitVec.eq_of_toNat_eq ?_, bits_append_right (x ++ y ++ p ++ q) z⟩
  · rw [bits_toNat, hw]
    omega
  · rw [bits_toNat, hw]
    refine Eq.trans ?_ hmiddle.symm
    omega

/-- The code of TAR by the entry that the access list holds for an ALET, if any (R59, R560). -/
theorem State.tarCc_spec (s : State) (alet : Word) :
    (alet = 0 → s.tarCc alet = 0) ∧ (alet ≠ 0 → (∀ e ∈ s.accessList, e.alet ≠ alet) → s.tarCc alet = 3) ∧
      (alet ≠ 0 → (∃ e ∈ s.accessList, e.alet = alet) → s.tarCc alet = 1 ∨ s.tarCc alet = 2) := by
  refine ⟨fun h => if_pos h, fun h hnone => (if_neg h).trans ?_, fun h hsome => ?_⟩
  · have hart : s.art alet = none := List.find?_eq_none.2 fun e he => by simpa using hnone e he
    rw [hart]
  · obtain ⟨e, he⟩ := Option.isSome_iff_exists.1 (List.find?_isSome (p := fun e : AccessEntry => e.alet == alet) |>.2
      (by simpa using hsome))
    have hart : s.art alet = some e := he
    have hcc : s.tarCc alet = if e.tarCc2 then 2 else 1 := (if_neg h).trans (by rw [hart])
    rw [hcc]
    split
    · exact .inr rfl
    · exact .inl rfl

/-- What LAE loads into the access register (R556). -/
theorem State.laeAr_eq (s : State) (b : Reg) : s.laeAr b = if s.asc = .ar ∧ b ≠ 0 then s.getAr b else 0 := by
  unfold State.laeAr
  cases s.asc <;> by_cases hb : b = 0 <;> simp [hb]

/-- The registers that LAE writes (R556). -/
theorem State.lae_registers (s : State) (r : Reg) (v w : Word) : SameRegistersBut s ((s.setGr r v).setAr r w) [r] [r] [] := by
  refine ⟨fun q hq => ?_, fun q hq => ?_, fun _ _ _ => rfl⟩
  · have hne : q ≠ r := by simpa using hq
    exact (s.getGr_setGr r q v).trans (if_neg hne)
  · have hne : q ≠ r := by simpa using hq
    exact ((s.setGr r v).getAr_setAr r q w).trans (if_neg hne)

/-- What SAC leaves unchanged, with `n` free values drawn (R557). -/
theorem State.sac_frame (s : State) (m : Asc) (n : Nat) :
    let t := { s.draw n with asc := m }.advance 4
    t.cc = s.cc ∧ t.ia.toNat = s.continuation 4 ∧ t.control = s.control ∧ SameRegistersBut s t [] [] [] ∧ t.pm = s.pm ∧
      t.amode = s.amode ∧ SameSystem s t ∧ SameMemory s t :=
  ⟨rfl, s.advance_ia 4, rfl, ⟨fun _ _ => rfl, fun _ _ => rfl, fun _ _ _ => rfl⟩, rfl, rfl, ⟨rfl, rfl, rfl, rfl, rfl⟩,
    fun _ => rfl⟩

/-- The code of SAC as a number (R557). -/
theorem State.sacCode_toNat (s : State) (b : Reg) (d : Disp) :
    (s.sacCode b d).toNat = ((if b = 0 then 0 else (s.getGr b).toNat) + d.toNat) / 256 % 16 := by
  unfold State.sacCode State.addend
  rw [bits_toNat, BitVec.toNat_ofNat]
  omega

/-- Settles O59: each instruction with ESA present; LAE and SAC by their cases. -/
theorem accessRegisters : Obligations.AccessRegisters := by
  intro s r1 r2 x2 b2 d2 hesa
  refine ⟨⟨_, State.esa_present hesa, s.setAr_advance_ended r1 _ 4⟩, ⟨_, State.esa_present hesa, s.setGr_advance_ended r1 _ 4⟩,
    ⟨_, State.esa_present hesa, s.setAr_advance_ended r1 _ 4⟩, ?iac, ?tar, ?lae, ?sac⟩
  case iac =>
    let v : Word := bits (s.getGr r1) 0 16 ++ (0 : BitVec 6) ++ s.asc.pswBits.2 ++ s.asc.pswBits.1 ++ bits (s.getGr r1) 24 8
    obtain ⟨hleft, hmode, hright⟩ :=
      bits_iac (bits (s.getGr r1) 0 16) 0 s.asc.pswBits.2 s.asc.pswBits.1 (bits (s.getGr r1) 24 8)
    obtain ⟨hwritten, -, hended⟩ := s.setGr_advance_ended r1 v 4
    refine ⟨_, State.esa_present hesa, (congrArg (bits · 0 16) hwritten).trans hleft,
      (congrArg (bits · 16 8) hwritten).trans (hmode.trans ?_), (congrArg (bits · 24 8) hwritten).trans hright, rfl, hended⟩
    cases s.asc <;> rfl
  case tar =>
    exact ⟨_, if_pos hesa, (s.setCc _).advance_ended 4, s.tarCc_spec (s.getAr r1)⟩
  case lae =>
    intro undefined
    have hexec (t : State) (h : (if undefined
          then (((s.setGr r1 (s.freeWord 0)).setAr r1 (s.freeWord 1)).draw 2).advance 4
          else ((s.setGr r1 (BitVec.ofNat 32 (s.ea d2 x2 b2))).setAr r1 (s.laeAr b2)).advance 4) = t) :
        exec (.lae r1 x2 b2 d2) s = .next t := h ▸ State.esa_present hesa
    by_cases h : undefined
    · exact ⟨_, hexec _ (if_pos h), rfl, s.advance_ia 4, rfl, s.lae_registers r1 _ _, ⟨rfl, rfl, rfl⟩,
        ⟨rfl, rfl, rfl, rfl, rfl⟩, fun _ => rfl, fun hno => absurd h hno⟩
    · refine ⟨_, hexec _ (if_neg h), rfl, s.advance_ia 4, rfl, s.lae_registers r1 _ _, ⟨rfl, rfl, rfl⟩,
        ⟨rfl, rfl, rfl, rfl, rfl⟩, fun _ => rfl, fun _ => ⟨?_, ?_, rfl, rfl⟩⟩
      · have hlt := s.ea_lt d2 x2 b2
        simp
        omega
      · simp [State.laeAr_eq]
  case sac =>
    intro code
    have hcode (c : BitVec 4) : code = c.toNat → s.sacCode b2 d2 = c := fun h =>
      BitVec.eq_of_toNat_eq ((s.sacCode_toNat b2 d2).trans h)
    by_cases h0 : s.sacCode b2 d2 = 0
    · exact ⟨_, (State.esa_present hesa).trans (congrArg (s.attempt <| .ok ·) (if_pos h0)), fun _ => ⟨rfl, rfl, rfl⟩,
        fun h2 => absurd (h0.symm.trans (hcode 2 h2)) (by decide), s.sac_frame .primary 0⟩
    · by_cases h2 : s.sacCode b2 d2 = 2
      · exact ⟨_, (State.esa_present hesa).trans (congrArg (s.attempt <| .ok ·) ((if_neg h0).trans (if_pos h2))),
          fun hzero => absurd (hcode 0 hzero) h0, fun _ => ⟨rfl, rfl, rfl⟩, s.sac_frame .ar 0⟩
      · exact ⟨_, (State.esa_present hesa).trans (congrArg (s.attempt <| .ok ·) ((if_neg h0).trans (if_neg h2))),
          fun hzero => absurd (hcode 0 hzero) h0, fun htwo => absurd (hcode 2 htwo) h2, s.sac_frame _ 1⟩

end Sys2Proof.Machine
end

section
/-! Fields processed byte by byte, whatever the overlap: MVC, MVN, MVZ, NC, OC and XC; MVO, PACK and UNPK; TR and TRT
(42_general_multiply_to_pack.md R264, R266, R267, R269, R270, R279; 43_general_subtract_to_xor.md R342, R343, R345). -/

namespace Sys2Proof.Machine

/-! ### Memory after a chain of stores -/

/-- A new memory that differs within an operand, then the next instruction. -/
theorem State.mem_advance_ended (s : State) {m : List Host.Cell} {sp : Space} {a n : Nat}
    (h : SameMemoryBut s { s with mem := m } sp a n) (len : Nat) :
    EndedStoring s ({ s with mem := m }.advance len) len [] [] [] sp a n :=
  ⟨s.advance_ia len, rfl, s.withMem_frame m, h⟩

/-- A byte of the chain of stores when `j` of its `n` bytes are stored is `byteAt` (R66). -/
theorem State.read_chain_byteAt (s : State) {k : Nat → Nat} (v : Nat → List Host.Cell → List Host.Cell → Byte) {n : Nat}
    (inj : ∀ i < n, ∀ j < n, k i = k j → i = j) {j : Nat} (hj : j ≤ n) (a : Nat) :
    Memory.read (chain k v s.mem j) a = byteAt s { s with mem := chain k v s.mem n } k j a :=
  read_chain_during k v s.mem n inj j hj a

/-! ### From left to right -/

/-- The instructions that map the bytes of two operands, by `mapOperands` and the code, if they set one (R264, R270). -/
theorem mapBytes_traps_or_result {i : Instr} {s : State} {f : Byte → Byte → Byte} {ks : List Access} {n : Nat} {b1 b2 : Reg}
    {a1 a2 : Nat} {code : Bool} (hn : n ≤ 2 ^ 24)
    (h : exec i s = s.attempt (s.mapOperands f ks n b1 a1 b2 a2 >>= fun p =>
      pure ((if code then p.1.setCc (nonzeroCc p.2) else p.1).advance 6))) :
    ((∀ sp1 sp2, ¬ (s.Accessible b1 sp1 a1 n ks ∧ s.Accessible b2 sp2 a2 n [.read])) →
        exec i s = .next (s.takeInterrupt .addressTranslation)) ∧
      ∀ sp1 sp2, s.Accessible b1 sp1 a1 n ks → s.Accessible b2 sp2 a2 n [.read] →
        ∃ t, exec i s = .next t ∧
          (∀ k < n, t.getByte sp1 (a1 + k) =
            f (s.getByte sp1 (a1 + k)) (byteAt s t (fun j => s.key sp1 (a1 + j)) k (s.key sp2 (a2 + k)))) ∧
          t.cc = (if code = false then s.cc else if ∀ k < n, t.getByte sp1 (a1 + k) = 0 then 0 else 1) ∧
          EndedStoring s t 6 [] [] [] sp1 a1 n := by
  refine ⟨fun hmissing => ?_, fun sp1 sp2 h1 h2 => ?_⟩
  · rw [h, s.mapOperands_missing f ks n b1 a1 b2 a2 hmissing]
    rfl
  · obtain ⟨m, nz, hok, hbytes, hmemory, hnz⟩ := s.mapOperands_ok f ks n b1 a1 b2 a2 sp1 sp2 h1 h2 hn
    rw [hok] at h
    have hended := s.mem_advance_ended hmemory 6
    cases code with
    | false => exact ⟨_, h, hbytes, rfl, hended⟩
    | true =>
      refine ⟨_, h, hbytes, ?_, hended⟩
      have hzero : nz = false ↔ ∀ k < n, Memory.read m (s.key sp1 (a1 + k)) = 0 := by
        rw [Bool.eq_false_iff, ne_eq, hnz]
        push Not
        rfl
      show nonzeroCc nz = if ∀ k < n, Memory.read m (s.key sp1 (a1 + k)) = 0 then 0 else 1
      cases nz with
      | false => rw [if_pos (hzero.1 rfl)]; rfl
      | true => rw [if_neg (mt hzero.2 (by decide))]; rfl

end Sys2Proof.Machine

namespace Sys2Proof
open Machine

/-- Settles O37: each of the six maps bytes with its own function. -/
theorem mapBytes : Obligations.MapBytes := by
  intro s l b1 d1 b2 d2 a1 a2 n i ks code f hi
  have hn : n ≤ 2 ^ 24 := Nat.succ_le_of_lt (l.isLt.trans (by decide))
  refine mapBytes_traps_or_result hn ?_
  simp only [List.mem_cons, Prod.mk.injEq, List.not_mem_nil, or_false] at hi
  obtain ⟨rfl, rfl, rfl, rfl⟩ | ⟨rfl, rfl, rfl, rfl⟩ | ⟨rfl, rfl, rfl, rfl⟩ | ⟨rfl, rfl, rfl, rfl⟩ | ⟨rfl, rfl, rfl, rfl⟩ |
    ⟨rfl, rfl, rfl, rfl⟩ := hi
  all_goals rfl

end Sys2Proof

namespace Sys2Proof.Machine

/-! ### From right to left -/

/-- The move from right to left as a chain of stores, whose byte `j` is `f` of the receive byte and the source bytes. -/
theorem moveRight_traps_or_result {i : Instr} {s : State} {l1 l2 : Nibble} {b1 b2 : Reg} {d1 d2 : Disp} {ks : List Access}
    {F : (Nat → Nat) → (Nat → Nat) → Nat → Nat → List Host.Cell → List Host.Cell}
    {v : (Nat → Nat) → (Nat → Nat) → Nat → Nat → List Host.Cell → List Host.Cell → Byte}
    {f : Byte → (Nat → Nat → Byte) → Nat → Byte} (h : exec i s = s.attempt (s.moveRight F ks l1 l2 b1 d1 b2 d2))
    (hF : ∀ kd k2 n1 n2 m, 0 < n1 → 0 < n2 → F kd k2 n1 n2 m = chain kd (v kd k2 n2) m n1)
    (hv : ∀ kd k2 n2 m j, chainByte kd (v kd k2 n2) m j =
      f (Memory.read (chain kd (v kd k2 n2) m j) (kd j)) (fun time k => srcByte k2 n2 (chain kd (v kd k2 n2) m time) k) j)
    (hf : ∀ old src src' j, (∀ time ≤ j, ∀ k, src time k = src' time k) → f old src j = f old src' j) :
    let a1 := s.ea d1 0 b1
    let a2 := s.ea d2 0 b2
    let n1 := l1.toNat + 1
    let n2 := l2.toNat + 1
    ((∀ sp1 sp2, ¬ (s.Accessible b1 sp1 a1 n1 ks ∧ s.Accessible b2 sp2 a2 n2 [.read])) →
        exec i s = .next (s.takeInterrupt .addressTranslation)) ∧
      ∀ sp1 sp2, s.Accessible b1 sp1 a1 n1 ks → s.Accessible b2 sp2 a2 n2 [.read] →
        let kd := fun j => s.key sp1 (a1 + (n1 - 1 - j))
        let ks' := fun k => s.key sp2 (a2 + (n2 - 1 - k))
        ∃ t, exec i s = .next t ∧
          (∀ j < n1, Memory.read t.mem (kd j) =
            f (Memory.read s.mem (kd j)) (fun time k => if k < n2 then byteAt s t kd time (ks' k) else 0) j) ∧
          t.cc = s.cc ∧ EndedStoring s t 6 [] [] [] sp1 a1 n1 := by
  intro a1 a2 n1 n2
  refine ⟨twoOperands_trap _ h, fun sp1 sp2 h1 h2 => ?_⟩
  intro kd ks'
  have hn1 : n1 ≤ 2 ^ 24 := Nat.succ_le_of_lt (l1.isLt.trans (by decide))
  have inj : ∀ x < n1, ∀ y < n1, kd x = kd y → x = y := fun x hx y hy hkey => by
    have := s.key_inj sp1 a1 n1 hn1 (n1 - 1 - x) (by omega) (n1 - 1 - y) (by omega) hkey
    omega
  have hmem : F kd ks' n1 n2 s.mem = chain kd (v kd ks' n2) s.mem n1 := hF _ _ _ _ _ (Nat.succ_pos _) (Nat.succ_pos _)
  have hexec : exec i s = .next ({ s with mem := F kd ks' n1 n2 s.mem }.advance 6) := exec_twoOperands _ h h1 h2
  rw [hmem] at hexec
  refine ⟨_, hexec, fun j hj => ?bytes, rfl, s.mem_advance_ended (fun a ha => ?other) 6⟩
  case bytes =>
    refine (read_chain_same kd _ s.mem n1 inj j hj).trans ((hv kd ks' n2 s.mem j).trans ?_)
    rw [read_chain_other kd _ s.mem j (kd j) fun x hx hkey => absurd (inj j hj x (by omega) hkey) (by omega)]
    refine hf _ _ _ j fun time htime k => ?_
    unfold srcByte
    split
    · exact s.read_chain_byteAt _ inj (by omega) _
    · rfl
  case other =>
    exact read_chain_other kd _ s.mem n1 a fun x hx => ha (n1 - 1 - x) (by omega)

/-- Byte `j` of the receive field of MVO from the byte it replaces and from source byte `k` as it is read at a time (R269). -/
def mvoResult (old : Byte) (src : Nat → Nat → Byte) (j : Nat) : Byte :=
  if j = 0 then loNib (src 0 0) ++ loNib old else loNib (src j j) ++ hiNib (src (j - 1) (j - 1))

/-- As `mvoResult`, of PACK (R279). -/
def packResult (_old : Byte) (src : Nat → Nat → Byte) (j : Nat) : Byte :=
  if j = 0 then loNib (src 0 0) ++ hiNib (src 0 0) else loNib (src j (2 * j)) ++ loNib (src j (2 * j - 1))

/-- As `mvoResult`, of UNPK (R345). -/
def unpkResult (_old : Byte) (src : Nat → Nat → Byte) (j : Nat) : Byte :=
  if j = 0 then loNib (src 0 0) ++ hiNib (src 0 0)
  else if j % 2 = 1 then 0xF#4 ++ loNib (src j ((j + 1) / 2)) else 0xF#4 ++ hiNib (src (j - 1) (j / 2))

theorem chainByte_mvo (kd k2 : Nat → Nat) (n2 : Nat) (m : List Host.Cell) (j : Nat) :
    chainByte kd (mvoByte kd k2 n2) m j = mvoResult (Memory.read (chain kd (mvoByte kd k2 n2) m j) (kd j))
      (fun time k => srcByte k2 n2 (chain kd (mvoByte kd k2 n2) m time) k) j := by
  unfold chainByte mvoByte mvoResult
  by_cases hj : j = 0
  · subst hj
    rfl
  · rw [if_neg hj, if_neg hj]
    rfl

theorem chainByte_pack (kd k2 : Nat → Nat) (n2 : Nat) (m : List Host.Cell) (j : Nat) :
    chainByte kd (packByte k2 n2) m j = packResult (Memory.read (chain kd (packByte k2 n2) m j) (kd j))
      (fun time k => srcByte k2 n2 (chain kd (packByte k2 n2) m time) k) j := by
  unfold chainByte packByte packResult
  by_cases hj : j = 0
  · subst hj
    rfl
  · rw [if_neg hj, if_neg hj]
    rfl

theorem chainByte_unpk (kd k2 : Nat → Nat) (n2 : Nat) (m : List Host.Cell) (j : Nat) :
    chainByte kd (unpkByte k2 n2) m j = unpkResult (Memory.read (chain kd (unpkByte k2 n2) m j) (kd j))
      (fun time k => srcByte k2 n2 (chain kd (unpkByte k2 n2) m time) k) j := by
  unfold chainByte unpkByte unpkResult
  by_cases hj : j = 0
  · subst hj
    rfl
  · rw [if_neg hj, if_neg hj]
    by_cases hodd : j % 2 = 1
    · rw [if_pos hodd, if_pos (by omega)]
      rfl
    · rw [if_neg hodd, if_neg (by omega)]
      rfl

/-- Settles O38: the three moves are the chains of their laws. -/
theorem moveFromRight : Obligations.MoveFromRight := by
  intro s l1 l2 b1 d1 b2 d2 a1 a2 n1 n2 i ks f hi
  simp only [List.mem_cons, Prod.mk.injEq, List.not_mem_nil, or_false] at hi
  obtain ⟨rfl, rfl, rfl⟩ | ⟨rfl, rfl, rfl⟩ | ⟨rfl, rfl, rfl⟩ := hi
  case inl => -- MVO
    exact moveRight_traps_or_result (i := .mvo l1 l2 b1 d1 b2 d2) (s := s) (f := mvoResult) rfl mvoMemory_chain chainByte_mvo
      fun old src src' j hsrc => by
        simp only [mvoResult, hsrc 0 (Nat.zero_le j), hsrc j le_rfl, hsrc (j - 1) (Nat.sub_le j 1)]
  case inr.inl => -- PACK
    exact moveRight_traps_or_result (i := .pack l1 l2 b1 d1 b2 d2) (s := s) (f := packResult) (v := fun _ => packByte) rfl
      packMemory_chain chainByte_pack fun old src src' j hsrc => by
        simp only [packResult, hsrc 0 (Nat.zero_le j), hsrc j le_rfl]
  case inr.inr => -- UNPK
    exact moveRight_traps_or_result (i := .unpk l1 l2 b1 d1 b2 d2) (s := s) (f := unpkResult) (v := fun _ => unpkByte) rfl
      unpkMemory_chain chainByte_unpk fun old src src' j hsrc => by
        simp only [unpkResult, hsrc 0 (Nat.zero_le j), hsrc j le_rfl, hsrc (j - 1) (Nat.sub_le j 1)]

/-! ### Translation -/

/-- A byte of a space is accessible, or its access is refused, as its page allows (R56, R66). -/
theorem State.tryByte_refused (s : State) (sp : Space) (m : List Host.Cell) (a : Nat)
    (h : s.allocated sp (s.trunc a) .read = false) : s.tryByte (.ok sp) m a = none :=
  ite_of_eq_false h

/-- A table in a space that is missing stops TR at its first byte (R342). -/
theorem State.translate_error (s : State) (sp1 : Space) (a1 : Nat) (w : Interrupt) (a2 n i : Nat) (m : List Host.Cell) :
    s.translate sp1 a1 (.error w) a2 (n + 1) i m = (m, false) :=
  rfl

/-- The first `m` argument bytes translated (R342). -/
theorem State.translated_bytes (s : State) (sp1 : Space) (a1 : Nat) (sp2 : Space) (a2 m : Nat) (hm : m ≤ 2 ^ 24) :
    let k1 := fun j => s.key sp1 (a1 + j)
    let t := { s with mem := chain k1 (trByte s sp1 a1 sp2 a2) s.mem m }
    (∀ k < m, t.getByte sp1 (a1 + k) = byteAt s t k1 k (s.key sp2 (a2 + (s.getByte sp1 (a1 + k)).toNat))) ∧
      Frame s t [] [] [] ∧ SameMemoryBut s t sp1 a1 m := by
  intro k1 t
  have inj := s.key_injOn sp1 a1 m hm
  refine ⟨fun k hk => ?_, s.withMem_frame _, fun a ha => read_chain_other k1 _ s.mem m a ha⟩
  have hargument : Memory.read (chain k1 (trByte s sp1 a1 sp2 a2) s.mem k) (k1 k) = s.getByte sp1 (a1 + k) :=
    read_chain_other k1 _ s.mem k (k1 k) fun j hj hkey => absurd (inj k hk j (by omega) hkey) (by omega)
  calc t.getByte sp1 (a1 + k) = chainByte k1 (trByte s sp1 a1 sp2 a2) s.mem k := read_chain_same k1 _ s.mem m inj k hk
    _ = Memory.read (chain k1 (trByte s sp1 a1 sp2 a2) s.mem k) (s.key sp2 (a2 + (s.getByte sp1 (a1 + k)).toNat)) := by
        rw [← hargument]
        rfl
    _ = byteAt s t k1 k (s.key sp2 (a2 + (s.getByte sp1 (a1 + k)).toNat)) := s.read_chain_byteAt _ inj hk.le _

/-- Settles O39: the chain of TR is as long as its table bytes are accessible. -/
theorem translate : Obligations.Translate := by
  intro s l b1 d1 b2 d2 a1 a2 n
  refine ⟨reach_trap _ rfl, fun sp1 hs => ?_⟩
  intro entry translated
  have hn : n ≤ 2 ^ 24 := Nat.succ_le_of_lt (l.isLt.trans (by decide))
  have hexec (m : List Host.Cell) (ok : Bool) (h : s.translate sp1 a1 (s.space b2) a2 n 0 s.mem = (m, ok)) :
      exec (.tr l b1 d1 b2 d2) s = s.attempt (if ok then .ok ({ s with mem := m }.advance 6)
        else .ok ({ s with mem := m }.takeInterrupt .addressTranslation)) := by
    refine (exec_reach (i := .tr l b1 d1 b2 d2) _ rfl hs).trans ?_
    show s.attempt (if (s.translate sp1 a1 (s.space b2) a2 n 0 s.mem).2 then _ else _) = _
    rw [h]
    cases ok <;> rfl
  have hchain (sp2 : Space) (m : Nat) (hm : m ≤ n) (hspace : s.space b2 = .ok sp2)
      (hread : ∀ k < m, s.allocated sp2 (s.trunc (entry k)) .read = true)
      (hstop : m = n ∨ s.allocated sp2 (s.trunc (entry m)) .read = false) :
      s.translate sp1 a1 (s.space b2) a2 n 0 s.mem =
        (chain (fun j => s.key sp1 (a1 + j)) (trByte s sp1 a1 sp2 a2) s.mem m, decide (m = n)) := by
    have hloop := s.translate_chain sp1 a1 sp2 a2 n 0 (by simpa using s.key_injOn sp1 a1 n hn) m hm
      (fun k _ hk => hread k (by omega)) (by simpa using hstop)
    simpa only [Nat.zero_add, chain_zero, hspace] using hloop
  refine ⟨fun sp2 hspace hread => ?all, fun sp2 m hspace hm hread hstop => ?some, fun hmissing => ?none⟩
  case all =>
    obtain ⟨hbytes, hframe, hmemory⟩ := s.translated_bytes sp1 a1 sp2 a2 n hn
    have hrun := (hchain sp2 n le_rfl hspace hread (.inl rfl)).trans (congrArg _ (decide_eq_true rfl))
    exact ⟨_, hexec _ _ hrun, ⟨hbytes, hframe, hmemory, rfl⟩, s.advance_ia 6, rfl⟩
  case some =>
    obtain ⟨hbytes, hframe, hmemory⟩ := s.translated_bytes sp1 a1 sp2 a2 m (hm.le.trans hn)
    have hrun := (hchain sp2 m hm.le hspace hread (.inr hstop)).trans (congrArg _ (decide_eq_false hm.ne))
    exact ⟨_, hexec _ _ hrun, ⟨hbytes, hframe, hmemory, rfl⟩, rfl, rfl⟩
  case none =>
    cases hspace : s.space b2 with
    | ok sp2 => exact absurd hspace (hmissing sp2)
    | error w => exact hexec s.mem false (hspace ▸ s.translate_error sp1 a1 w a2 l.toNat 0 s.mem)

/-! ### Translate and test -/

/-- The function byte of argument byte `i` decides how the search goes on (R343). -/
theorem State.scan_succ (s : State) {sp1 sp2 : Space} {a1 a2 i : Nat} (n : Nat)
    (h1 : s.allocated sp1 (s.trunc (a1 + i)) .read = true)
    (h2 : s.allocated sp2 (s.trunc (a2 + (s.getByte sp1 (a1 + i)).toNat)) .read = true) :
    let f := s.getByte sp2 (a2 + (s.getByte sp1 (a1 + i)).toNat)
    s.scan (.ok sp1) a1 (.ok sp2) a2 (n + 1) i =
      if f = 0 then s.scan (.ok sp1) a1 (.ok sp2) a2 n (i + 1) else .ok (some (i, f)) := by
  intro f
  rw [State.scan, s.tryByte_some sp1 s.mem _ h1]
  show (match s.tryByte (.ok sp2) s.mem (a2 + (s.getByte sp1 (a1 + i)).toNat) with | none => _ | some f => _) = _
  rw [s.tryByte_some sp2 s.mem _ h2]
  rfl

/-- A byte that is not accessible stops the search (R343). -/
theorem State.scan_refused (s : State) {b1 b2 : Reg} {a1 a2 i : Nat} (n : Nat)
    (h : ∀ sp1 sp2, s.space b1 = .ok sp1 → s.space b2 = .ok sp2 →
      ¬ (s.allocated sp1 (s.trunc (a1 + i)) .read = true ∧
        s.allocated sp2 (s.trunc (a2 + (s.getByte sp1 (a1 + i)).toNat)) .read = true)) :
    s.scan (s.space b1) a1 (s.space b2) a2 (n + 1) i = .error .addressTranslation := by
  cases hspace1 : s.space b1 with
  | error w => rfl
  | ok sp1 =>
    cases hspace2 : s.space b2 with
    | error w =>
      rw [State.scan]
      cases s.tryByte (.ok sp1) s.mem (a1 + i) <;> rfl
    | ok sp2 =>
      rw [State.scan]
      cases h1 : s.allocated sp1 (s.trunc (a1 + i)) .read with
      | false => rw [s.tryByte_refused sp1 s.mem _ h1]
      | true =>
        have h2 : s.allocated sp2 (s.trunc (a2 + (s.getByte sp1 (a1 + i)).toNat)) .read = false :=
          Bool.eq_false_iff.2 fun h2 => h sp1 sp2 hspace1 hspace2 ⟨h1, h2⟩
        rw [s.tryByte_some sp1 s.mem _ h1]
        show (match s.tryByte (.ok sp2) s.mem (a2 + (s.getByte sp1 (a1 + i)).toNat) with | none => _ | some f => _) = _
        rw [s.tryByte_refused sp2 s.mem _ h2]

/-- What TRT loads into general-purpose register 1 (R343). -/
theorem State.foundAt_spec (s : State) (a : Nat) :
    match s.amode with
    | .a24 => bits (s.foundAt a) 0 8 = bits (s.getGr 1) 0 8 ∧ (bits (s.foundAt a) 8 24).toNat = a % 2 ^ 24
    | .a31 => bits (s.foundAt a) 0 1 = 0 ∧ (bits (s.foundAt a) 1 31).toNat = a % 2 ^ 31 := by
  unfold State.foundAt State.trunc
  cases s.amode with
  | a24 =>
    refine ⟨bits_append_left _ _, (congrArg BitVec.toNat (bits_append_right _ _)).trans ?_⟩
    simp [AMode.width]
  | a31 =>
    refine ⟨bits_append_left _ _, (congrArg BitVec.toNat (bits_append_right _ _)).trans ?_⟩
    simp [AMode.width]

/-- The end of TRT after its search (R343). -/
def State.trtEnd (s : State) (l : Byte) (a1 : Nat) : Option (Nat × Byte) → State
  | none => (s.setCc 0).advance 6
  | some (i, f) =>
    (((s.setGr 1 (s.foundAt (a1 + i))).setGr 2 (bits (s.getGr 2) 0 24 ++ f)).setCc (if i = l.toNat then 2 else 1)).advance 6

/-- What TRT leaves where it found a byte (R343). -/
theorem State.trtEnd_some (s : State) (l : Byte) (a1 i : Nat) (f : Byte) :
    let t := s.trtEnd l a1 (some (i, f))
    t.getGr 1 = s.foundAt (a1 + i) ∧ t.getGr 2 = bits (s.getGr 2) 0 24 ++ f ∧ t.cc = (if i = l.toNat then 2 else 1) ∧
      Ended s t 6 [1, 2] [] [] := by
  refine ⟨by simp [State.trtEnd], by simp [State.trtEnd], rfl, s.advance_ia 6, rfl,
    ⟨⟨fun q hq => ?_, fun _ _ => rfl, fun _ _ _ => rfl⟩, ⟨rfl, rfl, rfl⟩,
    ⟨rfl, rfl, rfl, rfl, rfl⟩, rfl, rfl⟩, fun _ => rfl⟩
  obtain ⟨h1, h2⟩ : q ≠ 1#4 ∧ q ≠ 2#4 := by simpa using hq
  simp [State.trtEnd, h1, h2]

/-- Settles O40: the search stops at the first byte that is refused or whose function byte is not 0. -/
theorem translateAndTest : Obligations.TranslateAndTest := by
  intro s l b1 d1 b2 d2 a1 a2 n
  have hexec (r : Except Interrupt (Option (Nat × Byte))) (h : s.scan (s.space b1) a1 (s.space b2) a2 n 0 = r) :
      exec (.trt l b1 d1 b2 d2) s = s.attempt (r.map fun found => s.trtEnd l a1 found) := by
    rw [← h]
    show s.attempt (s.scan (s.space b1) a1 (s.space b2) a2 n 0 >>= _) = _
    cases s.scan (s.space b1) a1 (s.space b2) a2 n 0 with
    | error w => rfl
    | ok found => cases found <;> rfl
  refine ⟨fun hmissing => hexec _ (s.scan_refused l.toNat fun sp1 sp2 h1 h2 => absurd ⟨h1, h2⟩ (hmissing sp1 sp2)),
    fun sp1 sp2 h1 h2 => ?_⟩
  intro entry reached function
  have hrun (m : Nat) (hm : m ≤ n) (h : ∀ k < m, reached k ∧ function k = 0) :
      s.scan (s.space b1) a1 (s.space b2) a2 n 0 = s.scan (.ok sp1) a1 (.ok sp2) a2 (n - m) m := by
    have hloop := s.scan_spec sp1 a1 sp2 a2 n 0 m hm fun k _ hk => by
      obtain ⟨⟨hargument, hentry⟩, hzero⟩ := h k (by omega)
      exact ⟨hargument, hentry, hzero⟩
    rw [h1, h2]
    rwa [Nat.zero_add] at hloop
  have hnext (m : Nat) (hm : m < n) : n - m = (n - m - 1) + 1 := by omega
  refine ⟨fun hall => ?all, fun m hm hbefore hreached hfound => ?found, fun m hm hbefore hrefused => ?refused⟩
  case all =>
    have hscan := hrun n le_rfl hall
    rw [Nat.sub_self] at hscan
    exact ⟨_, hexec (.ok none) hscan, rfl, (s.setCc 0).advance_ended 6⟩
  case found =>
    have hscan := hrun m hm.le hbefore
    rw [hnext m hm, s.scan_succ _ hreached.1 hreached.2, if_neg hfound] at hscan
    obtain ⟨hfirst, hsecond, hcc, hended⟩ := s.trtEnd_some l a1 m (function m)
    refine ⟨_, hexec _ hscan, ?_, ?_, ?_, hcc, hended⟩
    · exact hfirst ▸ s.foundAt_spec (a1 + m)
    · exact (congrArg (bits · 0 24) hsecond).trans (bits_append_left _ _)
    · exact (congrArg (bits · 24 8) hsecond).trans (bits_append_right _ _)
  case refused =>
    have hscan := hrun m hm.le hbefore
    rw [hnext m hm, ← h1, ← h2] at hscan
    refine hexec _ (hscan.trans (s.scan_refused _ fun sp1' sp2' h1' h2' => ?_))
    obtain rfl : sp1 = sp1' := Except.ok.inj (h1.symm.trans h1')
    obtain rfl : sp2 = sp2' := Except.ok.inj (h2.symm.trans h2')
    exact hrefused

end Sys2Proof.Machine
end

section
/-! The long operands: CLCL and MVCL (40_general_add_to_compare.md R158; 42_general_multiply_to_pack.md R268). -/

namespace Sys2Proof.Machine

/-! ### Register pairs -/

/-- A length of 24 bits (R158). -/
theorem longLength_lt (w : Word) : (bits w 8 24).toNat < 2 ^ 24 :=
  (bits w 8 24).isLt

/-- What the register pairs show after `k1` and `k2` bytes, wherever the loop counted them to (R158, R268). -/
theorem State.setLongs_progress (s : State) {r1 r2 : Reg} (he1 : r1.toNat % 2 = 0) (he2 : r2.toNat % 2 = 0) (k1 k2 : Nat)
    (hs : r1 = r2 → k1 = k2) :
    let a1 := (s.getGr r1).toNat % 2 ^ s.amode.width
    let a2 := (s.getGr r2).toNat % 2 ^ s.amode.width
    let n1 := (bits (s.getGr (r1 + 1)) 8 24).toNat
    let n2 := (bits (s.getGr (r2 + 1)) 8 24).toNat
    let t := s.setLongs r1 r2 (s.longAt a1 n1 k1) (s.longAt a2 n2 k2)
    (t.getGr r1).toNat = (a1 + min k1 n1) % 2 ^ s.amode.width ∧ (t.getGr r2).toNat = (a2 + min k2 n2) % 2 ^ s.amode.width ∧
      bits (t.getGr (r1 + 1)) 0 8 = bits (s.getGr (r1 + 1)) 0 8 ∧ (bits (t.getGr (r1 + 1)) 8 24).toNat = n1 - min k1 n1 ∧
      bits (t.getGr (r2 + 1)) 0 8 = bits (s.getGr (r2 + 1)) 0 8 ∧ (bits (t.getGr (r2 + 1)) 8 24).toNat = n2 - min k2 n2 ∧
      Frame s t [r1, r1 + 1, r2, r2 + 1] [] [] := by
  intro a1 a2 n1 n2 t
  have hpairs := s.setLongs_spec r1 r2 a1 n1 (min k1 n1) a2 n2 (min k2 n2) he1 he2 (longLength_lt _) (longLength_lt _)
    (min_le_right _ _) (min_le_right _ _) fun h => by
      obtain rfl := h
      rw [hs rfl]
  rwa [s.longAt_min, s.longAt_min] at hpairs

/-! ### Compare long -/

/-- The condition code set, then the next instruction, whatever registers and memory were written before. -/
theorem Frame.code_advance {s t : State} {rs : List Reg} (h : Frame s t rs [] []) (hia : t.ia = s.ia) (c : CondCode) (len : Nat) :
    let u := (t.setCc c).advance len
    u.ia.toNat = s.continuation len ∧ Frame s u rs [] [] := by
  obtain ⟨hregisters, ⟨hpm, hamode, hasc⟩, ⟨halloc, hlist, hstxit, hcpu, hex⟩, horacles⟩ := h
  refine ⟨?_, hregisters, ⟨hpm, hamode, hasc⟩, ⟨halloc, hlist, hstxit, hcpu, hex⟩, horacles⟩
  rw [State.advance_ia, State.continuation_eq]
  unfold State.nextIa State.ilen State.trunc
  rw [State.setCc_ia, State.setCc_underEx, State.setCc_amode, hia, hex, hamode]

/-- The same, with memory as before. -/
theorem Frame.code_advance_ended {s t : State} {rs : List Reg} (h : Frame s t rs [] []) (hmem : t.mem = s.mem) (hia : t.ia = s.ia)
    (hcontrol : t.control = s.control) (c : CondCode) (len : Nat) : Ended s ((t.setCc c).advance len) len rs [] [] :=
  ⟨(h.code_advance hia c len).1, hcontrol, (h.code_advance hia c len).2, fun k => congrArg (Memory.read · k) hmem⟩

/-- The next bytes of both operands decide how the comparison goes on (R158). -/
theorem State.compareLong_succ (s : State) {sp1 sp2 : Except Interrupt Space} {pad x y : Byte} (n : Nat) {o1 o2 : Long}
    (hx : s.longByte sp1 pad o1 = some x) (hy : s.longByte sp2 pad o2 = some y) (hne : x ≠ y) :
    s.compareLong sp1 sp2 pad (n + 1) o1 o2 = some (o1, o2, if x < y then 1 else 2) := by
  rw [State.compareLong, hx, hy]
  exact if_neg hne

/-- A byte that is not accessible stops the comparison (R158). -/
theorem State.compareLong_refused (s : State) {sp1 sp2 : Except Interrupt Space} {pad : Byte} (n : Nat) {o1 o2 : Long}
    (h : s.longByte sp1 pad o1 = none ∨ s.longByte sp2 pad o2 = none) : s.compareLong sp1 sp2 pad (n + 1) o1 o2 = none := by
  rw [State.compareLong]
  obtain h | h := h
  · rw [h]
  · rw [h]
    cases s.longByte sp1 pad o1 <;> rfl

/-- What CLCL leaves after an access fault: nothing but the four registers, the code and the draws changed (R158). -/
theorem State.clclUnusable_frame (s : State) (r1 r2 : Reg) :
    let t := s.clclUnusable r1 r2
    t.ia = s.ia ∧ SameRegistersBut s t [r1, r1 + 1, r2, r2 + 1] [] [] ∧ SameModes s t ∧ SameSystem s t ∧ SameMemory s t ∧
      t.tod = s.tod := by
  refine ⟨rfl, ⟨fun q hq => ?_, fun _ _ => rfl, fun _ _ _ => rfl⟩, ⟨rfl, rfl, rfl⟩, ⟨rfl, rfl, rfl, rfl, rfl⟩, fun _ => rfl, rfl⟩
  obtain ⟨h1, h2, h3, h4⟩ : q ≠ r1 ∧ q ≠ r1 + 1#4 ∧ q ≠ r2 ∧ q ≠ r2 + 1#4 := by simpa using hq
  simp [State.clclUnusable, h1, h2, h3, h4]

/-- Settles O42: the loop runs over the bytes that are equal, and the next ones decide. -/
theorem compareLong : Obligations.CompareLong := by
  intro s r1 r2
  refine ⟨fun hodd => if_neg (isEven_and_ne hodd), fun sp1 sp2 he1 he2 hs1 hs2 => ?_⟩
  intro a1 a2 n1 n2 pad x y reached progress
  have hexec (r : Option (Long × Long × CondCode))
      (h : s.compareLong (s.space r1) (s.space r2) pad (max n1 n2) (s.longAt a1 n1 0) (s.longAt a2 n2 0) = r) :
      exec (.clcl r1 r2) s = .next (match r with
        | some (p1, p2, c) => ((s.setLongs r1 r2 p1 p2).setCc c).advance 2
        | none => (s.clclUnusable r1 r2).takeInterrupt .addressTranslation) := by
    rw [← s.long_eq, ← s.long_eq] at h
    refine (if_pos (isEven_and he1 he2)).trans ?_
    show (match s.compareLong _ _ pad (max n1 n2) (s.long r1) (s.long r2) with
      | some (p1, p2, c) => _ | none => _) = _
    rw [h]
    cases r <;> rfl
  have hrun (m : Nat) (hm : m ≤ max n1 n2) (h : ∀ k < m, reached k ∧ x k = y k) :
      s.compareLong (s.space r1) (s.space r2) pad (max n1 n2) (s.longAt a1 n1 0) (s.longAt a2 n2 0) =
        s.compareLong (s.space r1) (s.space r2) pad (max n1 n2 - m) (s.longAt a1 n1 m) (s.longAt a2 n2 m) := by
    have hloop := s.compareLong_run r1 r2 sp1 sp2 pad a1 n1 a2 n2 (max n1 n2) 0 m hm fun k _ hk => by
      obtain ⟨⟨hfirst, hsecond⟩, hequal⟩ := h k (by omega)
      exact ⟨hfirst, hsecond, hequal⟩
    rwa [Nat.zero_add] at hloop
  have hnext (m : Nat) (hm : m < max n1 n2) : max n1 n2 - m = (max n1 n2 - m - 1) + 1 := by omega
  have hprogress (m : Nat) (c : CondCode) :
      progress (((s.setLongs r1 r2 (s.longAt a1 n1 m) (s.longAt a2 n2 m)).setCc c).advance 2) m := by
    obtain ⟨haddr1, haddr2, hhigh1, hleft1, hhigh2, hleft2, hframe⟩ := s.setLongs_progress he1 he2 m m fun _ => rfl
    exact ⟨haddr1, haddr2, hhigh1, hleft1, hhigh2, hleft2, hframe.code_advance_ended rfl rfl rfl c 2⟩
  refine ⟨fun hequal => ?equal, fun m hm hbefore hreached hne => ?differ, fun m hm hbefore hrefused => ?refused⟩
  case equal =>
    have hscan := hrun _ le_rfl hequal
    rw [Nat.sub_self] at hscan
    exact ⟨_, hexec _ hscan, rfl, hprogress _ 0⟩
  case differ =>
    have hscan := hrun m hm.le hbefore
    rw [hnext m hm, s.compareLong_succ _ (s.longByte_longAt r1 sp1 pad a1 n1 m hreached.1)
      (s.longByte_longAt r2 sp2 pad a2 n2 m hreached.2) hne] at hscan
    exact ⟨_, hexec _ hscan, rfl, hprogress m _⟩
  case refused =>
    have hscan := hrun m hm.le hbefore
    rw [hnext m hm, s.compareLong_refused] at hscan
    · obtain ⟨hia, hframe⟩ := s.clclUnusable_frame r1 r2
      exact ⟨_, hexec _ hscan, rfl, hia, hframe⟩
    · rw [not_and_or, Classical.not_imp, Classical.not_imp] at hrefused
      exact hrefused.imp (fun h => s.longByte_none r1 sp1 pad a1 n1 m h.1 hs1 h.2)
        fun h => s.longByte_none r2 sp2 pad a2 n2 m h.1 hs2 h.2

/-! ### Move long -/

/-- Destructive overlap by the addresses and lengths at the start (R268). -/
theorem State.destructive_iff (s : State) {a1 n1 a2 n2 : Nat} (h1 : a1 < 2 ^ s.amode.width) (h2 : a2 < 2 ^ s.amode.width) :
    destructive (s.longAt a1 n1 0) (s.longAt a2 n2 0) = true ↔ a2 < a1 ∧ a1 < a2 + min n1 n2 := by
  have haddr1 : (s.longAt a1 n1 0).addr = a1 := by simp [State.longAt, s.trunc_of_lt a1 h1]
  have haddr2 : (s.longAt a2 n2 0).addr = a2 := by simp [State.longAt, s.trunc_of_lt a2 h2]
  have hleft1 : (s.longAt a1 n1 0).left = n1 := by simp [State.longAt]
  have hleft2 : (s.longAt a2 n2 0).left = n2 := by simp [State.longAt]
  rw [destructive, haddr1, haddr2, hleft1, hleft2]
  simp

/-- The first `k` bytes of the receive field moved (R268). -/
theorem State.moved_bytes (s : State) (sp1 : Space) (a1 : Nat) (sp2 : Space) (a2 n2 : Nat) (pad : Byte) {k : Nat}
    (hk : k ≤ 2 ^ 24) :
    let k1 := fun j => s.key sp1 (a1 + j)
    let t := { s with mem := chain k1 (mvclByte s sp2 pad a2 n2) s.mem k }
    (∀ j < k, t.getByte sp1 (a1 + j) = if j < n2 then byteAt s t k1 j (s.key sp2 (a2 + j)) else pad) ∧
      SameMemoryBut s t sp1 a1 k := by
  intro k1 t
  have inj := s.key_injOn sp1 a1 k hk
  refine ⟨fun j hj => (read_chain_same k1 _ s.mem k inj j hj).trans ?_, fun a ha => read_chain_other k1 _ s.mem k a ha⟩
  show (if j < n2 then Memory.read (chain k1 (mvclByte s sp2 pad a2 n2) s.mem j) (s.key sp2 (a2 + j)) else pad) = _
  rw [s.read_chain_byteAt _ inj hj.le]

/-- MVCL without destructive overlap, by how far its loop comes (R268). -/
theorem exec_mvcl {s : State} {r1 r2 : Reg} (he1 : r1.toNat % 2 = 0) (he2 : r2.toNat % 2 = 0)
    (hapart : destructive (s.long r1) (s.long r2) = false) {m : List Host.Cell} {p1 p2 : Long} {ok : Bool}
    (h : s.moveLong (s.space r1) (s.space r2) (s.slack r2) (s.long r1).left s.mem (s.long r1) (s.long r2) = (m, p1, p2, ok)) :
    let t := { s.setLongs r1 r2 p1 p2 with mem := m }
    exec (.mvcl r1 r2) s = .next (if ok then (t.setCc (compareCc (s.long r1).left (s.long r2).left)).advance 2
      else t.takeInterrupt .addressTranslation) := by
  intro t
  refine (if_pos (isEven_and he1 he2)).trans ((ite_of_eq_false hapart).trans ?_)
  rw [h]
  cases ok <;> rfl

/-- Settles O43: the loop moves bytes as long as both are accessible, and the next ones tell how it stops. -/
theorem moveLong : Obligations.MoveLong := by
  intro s r1 r2
  refine ⟨fun hodd => if_neg (isEven_and_ne hodd), fun he1 he2 => ?_⟩
  intro a1 a2 n1 n2 pad m
  have hdestructive : destructive (s.long r1) (s.long r2) = true ↔ a2 < a1 ∧ a1 < a2 + m := by
    rw [s.long_eq, s.long_eq]
    exact s.destructive_iff (Nat.mod_lt _ (Nat.two_pow_pos _)) (Nat.mod_lt _ (Nat.two_pow_pos _))
  refine ⟨fun hlow hhigh => ?destructive, fun sp1 sp2 hapart hs1 hs2 => ?_⟩
  case destructive =>
    exact ⟨_, (if_pos (isEven_and he1 he2)).trans (if_pos (hdestructive.2 ⟨hlow, hhigh⟩)), rfl, (s.setCc 3).advance_ended 2⟩
  intro writable readable moved
  have hnot : destructive (s.long r1) (s.long r2) = false :=
    Bool.eq_false_iff.2 fun h => by have := hdestructive.1 h; omega
  have hn1 : n1 < 2 ^ 24 := longLength_lt _
  have hrun (k : Nat) (hk : k ≤ n1) (h : ∀ j < k, readable j ∧ writable j) :
      s.moveLong (s.space r1) (s.space r2) pad n1 s.mem (s.long r1) (s.long r2) =
        s.moveLong (s.space r1) (s.space r2) pad (n1 - k)
          (chain (fun j => s.key sp1 (a1 + j)) (mvclByte s sp2 pad a2 n2) s.mem k) (s.longAt a1 n1 k) (s.longAt a2 n2 k) := by
    have hloop := s.moveLong_chain r1 r2 sp1 sp2 pad a1 n1 a2 n2 n1 0 k (Nat.zero_add _) hk fun j _ hj => h j (by omega)
    simp only [Nat.zero_add, chain_zero] at hloop
    rw [s.long_eq r1, s.long_eq r2]
    exact hloop
  have hmoved (k j : Nat) (hk : k ≤ n1) (hsame : r1 = r2 → k = j) :
      moved { s.setLongs r1 r2 (s.longAt a1 n1 k) (s.longAt a2 n2 j) with
        mem := chain (fun j => s.key sp1 (a1 + j)) (mvclByte s sp2 pad a2 n2) s.mem k } k (min j n2) := by
    obtain ⟨haddr1, haddr2, hhigh1, hleft1, hhigh2, hleft2, hframe⟩ := s.setLongs_progress he1 he2 k j hsame
    obtain ⟨hbytes, hmemory⟩ := s.moved_bytes sp1 a1 sp2 a2 n2 pad (hk.trans hn1.le)
    rw [min_eq_left hk] at haddr1 hleft1
    exact ⟨hbytes, haddr1, haddr2, hhigh1, hleft1, hhigh2, hleft2, hframe, hmemory⟩
  refine ⟨fun hall => ?all, fun hdiffer k0 hk0 hbefore hrefused => ?refused⟩
  case all =>
    have hloop := hrun n1 le_rfl hall
    rw [Nat.sub_self] at hloop
    refine ⟨_, exec_mvcl he1 he2 hnot hloop, hmoved n1 n1 le_rfl fun _ => rfl, rfl, ?_, rfl⟩
    exact (State.advance_ia _ 2).trans rfl
  case refused =>
    have hloop := hrun k0 hk0.le hbefore
    rw [show n1 - k0 = (n1 - k0 - 1) + 1 by omega,
      s.moveLong_stop r1 r2 sp1 sp2 pad a1 n1 a2 n2 _ k0 hk0 _ hs1 hs2 hrefused] at hloop
    refine ⟨_, exec_mvcl he1 he2 hnot hloop, ⟨fun hno => ?_, fun hyes => ?_⟩, rfl, rfl, rfl⟩
    · rw [if_neg hno]
      exact hmoved k0 k0 hk0.le fun _ => rfl
    · rw [if_pos hyes]
      exact hmoved k0 (k0 + 1) hk0.le fun h => absurd h hdiffer

end Sys2Proof.Machine
end

section
/-! The decimal instructions: AP, SP, ZAP, CP, MP, DP and SRP (44_decimal.md R402 to R409, R412). -/

namespace Sys2Proof.Machine

/-! ### Two packed operands -/

section
variable {i : Instr} {s : State} {b1 b2 : Reg} {a1 n1 a2 n2 : Nat} {ks : List Access}
  {f : Space × List Byte × List Byte → Except Interrupt State}

/-- Two operands that pass the tests of access, format and overlap (R402). -/
theorem exec_packedPair (h : exec i s = s.attempt (s.packedPair ks n1 n2 b1 a1 b2 a2 >>= f)) {sp1 sp2 : Space}
    (h1 : s.Accessible b1 sp1 a1 n1 ks) (h2 : s.Accessible b2 sp2 a2 n2 [.read])
    (hx : packedValid (s.getBytes sp1 a1 n1) = true) (hy : packedValid (s.getBytes sp2 a2 n2) = true)
    (ho : s.Disjoint sp1 a1 n1 sp2 a2 n2 ∨ s.trunc (a1 + n1 - 1) = s.trunc (a2 + n2 - 1)) :
    exec i s = s.attempt (f (sp1, s.getBytes sp1 a1 n1, s.getBytes sp2 a2 n2)) := by
  rw [h, s.packedPair_ok ks n1 n2 b1 a1 b2 a2 sp1 sp2 h1 h2 hx hy ho]
  rfl

/-- X'48' where an operand is not accessible, X'60' where one is no packed number or the overlap is forbidden (R402). -/
theorem packedPair_traps (h : exec i s = s.attempt (s.packedPair ks n1 n2 b1 a1 b2 a2 >>= f)) :
    ((∀ sp1 sp2, ¬ (s.Accessible b1 sp1 a1 n1 ks ∧ s.Accessible b2 sp2 a2 n2 [.read])) →
        exec i s = .next (s.takeInterrupt .addressTranslation)) ∧
      ∀ sp1 sp2, s.Accessible b1 sp1 a1 n1 ks ∧ s.Accessible b2 sp2 a2 n2 [.read] →
        (packedValid (s.getBytes sp1 a1 n1) = false ∨ packedValid (s.getBytes sp2 a2 n2) = false ∨
          (¬ s.Disjoint sp1 a1 n1 sp2 a2 n2 ∧ s.trunc (a1 + n1 - 1) ≠ s.trunc (a2 + n2 - 1))) →
        exec i s = .next (s.takeInterrupt .data) := by
  refine ⟨fun hmissing => ?_, fun sp1 sp2 haccess hbad => ?_⟩
  · rw [h, s.packedPair_missing ks n1 n2 b1 a1 b2 a2 hmissing]
    rfl
  · rw [h, s.packedPair_data ks n1 n2 b1 a1 b2 a2 sp1 sp2 haccess.1 haccess.2 hbad]
    rfl

end

/-- MP and DP with lengths that they accept (R408, R409). -/
theorem attempt_lengthsOk {s : State} {n1 n2 : Nat} {f g : Except Interrupt State} (h8 : n2 ≤ 8) (hlt : n2 < n1) :
    s.attempt (if lengthsOk n1 n2 then f else g) = s.attempt f :=
  congrArg s.attempt (if_pos (by simp [lengthsOk, h8, hlt]))

/-- A length field and the length that it stands for (R97). -/
theorem nibbleLength_le (l : Nibble) : l.toNat + 1 ≤ 16 :=
  l.isLt

/-! ### Add, subtract, compare -/

/-- Settles O47: three exact results stored, and the overlap that ZAP forbids. -/
theorem decimalAdd : Obligations.DecimalAdd := by
  intro s l1 l2 b1 d1 b2 d2 sp1 sp2 a1 a2 n1 n2 x y h2 hy
  have hresult (v : Int) := s.storeDecimal_spec sp1 a1 n1 v (Nat.succ_pos _) (nibbleLength_le l1)
  refine ⟨fun i v hi h1 hx ho => ?exact, fun h1 => ⟨fun ho => ?zap, fun ho hright => ?forbidden⟩⟩
  case exact =>
    simp only [List.mem_cons, Prod.mk.injEq, List.not_mem_nil, or_false] at hi
    obtain ⟨rfl, rfl⟩ | ⟨rfl, rfl⟩ := hi
    case inl => exact ⟨_, exec_packedPair (i := .ap l1 l2 b1 d1 b2 d2) rfl h1 h2 hx hy ho, hresult _⟩
    case inr => exact ⟨_, exec_packedPair (i := .sp l1 l2 b1 d1 b2 d2) rfl h1 h2 hx hy ho, hresult _⟩
  all_goals have hexec := (exec_twoOperands (i := .zap l1 l2 b1 d1 b2 d2) _ rfl h1 h2).trans (congrArg s.attempt (if_pos hy))
  case zap =>
    refine ⟨_, hexec.trans (congrArg s.attempt (if_neg ?_)), hresult _⟩
    rw [Bool.and_eq_true, s.overlap_iff]
    exact fun h => ho.elim h.1 fun hleft => Bool.false_ne_true (hleft.symm.trans h.2)
  case forbidden =>
    have hlength : (s.freeBytes 0 n1).length = n1 := by simp [State.freeBytes]
    obtain ⟨-, -, hia, hcontrol, ⟨hregisters, hmodes, hsystem, -⟩, hmemory⟩ :=
      s.store_advance_ended sp1 a1 hlength ((nibbleLength_le l1).trans (by decide)) 6
    refine ⟨_, hexec.trans (congrArg s.attempt (if_pos ?_)), hia, hcontrol, hregisters, hmodes, hsystem, hmemory⟩
    rw [Bool.and_eq_true, s.overlap_iff]
    exact ⟨ho, hright⟩

/-- Settles O48: CP compares the two values of its tested operands. -/
theorem decimalCompare : Obligations.DecimalCompare := by
  intro s l1 l2 b1 d1 b2 d2 sp1 sp2 a1 a2 n1 n2 h1 h2 hx hy ho
  exact ⟨_, exec_packedPair (i := .cp l1 l2 b1 d1 b2 d2) rfl h1 h2 hx hy ho, rfl, (s.setCc _).advance_ended 6⟩

/-! ### Multiply and divide -/

/-- A packed field of `n` bytes with a magnitude that fits (R401). -/
theorem packedHolds_fits {n mag : Nat} {neg : Bool} {p : Prop} (hn : 0 < n) (hp : neg = true ↔ p)
    (hfits : mag < 10 ^ (2 * n - 1)) :
    PackedHolds (packedEncode n mag neg) mag p := by
  have h := packedHolds_packedEncode n mag neg hn p hp
  rwa [Nat.mod_eq_of_lt hfits] at h

/-- The sign of a product or quotient (R401, R408, R409). -/
theorem xor_packedNeg (x y : List Byte) : (packedNeg x ^^ packedNeg y) = true ↔ packedNeg x ≠ packedNeg y := by
  cases packedNeg x <;> cases packedNeg y <;> decide

/-- Settles O49: the product fits as the multiplicand has its leading zero bytes; quotient and remainder stand side by side. -/
theorem decimalMultiplyDivide : Obligations.DecimalMultiplyDivide := by
  intro s l1 l2 b1 d1 b2 d2 sp1 sp2 a1 a2 n1 n2 x y differ h8 hlt h1 h2 hx hy ho
  have hn1 : n1 ≤ 2 ^ 24 := (nibbleLength_le l1).trans (by decide)
  refine ⟨fun hzeros => ?product, fun hy0 hquotient => ?quotient⟩
  case product =>
    have hleading : (x.take n2).all (· == 0) = true := (s.getBytes_take_zero sp1 a1 n1 n2 hlt.le).2 hzeros
    have hfits := s.product_fits sp1 sp2 a1 a2 n1 n2 hlt (Nat.succ_pos _) hx hy hleading
    have hlength := packedEncode_length n1 (packedMag x * packedMag y) (packedNeg x ^^ packedNeg y) (Nat.succ_pos _)
    obtain ⟨hbytes, hcc, hended⟩ := s.store_advance_ended sp1 a1 hlength hn1 6
    refine ⟨_, (exec_packedPair (i := .mp l1 l2 b1 d1 b2 d2) (attempt_lengthsOk h8 hlt) h1 h2 hx hy ho).trans
      (congrArg s.attempt (if_pos hleading)), ?_, hcc, hended⟩
    rw [hbytes]
    exact packedHolds_fits (Nat.succ_pos _) (xor_packedNeg x y) hfits
  case quotient =>
    have hremainder : packedMag x % packedMag y < packedMag y := Nat.mod_lt _ (Nat.pos_of_ne_zero hy0)
    have hsmall : ¬ (packedMag y = 0 ∨ packedMag x ≥ packedMag y * 10 ^ (2 * (n1 - n2) - 1)) := by
      rw [not_or, ge_iff_le, not_le, Nat.mul_comm, ← Nat.div_lt_iff_lt_mul (Nat.pos_of_ne_zero hy0)]
      exact ⟨hy0, hquotient⟩
    have hleft := packedEncode_length (n1 - n2) (packedMag x / packedMag y) (packedNeg x ^^ packedNeg y) (by omega)
    have hright := packedEncode_length n2 (packedMag x % packedMag y) (packedNeg x) (Nat.succ_pos _)
    have hlength : (quotientField n1 n2 x y).length = n1 := by
      rw [quotientField, List.length_append, hleft, hright]
      omega
    obtain ⟨-, hcc, hended⟩ := s.store_advance_ended sp1 a1 hlength hn1 6
    have hquotientBytes := s.getBytes_putBytes_left sp1 a1 _ _ (hlength.trans_le hn1)
    have hremainderBytes := s.getBytes_putBytes_right sp1 a1 _ _ (hlength.trans_le hn1)
    rw [hleft] at hquotientBytes hremainderBytes
    rw [hright] at hremainderBytes
    refine ⟨_, packedMag x / packedMag y, packedMag x % packedMag y,
      (exec_packedPair (i := .dp l1 l2 b1 d1 b2 d2) (attempt_lengthsOk h8 hlt) h1 h2 hx hy ho).trans
        (congrArg s.attempt (if_neg hsmall)), (Nat.div_add_mod' _ _).symm, hremainder, ?_, ?_, hcc, hended⟩
    · exact hquotientBytes ▸ packedHolds_fits (by omega) (xor_packedNeg x y) hquotient
    · exact hremainderBytes ▸ packedHolds_fits (Nat.succ_pos _) Iff.rfl (hremainder.trans (s.packedMag_getBytes_lt sp2 a2 n2 hy))

/-! ### Shift and round -/

/-- The sign halfbyte of a packed number (R400). -/
theorem packedSign_bounds {bs : List Byte} (h : packedValid bs = true) : 10 ≤ packedSign bs ∧ packedSign bs < 16 := by
  refine ⟨of_decide_eq_true (Bool.and_eq_true_iff.1 h).2, ?_⟩
  have hhalf : ∀ d ∈ halfbytes bs, d < 16 := fun d hd => by
    obtain ⟨b, -, hb⟩ := List.mem_flatMap.1 hd
    simp only [List.mem_cons, List.not_mem_nil, or_false] at hb
    obtain rfl | rfl := hb
    · exact (hiNib b).isLt
    · exact (loNib b).isLt
  obtain hzero | hmem := List.mem_cons.1 (List.getLastD_mem_cons (l := halfbytes bs) (a := 0))
  · exact hzero.trans_lt (by decide)
  · exact hhalf _ hmem

/-- What SRP stores, whatever code it sets and interrupt it takes (R412). -/
theorem State.shifted_field (s : State) (sp : Space) (a : Nat) {n sign r : Nat} (hn : 0 < n) (hn' : n ≤ 16)
    (hsign : 10 ≤ sign ∧ sign < 16) (hr : r < 10 ^ (2 * n - 1)) (c : CondCode) (w : Option Interrupt) :
    let t := (((s.putBytes sp a (packedBytes n r sign)).setCc c).advance 6).takeIf w
    packedValid (t.getBytes sp a n) = true ∧ packedMag (t.getBytes sp a n) = r ∧ packedSign (t.getBytes sp a n) = sign ∧
      t.ia.toNat = s.continuation 6 ∧ Frame s t [] [] [] ∧ SameMemoryBut s t sp a n := by
  intro t
  obtain ⟨hbytes, -, hia, -, hframe, hmemory⟩ :=
    s.store_code_ended sp a (packedBytes_length n r sign hn) (hn'.trans (by decide)) c 6
  have hfield : t.getBytes sp a n = packedBytes n r sign := by
    cases w <;> exact hbytes
  rw [hfield, packedMag_packedBytes n r sign hn hsign.2, Nat.mod_eq_of_lt hr]
  refine ⟨packedValid_packedBytes n r sign hsign.1 hsign.2, rfl, packedSign_packedBytes n r sign hsign.2, ?_⟩
  cases w <;> exact ⟨hia, hframe, hmemory⟩

/-- Settles O50: the shifted magnitude fits after a right shift, and is cut after a left one. -/
theorem decimalShift : Obligations.DecimalShift := by
  intro s l1 i3 b1 d1 b2 d2 sp a1 n1 n b x m code field h1 hx hdigit
  have hm : m < 10 ^ n := s.packedMag_getBytes_lt sp a1 n1 hx
  have hfield (r : Nat) (hr : r < 10 ^ n) (c : CondCode) (w : Option Interrupt) :
      field ((((s.putBytes sp a1 (packedBytes n1 r (packedSign x))).setCc c).advance 6).takeIf w) r :=
    s.shifted_field sp a1 (Nat.succ_pos _) (nibbleLength_le l1) (packedSign_bounds hx) hr c w
  have hpass : (packedValid x && decide (i3.toNat ≤ 9)) = true := Bool.and_eq_true_iff.2 ⟨hx, decide_eq_true hdigit⟩
  have hexec (r : Nat) (ov : Bool) (h : shiftRound n m b i3.toNat = (r, ov)) :
      exec (.srp l1 i3 b1 d1 b2 d2) s = .next ((((s.putBytes sp a1 (packedBytes n1 r (packedSign x))).setCc
        (srpCc r ov (packedNeg x))).advance 6).takeIf (s.decimalOverflow ov)) := by
    refine (exec_reach (i := .srp l1 i3 b1 d1 b2 d2) _ rfl h1).trans ((congrArg s.attempt (if_pos hpass)).trans ?_)
    show s.attempt (let r := shiftRound n m b i3.toNat; _) = _
    rw [h]
    rfl
  have hnext (r : Nat) (ov : Bool) (hr : r < 10 ^ n) (h : shiftRound n m b i3.toNat = (r, ov)) :
      ∃ t, exec (.srp l1 i3 b1 d1 b2 d2) s = .next t ∧ field t r ∧ t.cc = srpCc r ov (packedNeg x) ∧
        t.control = if ov = true ∧ s.pm.getMsbD 1 = true then .interrupt .decimalOverflow else s.control :=
    ⟨_, hexec r ov h, hfield r hr _ _, State.takeIf_cc .., s.takeIf_decimalOverflow _ ov⟩
  by_cases hleft : b ≤ 31
  · obtain ⟨t, ht, hstored, hcc, hcontrol⟩ := hnext (m * 10 ^ b % 10 ^ n) (decide (10 ^ n ≤ m * 10 ^ b))
      (Nat.mod_lt _ (by positivity)) (if_pos hleft)
    refine ⟨t, ht, fun _ hfits => ?fits, fun _ hlost => ?lost, fun hright => absurd hright (not_lt.2 hleft)⟩
    case fits =>
      rw [Nat.mod_eq_of_lt hfits] at hstored hcc
      rw [decide_eq_false (not_le.2 hfits)] at hcc hcontrol
      exact ⟨hstored, hcc, by simpa using hcontrol⟩
    case lost =>
      rw [decide_eq_true hlost] at hcc hcontrol
      exact ⟨hstored, hcc, by simpa using hcontrol⟩
  · have hrounded : shiftRound n m b i3.toNat = ((m / 10 ^ (63 - b) + i3.toNat) / 10, false) := by
      have hb : b < 64 := Nat.mod_lt _ (by decide)
      have hround := round_eq m (64 - b) i3.toNat (by omega) hdigit
      refine (if_neg hleft).trans ((congrArg (·, false) hround).trans ?_)
      rw [show 64 - b - 1 = 63 - b by omega]
    have hr : (m / 10 ^ (63 - b) + i3.toNat) / 10 < 10 ^ n := by
      have hdiv := Nat.div_le_self m (10 ^ (63 - b))
      omega
    obtain ⟨t, ht, hstored, hcc, hcontrol⟩ := hnext _ false hr hrounded
    exact ⟨t, ht, fun h => absurd h hleft, fun h => absurd h hleft, fun _ => ⟨hstored, hcc, by simpa using hcontrol⟩⟩

/-! ### Operands that are not accepted -/

/-- Settles O51: the tests of `packedPair`, and those of ZAP, SRP, MP and DP. -/
theorem decimalTraps : Obligations.DecimalTraps := by
  intro s l1 l2 b1 d1 b2 d2 a1 a2 n1 n2 accessible badOverlap
  refine ⟨fun i ks lengths hi hlengths => ?pair, twoOperands_trap (i := .zap l1 l2 b1 d1 b2 d2) _ rfl,
    fun sp1 sp2 haccess hbad => ?zap, ⟨reach_trap _ rfl, fun sp hs hbad => ?srp⟩, fun sp1 sp2 h8 hlt haccess hx hy ho => ?_⟩
  case pair =>
    simp only [List.mem_cons, Prod.mk.injEq, List.not_mem_nil, or_false] at hi
    obtain ⟨rfl, rfl, rfl⟩ | ⟨rfl, rfl, rfl⟩ | ⟨rfl, rfl, rfl⟩ | ⟨rfl, rfl, rfl⟩ | ⟨rfl, rfl, rfl⟩ := hi
    case inl => exact packedPair_traps (i := .ap l1 l2 b1 d1 b2 d2) rfl
    case inr.inl => exact packedPair_traps (i := .sp l1 l2 b1 d1 b2 d2) rfl
    case inr.inr.inl => exact packedPair_traps (i := .cp l1 l2 b1 d1 b2 d2) rfl
    case inr.inr.inr.inl => exact packedPair_traps (attempt_lengthsOk hlengths.1 hlengths.2)
    case inr.inr.inr.inr => exact packedPair_traps (attempt_lengthsOk hlengths.1 hlengths.2)
  case zap =>
    exact (exec_twoOperands (i := .zap l1 l2 b1 d1 b2 d2) _ rfl haccess.1 haccess.2).trans
      (congrArg s.attempt (ite_of_eq_false hbad))
  case srp =>
    refine (exec_reach (i := .srp l1 l2 b1 d1 b2 d2) _ rfl hs).trans (congrArg s.attempt (ite_of_eq_false ?_))
    rw [hbad, Bool.false_and]
  have hapart : s.Disjoint sp1 a1 n1 sp2 a2 n2 ∨ s.trunc (a1 + n1 - 1) = s.trunc (a2 + n2 - 1) := by
    by_contra h
    exact ho (not_or.1 h)
  refine ⟨fun hnonzero => ?mp, fun hbig => ?dp⟩
  case mp =>
    refine (exec_packedPair (i := .mp l1 l2 b1 d1 b2 d2) (attempt_lengthsOk h8 hlt) haccess.1 haccess.2 hx hy hapart).trans
      (congrArg s.attempt (if_neg ?_))
    rw [s.getBytes_take_zero sp1 a1 n1 n2 hlt.le]
    obtain ⟨k, hk, hne⟩ := hnonzero
    exact fun hzeros => hne (hzeros k hk)
  case dp =>
    refine (exec_packedPair (i := .dp l1 l2 b1 d1 b2 d2) (attempt_lengthsOk h8 hlt) haccess.1 haccess.2 hx hy hapart).trans
      (congrArg s.attempt (if_pos ?_))
    by_cases hzero : packedMag (s.getBytes sp2 a2 n2) = 0
    · exact .inl hzero
    · exact .inr (Nat.mul_comm _ _ ▸ (Nat.le_div_iff_mul_le (Nat.pos_of_ne_zero hzero)).1 (hbig.resolve_left hzero))

end Sys2Proof.Machine
end

section
/-! Floating-point arithmetic: addition, subtraction, comparison, multiplication, division, halving, sign control and rounding
(45_floating_point_arith.md R455, R465, R470, R478, R484; 46_floating_point_load_store.md R504 to R513). -/

namespace Sys2Proof.Machine

/-! ### Add, subtract, compare -/

/-- Settles O53: the ten instructions are `addFp` after the tests of their register numbers. -/
theorem floatAddRegister : Obligations.FloatAddRegister := by
  intro s r1 r2 i p sub norm hi
  have hform : i.wf = (fmtReg p r1 && fmtReg p r2) ∧ exec i s = s.attempt (needReg p r1 >>= fun _ => needReg p r2 >>= fun _ =>
      pure (State.fpDone (s.addFp p r1 (s.readFp p r1) (s.readFp p r2) sub norm) 2)) := by
    simp only [List.mem_cons, Prod.mk.injEq, List.not_mem_nil, or_false] at hi
    obtain ⟨rfl, rfl, rfl, rfl⟩ | ⟨rfl, rfl, rfl, rfl⟩ | ⟨rfl, rfl, rfl, rfl⟩ | ⟨rfl, rfl, rfl, rfl⟩ | ⟨rfl, rfl, rfl, rfl⟩ |
      ⟨rfl, rfl, rfl, rfl⟩ | ⟨rfl, rfl, rfl, rfl⟩ | ⟨rfl, rfl, rfl, rfl⟩ | ⟨rfl, rfl, rfl, rfl⟩ | ⟨rfl, rfl, rfl, rfl⟩ := hi
    all_goals exact ⟨rfl, rfl⟩
  obtain ⟨hwf, hexec⟩ := hform
  refine ⟨fun hill => hexec.trans (attempt_twoRegs_error (hwf ▸ hill)), fun hwell => ?_⟩
  have hregs : (fmtReg p r1 && fmtReg p r2) = true := hwf ▸ hwell
  exact ⟨_, hexec.trans (attempt_twoRegs hregs), s.addFp_spec p r1 _ _ sub norm 2 (Bool.and_eq_true_iff.1 hregs).1
    (s.readFp_frac_lt p r1) (s.readFp_frac_lt p r2)⟩

/-- Settles O54: as O53 with a tested operand in main memory, and comparisons that store nothing. -/
theorem floatAddStorageAndCompare : Obligations.FloatAddStorageAndCompare := by
  intro s r1 r2 x2 b2 d2 a size operand
  refine ⟨fun i p sub norm hi hwell => ?add, fun i p hi hwell => ?compare, fun i p hi hwell => ?registers⟩
  case add =>
    have hform : p ≠ .ext ∧ i.wf = fmtReg p r1 ∧ exec i s = s.attempt (needReg p r1 >>= fun _ =>
        (if p = .short then s.memShort x2 b2 d2 else s.memLong x2 b2 d2) >>= fun y =>
          pure (State.fpDone (s.addFp p r1 (s.readFp p r1) y sub norm) 4)) := by
      simp only [List.mem_cons, Prod.mk.injEq, List.not_mem_nil, or_false] at hi
      obtain ⟨rfl, rfl, rfl, rfl⟩ | ⟨rfl, rfl, rfl, rfl⟩ | ⟨rfl, rfl, rfl, rfl⟩ | ⟨rfl, rfl, rfl, rfl⟩ | ⟨rfl, rfl, rfl, rfl⟩ |
        ⟨rfl, rfl, rfl, rfl⟩ | ⟨rfl, rfl, rfl, rfl⟩ | ⟨rfl, rfl, rfl, rfl⟩ := hi
      all_goals exact ⟨Fmt.noConfusion, rfl, rfl⟩
    obtain ⟨hp, hwf, hexec⟩ := hform
    have hreg : fmtReg p r1 = true := hwf ▸ hwell
    obtain ⟨htraps, hresult⟩ := exec_fpOperand _ hp p hexec hreg
    exact ⟨htraps, fun sp ha hs => ⟨_, hresult sp ha hs, s.addFp_spec p r1 _ _ sub norm 4 hreg (s.readFp_frac_lt p r1)
      (s.fpOperand_frac_lt p hp a sp)⟩⟩
  case compare =>
    have hform : p ≠ .ext ∧ i.wf = fmtReg p r1 ∧ exec i s = s.attempt (needReg p r1 >>= fun _ =>
        (if p = .short then s.memShort x2 b2 d2 else s.memLong x2 b2 d2) >>= fun y =>
          pure (State.fpDone (s.compareFp (s.readFp p r1) y, none) 4)) := by
      simp only [List.mem_cons, Prod.mk.injEq, List.not_mem_nil, or_false] at hi
      obtain ⟨rfl, rfl⟩ | ⟨rfl, rfl⟩ := hi
      all_goals exact ⟨Fmt.noConfusion, rfl, rfl⟩
    obtain ⟨hp, hwf, hexec⟩ := hform
    obtain ⟨htraps, hresult⟩ := exec_fpOperand _ hp p hexec (hwf ▸ hwell)
    exact ⟨htraps, fun sp ha hs => ⟨_, hresult sp ha hs, State.compareFp_ended⟩⟩
  case registers =>
    have hform : i.wf = (fmtReg p r1 && fmtReg p r2) ∧ exec i s = s.attempt (needReg p r1 >>= fun _ => needReg p r2 >>= fun _ =>
        pure (State.fpDone (s.compareFp (s.readFp p r1) (s.readFp p r2), none) 2)) := by
      simp only [List.mem_cons, Prod.mk.injEq, List.not_mem_nil, or_false] at hi
      obtain ⟨rfl, rfl⟩ | ⟨rfl, rfl⟩ := hi
      all_goals exact ⟨rfl, rfl⟩
    obtain ⟨hwf, hexec⟩ := hform
    exact ⟨_, hexec.trans (attempt_twoRegs (hwf ▸ hwell)), State.compareFp_ended⟩

/-! ### Multiply -/

/-- Settles O55: the seven instructions are `mulFp` of one format to another. -/
theorem floatMultiply : Obligations.FloatMultiply := by
  intro s r1 r2 x2 b2 d2 a size operand product
  refine ⟨fun i p q hi hwell => ?registers, fun i p q hi hwell => ?storage⟩
  case registers =>
    have hform : i.wf = (fmtReg q r1 && fmtReg p r2) ∧ exec i s = s.attempt (needReg q r1 >>= fun _ => needReg p r2 >>= fun _ =>
        pure (State.fpDone (s.mulFp p q r1 (s.readFp p r1) (s.readFp p r2)) 2)) := by
      simp only [List.mem_cons, Prod.mk.injEq, List.not_mem_nil, or_false] at hi
      obtain ⟨rfl, rfl, rfl⟩ | ⟨rfl, rfl, rfl⟩ | ⟨rfl, rfl, rfl⟩ | ⟨rfl, rfl, rfl⟩ := hi
      all_goals exact ⟨rfl, rfl⟩
    obtain ⟨hwf, hexec⟩ := hform
    have hregs : (fmtReg q r1 && fmtReg p r2) = true := hwf ▸ hwell
    exact ⟨_, hexec.trans (attempt_twoRegs hregs), s.mulFp_spec p q r1 _ _ 2 (Bool.and_eq_true_iff.1 hregs).1
      (s.readFp_frac_lt p r1) (s.readFp_frac_lt p r2)⟩
  case storage =>
    have hform : p ≠ .ext ∧ i.wf = fmtReg q r1 ∧ exec i s = s.attempt (needReg q r1 >>= fun _ =>
        (if p = .short then s.memShort x2 b2 d2 else s.memLong x2 b2 d2) >>= fun y =>
          pure (State.fpDone (s.mulFp p q r1 (s.readFp p r1) y) 4)) := by
      simp only [List.mem_cons, Prod.mk.injEq, List.not_mem_nil, or_false] at hi
      obtain ⟨rfl, rfl, rfl⟩ | ⟨rfl, rfl, rfl⟩ | ⟨rfl, rfl, rfl⟩ := hi
      all_goals exact ⟨Fmt.noConfusion, rfl, rfl⟩
    obtain ⟨hp, hwf, hexec⟩ := hform
    have hreg : fmtReg q r1 = true := hwf ▸ hwell
    obtain ⟨htraps, hresult⟩ := exec_fpOperand _ hp q hexec hreg
    exact ⟨htraps, fun sp ha hs => ⟨_, hresult sp ha hs, s.mulFp_spec p q r1 _ _ 4 hreg (s.readFp_frac_lt p r1)
      (s.fpOperand_frac_lt p hp a sp)⟩⟩

/-! ### Divide and halve -/

/-- The end of a division by `y` (R478). -/
theorem divFp_result {i : Instr} {s : State} {p : Fmt} {r : Reg} {x y : Hfp} {len : Nat} (hr : fmtReg p r = true)
    (hx : x.frac < 16 ^ p.digits) (hy : y.frac < 16 ^ p.digits)
    (h : exec i s = s.attempt (s.divFp p r x y >>= fun res => pure (State.fpDone res len))) :
    (y.frac = 0 → exec i s = .next (s.takeInterrupt .division)) ∧
      (y.frac ≠ 0 → x.frac = 0 → ∃ t, exec i s = .next t ∧ FpZero t p r ∧ t.control = s.control ∧ t.cc = s.cc ∧
        FpFrame s t p r len) ∧
      (y.frac ≠ 0 → x.frac ≠ 0 → ∃ (t : State) (k : Nat),
        let f := x.frac * 16 ^ k / y.frac
        exec i s = .next t ∧ 16 ^ (p.digits - 1) ≤ f ∧ f < 16 ^ p.digits ∧
          FpResult s t p r (x.neg ^^ y.neg) (x.char - y.char + 64 + p.digits - k) f ∧ t.cc = s.cc ∧ FpFrame s t p r len) := by
  refine ⟨fun hzero => ?_, fun hdivisor hzero => ?_, fun hdivisor hdividend => ?_⟩
  · rw [h, show s.divFp p r x y = .error .division from if_pos hzero]
    rfl
  · have hdiv : s.divFp p r x y = .ok (s.storeZero p r, none) := (if_neg hdivisor).trans (if_pos hzero)
    rw [hdiv] at h
    exact ⟨_, h, s.zeroFp_spec p r len hr⟩
  · have hdiv : s.divFp p r x y = .ok (s.finishFp p r (quotientFp p.digits x y) false) :=
      (if_neg hdivisor).trans (if_neg hdividend)
    obtain ⟨k, hk, hlow, hhigh⟩ := quotientFp_spec p.digits x y p.digits_pos (Nat.pos_of_ne_zero hdividend)
      (Nat.pos_of_ne_zero hdivisor) hx hy
    rw [hdiv, hk] at h
    obtain ⟨hresult, hframe, hcc⟩ := s.finishFp_spec p r
      { neg := x.neg ^^ y.neg, char := x.char - y.char + 64 + p.digits - k, frac := x.frac * 16 ^ k / y.frac } false len hr hhigh
    exact ⟨_, k, h, hlow, hhigh, hresult, hcc, hframe⟩

/-- Half of a number (R484). -/
theorem State.halveFp_spec (s : State) {p : Fmt} {r : Reg} {x : Hfp} (hr : fmtReg p r = true) (hx : x.frac < 16 ^ p.digits)
    (len : Nat) :
    let t := State.fpDone (s.halveFp p r x) len
    t.cc = s.cc ∧ FpFrame s t p r len ∧ (x.frac = 0 → FpZero t p r ∧ t.control = s.control) ∧
      (x.frac ≠ 0 → ∃ k : Nat,
        let f := x.frac * 16 ^ k / 2
        16 ^ (p.digits - 1) ≤ f ∧ f < 16 ^ p.digits ∧ FpResult s t p r x.neg (x.char - k) f) := by
  intro t
  by_cases hzero : x.frac = 0
  · have ht : t = State.fpDone (s.storeZero p r, none) len := congrArg (State.fpDone · len) (if_pos hzero)
    obtain ⟨hstored, hcontrol, hcc, hframe⟩ := s.zeroFp_spec p r len hr
    rw [ht]
    exact ⟨hcc, hframe, fun _ => ⟨hstored, hcontrol⟩, fun hne => absurd hzero hne⟩
  · obtain ⟨k, hk, hhalf, hlow, hhigh⟩ := half_spec p.digits x p.digits_pos (Nat.pos_of_ne_zero hzero) hx
    have ht : t = State.fpDone (s.finishFp p r { x with char := x.char - k, frac := x.frac * 16 ^ k / 2 } false) len := by
      refine congrArg (State.fpDone · len) ((if_neg hzero).trans ?_)
      rw [hk, ← hhalf]
    obtain ⟨hresult, hframe, hcc⟩ :=
      s.finishFp_spec p r { x with char := x.char - k, frac := x.frac * 16 ^ k / 2 } false len hr hhigh
    rw [ht]
    exact ⟨hcc, hframe, fun h => absurd h hzero, fun _ => ⟨k, hlow, hhigh, hresult⟩⟩

/-- Settles O56: the five divisions end in `divFp`, the two halvings in `halveFp`. -/
theorem floatDivideHalve : Obligations.FloatDivideHalve := by
  intro s r1 r2 x2 b2 d2 a size operand quotient
  refine ⟨fun i p len hi hwell h31 => ?registers, fun i p hi hwell => ?storage, fun i p hi hwell => ?halve⟩
  case registers =>
    have hform : i.wf = (fmtReg p r1 && fmtReg p r2) ∧ exec i s = s.attempt (needReg p r1 >>= fun _ => needReg p r2 >>= fun _ =>
        s.divFp p r1 (s.readFp p r1) (s.readFp p r2) >>= fun res => pure (State.fpDone res len)) := by
      simp only [List.mem_cons, Prod.mk.injEq, List.not_mem_nil, or_false] at hi
      obtain ⟨rfl, rfl, rfl⟩ | ⟨rfl, rfl, rfl⟩ | ⟨rfl, rfl, rfl⟩ := hi
      case inl => exact ⟨rfl, rfl⟩
      case inr.inl => exact ⟨rfl, rfl⟩
      case inr.inr => exact ⟨rfl, congrArg s.attempt (if_pos (h31 rfl))⟩ -- DXR
    obtain ⟨hwf, hexec⟩ := hform
    have hregs : (fmtReg p r1 && fmtReg p r2) = true := hwf ▸ hwell
    exact divFp_result (Bool.and_eq_true_iff.1 hregs).1 (s.readFp_frac_lt p r1) (s.readFp_frac_lt p r2)
      (hexec.trans (attempt_twoRegs hregs))
  case storage =>
    have hform : p ≠ .ext ∧ i.wf = fmtReg p r1 ∧ exec i s = s.attempt (needReg p r1 >>= fun _ =>
        (if p = .short then s.memShort x2 b2 d2 else s.memLong x2 b2 d2) >>= fun y =>
          s.divFp p r1 (s.readFp p r1) y >>= fun res => pure (State.fpDone res 4)) := by
      simp only [List.mem_cons, Prod.mk.injEq, List.not_mem_nil, or_false] at hi
      obtain ⟨rfl, rfl⟩ | ⟨rfl, rfl⟩ := hi
      all_goals exact ⟨Fmt.noConfusion, rfl, rfl⟩
    obtain ⟨hp, hwf, hexec⟩ := hform
    have hreg : fmtReg p r1 = true := hwf ▸ hwell
    obtain ⟨htraps, hresult⟩ := exec_fpOperand _ hp p hexec hreg
    exact ⟨htraps, fun sp ha hs => divFp_result hreg (s.readFp_frac_lt p r1) (s.fpOperand_frac_lt p hp a sp) (hresult sp ha hs)⟩
  case halve =>
    have hform : i.wf = (fmtReg p r1 && fmtReg p r2) ∧ exec i s = s.attempt (needReg p r1 >>= fun _ => needReg p r2 >>= fun _ =>
        pure (State.fpDone (s.halveFp p r1 (s.readFp p r2)) 2)) := by
      simp only [List.mem_cons, Prod.mk.injEq, List.not_mem_nil, or_false] at hi
      obtain ⟨rfl, rfl⟩ | ⟨rfl, rfl⟩ := hi
      all_goals exact ⟨rfl, rfl⟩
    obtain ⟨hwf, hexec⟩ := hform
    have hregs : (fmtReg p r1 && fmtReg p r2) = true := hwf ▸ hwell
    exact ⟨_, hexec.trans (attempt_twoRegs hregs),
      s.halveFp_spec (Bool.and_eq_true_iff.1 hregs).1 (s.readFp_frac_lt p r2) 2⟩

/-! ### Sign control and rounding -/

/-- The code of a number by its sign and mantissa (R504). -/
theorem signFpCc_eq (neg : Bool) (f : Nat) : signFpCc neg (f == 0) = if f = 0 then 0 else if neg = true then 1 else 2 := by
  by_cases h : f = 0 <;> simp [signFpCc, fpCc, h]

/-- A number loaded with another sign, and the code of the result (R504). -/
theorem State.signed_result {s t : State} {p : Fmt} {r : Reg} {x y : Hfp} {b : Bool} (hstored : FpStored s t p r)
    (hread : t.readFp p r = y) (hy : y = { x with neg := b }) :
    let u := (t.codeIf true (signFpCc y.neg (y.frac == 0))).advance 2
    u.readFp p r = { x with neg := b } ∧ u.cc = (if x.frac = 0 then 0 else if b = true then 1 else 2) ∧ u.control = s.control ∧
      FpFrame s u p r 2 := by
  subst hy
  refine ⟨?_, signFpCc_eq b x.frac, ?_, hstored.frame true _ none 2⟩
  · cases p <;> exact hread
  · show t.control = s.control
    rw [hstored.eq]

/-- Settles O58: a sign set in the bits loaded, or a rounded mantissa stored. -/
theorem floatSignAndRound : Obligations.FloatSignAndRound := by
  intro s r1 r2
  refine ⟨fun i p sign hi hwell => ?sign, fun i p q hi hwell => ?round⟩
  case sign =>
    have hshort (i : Instr) (f : Word → Word) (sign : Bool → Bool) (hwell : (isFpr r1 && isFpr r2) = true)
        (h : exec i s = s.attempt (s.loadShort r1 r2 f shortCc))
        (hf : ∀ v, unpackShort (f v) = { unpackShort v with neg := sign (unpackShort v).neg }) :
        let x := s.readFp .short r2
        ∃ t, exec i s = .next t ∧ t.readFp .short r1 = { x with neg := sign x.neg } ∧
          t.cc = (if x.frac = 0 then 0 else if sign x.neg = true then 1 else 2) ∧ t.control = s.control ∧
          FpFrame s t .short r1 2 := by
      obtain ⟨h1, h2⟩ := Bool.and_eq_true_iff.1 hwell
      exact ⟨_, (h.trans (attempt_needFpr h1)).trans (attempt_needFpr h2),
        State.signed_result (s.setFrs_stored r1 _ h1) (congrArg unpackShort (s.getFrs_setFrs r1 _)) (hf _)⟩
    have hlong (i : Instr) (f : Dword → Dword) (sign : Bool → Bool) (hwell : (isFpr r1 && isFpr r2) = true)
        (h : exec i s = s.attempt (s.loadLong r1 r2 f longCc))
        (hf : ∀ v, unpackLong (f v) = { unpackLong v with neg := sign (unpackLong v).neg }) :
        let x := s.readFp .long r2
        ∃ t, exec i s = .next t ∧ t.readFp .long r1 = { x with neg := sign x.neg } ∧
          t.cc = (if x.frac = 0 then 0 else if sign x.neg = true then 1 else 2) ∧ t.control = s.control ∧
          FpFrame s t .long r1 2 := by
      obtain ⟨h1, h2⟩ := Bool.and_eq_true_iff.1 hwell
      exact ⟨_, (h.trans (attempt_needFpr h1)).trans (attempt_needFpr h2),
        State.signed_result (s.setFr_stored r1 _ h1) (congrArg unpackLong (s.getFr_setFr_same r1 _)) (hf _)⟩
    simp only [List.mem_cons, Prod.mk.injEq, List.not_mem_nil, or_false] at hi
    obtain ⟨rfl, rfl, rfl⟩ | ⟨rfl, rfl, rfl⟩ | ⟨rfl, rfl, rfl⟩ | ⟨rfl, rfl, rfl⟩ | ⟨rfl, rfl, rfl⟩ | ⟨rfl, rfl, rfl⟩ |
      ⟨rfl, rfl, rfl⟩ | ⟨rfl, rfl, rfl⟩ := hi
    · exact hshort (.lcer r1 r2) (fun v => withSign v (!v.msb)) (!·) hwell rfl fun v => withSign_short v _
    · exact hlong (.lcdr r1 r2) (fun v => withSign v (!v.msb)) (!·) hwell rfl fun v => withSign_long v _
    · exact hshort (.lner r1 r2) (withSign · true) (fun _ => true) hwell rfl fun v => withSign_short v _
    · exact hlong (.lndr r1 r2) (withSign · true) (fun _ => true) hwell rfl fun v => withSign_long v _
    · exact hshort (.lper r1 r2) (withSign · false) (fun _ => false) hwell rfl fun v => withSign_short v _
    · exact hlong (.lpdr r1 r2) (withSign · false) (fun _ => false) hwell rfl fun v => withSign_long v _
    · exact hshort (.lter r1 r2) id id hwell rfl fun _ => rfl
    · exact hlong (.ltdr r1 r2) id id hwell rfl fun _ => rfl
  case round =>
    intro x unit g c
    have hform : q.digits < p.digits ∧ i.wf = (fmtReg q r1 && fmtReg p r2) ∧
        exec i s = s.attempt (needReg q r1 >>= fun _ => needReg p r2 >>= fun _ =>
          pure (State.fpDone (s.storeRounded q r1 (roundFp p.digits q.digits (s.readFp p r2))) 2)) := by
      simp only [List.mem_cons, Prod.mk.injEq, List.not_mem_nil, or_false] at hi
      obtain ⟨rfl, rfl, rfl⟩ | ⟨rfl, rfl, rfl⟩ := hi
      all_goals exact ⟨by decide, rfl, rfl⟩
    obtain ⟨hdigits, hwf, hexec⟩ := hform
    have hregs : (fmtReg q r1 && fmtReg p r2) = true := hwf ▸ hwell
    obtain ⟨hround, hlt⟩ := roundFp_spec p q x hdigits (s.readFp_frac_lt p r2)
    obtain ⟨hstored, hholds⟩ := s.storeFp_spec q r1 _ (Bool.and_eq_true_iff.1 hregs).1 hlt
    have hchar : (roundFp p.digits q.digits x).char = c := congrArg Hfp.char hround
    rw [congrArg Hfp.neg hround, hchar, congrArg Hfp.frac hround] at hholds
    refine ⟨_, hexec.trans (attempt_twoRegs hregs), hholds.congr (State.fpDone_fr ..), ?code, ?interrupt,
      hstored.frame false 0 _ 2⟩
    case code =>
      refine (State.takeIf_cc ..).trans ?_
      show (s.storeFp q r1 _).cc = s.cc
      rw [hstored.eq]
    case interrupt =>
      show (((s.storeFp q r1 _).advance 2).takeIf (if (roundFp p.digits q.digits x).char > 127 then _ else none)).control = _
      rw [hchar]
      by_cases h : 127 < c
      · rw [if_pos h, if_pos h]
        rfl
      · rw [if_neg h, if_neg h]
        show (s.storeFp q r1 _).control = s.control
        rw [hstored.eq]

end Sys2Proof.Machine
end

section
/-! Editing: ED and EDMK (44_decimal.md R410, R411, R413). -/

namespace Sys2Proof.Machine

/-! ### The two instructions as ends of one loop -/

/-- The end of ED after its loop (R410). -/
def State.edEnd (s : State) (f : EditField) : EditState × Option EditStop → State
  | (e, none) => ({ s with mem := e.mem }.setCc (editCc e)).advance 6
  | (_, some .overlap) => (s.editUnpredictable f).advance 6
  | (e, some (.raise w)) => { s with mem := e.mem }.takeInterrupt w

/-- The end of EDMK after its loop (R411). -/
def State.edmkEnd (s : State) (f : EditField) : EditState × Option EditStop → State
  | (e, none) => (({ s with mem := e.mem }.setMark e.mark).setCc (editCc e)).advance 6
  | (_, some .overlap) => (((s.editUnpredictable f).setGr 1 (s.freeWord (f.len + 1))).draw 1).advance 6
  | (e, some (.raise w)) => ({ s with mem := e.mem }.setMark e.mark).takeInterrupt w

/-- Where editing stands at the start (R413). -/
def State.editStart (s : State) (a2 : Nat) : EditState :=
  { mem := s.mem, sig := false, nz := false, sa := a2, pending := none, mark := none }

section
variable {s : State} {l : Byte} {b1 b2 : Reg} {d1 d2 : Disp}

/-- The editing of an accessible field (R413). -/
theorem State.edit_access {sp1 : Space} (hs : s.Accessible b1 sp1 (s.ea d1 0 b1) (l.toNat + 1) [.read, .write]) :
    let f : EditField := { sp1 := sp1, a1 := s.ea d1 0 b1, len := l.toNat + 1, sp2 := s.space b2 }
    s.edit l b1 d1 b2 d2 = .ok (f, s.editLoop f (s.getByte sp1 f.a1) f.len 0 (s.editStart (s.ea d2 0 b2))) := by
  show (s.reach b1 (s.ea d1 0 b1) (l.toNat + 1) [.read, .write] >>= _) = _
  rw [s.reach_access b1 sp1 _ _ _ hs]
  rfl

/-- A field that is not accessible (R413). -/
theorem State.edit_missing (h : ∀ sp, ¬ s.Accessible b1 sp (s.ea d1 0 b1) (l.toNat + 1) [.read, .write]) :
    s.edit l b1 d1 b2 d2 = .error .addressTranslation := by
  show (s.reach b1 (s.ea d1 0 b1) (l.toNat + 1) [.read, .write] >>= _) = _
  rw [s.reach_missing b1 _ _ _ h]
  rfl

/-- ED and EDMK test their first operand before anything else (R413). -/
theorem edit_traps {al : Nat} : AccessTrap (.ed l b1 d1 b2 d2) s b1 (s.ea d1 0 b1) (l.toNat + 1) al [.read, .write] ∧
    AccessTrap (.edmk l b1 d1 b2 d2) s b1 (s.ea d1 0 b1) (l.toNat + 1) al [.read, .write] := by
  refine ⟨fun _ hmissing => ?_, fun _ hmissing => ?_⟩
  all_goals
    show s.attempt (s.edit l b1 d1 b2 d2 >>= _) = _
    rw [State.edit_missing hmissing]
    rfl

/-- ED and EDMK after the test of their first operand. -/
theorem exec_edit {sp1 : Space} (hs : s.Accessible b1 sp1 (s.ea d1 0 b1) (l.toNat + 1) [.read, .write]) :
    let f : EditField := { sp1 := sp1, a1 := s.ea d1 0 b1, len := l.toNat + 1, sp2 := s.space b2 }
    let r := s.editLoop f (s.getByte sp1 f.a1) f.len 0 (s.editStart (s.ea d2 0 b2))
    exec (.ed l b1 d1 b2 d2) s = .next (s.edEnd f r) ∧ exec (.edmk l b1 d1 b2 d2) s = .next (s.edmkEnd f r) := by
  intro f r
  have hedit : s.edit l b1 d1 b2 d2 = .ok (f, r) := State.edit_access hs
  refine ⟨?_, ?_⟩
  all_goals
    show s.attempt (s.edit l b1 d1 b2 d2 >>= _) = _
    rw [hedit]
    obtain ⟨e, _ | _ | w⟩ := r <;> rfl

end

/-! ### What the loop leaves -/

section
variable {s u : State} {f : EditField} {sp2 : Space} {a2 m i c : Nat} {e : EditState} {x : Edited} {ds : List (BitVec 4 × Bool)}
  {rs : List Reg}

/-- The receive bytes as the manual's table gives them, and no other byte changed (R413). -/
theorem EditRel.field_memory (h : EditRel s f sp2 a2 m i c e x ds) (ha : u.amode = s.amode) (hmem : u.mem = e.mem) :
    u.getBytes f.sp1 f.a1 i = x.field ∧ SameMemoryBut s u f.sp1 f.a1 i := by
  refine ⟨List.ext_getElem (by simp [h.length]) fun j hj hj' => ?_, fun k hk => hmem ▸ h.other k hk⟩
  have hkey : u.key f.sp1 (f.a1 + j) = s.key f.sp1 (f.a1 + j) := by
    unfold State.key State.trunc
    rw [ha]
  rw [State.getBytes_getElem]
  show Memory.read u.mem (u.key f.sp1 (f.a1 + j)) = _
  rw [hkey, hmem]
  exact h.done j hj'

/-- An edit that ended (R413). -/
theorem EditRel.done_result (h : EditRel s f sp2 a2 m i c e x ds) (hframe : Frame s u rs [] []) (hmem : u.mem = e.mem)
    (hia : u.ia = s.ia) (hcontrol : u.control = s.control) :
    let t := (u.setCc (editCc e)).advance 6
    t.getBytes f.sp1 f.a1 i = x.field ∧ t.cc = (if x.nz = false then 0 else if x.sig = true then 1 else 2) ∧
      EndedStoring s t 6 rs [] [] f.sp1 f.a1 i := by
  intro t
  obtain ⟨hfield, hmemory⟩ := h.field_memory hframe.2.1.2.1 hmem
  obtain ⟨hnext, hframe⟩ := hframe.code_advance hia (editCc e) 6
  refine ⟨hfield, ?_, hnext, hcontrol, hframe, hmemory⟩
  show editCc e = _
  rw [editCc, ← h.nz, ← h.sig]
  cases x.nz <;> rfl

/-- An edit that was interrupted (R413). -/
theorem EditRel.stopped_result (h : EditRel s f sp2 a2 m i c e x ds) (hframe : Frame s u rs [] []) (hmem : u.mem = e.mem)
    (hia : u.ia = s.ia) (hcc : u.cc = s.cc) (w : Interrupt) :
    let t := u.takeInterrupt w
    t.getBytes f.sp1 f.a1 x.field.length = x.field ∧ t.cc = s.cc ∧ t.ia = s.ia ∧ t.control = .interrupt w ∧
      Frame s t rs [] [] ∧ SameMemoryBut s t f.sp1 f.a1 x.field.length := by
  obtain ⟨hfield, hmemory⟩ := h.field_memory hframe.2.1.2.1 hmem
  rw [h.length]
  exact ⟨hfield, hcc, hia, rfl, hframe, hmemory⟩

end

/-- An edit of overlapping operands (D20). -/
theorem State.editUnpredictable_frame (s : State) (f : EditField) (hn : f.len ≤ 2 ^ 24) :
    let t := (s.editUnpredictable f).advance 6
    t.ia.toNat = s.continuation 6 ∧ t.control = s.control ∧ SameRegistersBut s t [] [] [] ∧ SameModes s t ∧ SameSystem s t ∧
      SameMemoryBut s t f.sp1 f.a1 f.len ∧ t.tod = s.tod := by
  have hlength : (s.freeBytes 0 f.len).length = f.len := by simp [State.freeBytes]
  obtain ⟨-, -, hia, hcontrol, ⟨hregisters, hmodes, hsystem, -⟩, hmemory⟩ := s.store_advance_ended f.sp1 f.a1 hlength hn 6
  exact ⟨hia, hcontrol, hregisters, hmodes, hsystem, hmemory, rfl⟩

/-- The same for EDMK, which leaves any value in general-purpose register 1 too (D20). -/
theorem State.editUnpredictable_mark_frame (s : State) (f : EditField) (hn : f.len ≤ 2 ^ 24) (v : Word) :
    let t := (((s.editUnpredictable f).setGr 1 v).draw 1).advance 6
    t.ia.toNat = s.continuation 6 ∧ t.control = s.control ∧ SameRegistersBut s t [1] [] [] ∧ SameModes s t ∧ SameSystem s t ∧
      SameMemoryBut s t f.sp1 f.a1 f.len ∧ t.tod = s.tod := by
  obtain ⟨hia, hcontrol, ⟨-, har, hfr⟩, hrest⟩ := s.editUnpredictable_frame f hn
  refine ⟨hia, hcontrol, ⟨fun q hq => ?_, har, hfr⟩, hrest⟩
  exact (State.getGr_setGr (s.editUnpredictable f) 1 q v).trans (if_neg (by simpa using hq))

/-- Settles O52: the loop gives what the manual's table gives, and where the source digits are used up the next source byte
decides. -/
theorem edit : Obligations.Edit := by
  intro s l b1 d1 b2 d2 a1 a2 n
  refine ⟨edit_traps.1, edit_traps.2, fun sp1 sp2 m hs hspace hbytes hdisjoint => ?_⟩
  intro mask digits e marked done stopped stops unpredictable overlap
  let f : EditField := { sp1 := sp1, a1 := a1, len := n, sp2 := s.space b2 }
  obtain ⟨hed, hedmk⟩ := exec_edit (b2 := b2) (d2 := d2) hs
  have hn : f.len ≤ 2 ^ 24 := Nat.succ_le_of_lt (l.isLt.trans (by decide))
  have hstart : EditRel s f sp2 a2 m 0 0 (s.editStart a2) { field := [], sig := false, nz := false, mark := none } digits :=
    { length := rfl, done := fun _ h => absurd h (Nat.not_lt_zero _), other := fun _ _ => rfl, sig := rfl, nz := rfl, mark := rfl,
      le := Nat.zero_le m, sa := (s.trunc_trunc _).symm, digits := rfl }
  have hsource : ∀ k < m, (f.sp2 = .ok sp2 ∧ s.allocated sp2 (s.trunc (a2 + k)) .read = true) ∧
      hiNib (s.getByte sp2 (a2 + k)) ≤ 9 := hbytes
  obtain ⟨henough, hshort⟩ := s.editLoop_spec f (s.getByte sp1 a1) sp2 a2 m hn hsource hdisjoint n 0 0 _ _ digits (Nat.zero_add n)
    hstart
  have hmark {e' : EditState} {i c : Nat} {ds : List (BitVec 4 × Bool)} (h : EditRel s f sp2 a2 m i c e' e ds) :
      let u := { s with mem := e'.mem }.setMark e'.mark
      Frame s u [1] [] [] ∧ marked u := by
    intro u
    refine ⟨State.setMark_frame s _ _ (s.withMem_frame e'.mem), ?_⟩
    have hregister := s.setMark_gr { s with mem := e'.mem } a1 e.mark rfl rfl
    rw [← show e'.mark = e.mark.map fun j => s.trunc (a1 + j) from h.mark] at hregister
    exact hregister
  have hends {r : EditState × Option EditStop} (h : s.editLoop f (s.getByte sp1 a1) n 0 (s.editStart a2) = r) :
      exec (.ed l b1 d1 b2 d2) s = .next (s.edEnd f r) ∧ exec (.edmk l b1 d1 b2 d2) s = .next (s.edmkEnd f r) :=
    h ▸ ⟨hed, hedmk⟩
  refine ⟨fun hle => ?enough, fun hlt => ?short⟩
  case enough =>
    obtain ⟨e', c', ds', hloop, hrel⟩ := henough hle
    obtain ⟨hed, hedmk⟩ := hends hloop
    obtain ⟨hframe, hmarked⟩ := hmark hrel
    exact ⟨⟨_, hed, hrel.done_result (s.withMem_frame _) rfl rfl rfl⟩, _, hedmk,
      hrel.done_result hframe (State.setMark_mem ..) (State.setMark_ia ..) (State.setMark_control ..), hmarked⟩
  case short =>
    obtain ⟨e', c', i', hi', hrel, hstop⟩ := hshort hlt
    obtain ⟨hoverlap, hrefused, hdata⟩ := hrel.missing hi'.le
    have hstops (w : Interrupt) (h : s.editDigit f e' = .error (.raise w)) : stops w := by
      obtain ⟨hed, hedmk⟩ := hends (hstop _ h)
      obtain ⟨hframe, hmarked⟩ := hmark hrel
      exact ⟨⟨_, hed, hrel.stopped_result (s.withMem_frame _) rfl rfl rfl w⟩, _, hedmk,
        hrel.stopped_result hframe (State.setMark_mem ..) (State.setMark_ia ..) (State.setMark_cc ..) w, hmarked⟩
    refine ⟨fun hapart hno => hstops _ (hrefused hspace (s.space_error b2) hapart hno),
      fun hapart hyes hbad => hstops _ (hdata hapart hyes hbad), fun hshared => ?_⟩
    obtain ⟨hed, hedmk⟩ := hends (hstop _ (hoverlap hshared))
    exact ⟨⟨_, hed, s.editUnpredictable_frame f hn⟩, _, hedmk, s.editUnpredictable_mark_frame f hn _⟩

end Sys2Proof.Machine
end
